-- ==== Sys2Proof/Word.lean ====
section
/-! DEFINITION. The words, bytes and bit strings the model is written in (00_scope.md R9 to R11). -/

namespace Sys2Proof

/-- A byte: a symbol (R14) or the content of one memory cell (R60). -/
abbrev Byte := BitVec 8

/-- A 32-bit value: a stored count (R7 FREQ_W), a checksum (R240) or MAGIC (R7). -/
abbrev Word32 := BitVec 32

/-- A 64-bit value: a host-visible register (R23) or a command word (R90). -/
abbrev Word64 := BitVec 64

/-- A bit string (R11), first bit first; `false` is the bit 0. -/
abbrev Bits := List Bool

/-- The two operand forms of `pk_write_bits` (43_bit_packer.md R203): an integer with its bit
count, or a code string. -/
inductive BitsOperand where
  | value (value bitCount : Nat)
  | code (c : Bits)
  deriving DecidableEq, Repr

end Sys2Proof
end

