-- ==== Sys2Proof/Config.lean ====
section
/-! DEFINITION. The parameters of 00_scope.md R7, fixed and open, and the free values of the model. -/

namespace Sys2Proof

/-- One interval `[base, base + size)` of byte addresses that the platform backs with plain memory
(20_memory.md R67). -/
structure Region where
  base : Nat
  size : Nat
  deriving DecidableEq, Repr

/-- The OPEN parameters of R7, which are arguments of the model. They ride in `State` as constant
plain data, so that a statement over every state is a statement over every parameter. `backed` is
`bus_ok`: the address space is finite, so any predicate on its addresses is a list of intervals.
`topBit` is the number of the top address bit, so ADDR_W is 1 to 64 as R7 has it. `regBase` is any
natural number: R7 and R24 do not say that REG_BASE is aligned (DESIGN CHOICE, log entry 1). -/
structure Params where
  magic : Word32
  topBit : Fin 64
  regBase : Nat
  backed : List Region
  deriving DecidableEq, Repr

/-- ADDR_W (R7): 1 to 64 bits. -/
def Params.addrW (p : Params) : Nat := p.topBit.val + 1

namespace Config

/-- MAX_SYMBOLS (R7 ALPHABET). -/
abbrev alphabet : Nat := 256

/-- PQ_CAP (R7): "capacity must accommodate up to 256 live entries". -/
abbrev pqCap : Nat := 256

/-- NODE_CAP (R7): 256 leaves and 255 internal nodes. -/
abbrev nodeCap : Nat := 511

/-- MAX_CODE_LEN (R7, R184). -/
abbrev maxCodeLen : Nat := 255

/-- HDR_SIZE (R7, R96). -/
abbrev hdrSize : Nat := 30

/-- ENTRY_SIZE (R7, R106). -/
abbrev entrySize : Nat := 5

/-- FORMAT_VERSION (R7, R99). -/
abbrev formatVersion : BitVec 16 := 1

/-- CRC_POLY (R7, R240), reflected. -/
abbrev crcPoly : Word32 := 0xEDB88320

/-- MAGIC of the instance that `State.reset` describes: OPEN (R7, D41), no value given. -/
opaque magic : Word32

/-- REG_BASE of the instance that `State.reset` describes: OPEN (R7, D8). -/
opaque regBase : Nat

/-- `bus_ok` of the instance that `State.reset` describes: OPEN (R7, R67). -/
opaque backed : List Region

/-- ADDR_W of the instance that `State.reset` describes, less one: the default that R7 gives is 64. -/
def topBit : Fin 64 := 63

/-- A free byte for each draw: a DST byte after CORRUPT_STREAM or CHECKSUM_MISMATCH (R313) and
after a reset during a command (R451), and a byte without `bus_ok` that the host reads (R416). -/
opaque freeByte : Nat → Byte

/-- A free word for each draw: a result register read while BUSY (R32 to R37). -/
opaque freeWord : Nat → Word64

/-- How many host moves a command lasts, for each draw (R462, R463): finite, unbounded. -/
opaque latency : Nat → Nat

/-- Whether a DECODE that a reset abandons had read its header, for each draw (R451). -/
opaque headerWasRead : Nat → Bool

end Config
end Sys2Proof
end

