-- ==== Sys2Proof/Syntax.lean ====
section
/-! DEFINITION. The instructions: one constructor per row of spec/opcode_table.json. -/

namespace Sys2Proof

/-- The commands of 30_encoding.md R91 and the internal operations of R94, with the operands their
rules give them. Operands that a rule reads from the latch (48_control.md R352) are not repeated. -/
inductive Instr where
  /-- R356 -/
  | nop
  /-- R260 -/
  | encode
  /-- R300; `skipVerify` is bit 8 of the command word -/
  | decode (skipVerify : Bool)
  /-- R141 -/
  | pqClear
  /-- R142; `i` is a node index -/
  | pqInsert (i : Nat)
  /-- R143 -/
  | pqExtractMin
  /-- R144 -/
  | pqIsEmpty
  /-- R145 -/
  | pqSize
  /-- R162 -/
  | buildTreeLeaves
  /-- R163 -/
  | buildTreeMerges
  /-- R166 -/
  | treeRebuild
  /-- R180 -/
  | generateCodes
  /-- R181; `sym` is a symbol -/
  | codeLookup (sym : Byte)
  /-- R200; `base` is the address of payload byte 0 -/
  | pkInit (base : Nat)
  /-- R201 -/
  | pkEmit (v : Byte)
  /-- R202 -/
  | pkWriteBit (b : Bool)
  /-- R203 -/
  | pkWriteBits (bits : BitsOperand)
  /-- R204 -/
  | pkFlush
  /-- R220; `base` is the address of payload byte 0, `len` the valid bit count L -/
  | upInit (base len : Nat)
  /-- R221 -/
  | upReadBit
  /-- R223 -/
  | upConsumed
  /-- R241 -/
  | crcInit
  /-- R243 -/
  | crcUpdate (b : Byte)
  /-- R244 -/
  | crcFinal
  /-- R261 -/
  | freqCount (src srclen : Word64)
  /-- R270; the values ENCODE has computed: compressed_size, checksum, table_entry_count, padding -/
  | writeContainer (cs : Word64) (crc : Word32) (k : BitVec 16) (pad : Byte)
  /-- R302 -/
  | readHeader
  /-- R306; `k` is table_entry_count -/
  | parseTable (k : BitVec 16)
  /-- R307 -/
  | checkPayloadExtent (k : BitVec 16) (cs : Word64) (pad : Byte)
  /-- R311; `base` is the address of payload byte 0, `len` is L, `orig` is original_size -/
  | walk (base len : Nat) (orig : Word64)
  /-- R357; any command word that R93 makes illegal -/
  | illegalCommand (w : Word64)
  deriving DecidableEq, Repr

end Sys2Proof
end

