-- ==== Sys2Proof/WellFormed.lean ====
section
/-! DEFINITION. When an instruction's operands are ones its rule admits. -/

namespace Sys2Proof

/-- R203: `value < 2^bitCount` with `bitCount` in 1..255, or a code of length 1..255 (R184). -/
def BitsOperand.wf : BitsOperand → Bool
  | .value v n => decide (1 ≤ n ∧ n ≤ Config.maxCodeLen ∧ v < 2 ^ n)
  | .code c => decide (1 ≤ c.length ∧ c.length ≤ Config.maxCodeLen)

/-- The operand ranges of each rule. An internal operation without a check here takes every value of
its operand's type. -/
def Instr.wf : Instr → Bool
  | .nop => true
  | .encode => true
  | .decode _ => true
  | .pqClear => true
  -- R41: an arena index
  | .pqInsert i => decide (i < Config.nodeCap)
  | .pqExtractMin => true
  | .pqIsEmpty => true
  | .pqSize => true
  | .buildTreeLeaves => true
  | .buildTreeMerges => true
  | .treeRebuild => true
  | .generateCodes => true
  | .codeLookup _ => true
  | .pkInit _ => true
  | .pkEmit _ => true
  | .pkWriteBit _ => true
  | .pkWriteBits bits => bits.wf
  | .pkFlush => true
  | .upInit _ _ => true
  | .upReadBit => true
  | .upConsumed => true
  | .crcInit => true
  | .crcUpdate _ => true
  | .crcFinal => true
  -- R65: the range passed the check, and ADDR_W is at most 64
  | .freqCount src srclen => decide (src.toNat + srclen.toNat ≤ 2 ^ 64)
  -- R103, R104, R268: k is at most 256, padding at most 7, and the size fits DST_CAP's 64 bits
  | .writeContainer cs _ k pad =>
      decide (k.toNat ≤ Config.alphabet ∧ pad.toNat ≤ 7 ∧
        Config.hdrSize + Config.entrySize * k.toNat + cs.toNat < 2 ^ 64)
  | .readHeader => true
  | .parseTable _ => true
  -- R305, R306: DECODE checks both before it calls the operation
  | .checkPayloadExtent k _ pad => decide (k.toNat ≤ Config.alphabet ∧ pad.toNat ≤ 7)
  | .walk _ _ _ => true
  -- the words that match no CMDW row of the opcode table
  | .illegalCommand w => decide (w ≠ 0x0 ∧ w ≠ 0x1 ∧ w ≠ 0x2 ∧ w ≠ 0x102)

end Sys2Proof
end

