-- ==== Sys2Proof/Decode.lean ====
section
/-! DEFINITION. Little-endian byte order (20_memory.md R63, R64), the command word's decoder and its
encoder (30_encoding.md R90 to R94). -/

namespace Sys2Proof

/-- R63: the value of a little-endian byte sequence. -/
def leValue : List Byte → Nat
  | [] => 0
  | b :: bs => b.toNat + 256 * leValue bs

/-- LE(v, n) of R12: the n little-endian bytes of v. -/
def leBytes : Nat → Nat → List Byte
  | 0, _ => []
  | n + 1, v => BitVec.ofNat 8 v :: leBytes n (v / 256)

/-- R92: `OPCODE = w[7:0]`. -/
def cmdOpcode (w : Word64) : Byte := w.extractLsb' 0 8

/-- R92: `SKIP_VERIFY = w[8]`. -/
def cmdSkipVerify (w : Word64) : Bool := w.getLsbD 8

/-- R92: `RSV = w[63:9]`. -/
def cmdReserved (w : Word64) : BitVec 55 := w.extractLsb' 9 55

/-- R93, detail 1: the opcode is reserved. -/
def cmdBadOpcode (w : Word64) : Bool :=
  cmdOpcode w != 0x00 && cmdOpcode w != 0x01 && cmdOpcode w != 0x02

/-- R93, detail 2: a reserved bit is set, or SKIP_VERIFY on a command other than DECODE. -/
def cmdBadReserved (w : Word64) : Bool :=
  cmdReserved w != 0 || (cmdSkipVerify w && cmdOpcode w != 0x02)

/-- R353: the dispatch of a command word. Every 64-bit word has exactly one instruction. -/
def decodeWord (w : Word64) : Instr :=
  if cmdBadOpcode w || cmdBadReserved w then .illegalCommand w
  else if cmdOpcode w = 0x00 then .nop
  else if cmdOpcode w = 0x01 then .encode
  else .decode (cmdSkipVerify w)

/-- Why bytes are no command word. -/
inductive DecodeError where
  /-- fewer than the 8 bytes of the one command length (R90) -/
  | truncated
  deriving DecidableEq, Repr

/-- The decoder over bytes: a command word is 8 bytes, little-endian (R24, R64, R90); the bytes after
it are returned. -/
def decode : List Byte → Except DecodeError (Instr × List Byte)
  | b0 :: b1 :: b2 :: b3 :: b4 :: b5 :: b6 :: b7 :: rest =>
      .ok (decodeWord (BitVec.ofNat 64 (leValue [b0, b1, b2, b3, b4, b5, b6, b7])), rest)
  | _ => .error .truncated

/-- The command word of an instruction (R91, R113); an internal operation has none (R94). -/
def encodeWord : Instr → Option Word64
  | .nop => some 0x0
  | .encode => some 0x1
  | .decode skip => some (if skip then 0x102 else 0x2)
  | .illegalCommand w => some w
  | .pqClear => none
  | .pqInsert _ => none
  | .pqExtractMin => none
  | .pqIsEmpty => none
  | .pqSize => none
  | .buildTreeLeaves => none
  | .buildTreeMerges => none
  | .treeRebuild => none
  | .generateCodes => none
  | .codeLookup _ => none
  | .pkInit _ => none
  | .pkEmit _ => none
  | .pkWriteBit _ => none
  | .pkWriteBits _ => none
  | .pkFlush => none
  | .upInit _ _ => none
  | .upReadBit => none
  | .upConsumed => none
  | .crcInit => none
  | .crcUpdate _ => none
  | .crcFinal => none
  | .freqCount _ _ => none
  | .writeContainer _ _ _ _ => none
  | .readHeader => none
  | .parseTable _ => none
  | .checkPayloadExtent _ _ _ => none
  | .walk _ _ _ => none

/-- The bytes of an instruction's command word, lowest address first. -/
def encode (i : Instr) : Option (List Byte) := (encodeWord i).map fun w => leBytes 8 w.toNat

/-- The instruction the decoder reads from the bits `w`, numbered as the opcode table numbers them.
A row of no bits is an internal operation, which has no encoding (R94). -/
def decodeTableWord (nbits w : Nat) : Option Instr :=
  if nbits = 0 ∨ 64 < nbits ∨ 2 ^ nbits ≤ w then none
  else
    match decode (leBytes 8 w) with
    | .ok (i, _) => some i
    | .error _ => none

end Sys2Proof
end

