-- ==== Sys2Proof/Machine/State.lean ====
section
/-! DEFINITION. The machine's state, as plain data (10_state.md), its reset value, and the reasons a
step can stop. -/

namespace Sys2Proof.Machine

/-- System memory (20_memory.md R60): `Host.Cell`s in the canonical form of `Memory.wf`. -/
abbrev Memory := List Host.Cell

/-- PHASE (R22). -/
inductive Phase where
  | idle
  | busy
  deriving DecidableEq, Repr

/-- The host-visible registers that hold state (R23). ID and CMD hold none (R26, R27). -/
structure Regs where
  status : Word64
  srcAddr : Word64
  srcLen : Word64
  dstAddr : Word64
  dstCap : Word64
  resultLen : Word64
  hdrOrig : Word64
  hdrComp : Word64
  hdrMisc : Word64
  crcCalc : Word64
  deriving DecidableEq, Repr

/-- R49: every register is 0 after reset. -/
def Regs.reset : Regs := ⟨0, 0, 0, 0, 0, 0, 0, 0, 0, 0⟩

/-- The command word and the operands latched at issue (48_control.md R352). -/
structure Latch where
  cmd : Word64
  src : Word64
  srclen : Word64
  dst : Word64
  cap : Word64
  verify : Bool
  deriving DecidableEq, Repr

/-- DESIGN CHOICE (log entry 4): R49 gives the latch no reset value, and nothing reads it while IDLE. -/
def Latch.reset : Latch := ⟨0, 0, 0, 0, 0, true⟩

/-- A tree node (R41). `freq` is exact: it never wraps (D14). -/
inductive Node where
  | leaf (sym : Byte) (freq : Nat)
  | internal (freq left right : Nat)
  deriving DecidableEq, Repr

/-- One entry for each symbol. -/
abbrev Table (α : Type) := Vector α 256

/-- The bit packer's state (R44): the address of payload byte 0, the in-progress byte, the bits it
holds, the payload bytes emitted, the padding that flush recorded. -/
structure Packer where
  base : Nat
  acc : Byte
  cnt : Nat
  out : Nat
  pad : Nat
  deriving DecidableEq, Repr

/-- The bit unpacker's state (R45): the address of payload byte 0, the next bit to read, L. -/
structure Unpacker where
  base : Nat
  pos : Nat
  len : Nat
  deriving DecidableEq, Repr

/-- The tree walker's state (R45): the current node and the symbols emitted. -/
structure Walker where
  node : Nat
  emit : Nat
  deriving DecidableEq, Repr

/-- The internal working state (R40 to R45, and R306's SEEN). `nodes` is the allocated part of the
arena in index order, so NCOUNT is its length. `root = none` is EMPTY. `pq` is in ascending order. -/
structure Work where
  freq : Table Word32
  seen : Table Bool
  nodes : List Node
  root : Option Nat
  pq : List Nat
  code : Table (Option Bits)
  pk : Packer
  up : Unpacker
  wk : Walker
  crcReg : Word32
  deriving DecidableEq, Repr

/-- DESIGN CHOICE (log entry 4): R40 to R46 leave it unspecified and never observable. -/
def Work.reset : Work where
  freq := Vector.replicate 256 0
  seen := Vector.replicate 256 false
  nodes := []
  root := none
  pq := []
  code := Vector.replicate 256 none
  pk := ⟨0, 0, 0, 0, 0⟩
  up := ⟨0, 0, 0⟩
  wk := ⟨0, 0⟩
  crcReg := 0

/-- The header fields of a container (30_encoding.md R96). -/
structure Header where
  magic : Word32
  version : BitVec 16
  originalSize : Word64
  compressedSize : Word64
  checksum : Word32
  entryCount : BitVec 16
  paddingBits : Byte
  reserved : Byte
  deriving DecidableEq, Repr

/-- What the last internal operation with a result returned: a field of the model's own (log entry 5). -/
inductive OpRet where
  | none
  /-- pq_extract_min (R143): a node index -/
  | node (i : Nat)
  /-- pq_is_empty (R144) -/
  | flag (b : Bool)
  /-- pq_size (R145), up_consumed (R223), and L of check_payload_extent (R307) -/
  | count (n : Nat)
  /-- code_lookup (R181) -/
  | code (c : Bits)
  /-- up_read_bit (R221) -/
  | bit (b : Bool)
  /-- up_read_bit at END (R222) -/
  | endOfData
  /-- crc_final (R244) -/
  | crc (c : Word32)
  /-- read_header (R302) -/
  | header (h : Header)
  deriving DecidableEq, Repr

/-- A register of the window (R23); `reserved i` is offset 0x60 + 8i (R38). -/
inductive Reg where
  | id
  | cmd
  | status
  | srcAddr
  | srcLen
  | dstAddr
  | dstCap
  | resultLen
  | hdrOrig
  | hdrComp
  | hdrMisc
  | crcCalc
  | reserved (i : Fin 20)
  deriving DecidableEq, Repr

/-- A host move (30_encoding.md R112, 60_exceptions.md R416); `var` is the host's variable. -/
inductive HostOp where
  /-- WR: a 64-bit write of a register -/
  | wr (r : Reg) (v : Word64)
  /-- RD: a 64-bit read of a register -/
  | rd (r : Reg) (var : String)
  /-- a write of `width` bytes at a platform address (R24, R64) -/
  | busWrite (addr width : Nat) (v : Word64)
  /-- a read of `width` bytes at a platform address (R24, R64) -/
  | busRead (addr width : Nat) (var : String)
  /-- POLL: read STATUS until bit 0 reads 0 -/
  | poll (var : String)
  /-- MEMW -/
  | memw (addr : Nat) (bytes : List Byte)
  /-- MEMR -/
  | memr (addr n : Nat) (var : String)
  /-- the reset input (R450) -/
  | reset
  deriving DecidableEq, Repr

/-- What the host has read into a variable. -/
inductive Observation where
  | reg (var : String) (v : Word64)
  | mem (var : String) (bytes : List Byte)
  deriving DecidableEq, Repr

/-- The state of the machine: the block, the memory it reaches, the host's moves to come and the
model's own counters (log entries 2, 5, 6, 7). `stuck` is the byte without `bus_ok` at which the running
command stands still (R67; log entry 9): the core then makes no step until a reset. -/
structure State where
  par : Params
  phase : Phase
  stuck : Option Nat
  regs : Regs
  latch : Latch
  work : Work
  mem : Memory
  ret : OpRet
  inbox : List HostOp
  observed : List Observation
  busyLeft : Nat
  draws : Nat
  deriving DecidableEq, Repr

/-- The instance that `State.reset` describes (log entry 1). -/
def paramsReset : Params := ⟨Config.magic, Config.topBit, Config.regBase, Config.backed⟩

/-- The machine right after reset (R49, 70_reset_and_hazards.md R450), with nothing in memory and no
host move waiting. -/
def State.reset : State where
  par := paramsReset
  phase := .idle
  stuck := none
  regs := Regs.reset
  latch := Latch.reset
  work := Work.reset
  mem := []
  ret := .none
  inbox := []
  observed := []
  busyLeft := 0
  draws := 0

/-- Why the core has no step. -/
inductive Fault where
  /-- Raised by a core access at or above 2^ADDR_W, which does not exist (R60). ENCODE and DECODE never
  reach it, by R65; an internal operation with a free address can. Safe. -/
  | noSuchAddress (addr : Nat)
  /-- Raised by pq_insert on a full queue: UNREACHABLE(PQ_OVERFLOW) (R142, R146; 93 item 2). Safe. -/
  | pqOverflow
  /-- Raised by pq_extract_min on an empty queue: UNREACHABLE(PQ_EMPTY) (R143, R146). Safe. -/
  | pqEmpty
  /-- Raised by pq_insert of an index that is not allocated or is queued already, which R142 does not
  admit as an operand. Safe. -/
  | pqOperand (i : Nat)
  /-- Raised by the tree build when the arena of 511 nodes is full (R41); no build reaches it. Safe. -/
  | arenaFull
  /-- Raised by an operation that meets an index with no node allocated (R41); no build leaves one. Safe. -/
  | noSuchNode (i : Nat)
  /-- Raised by generate_codes when a path is longer than 255 edges, so the arena is no tree (R160, R184;
  no build leaves one). Safe. -/
  | notATree
  /-- Raised by code_lookup of a symbol with no code: UNREACHABLE(ABSENT_SYMBOL) (R181; 93 item 3). Safe. -/
  | absentSymbol (sym : Byte)
  /-- Raised by walk when ROOT is EMPTY, where R311 does not apply; DECODE never calls it so. Safe. -/
  | noRoot
  /-- Raised by walk when it stands at a node without children: UNREACHABLE (R311, R405; 93 item 4). Safe. -/
  | missingChild (i : Nat)
  deriving DecidableEq, Repr

/-- Why the model has no step for a move. -/
inductive Refusal where
  /-- An instruction that has no meaning yet: no arm of `exec` is left so. Safe. -/
  | notModelled (mnemonic : String)
  /-- Raised by a host access to the register window that is not an aligned 64-bit word inside it
  (R24; 93 item 19). Safe. -/
  | registerAccess (addr width : Nat)
  /-- Raised by a host access to SRC or DST bytes that R72 forbids while BUSY (93 item 24). Safe as a stop;
  that hosts obey is an assumption of the spec (93 section 5). -/
  | hostRace (addr n : Nat)
  /-- Raised by a host access to memory that does not exist (R60). Safe. -/
  | hostMemory (addr n : Nat)
  deriving DecidableEq, Repr

/-- An error kind (60_exceptions.md R401). -/
inductive ErrKind where
  | format
  | corruptStream
  | checksumMismatch
  | resource
  | countOverflow
  | param
  | illegalCmd
  deriving DecidableEq, Repr

/-- An error: its kind and its detail code (R401, R402). -/
structure Err where
  kind : ErrKind
  detail : Byte
  deriving DecidableEq, Repr

/-- Why an operation of a command does not go on: it raised an error, with the state at the raise
(48_control.md R355); the core is stuck at a byte without `bus_ok`, with the state there (R67); or it has
no step. -/
inductive Halt where
  | raised (e : Err) (s : State)
  | stuck (a : Nat) (s : State)
  | fault (f : Fault)
  deriving DecidableEq, Repr

/-! Named updates of the working state and of the state, whose lemmas are in Laws/State.lean. -/

def Work.setFreq (w : Work) (x : Table Word32) : Work := { w with freq := x }
def Work.setSeen (w : Work) (x : Table Bool) : Work := { w with seen := x }
def Work.setNodes (w : Work) (x : List Node) : Work := { w with nodes := x }
def Work.setRoot (w : Work) (x : Option Nat) : Work := { w with root := x }
def Work.setPq (w : Work) (x : List Nat) : Work := { w with pq := x }
def Work.setCode (w : Work) (x : Table (Option Bits)) : Work := { w with code := x }
def Work.setPk (w : Work) (x : Packer) : Work := { w with pk := x }
def Work.setUp (w : Work) (x : Unpacker) : Work := { w with up := x }
def Work.setWk (w : Work) (x : Walker) : Work := { w with wk := x }
def Work.setCrcReg (w : Work) (x : Word32) : Work := { w with crcReg := x }

def State.setPhase (s : State) (p : Phase) : State := { s with phase := p }
def State.setStuck (s : State) (x : Option Nat) : State := { s with stuck := x }
def State.setRegs (s : State) (r : Regs) : State := { s with regs := r }
def State.setLatch (s : State) (l : Latch) : State := { s with latch := l }
def State.setWork (s : State) (w : Work) : State := { s with work := w }
def State.setMem (s : State) (m : Memory) : State := { s with mem := m }
def State.setRet (s : State) (r : OpRet) : State := { s with ret := r }
def State.setInbox (s : State) (q : List HostOp) : State := { s with inbox := q }
def State.observe (s : State) (o : Observation) : State := { s with observed := o :: s.observed }
def State.setBusyLeft (s : State) (n : Nat) : State := { s with busyLeft := n }
def State.addDraws (s : State) (n : Nat) : State := { s with draws := s.draws + n }

end Sys2Proof.Machine
end

