-- ==== Sys2Proof/Machine/Flags.lean ====
section
/-! DEFINITION. STATUS and its fields (10_state.md R25, R47), and the error codes written to it
(60_exceptions.md R401, R402). -/

namespace Sys2Proof.Machine

/-- STATUS[0]. -/
def statusBusy (w : Word64) : Bool := w.getLsbD 0

/-- STATUS[1]. -/
def statusDone (w : Word64) : Bool := w.getLsbD 1

/-- STATUS[2]. -/
def statusErr (w : Word64) : Bool := w.getLsbD 2

/-- STATUS[7:4]. -/
def statusErrCode (w : Word64) : BitVec 4 := w.extractLsb' 4 4

/-- STATUS[15:8]. -/
def statusDetail (w : Word64) : Byte := w.extractLsb' 8 8

/-- The ERRCODE of a kind (R401). -/
def ErrKind.code : ErrKind → BitVec 4
  | .format => 1
  | .corruptStream => 2
  | .checksumMismatch => 3
  | .resource => 4
  | .countOverflow => 5
  | .param => 6
  | .illegalCmd => 7

/-- STATUS at issue (48_control.md R352): BUSY = 1 and nothing else. -/
def statusIssued : Word64 := 0b001

/-- STATUS at a successful end (R354): DONE = 1 and nothing else. -/
def statusComplete : Word64 := 0b010

/-- STATUS at an error end (R355): `0b110 | (code(Kind) << 4) | (detail << 8)`. -/
def statusError (e : Err) : Word64 :=
  0b110 ||| ((e.kind.code.zeroExtend 64) <<< 4) ||| ((e.detail.zeroExtend 64) <<< 8)

end Sys2Proof.Machine
end

