-- ==== Sys2Proof/Machine/Operands.lean ====
section
/-! DEFINITION. Operands: the latched ones as exact numbers (30_encoding.md R92), the bits of
pk_write_bits (43_bit_packer.md R203), and the container's header (30_encoding.md R96, R97). -/

namespace Sys2Proof.Machine

/-- The latched `src` (R352), as the exact number that R9 computes with. -/
def State.src (s : State) : Nat := s.latch.src.toNat

/-- The latched `srclen` (R352). -/
def State.srclen (s : State) : Nat := s.latch.srclen.toNat

/-- The latched `dst` (R352). -/
def State.dst (s : State) : Nat := s.latch.dst.toNat

/-- The latched `cap` (R352). -/
def State.cap (s : State) : Nat := s.latch.cap.toNat

/-- The low `n` bits of `v`, most significant first. -/
def msbFirst (v : Nat) : Nat → Bits
  | 0 => []
  | n + 1 => v.testBit n :: msbFirst v n

/-- The bits that pk_write_bits writes, in the order it writes them (R203). -/
def bitsOf : BitsOperand → Bits
  | .value v n => msbFirst v n
  | .code c => c

/-- The n bytes of `bs` from offset `o` on, as the little-endian field R97 assembles. -/
def field (bs : List Byte) (o n : Nat) : Nat := leValue ((bs.drop o).take n)

/-- R97: the fields of the 30 header bytes. -/
def Header.ofBytes (h : List Byte) : Header where
  magic := BitVec.ofNat 32 (field h 0 4)
  version := BitVec.ofNat 16 (field h 4 2)
  originalSize := BitVec.ofNat 64 (field h 6 8)
  compressedSize := BitVec.ofNat 64 (field h 14 8)
  checksum := BitVec.ofNat 32 (field h 22 4)
  entryCount := BitVec.ofNat 16 (field h 26 2)
  paddingBits := BitVec.ofNat 8 (field h 28 1)
  reserved := BitVec.ofNat 8 (field h 29 1)

/-- R96: the 30 bytes of the header fields. -/
def Header.toBytes (h : Header) : List Byte :=
  leBytes 4 h.magic.toNat ++ leBytes 2 h.version.toNat ++ leBytes 8 h.originalSize.toNat ++
  leBytes 8 h.compressedSize.toNat ++ leBytes 4 h.checksum.toNat ++
  leBytes 2 h.entryCount.toNat ++ [h.paddingBits] ++ [h.reserved]

/-- HDR_MISC (10_state.md R35): `checksum | (count << 32) | (padding << 48) | (reserved << 56)`. -/
def Header.misc (h : Header) : Word64 :=
  h.checksum.zeroExtend 64 ||| (h.entryCount.zeroExtend 64 <<< 32) |||
  (h.paddingBits.zeroExtend 64 <<< 48) ||| (h.reserved.zeroExtend 64 <<< 56)

end Sys2Proof.Machine
end

