-- ==== Sys2Proof/Machine/Ops.lean ====
section
/-! DEFINITION. The named operations over memory, registers and the working state, the checks every
buffer command makes, and the two ends of a command (48_control.md R354, R355). -/

namespace Sys2Proof.Machine

/-! ### Memory -/

/-- What an address nothing has written reads as: DESIGN CHOICE, unsafe (log entry 3). -/
def Memory.unwritten : Byte := 0x00

/-- The canonical form: addresses strictly rising, no entry that an unlisted address would read as. -/
abbrev Memory.wf (m : Memory) : Prop :=
  m.Pairwise (fun x y => x.1 < y.1) ∧ ∀ c ∈ m, c.2 ≠ Memory.unwritten

/-- The byte at an address (R60). -/
def Memory.read : Memory → Nat → Byte
  | [], _ => Memory.unwritten
  | (x, v) :: t, a => if x = a then v else Memory.read t a

/-- Store one byte (R62), keeping the canonical form. -/
def Memory.write : Memory → Nat → Byte → Memory
  | [], a, b => if b = Memory.unwritten then [] else [(a, b)]
  | (x, v) :: t, a, b =>
    if a < x then if b = Memory.unwritten then (x, v) :: t else (a, b) :: (x, v) :: t
    else if a = x then if b = Memory.unwritten then t else (a, b) :: t
    else (x, v) :: Memory.write t a b

/-- `n` bytes from `a` on, with no check. -/
def Memory.readRange (m : Memory) : Nat → Nat → List Byte
  | _, 0 => []
  | a, n + 1 => m.read a :: m.readRange (a + 1) n

/-- Store bytes from `a` on, with no check. -/
def Memory.writeRange : Memory → Nat → List Byte → Memory
  | m, _, [] => m
  | m, a, b :: bs => Memory.writeRange (m.write a b) (a + 1) bs

/-- Give each of the `n` bytes from `a` on a free value, one draw a byte (R313, R451). -/
def Memory.scramble : Memory → Nat → Nat → Nat → Memory
  | m, _, 0, _ => m
  | m, a, n + 1, d => Memory.scramble (m.write a (Config.freeByte d)) (a + 1) n (d + 1)

/-- `bus_ok` (R67): the platform backs the byte with plain memory. -/
def busOk (p : Params) (a : Nat) : Bool :=
  p.backed.any fun r => decide (r.base ≤ a ∧ a < r.base + r.size)

/-- Whether the core may access the byte: it exists (R60) and is backed (R67). -/
def accessible (p : Params) (a : Nat) : Bool := decide (a < 2 ^ p.addrW) && busOk p a

/-- MemRead(a, 1) (R62): stuck where the byte is not backed (R67). -/
def loadByte (s : State) (a : Nat) : Except Halt Byte :=
  if a < 2 ^ s.par.addrW then
    if busOk s.par a then .ok (s.mem.read a) else .error (.stuck a s)
  else .error (.fault (.noSuchAddress a))

/-- MemWrite(a, 1, b) (R62): stuck where the byte is not backed (R67). -/
def storeByte (s : State) (a : Nat) (b : Byte) : Except Halt State :=
  if a < 2 ^ s.par.addrW then
    if busOk s.par a then .ok (s.setMem (s.mem.write a b)) else .error (.stuck a s)
  else .error (.fault (.noSuchAddress a))

/-- The bytes of MemRead(a, n), lowest address first. -/
def loadBytes (s : State) : Nat → Nat → Except Halt (List Byte)
  | _, 0 => .ok []
  | a, n + 1 => do
    let b ← loadByte s a
    let bs ← loadBytes s (a + 1) n
    return b :: bs

/-- MemWrite of a byte sequence, lowest address first. -/
def storeBytes : State → Nat → List Byte → Except Halt State
  | s, _, [] => .ok s
  | s, a, b :: bs => do
    let s ← storeByte s a b
    storeBytes s (a + 1) bs

/-- Free values in the bytes `[a, a + n)` that exist (R60), with one draw a byte. -/
def scramble (s : State) (a n : Nat) : State :=
  let m := min n (2 ^ s.par.addrW - a)
  (s.setMem (s.mem.scramble a m s.draws)).addDraws m

/-! ### Tables of one entry for each symbol -/

/-- The entry of a symbol. -/
def tget {α : Type} (t : Table α) (b : Byte) : α := t[b.toNat]'b.isLt

/-- Set the entry of a symbol. -/
def tset {α : Type} (t : Table α) (b : Byte) (x : α) : Table α := t.set b.toNat x b.isLt

/-- The symbols 0, 1, ..., 255 in ascending order. -/
def allSymbols : List Byte := (List.range 256).map (BitVec.ofNat 8)

/-- The symbols with their entries, in ascending order of symbol. -/
def entries {α : Type} (t : Table α) : List (Byte × α) := allSymbols.zip t.toList

/-- The symbols with a nonzero count and their counts, in ascending order of symbol. -/
def counted (t : Table Word32) : List (Byte × Word32) := (entries t).filter fun e => e.2 != 0

/-! ### The working state -/

/-- NCOUNT (10_state.md R41): the number of nodes allocated. -/
def Work.ncount (w : Work) : Nat := w.nodes.length

/-- The combined or stored frequency of a node (R41). -/
def Node.freq : Node → Nat
  | .leaf _ f => f
  | .internal f _ _ => f

/-- Run an operation of the working state inside a command. -/
def onWork (f : Work → Except Fault Work) (s : State) : Except Halt State :=
  match f s.work with
  | .ok w => .ok (s.setWork w)
  | .error e => .error (.fault e)

/-! ### The ends of a command -/

/-- The common part of both ends: STATUS, and `PHASE <- IDLE` (R354, R355). DESIGN CHOICE (log entry 4):
the working state keeps what the command left in it, where the spec leaves it unspecified (R46, R167). -/
def endCommand (status : Word64) (s : State) : State :=
  ((s.setRegs { s.regs with status := status }).setPhase .idle).setBusyLeft 0

/-- `complete(len)` (R354). -/
def complete (len : Nat) (s : State) : State :=
  endCommand statusComplete (s.setRegs { s.regs with resultLen := BitVec.ofNat 64 len })

/-- TAKING AN ERROR: `raise Kind(detail)` (R355, R406). The header registers, CRC_CALC and RESULT_LEN
are the command's rule's: `clear` says what it does to them. -/
def raiseEnd (clear : Err → Regs → Regs) (e : Err) (s : State) : State :=
  endCommand (statusError e) (s.setRegs (clear e s.regs))

/-- ENCODE's error end (46_encode.md R271): RESULT_LEN, HDR_* and CRC_CALC become 0. -/
def clearEncode (_ : Err) (r : Regs) : Regs :=
  { r with resultLen := 0, hdrOrig := 0, hdrComp := 0, hdrMisc := 0, crcCalc := 0 }

/-- Whether DECODE ended before it read the header (10_state.md R36 (d)). -/
def beforeHeader (e : Err) : Bool :=
  e.kind == .param || (e.kind == .format && e.detail == 1)

/-- DECODE's error end (47_decode.md R313): RESULT_LEN becomes 0; HDR_* stay as R302 set them, or
become 0 when the command ended before it; CRC_CALC is 0 unless R312 set it before the mismatch. -/
def clearDecode (e : Err) (r : Regs) : Regs :=
  { r with
    resultLen := 0
    hdrOrig := if beforeHeader e then 0 else r.hdrOrig
    hdrComp := if beforeHeader e then 0 else r.hdrComp
    hdrMisc := if beforeHeader e then 0 else r.hdrMisc
    crcCalc := if e.kind = .checksumMismatch then r.crcCalc else 0 }

/-- ILLEGAL_CMD keeps them all (48_control.md R357). -/
def clearNothing (_ : Err) (r : Regs) : Regs := r

/-- Stop the command with an error. -/
def throwErr {α : Type} (kind : ErrKind) (detail : Byte) (s : State) : Except Halt α :=
  .error (.raised ⟨kind, detail⟩ s)

/-- The outcome of an operation: an error it raised ends its command (R355), and a byte without `bus_ok`
leaves the core stuck, with PHASE and STATUS as they were (R67; 93 item 15). -/
def outcome (clear : Err → Regs → Regs) (r : Except Halt State) :
    Host.Outcome State Fault Refusal :=
  match r with
  | .ok s => .next s
  | .error (.raised e s) => .next (raiseEnd clear e s)
  | .error (.stuck a s) => .next (s.setStuck (some a))
  | .error (.fault f) => .fault f

/-- The outcome of an operation of the working state that can only reach an UNREACHABLE case. -/
def workOutcome (s : State) (r : Except Fault Work) : Host.Outcome State Fault Refusal :=
  match r with
  | .ok w => .next (s.setWork w)
  | .error f => .fault f

/-! ### The checks of a command that uses buffers -/

/-- R65: PARAM(1) and PARAM(2); the sums are exact. -/
def rangeCheck (s : State) : Except Halt Unit :=
  if 2 ^ s.par.addrW ≤ s.src ∨ 2 ^ s.par.addrW < s.src + s.srclen then throwErr .param 1 s
  else if 2 ^ s.par.addrW ≤ s.dst ∨ 2 ^ s.par.addrW < s.dst + s.cap then throwErr .param 2 s
  else .ok ()

/-- R66: PARAM(3). -/
def overlapCheck (s : State) : Except Halt Unit :=
  if 0 < s.srclen ∧ 0 < s.cap ∧ s.src < s.dst + s.cap ∧ s.dst < s.src + s.srclen then
    throwErr .param 3 s
  else .ok ()

/-! ### Issue -/

/-- R352: latch the command word and the operands, set BUSY. `left` is how many host moves the
command lasts; it starts with no access made, so it is not stuck. -/
def latchCommand (w : Word64) (left : Nat) (s : State) : State :=
  ((((s.setPhase .busy).setStuck none).setRegs { s.regs with status := statusIssued }).setLatch
    { cmd := w
      src := s.regs.srcAddr
      srclen := s.regs.srcLen
      dst := s.regs.dstAddr
      cap := s.regs.dstCap
      verify := !cmdSkipVerify w }).setBusyLeft left

/-- Issue of a command (R352): how long it lasts is a free value (R462, R463). -/
def issue (w : Word64) (s : State) : State :=
  (latchCommand w (Config.latency s.draws) s).addDraws 1

end Sys2Proof.Machine
end

