-- ==== Sys2Proof/Machine/Control.lean ====
section
/-! DEFINITION. NOP and illegal command words (48_control.md). -/

namespace Sys2Proof.Machine

/-- R356: STATUS and PHASE only. -/
def execNop (s : State) : Host.Outcome State Fault Refusal := .next (endCommand statusComplete s)

/-- R357: the detail code of an illegal word. -/
def illegalDetail (w : Word64) : Byte := if cmdBadOpcode w then 1 else 2

/-- R357: ILLEGAL_CMD, which keeps every other register. -/
def execIllegalCommand (w : Word64) (s : State) : Host.Outcome State Fault Refusal :=
  .next (raiseEnd clearNothing ⟨.illegalCmd, illegalDetail w⟩ s)

end Sys2Proof.Machine
end

