-- ==== Sys2Proof/Machine/BitUnpacker.lean ====
section
/-! DEFINITION. The bit unpacker (44_bit_unpacker.md). -/

namespace Sys2Proof.Machine

/-- R220. -/
def upInit (base len : Nat) (w : Work) : Work :=
  w.setUp ⟨base, 0, len⟩

/-- Bit `7 - (k mod 8)` of a payload byte: bit k of the stream (30_encoding.md R107). -/
def streamBit (b : Byte) (k : Nat) : Bool := b.getLsbD (7 - k % 8)

/-- R221; `none` is END (R222). -/
def upReadBit (s : State) : Except Halt (Option Bool × State) :=
  if s.work.up.pos = s.work.up.len then .ok (none, s)
  else do
    let v ← loadByte s (s.work.up.base + s.work.up.pos / 8)
    return (some (streamBit v s.work.up.pos),
      s.setWork (s.work.setUp { s.work.up with pos := s.work.up.pos + 1 }))

/-- R223. -/
def upConsumed (w : Work) : Nat := w.up.pos

/-- `up_init(base, L)`. -/
def execUpInit (base len : Nat) (s : State) : Host.Outcome State Fault Refusal :=
  .next (s.setWork (upInit base len s.work))

/-- `up_read_bit()`: the bit, or END, is the operation's result. -/
def execUpReadBit (s : State) : Host.Outcome State Fault Refusal :=
  outcome clearDecode do
    let (b, s) ← upReadBit s
    return s.setRet (match b with | some b => .bit b | none => .endOfData)

/-- `up_consumed()`. -/
def execUpConsumed (s : State) : Host.Outcome State Fault Refusal :=
  .next (s.setRet (.count (upConsumed s.work)))

end Sys2Proof.Machine
end

