-- ==== Sys2Proof/Machine/BitPacker.lean ====
section
/-! DEFINITION. The bit packer (43_bit_packer.md). -/

namespace Sys2Proof.Machine

/-- R200. -/
def pkInit (base : Nat) (w : Work) : Work :=
  w.setPk ⟨base, 0, 0, 0, 0⟩

/-- Write the packer's state. -/
def State.setPk (s : State) (x : Packer) : State := s.setWork (s.work.setPk x)

/-- R201. -/
def pkEmit (v : Byte) (s : State) : Except Halt State := do
  let s ← storeByte s (s.work.pk.base + s.work.pk.out) v
  return s.setPk { s.work.pk with out := s.work.pk.out + 1 }

/-- R202: `((PK_ACC << 1) | b) mod 2^8`. -/
def shiftIn (acc : Byte) (b : Bool) : Byte := (acc <<< 1) ||| (if b then 1 else 0)

/-- R202. The eighth bit's byte is emitted before the accumulator is written, so that PK_CNT stays in
0..7 (R44) where the core is stuck at that byte. -/
def pkWriteBit (b : Bool) (s : State) : Except Halt State :=
  let acc := shiftIn s.work.pk.acc b
  let cnt := s.work.pk.cnt + 1
  if cnt = 8 then do
    let s ← pkEmit acc s
    return s.setPk { s.work.pk with acc := 0, cnt := 0 }
  else .ok (s.setPk { s.work.pk with acc := acc, cnt := cnt })

/-- R203: the bits in order. -/
def pkWriteBits : Bits → State → Except Halt State
  | [], s => .ok s
  | b :: bs, s => do
    let s ← pkWriteBit b s
    pkWriteBits bs s

/-- R204: right padding. -/
def pkFlush (s : State) : Except Halt State :=
  if 0 < s.work.pk.cnt then do
    let pad := 8 - s.work.pk.cnt
    let s := s.setPk { s.work.pk with pad := pad }
    let s ← pkEmit (s.work.pk.acc <<< pad) s
    return s.setPk { s.work.pk with acc := 0, cnt := 0 }
  else .ok (s.setPk { s.work.pk with pad := 0 })

/-- `pk_init(base)`. -/
def execPkInit (base : Nat) (s : State) : Host.Outcome State Fault Refusal :=
  .next (s.setWork (pkInit base s.work))

/-- `pk_emit(v)`. -/
def execPkEmit (v : Byte) (s : State) : Host.Outcome State Fault Refusal :=
  outcome clearEncode (pkEmit v s)

/-- `pk_write_bit(b)`. -/
def execPkWriteBit (b : Bool) (s : State) : Host.Outcome State Fault Refusal :=
  outcome clearEncode (pkWriteBit b s)

/-- `pk_write_bits(value, bitCount)` and `pk_write_bits(c)`. -/
def execPkWriteBits (bits : BitsOperand) (s : State) : Host.Outcome State Fault Refusal :=
  outcome clearEncode (pkWriteBits (bitsOf bits) s)

/-- `pk_flush()`. -/
def execPkFlush (s : State) : Host.Outcome State Fault Refusal :=
  outcome clearEncode (pkFlush s)

end Sys2Proof.Machine
end

