-- ==== Sys2Proof/Machine/CodeGen.lean ====
section
/-! DEFINITION. Code table generation (42_code_gen.md). -/

namespace Sys2Proof.Machine

/-- R180's `walk(i, p)`: `fuel` bounds the depth, which is at most 255 in a tree (R184). -/
def codeWalk (nodes : List Node) : Nat → Nat → Bits → Table (Option Bits) →
    Except Fault (Table (Option Bits))
  | 0, _, _, _ => .error .notATree
  | fuel + 1, i, p, t =>
    match nodes[i]? with
    | none => .error (.noSuchNode i)
    | some (.leaf sym _) => .ok (tset t sym (some p))
    | some (.internal _ l r) => do
      let t ← codeWalk nodes fuel l (p ++ [false]) t
      codeWalk nodes fuel r (p ++ [true]) t

/-- R180, with R182 for a single leaf and R183 for the empty tree. -/
def generateCodes (w : Work) : Except Fault Work :=
  let none256 : Table (Option Bits) := Vector.replicate 256 none
  match w.root with
  | none => .ok (w.setCode none256)
  | some r =>
    match w.nodes[r]? with
    | none => .error (.noSuchNode r)
    | some (.leaf sym _) => .ok (w.setCode (tset none256 sym (some [false])))
    | some (.internal _ _ _) => do
      let t ← codeWalk w.nodes (Config.maxCodeLen + 1) r [] none256
      return w.setCode t

/-- R181. -/
def codeLookup (sym : Byte) (w : Work) : Except Fault Bits :=
  match tget w.code sym with
  | some c => .ok c
  | none => .error (.absentSymbol sym)

/-- `generate_codes`. -/
def execGenerateCodes (s : State) : Host.Outcome State Fault Refusal :=
  workOutcome s (generateCodes s.work)

/-- `code_lookup(sym)`: the code is the operation's result. -/
def execCodeLookup (sym : Byte) (s : State) : Host.Outcome State Fault Refusal :=
  match codeLookup sym s.work with
  | .ok c => .next (s.setRet (.code c))
  | .error f => .fault f

end Sys2Proof.Machine
end

