-- ==== Sys2Proof/Machine/Crc32.lean ====
section
/-! DEFINITION. The CRC32 checksum (45_crc32.md). -/

namespace Sys2Proof.Machine

/-- One step of R240's inner loop. -/
def crcShift (c : Word32) : Word32 :=
  if c.getLsbD 0 then (c >>> 1) ^^^ Config.crcPoly else c >>> 1

/-- `n` steps of R240's inner loop. -/
def crcShifts : Nat → Word32 → Word32
  | 0, c => c
  | n + 1, c => crcShifts n (crcShift c)

/-- CRC_TAB (R242), a constant: eight steps from `c = i`. -/
def crcTab (i : Byte) : Word32 := crcShifts 8 (i.zeroExtend 32)

/-- R241. -/
def crcInit (w : Work) : Work := w.setCrcReg 0xFFFFFFFF

/-- R243, on the register's value: `(CRC_REG >> 8) ^ CRC_TAB[(CRC_REG ^ b) & 0xFF]`. -/
def crcNext (c : Word32) (b : Byte) : Word32 :=
  (c >>> 8) ^^^ crcTab ((c ^^^ b.zeroExtend 32).extractLsb' 0 8)

/-- R243. -/
def crcUpdate (b : Byte) (w : Work) : Work := w.setCrcReg (crcNext w.crcReg b)

/-- R244. -/
def crcFinal (w : Work) : Word32 := w.crcReg ^^^ 0xFFFFFFFF

/-- crc_update of each byte in order. -/
def crcRun : List Byte → Work → Work
  | [], w => w
  | b :: bs, w => crcRun bs (crcUpdate b w)

/-- `crc_init()`. -/
def execCrcInit (s : State) : Host.Outcome State Fault Refusal := .next (s.setWork (crcInit s.work))

/-- `crc_update(b)`. -/
def execCrcUpdate (b : Byte) (s : State) : Host.Outcome State Fault Refusal :=
  .next (s.setWork (crcUpdate b s.work))

/-- `crc_final()`: the checksum is the operation's result. -/
def execCrcFinal (s : State) : Host.Outcome State Fault Refusal :=
  .next (s.setRet (.crc (crcFinal s.work)))

end Sys2Proof.Machine
end

