-- ==== Sys2Proof/Machine/PriorityQueue.lean ====
section
/-! DEFINITION. The priority queue (40_priority_queue.md). The queue is a set of node indices, held in
ascending order; the order of R140 is computed when the minimum is extracted. -/

namespace Sys2Proof.Machine

/-- R140: node i precedes node j in the queue's order, by (frequency, index). -/
def keyLt (fi i fj j : Nat) : Bool := decide (fi < fj) || (decide (fi = fj) && decide (i < j))

/-- The frequency of an allocated node. -/
def nodeFreq (nodes : List Node) (i : Nat) : Nat :=
  match nodes[i]? with
  | some n => n.freq
  | none => 0

/-- The index with the least key among `best` and a list of indices. -/
def leastKey (nodes : List Node) (best : Nat) : List Nat → Nat
  | [] => best
  | j :: js =>
    leastKey nodes (if keyLt (nodeFreq nodes j) j (nodeFreq nodes best) best then j else best) js

/-- Insertion into a strictly ascending list. -/
def insertAsc (i : Nat) : List Nat → List Nat
  | [] => [i]
  | j :: js => if i < j then i :: j :: js else if i = j then j :: js else j :: insertAsc i js

/-- R141. -/
def pqClear (w : Work) : Work := w.setPq []

/-- R142. -/
def pqInsert (i : Nat) (w : Work) : Except Fault Work :=
  if w.pq.length = Config.pqCap then .error .pqOverflow
  else if w.nodes.length ≤ i ∨ i ∈ w.pq then .error (.pqOperand i)
  else .ok (w.setPq (insertAsc i w.pq))

/-- R143. Every queued index must have a node, or the order has no key for it. -/
def pqExtractMin (w : Work) : Except Fault (Nat × Work) :=
  match w.pq with
  | [] => .error .pqEmpty
  | i :: is =>
    match w.pq.find? (fun j => decide (w.nodes.length ≤ j)) with
    | some j => .error (.noSuchNode j)
    | none =>
      let m := leastKey w.nodes i is
      .ok (m, w.setPq (w.pq.erase m))

/-- R144. -/
def pqIsEmpty (w : Work) : Bool := w.pq.isEmpty

/-- R145. -/
def pqSize (w : Work) : Nat := w.pq.length

/-- `pq_clear`. -/
def execPqClear (s : State) : Host.Outcome State Fault Refusal := .next (s.setWork (pqClear s.work))

/-- `pq_insert(i)`. -/
def execPqInsert (i : Nat) (s : State) : Host.Outcome State Fault Refusal :=
  workOutcome s (pqInsert i s.work)

/-- `pq_extract_min()`: the node index is the operation's result. -/
def execPqExtractMin (s : State) : Host.Outcome State Fault Refusal :=
  match pqExtractMin s.work with
  | .ok (m, w) => .next ((s.setWork w).setRet (.node m))
  | .error f => .fault f

/-- `pq_is_empty()`. -/
def execPqIsEmpty (s : State) : Host.Outcome State Fault Refusal :=
  .next (s.setRet (.flag (pqIsEmpty s.work)))

/-- `pq_size()`. -/
def execPqSize (s : State) : Host.Outcome State Fault Refusal :=
  .next (s.setRet (.count (pqSize s.work)))

end Sys2Proof.Machine
end

