-- ==== Sys2Proof/Machine/TreeBuilder.lean ====
section
/-! DEFINITION. Tree construction (41_tree_builder.md): one build, used by ENCODE and by DECODE. -/

namespace Sys2Proof.Machine

/-- Allocate the node at index NCOUNT (R161). -/
def allocNode (n : Node) (w : Work) : Except Fault Work :=
  if Config.nodeCap ≤ w.nodes.length then .error .arenaFull
  else .ok (w.setNodes (w.nodes ++ [n]))

/-- One symbol of R162's scan: `FREQ[s] = f`, which is not 0. -/
def leafStep (s : Byte) (f : Word32) (w : Work) : Except Fault Work := do
  let n := w.nodes.length
  let w ← allocNode (.leaf s f.toNat) w
  pqInsert n w

/-- R162's scan over the symbols with a nonzero count. -/
def leafLoop : List (Byte × Word32) → Work → Except Fault Work
  | [], w => .ok w
  | (s, f) :: es, w => do
    let w ← leafStep s f w
    leafLoop es w

/-- R162: the leaves; with no leaf (R164) or one leaf (R165) the root too. -/
def buildTreeLeaves (w : Work) : Except Fault Work := do
  let w ← leafLoop (counted w.freq) (pqClear (w.setNodes []))
  return if w.nodes.length = 0 then w.setRoot none
    else if w.nodes.length = 1 then w.setRoot (some 0)
    else w

/-- One merge of R163: the first extracted is left, the second right, the sum exact. -/
def mergeStep (w : Work) : Except Fault Work := do
  let (a, w) ← pqExtractMin w
  let (b, w) ← pqExtractMin w
  let n := w.nodes.length
  let w ← allocNode (.internal (nodeFreq w.nodes a + nodeFreq w.nodes b) a b) w
  pqInsert n w

/-- R163's loop. A merge lowers the queue's size by one, so `fuel` at least the size is enough. -/
def mergeLoop : Nat → Work → Except Fault Work
  | 0, w => .ok w
  | fuel + 1, w =>
    if 1 < pqSize w then do
      let w ← mergeStep w
      mergeLoop fuel w
    else .ok w

/-- R163. -/
def buildTreeMerges (w : Work) : Except Fault Work := do
  let w ← mergeLoop (pqSize w) w
  let (r, w) ← pqExtractMin w
  return w.setRoot (some r)

/-- R162 to R165: the whole build (R166: the same on both sides). -/
def buildTree (w : Work) : Except Fault Work := do
  let w ← buildTreeLeaves w
  if 2 ≤ w.nodes.length then buildTreeMerges w else .ok w

/-- `build_tree`, part 1. -/
def execBuildTreeLeaves (s : State) : Host.Outcome State Fault Refusal :=
  workOutcome s (buildTreeLeaves s.work)

/-- `build_tree`, part 2. -/
def execBuildTreeMerges (s : State) : Host.Outcome State Fault Refusal :=
  workOutcome s (buildTreeMerges s.work)

/-- `tree_rebuild`. -/
def execTreeRebuild (s : State) : Host.Outcome State Fault Refusal :=
  workOutcome s (buildTree s.work)

end Sys2Proof.Machine
end

