-- ==== Sys2Proof/Machine/Encode.lean ====
section
/-! DEFINITION. The ENCODE command (46_encode.md): freq_count, the sizes, write_container. -/

namespace Sys2Proof.Machine

/-- R261, R262: count one byte; a count that is full raises COUNT_OVERFLOW(1). -/
def countByte (b : Byte) (s : State) : Except Halt State :=
  if tget s.work.freq b = 0xFFFFFFFF then throwErr .countOverflow 1 s
  else .ok (s.setWork (s.work.setFreq (tset s.work.freq b (tget s.work.freq b + 1))))

/-- R261's loop over `n` source bytes from `a` on. -/
def countLoop : Nat → Nat → State → Except Halt State
  | _, 0, s => .ok s
  | a, n + 1, s => do
    let b ← loadByte s a
    let s ← countByte b s
    countLoop (a + 1) n s

/-- R261. -/
def freqCount (src srclen : Nat) (s : State) : Except Halt State :=
  countLoop src srclen (s.setWork (s.work.setFreq (Vector.replicate 256 0)))

/-- The length of a symbol's code, 0 for NONE (R260). -/
def codeLen (w : Work) (sym : Byte) : Nat :=
  match tget w.code sym with
  | some c => c.length
  | none => 0

/-- R264: T. -/
def payloadBits (w : Work) : Nat :=
  ((counted w.freq).map fun e => e.2.toNat * codeLen w e.1).sum

/-- R266: k. -/
def entryCount (w : Work) : Nat := (counted w.freq).length

/-- R265: `cs = ceil(T / 8)`. -/
def payloadSize (t : Nat) : Nat := (t + 7) / 8

/-- R265: `pad = (8 - T mod 8) mod 8`. -/
def payloadPad (t : Nat) : Nat := (8 - t % 8) % 8

/-- R267. -/
def containerSize (k cs : Nat) : Nat := Config.hdrSize + Config.entrySize * k + cs

/-- R270's table: the 5 bytes of each entry, from address `a` on. -/
def writeTable : List (Byte × Word32) → Nat → State → Except Halt State
  | [], _, s => .ok s
  | (sym, f) :: es, a, s => do
    let s ← storeBytes s a (sym :: leBytes 4 f.toNat)
    writeTable es (a + Config.entrySize) s

/-- R270's payload: the code of each of the `n` source bytes from `a` on. -/
def packLoop : Nat → Nat → State → Except Halt State
  | _, 0, s => .ok s
  | a, n + 1, s => do
    let b ← loadByte s a
    match codeLookup b s.work with
    | .error f => .error (.fault f)
    | .ok c => do
      let s ← pkWriteBits c s
      packLoop (a + 1) n s

/-- The header that ENCODE writes (R270, R98 to R105). -/
def encodeHeader (s : State) (cs : Word64) (crc : Word32) (k : BitVec 16) (pad : Byte) : Header where
  magic := s.par.magic
  version := Config.formatVersion
  originalSize := s.latch.srclen
  compressedSize := cs
  checksum := crc
  entryCount := k
  paddingBits := pad
  reserved := 0

/-- Report a container's header in the header registers (R270, R302). -/
def setHeaderRegs (h : Header) (r : Regs) : Regs :=
  { r with hdrOrig := h.originalSize, hdrComp := h.compressedSize, hdrMisc := h.misc }

/-- R270: write the container, report it, and end with success. -/
def writeContainer (cs : Word64) (crc : Word32) (k : BitVec 16) (pad : Byte) (s : State) :
    Except Halt State := do
  let h := encodeHeader s cs crc k pad
  let s ← storeBytes s s.dst h.toBytes
  let s ← writeTable (counted s.work.freq) (s.dst + Config.hdrSize) s
  let s := s.setWork (pkInit (s.dst + Config.hdrSize + Config.entrySize * k.toNat) s.work)
  let s ← packLoop s.src s.srclen s
  let s ← pkFlush s
  let s := s.setRegs { setHeaderRegs h s.regs with crcCalc := crc.zeroExtend 64 }
  return complete (containerSize k.toNat cs.toNat) s

/-- R269: the CRC32 of the source bytes, computed in CRC_REG. -/
def sourceCrc (s : State) : Except Halt State := do
  let bs ← loadBytes s s.src s.srclen
  return s.setWork (crcRun bs (crcInit s.work))

/-- R260. -/
def encodeCommand (s : State) : Except Halt State := do
  rangeCheck s
  overlapCheck s
  let s ← freqCount s.src s.srclen s
  let s ← onWork buildTree s
  let s ← onWork generateCodes s
  let t := payloadBits s.work
  let k := entryCount s.work
  let cs := payloadSize t
  if s.cap < containerSize k cs then throwErr .resource 1 s
  else do
    let s ← sourceCrc s
    writeContainer (BitVec.ofNat 64 cs) (crcFinal s.work) (BitVec.ofNat 16 k)
      (BitVec.ofNat 8 (payloadPad t)) s

/-- `freq_count(src, srclen)`. -/
def execFreqCount (src srclen : Word64) (s : State) : Host.Outcome State Fault Refusal :=
  outcome clearEncode (freqCount src.toNat srclen.toNat s)

/-- `write_container`. -/
def execWriteContainer (cs : Word64) (crc : Word32) (k : BitVec 16) (pad : Byte) (s : State) :
    Host.Outcome State Fault Refusal :=
  outcome clearEncode (writeContainer cs crc k pad s)

/-- ENCODE. -/
def execEncode (s : State) : Host.Outcome State Fault Refusal :=
  outcome clearEncode (encodeCommand s)

end Sys2Proof.Machine
end

