-- ==== Sys2Proof/Machine/DecodeCommand.lean ====
section
/-! DEFINITION. The DECODE command (47_decode.md): parsing, the checks in order, tree_rebuild, the
walk and the verification. -/

namespace Sys2Proof.Machine

/-- R302: read and report the header. -/
def readHeader (s : State) : Except Halt (Header × State) := do
  let bs ← loadBytes s s.src Config.hdrSize
  let h := Header.ofBytes bs
  return (h, s.setRegs (setHeaderRegs h s.regs))

/-- One entry of R306, read at address `a`. -/
def parseEntry (a : Nat) (s : State) : Except Halt State := do
  let sym ← loadByte s a
  let bs ← loadBytes s (a + 1) 4
  let f : Word32 := BitVec.ofNat 32 (leValue bs)
  if f = 0 then throwErr .format 7 s
  else if tget s.work.seen sym then throwErr .format 8 s
  else .ok (s.setWork ((s.work.setSeen (tset s.work.seen sym true)).setFreq (tset s.work.freq sym f)))

/-- R306's loop over `k` entries from address `a` on. -/
def parseLoop : Nat → Nat → State → Except Halt State
  | _, 0, s => .ok s
  | a, k + 1, s => do
    let s ← parseEntry a s
    parseLoop (a + Config.entrySize) k s

/-- R306. -/
def parseTable (k : Nat) (s : State) : Except Halt State :=
  if Config.alphabet < k then throwErr .format 5 s
  else if s.srclen < Config.hdrSize + Config.entrySize * k then throwErr .format 6 s
  else parseLoop (s.src + Config.hdrSize) k (s.setWork
    ((s.work.setFreq (Vector.replicate 256 0)).setSeen (Vector.replicate 256 false)))

/-- R307: the extent checks, and L (30_encoding.md R108). -/
def checkPayloadExtent (k cs pad : Nat) (s : State) : Except Halt Nat :=
  if s.srclen < containerSize k cs then throwErr .format 9 s
  else if containerSize k cs < s.srclen then throwErr .format 10 s
  else if cs = 0 ∧ pad ≠ 0 then throwErr .format 11 s
  else .ok (8 * cs - pad)

/-- CORRUPT_STREAM and CHECKSUM_MISMATCH leave each byte of `[dst, dst + orig)` with a free value
(R313). -/
def throwCorrupt {α : Type} (kind : ErrKind) (detail : Byte) (orig : Nat) (s : State) :
    Except Halt α :=
  throwErr kind detail (scramble s s.dst orig)

/-- Write the walker's state. -/
def State.setWk (s : State) (x : Walker) : State := s.setWork (s.work.setWk x)

/-- Emit one symbol at `dst + WK_EMIT` (R311). -/
def emitSymbol (sym : Byte) (s : State) : Except Halt State := do
  let s ← storeByte s (s.dst + s.work.wk.emit) sym
  return s.setWk { s.work.wk with emit := s.work.wk.emit + 1 }

/-- R311: one bit down the tree; at a leaf, emit its symbol and go back to the root. The result is the
emitted symbol, if any. -/
def walkBit (b : Bool) (s : State) : Except Halt (List Byte × State) :=
  match s.work.nodes[s.work.wk.node]? with
  | none => .error (.fault (.noSuchNode s.work.wk.node))
  | some (.leaf _ _) => .error (.fault (.missingChild s.work.wk.node))
  | some (.internal _ l r) =>
    let i := if b then r else l
    match s.work.nodes[i]? with
    | none => .error (.fault (.noSuchNode i))
    | some (.internal _ _ _) => .ok ([], s.setWk { s.work.wk with node := i })
    | some (.leaf sym _) => do
      let s ← emitSymbol sym s
      match s.work.root with
      | none => .error (.fault .noRoot)
      | some r => return ([sym], s.setWk { s.work.wk with node := r })

/-- R311's loop, with the emitted bytes as its result. Each turn reads one bit, so the `n` bits left
bound it: with none left, up_read_bit answers END. -/
def walkLoop (orig : Nat) : Nat → State → Except Halt (List Byte × State)
  | 0, s =>
    if s.work.wk.emit < orig then throwCorrupt .corruptStream 1 orig s else .ok ([], s)
  | n + 1, s =>
    if s.work.wk.emit < orig then do
      let (b, s) ← upReadBit s
      match b with
      | none => throwCorrupt .corruptStream 1 orig s
      | some b => do
        let (out, s) ← walkBit b s
        let (rest, s) ← walkLoop orig n s
        return (out ++ rest, s)
    else .ok ([], s)

/-- R311, where the root is an internal node. -/
def walk (base len orig : Nat) (s : State) : Except Halt (List Byte × State) :=
  match s.work.root with
  | none => .error (.fault .noRoot)
  | some r => do
    let s := s.setWork ((upInit base len s.work).setWk ⟨r, 0⟩)
    let (out, s) ← walkLoop orig len s
    if upConsumed s.work ≠ len then throwCorrupt .corruptStream 3 orig s
    else return (out, s)

/-- R310: emit the single leaf's symbol `n` times. -/
def fillLoop (sym : Byte) : Nat → State → Except Halt (List Byte × State)
  | 0, s => .ok ([], s)
  | n + 1, s => do
    let s ← emitSymbol sym s
    let (rest, s) ← fillLoop sym n s
    return (sym :: rest, s)

/-- R308, R310, R311: the output of the empty tree, of a single leaf, or of the walk. -/
def emitOutput (base len orig : Nat) (s : State) : Except Halt (List Byte × State) :=
  match s.work.root with
  | none => .ok ([], s)
  | some r =>
    match s.work.nodes[r]? with
    | none => .error (.fault (.noSuchNode r))
    | some (.leaf sym _) => fillLoop sym orig (s.setWk { s.work.wk with emit := 0 })
    | some (.internal _ _ _) => walk base len orig s

/-- R312: verification, over the bytes as emitted. -/
def verifyOutput (out : List Byte) (checksum : Word32) (orig : Nat) (s : State) :
    Except Halt State :=
  if s.latch.verify then
    let s := s.setWork (crcRun out (crcInit s.work))
    let c := crcFinal s.work
    let s := s.setRegs { s.regs with crcCalc := c.zeroExtend 64 }
    if c = checksum then .ok s else throwCorrupt .checksumMismatch 1 orig s
  else .ok (s.setRegs { s.regs with crcCalc := 0 })

/-- The checks on the header's fields: R303, R304, R305. -/
def headerCheck (h : Header) (s : State) : Except Halt Unit :=
  if h.magic ≠ s.par.magic then throwErr .format 2 s
  else if h.version ≠ Config.formatVersion then throwErr .format 3 s
  else if 7 < h.paddingBits.toNat then throwErr .format 4 s
  else .ok ()

/-- R300, from the header on. -/
def decodeContainer (s : State) : Except Halt State := do
  let (h, s) ← readHeader s
  headerCheck h s
  let k := h.entryCount.toNat
  let orig := h.originalSize.toNat
  let s ← parseTable k s
  let len ← checkPayloadExtent k h.compressedSize.toNat h.paddingBits.toNat s
  let s ← onWork buildTree s
  if s.work.root = none ∧ orig ≠ 0 then throwErr .format 12 s
  else if s.cap < orig then throwErr .resource 1 s
  else do
    let (out, s) ← emitOutput (s.src + Config.hdrSize + Config.entrySize * k) len orig s
    let s ← verifyOutput out h.checksum orig s
    return complete orig s

/-- R300. -/
def decodeCommand (s : State) : Except Halt State := do
  rangeCheck s
  overlapCheck s
  if s.srclen < Config.hdrSize then throwErr .format 1 s else decodeContainer s

/-- `read_header()`: the header is the operation's result. -/
def execReadHeader (s : State) : Host.Outcome State Fault Refusal :=
  outcome clearDecode do
    let (h, s) ← readHeader s
    return s.setRet (.header h)

/-- `parse_table(k)`. -/
def execParseTable (k : BitVec 16) (s : State) : Host.Outcome State Fault Refusal :=
  outcome clearDecode (parseTable k.toNat s)

/-- `check_payload_extent`: L is the operation's result. -/
def execCheckPayloadExtent (k : BitVec 16) (cs : Word64) (pad : Byte) (s : State) :
    Host.Outcome State Fault Refusal :=
  outcome clearDecode do
    let len ← checkPayloadExtent k.toNat cs.toNat pad.toNat s
    return s.setRet (.count len)

/-- `walk`. -/
def execWalk (base len : Nat) (orig : Word64) (s : State) : Host.Outcome State Fault Refusal :=
  outcome clearDecode do
    let (_, s) ← walk base len orig.toNat s
    return s

/-- DECODE: the command word's bit 8 is the latched `verify` (R352). -/
def execDecode (skipVerify : Bool) (s : State) : Host.Outcome State Fault Refusal :=
  outcome clearDecode (decodeCommand (s.setLatch { s.latch with verify := !skipVerify }))

end Sys2Proof.Machine
end

