-- ==== Sys2Proof/Machine/Dispatch.lean ====
section
/-! DEFINITION. The dispatch of every instruction to its meaning (48_control.md R353). -/

namespace Sys2Proof.Machine

def exec (i : Instr) (s : State) : Host.Outcome State Fault Refusal :=
  match i with
  | .nop => Sys2Proof.Machine.execNop s
  | .encode => Sys2Proof.Machine.execEncode s
  | .decode skipVerify => Sys2Proof.Machine.execDecode skipVerify s
  | .pqClear => Sys2Proof.Machine.execPqClear s
  | .pqInsert n => Sys2Proof.Machine.execPqInsert n s
  | .pqExtractMin => Sys2Proof.Machine.execPqExtractMin s
  | .pqIsEmpty => Sys2Proof.Machine.execPqIsEmpty s
  | .pqSize => Sys2Proof.Machine.execPqSize s
  | .buildTreeLeaves => Sys2Proof.Machine.execBuildTreeLeaves s
  | .buildTreeMerges => Sys2Proof.Machine.execBuildTreeMerges s
  | .treeRebuild => Sys2Proof.Machine.execTreeRebuild s
  | .generateCodes => Sys2Proof.Machine.execGenerateCodes s
  | .codeLookup sym => Sys2Proof.Machine.execCodeLookup sym s
  | .pkInit base => Sys2Proof.Machine.execPkInit base s
  | .pkEmit v => Sys2Proof.Machine.execPkEmit v s
  | .pkWriteBit b => Sys2Proof.Machine.execPkWriteBit b s
  | .pkWriteBits bits => Sys2Proof.Machine.execPkWriteBits bits s
  | .pkFlush => Sys2Proof.Machine.execPkFlush s
  | .upInit base len => Sys2Proof.Machine.execUpInit base len s
  | .upReadBit => Sys2Proof.Machine.execUpReadBit s
  | .upConsumed => Sys2Proof.Machine.execUpConsumed s
  | .crcInit => Sys2Proof.Machine.execCrcInit s
  | .crcUpdate b => Sys2Proof.Machine.execCrcUpdate b s
  | .crcFinal => Sys2Proof.Machine.execCrcFinal s
  | .freqCount src srclen => Sys2Proof.Machine.execFreqCount src srclen s
  | .writeContainer cs crc k pad => Sys2Proof.Machine.execWriteContainer cs crc k pad s
  | .readHeader => Sys2Proof.Machine.execReadHeader s
  | .parseTable k => Sys2Proof.Machine.execParseTable k s
  | .checkPayloadExtent k cs pad => Sys2Proof.Machine.execCheckPayloadExtent k cs pad s
  | .walk base len orig => Sys2Proof.Machine.execWalk base len orig s
  | .illegalCommand w => Sys2Proof.Machine.execIllegalCommand w s

end Sys2Proof.Machine
end

