-- ==== Sys2Proof/Machine/HostPort.lean ====
section
/-! DEFINITION. The host's moves (60_exceptions.md R416): register accesses (10_state.md R23 to R39),
memory accesses (20_memory.md R71, R72), POLL (30_encoding.md R112) and reset
(70_reset_and_hazards.md R450 to R452). -/

namespace Sys2Proof.Machine

/-- The byte offset of a register in the window (R23). -/
def Reg.offset : Reg → Nat
  | .id => 0x00
  | .cmd => 0x08
  | .status => 0x10
  | .srcAddr => 0x18
  | .srcLen => 0x20
  | .dstAddr => 0x28
  | .dstCap => 0x30
  | .resultLen => 0x38
  | .hdrOrig => 0x40
  | .hdrComp => 0x48
  | .hdrMisc => 0x50
  | .crcCalc => 0x58
  | .reserved i => 0x60 + 8 * i.val

/-- The window's registers in the order of their offsets (R23). -/
def windowRegs : List Reg :=
  [.id, .cmd, .status, .srcAddr, .srcLen, .dstAddr, .dstCap, .resultLen, .hdrOrig, .hdrComp,
    .hdrMisc, .crcCalc] ++ (List.finRange 20).map Reg.reserved

/-- The register that an access of `width` bytes at a platform address reaches: only an aligned 64-bit
word of the window (R24). DESIGN CHOICE (log entry 1): the spec does not say that REG_BASE is a multiple
of 8, so aligned is said of the offset from REG_BASE. -/
def busReg (p : Params) (addr width : Nat) : Option Reg :=
  if p.regBase ≤ addr ∧ width = 8 ∧ (addr - p.regBase) % 8 = 0 then
    windowRegs[(addr - p.regBase) / 8]?
  else none

/-- ID (R26): MAGIC, the version, zero. -/
def idWord (p : Params) : Word64 :=
  p.magic.zeroExtend 64 ||| (Config.formatVersion.zeroExtend 64 <<< 32)

/-- A result register: its value while IDLE, any value while BUSY (R32 to R37). -/
def resultReg (v : Word64) (s : State) : Word64 × State :=
  match s.phase with
  | .idle => (v, s)
  | .busy => (Config.freeWord s.draws, s.addDraws 1)

/-- The value the host reads from a register. -/
def readReg (r : Reg) (s : State) : Word64 × State :=
  match r with
  | .id => (idWord s.par, s)
  | .cmd => (0, s)
  | .status => (s.regs.status, s)
  | .srcAddr => (s.regs.srcAddr, s)
  | .srcLen => (s.regs.srcLen, s)
  | .dstAddr => (s.regs.dstAddr, s)
  | .dstCap => (s.regs.dstCap, s)
  | .resultLen => resultReg s.regs.resultLen s
  | .hdrOrig => resultReg s.regs.hdrOrig s
  | .hdrComp => resultReg s.regs.hdrComp s
  | .hdrMisc => resultReg s.regs.hdrMisc s
  | .crcCalc => resultReg s.regs.crcCalc s
  | .reserved _ => (0, s)

/-- A write while IDLE: RW registers store all 64 bits (R24), CMD issues (R27), the others ignore it. -/
def writeRegIdle (r : Reg) (v : Word64) (s : State) : State :=
  match r with
  | .id => s
  | .cmd => issue v s
  | .status => s
  | .srcAddr => s.setRegs { s.regs with srcAddr := v }
  | .srcLen => s.setRegs { s.regs with srcLen := v }
  | .dstAddr => s.setRegs { s.regs with dstAddr := v }
  | .dstCap => s.setRegs { s.regs with dstCap := v }
  | .resultLen => s
  | .hdrOrig => s
  | .hdrComp => s
  | .hdrMisc => s
  | .crcCalc => s
  | .reserved _ => s

/-- A host write to a register: ignored while BUSY (R27, R39). -/
def writeReg (r : Reg) (v : Word64) (s : State) : State :=
  match s.phase with
  | .idle => writeRegIdle r v s
  | .busy => s

/-- A host read of a register into a variable. -/
def observeReg (r : Reg) (var : String) (s : State) : State :=
  let (v, s) := readReg r s
  s.observe (.reg var v)

/-- Whether the `n` bytes from `a` on all exist and are plain memory. -/
def allAccessible (p : Params) : Nat → Nat → Bool
  | _, 0 => true
  | a, n + 1 => accessible p a && allAccessible p (a + 1) n

/-- Whether the `n` bytes from `a` on all exist (R60). -/
def allExist (p : Params) (a n : Nat) : Bool := decide (n = 0 ∨ a + n ≤ 2 ^ p.addrW)

/-- How many of the `n` bytes from `a` on have no `bus_ok` (R67). -/
def unbackedCount (p : Params) : Nat → Nat → Nat
  | _, 0 => 0
  | a, n + 1 => (if busOk p a then 0 else 1) + unbackedCount p (a + 1) n

/-- What the host reads in the `n` bytes from `a` on (R416): plain memory answers what it holds (R67), and
a byte without `bus_ok` any value, one draw a byte from draw `d` on (log entry 2). -/
def hostBytes (p : Params) (m : Memory) : Nat → Nat → Nat → List Byte
  | _, 0, _ => []
  | a, n + 1, d =>
    if busOk p a then m.read a :: hostBytes p m (a + 1) n d
    else Config.freeByte d :: hostBytes p m (a + 1) n (d + 1)

/-- Whether `[a, a + n)` and `[b, b + m)` share a byte. -/
def rangesMeet (a n b m : Nat) : Bool := decide (0 < n ∧ 0 < m ∧ a < b + m ∧ b < a + n)

/-- R72: while BUSY the host must not write SRC or DST. -/
def writeRaces (s : State) (a n : Nat) : Bool :=
  s.phase == .busy && (rangesMeet a n s.src s.srclen || rangesMeet a n s.dst s.cap)

/-- R72: while BUSY the host must not read DST. -/
def readRaces (s : State) (a n : Nat) : Bool :=
  s.phase == .busy && rangesMeet a n s.dst s.cap

/-- The bytes of `[dst, dst + …)` that a reset during DECODE leaves with any value (R451):
`min(cap, original_size)` if the header had been read, else `cap`. It can have been read only when
the checks before it pass (R300) and its bytes are backed (R67); whether it had been read is a free
value. -/
def abandonedDecode (s : State) : Nat :=
  let orig := field (s.mem.readRange s.src Config.hdrSize) 6 8
  match rangeCheck s, overlapCheck s with
  | .ok _, .ok _ =>
    if Config.hdrSize ≤ s.srclen ∧ allAccessible s.par s.src Config.hdrSize ∧
        Config.headerWasRead s.draws then min s.cap orig
    else s.cap
  | _, _ => s.cap

/-- The DST bytes that the reset of a running command leaves with any value (R451). -/
def abandoned (s : State) : Nat :=
  match s.phase with
  | .idle => 0
  | .busy =>
    match decodeWord s.latch.cmd with
    | .encode => s.cap
    | .decode _ => abandonedDecode s
    | _ => 0

/-- R450: the block's registers and working state at their reset values; memory is not the block's
(R452), but for what an abandoned command leaves (R451). A stuck core is freed (R416: at any time). -/
def resetBlock (s : State) : State :=
  let s := (scramble s s.dst (abandoned s)).addDraws 1
  { s with
    phase := .idle
    stuck := none
    regs := Regs.reset
    latch := Latch.reset
    work := Work.reset
    ret := .none
    busyLeft := 0 }

/-- One host move, `rest` being the moves after it. -/
def hostMove (op : HostOp) (rest : List HostOp) (s : State) : Host.Outcome State Fault Refusal :=
  match op with
  | .wr r v => .next (writeReg r v (s.setInbox rest))
  | .rd r var => .next (observeReg r var (s.setInbox rest))
  | .busWrite addr width v =>
    match busReg s.par addr width with
    | some r => .next (writeReg r v (s.setInbox rest))
    | none => .refused (.registerAccess addr width)
  | .busRead addr width var =>
    match busReg s.par addr width with
    | some r => .next (observeReg r var (s.setInbox rest))
    | none => .refused (.registerAccess addr width)
  | .poll var =>
    let t := observeReg .status var s
    .next (if statusBusy s.regs.status then t else t.setInbox rest)
  | .memw addr bytes =>
    if writeRaces s addr bytes.length then .refused (.hostRace addr bytes.length)
    else if allExist s.par addr bytes.length then
      .next ((s.setMem (s.mem.writeRange addr bytes)).setInbox rest)
    else .refused (.hostMemory addr bytes.length)
  | .memr addr n var =>
    if readRaces s addr n then .refused (.hostRace addr n)
    else if allExist s.par addr n then
      .next (((s.observe (.mem var (hostBytes s.par s.mem addr n s.draws))).addDraws
        (unbackedCount s.par addr n)).setInbox rest)
    else .refused (.hostMemory addr n)
  | .reset => .next ((resetBlock s).setInbox rest)

/-- The host's turn. While BUSY it brings the command's end nearer (R463); a host with no move to make
leaves everything else as it is (R415). -/
def hostTurn (s : State) : Host.Outcome State Fault Refusal :=
  let s := s.setBusyLeft (s.busyLeft - 1)
  match s.inbox with
  | [] => .next s
  | op :: rest => hostMove op rest s

/-- Whether the core moves next: a command is running, its last host move is past, and the core is not
stuck (R67). -/
def coreTurn (s : State) : Bool := s.phase == .busy && s.busyLeft == 0 && s.stuck.isNone

/-- The instruction the core runs: the latched command word, decoded (R353). -/
def fetch (s : State) : Instr := decodeWord s.latch.cmd

/-- The command of the `nbits` low bits of `w`, issued (R352) and about to be run by the core. -/
def placeCommand (s : State) (nbits w : Nat) : State :=
  latchCommand (BitVec.ofNat 64 (w % 2 ^ nbits)) 0 s

end Sys2Proof.Machine
end

