-- ==== Sys2Proof/Machine/Step.lean ====
section
/-! DEFINITION. One step of the machine: the core runs the issued command from its issue to its end
(48_control.md R350), or the host makes a move. -/

namespace Sys2Proof.Machine

/-- The core's turn, or else the host's. -/
def step (s : State) : Host.Outcome State Fault Refusal :=
  if coreTurn s then exec (fetch s) s else hostTurn s

/-- `s` with the command word issued, so that the next step runs it (log entry 8). -/
def State.withFetchWord (s : State) (nbits w : Nat) : State := placeCommand s nbits w

end Sys2Proof.Machine
end

