-- ==== Sys2Proof/Safety.lean ====
section
/-! DEFINITION. The terms claims are stated in: the reference forms of the container, the codes and the
checksum, written from the spec's rules and not from the machine's operations, and the invariants. -/

namespace Sys2Proof.Machine

/-! ### The checksum (45_crc32.md R240) -/

/-- R240's inner loop: eight steps. -/
def refCrcByte (c : Word32) : Word32 :=
  (List.range 8).foldl (fun c _ => if c.getLsbD 0 then (c >>> 1) ^^^ 0xEDB88320 else c >>> 1) c

/-- R240: CRC32 of a byte sequence, bit by bit, with no table. -/
def refCrc32 (bs : List Byte) : Word32 :=
  bs.foldl (fun c b => refCrcByte (c ^^^ b.zeroExtend 32)) 0xFFFFFFFF ^^^ 0xFFFFFFFF

/-! ### The payload (30_encoding.md R107, R108) -/

/-- R107: byte j of a packed bit string: bit `8j + i` of the stream is bit `7 - i` of the byte, and a bit
past the end is a padding zero. -/
def refPayloadByte (bits : Bits) (j : Nat) : Byte :=
  (List.range 8).foldl (fun acc i => (acc <<< 1) ||| (if bits.getD (8 * j + i) false then 1 else 0)) 0

/-- R107, R205: the payload bytes of a bit string. -/
def refPayload (bits : Bits) : List Byte :=
  (List.range ((bits.length + 7) / 8)).map (refPayloadByte bits)

/-- The bit string of a message: one code per byte, in order (R264); nothing for a byte without a code. -/
def messageBits (code : Table (Option Bits)) (bs : List Byte) : Bits :=
  bs.flatMap fun b => (tget code b).getD []

/-- R107, R108: `n` bits of the bitstream of the payload at address `base`, from bit `k` on. -/
def streamBits (m : Memory) (base : Nat) : Nat → Nat → Bits
  | _, 0 => []
  | k, n + 1 => (m.read (base + k / 8)).getLsbD (7 - k % 8) :: streamBits m base (k + 1) n

/-! ### The container (30_encoding.md R95, R96, R106) -/

/-- R106: the 5 bytes of each table entry, in ascending order of symbol. -/
def refTable (freq : Table Word32) : List Byte :=
  (counted freq).flatMap fun e => e.1 :: leBytes 4 e.2.toNat

/-- R106: the `k` table entries stored from address `a` on, with their symbols and frequencies. -/
def storedEntries (m : Memory) : Nat → Nat → List (Byte × Word32)
  | _, 0 => []
  | a, k + 1 =>
    (m.read a, BitVec.ofNat 32 (leValue (m.readRange (a + 1) 4))) :: storedEntries m (a + 5) k

/-- R306: the entries a decoder accepts: no zero frequency, no symbol twice. -/
def tableOk (es : List (Byte × Word32)) : Prop :=
  (∀ e ∈ es, e.2 ≠ 0) ∧ (es.map Prod.fst).Nodup

/-- R306: FREQ holds the frequency of each listed symbol, and 0 for every other. -/
def IsTableOf (t : Table Word32) (es : List (Byte × Word32)) : Prop :=
  (∀ e ∈ es, tget t e.1 = e.2) ∧ ∀ b, b ∉ es.map Prod.fst → tget t b = 0

/-- R95: header, table, payload. -/
def refContainer (h : Header) (freq : Table Word32) (bits : Bits) : List Byte :=
  h.toBytes ++ refTable freq ++ refPayload bits

/-! ### The tree (41_tree_builder.md), built on a sorted queue -/

/-- R161, R162: one leaf for each symbol with a nonzero count, in ascending order of symbol. -/
def refLeaves (freq : Table Word32) : List Node :=
  (List.range 256).filterMap fun s =>
    if tget freq (BitVec.ofNat 8 s) = 0 then none
    else some (.leaf (BitVec.ofNat 8 s) (tget freq (BitVec.ofNat 8 s)).toNat)

/-- The frequency of the node at index `i`. -/
def freqAt (nodes : List Node) (i : Nat) : Nat :=
  match nodes[i]? with
  | some (.leaf _ f) => f
  | some (.internal f _ _) => f
  | none => 0

/-- R140: node `i` stands before node `j` in the extract order. -/
def precedes (nodes : List Node) (i j : Nat) : Prop :=
  freqAt nodes i < freqAt nodes j ∨ (freqAt nodes i = freqAt nodes j ∧ i < j)

/-- Put an index where it belongs in a queue kept in the extract order of R140. -/
def enqueue (nodes : List Node) (i : Nat) : List Nat → List Nat
  | [] => [i]
  | j :: js =>
    if freqAt nodes i < freqAt nodes j ∨ (freqAt nodes i = freqAt nodes j ∧ i < j) then i :: j :: js
    else j :: enqueue nodes i js

/-- R163: `n` merges, each of the two first in the queue, left and right; the last one left is the root. -/
def refMerges : Nat → List Node → List Nat → List Node × Option Nat
  | n + 1, nodes, a :: b :: q =>
    refMerges n (nodes ++ [.internal (freqAt nodes a + freqAt nodes b) a b])
      (enqueue (nodes ++ [.internal (freqAt nodes a + freqAt nodes b) a b]) nodes.length q)
  | _, nodes, q => (nodes, q.head?)

/-- R162 to R165: the arena and the root that a frequency table gives, and nothing else (R166). -/
def refTree (freq : Table Word32) : List Node × Option Nat :=
  refMerges ((refLeaves freq).length - 1) (refLeaves freq)
    ((List.range (refLeaves freq).length).foldl (fun q i => enqueue (refLeaves freq) i q) [])

/-- The working state holds the tree of its frequency table. -/
def isBuilt (w : Work) : Prop := w.nodes = (refTree w.freq).1 ∧ w.root = (refTree w.freq).2

/-! ### The codes (42_code_gen.md R180 to R184) -/

/-- The node reached from node `i` along a bit string: 0 goes left, 1 goes right. -/
def follow (nodes : List Node) (i : Nat) : Bits → Option Nat
  | [] => some i
  | b :: bs =>
    match nodes[i]? with
    | some (.internal _ l r) => follow nodes (if b then r else l) bs
    | _ => none

/-- The node at index `i` is a leaf of the symbol. -/
def isLeafOf (nodes : List Node) (i : Nat) (sym : Byte) : Prop := ∃ f, nodes[i]? = some (.leaf sym f)

/-- The code R180 to R183 give a symbol in the tree with this root: no code in the empty tree, "0" for a
bare leaf, and else the path from the root to the symbol's leaf. -/
def isCodeOf (nodes : List Node) (root : Option Nat) (sym : Byte) (c : Bits) : Prop :=
  ∃ r, root = some r ∧
    ((isLeafOf nodes r sym ∧ c = [false]) ∨
      (c ≠ [] ∧ ∃ i, follow nodes r c = some i ∧ isLeafOf nodes i sym))

/-- The table counts the bytes (R261). -/
def Counts (t : Table Word32) (bs : List Byte) : Prop := ∀ b, (tget t b).toNat = bs.count b

/-- The table holds the codes of a frequency table's tree, and no others (R180). -/
def isCodeTable (freq : Table Word32) (code : Table (Option Bits)) : Prop :=
  ∀ sym p, tget code sym = some p ↔ isCodeOf (refTree freq).1 (refTree freq).2 sym p

/-- Every byte of the message has a code. -/
def coded (code : Table (Option Bits)) (bs : List Byte) : Prop := ∀ b ∈ bs, tget code b ≠ none

/-! ### Runs of internal operations -/

/-- Run internal operations one after the other, up to the first that does not answer a next state. -/
def runAll : List Instr → State → Host.Outcome State Fault Refusal
  | [], s => .next s
  | i :: is, s =>
    match exec i s with
    | .next t => runAll is t
    | .fault f => .fault f
    | .refused r => .refused r

/-- The indices that `n` extractions in a row return (R147). -/
def drain : Nat → State → List Nat
  | 0, _ => []
  | n + 1, s =>
    match exec .pqExtractMin s with
    | .next t =>
      match t.ret with
      | .node m => m :: drain n t
      | _ => []
    | _ => []

/-! ### Buffers -/

/-- Every byte of `[a, a + n)` exists and is plain memory (20_memory.md R60, R67). -/
def backed (p : Params) (a n : Nat) : Prop := ∀ x, a ≤ x → x < a + n → accessible p x = true

/-- The byte exists and is not plain memory (R60, R67). -/
def noBacking (p : Params) (a : Nat) : Prop := a < 2 ^ p.addrW ∧ busOk p a = false

/-- R65 and R66 pass: the ranges lie in the address space and share no byte. -/
def buffersOk (s : State) : Prop :=
  s.src < 2 ^ s.par.addrW ∧ s.src + s.srclen ≤ 2 ^ s.par.addrW ∧
  s.dst < 2 ^ s.par.addrW ∧ s.dst + s.cap ≤ 2 ^ s.par.addrW ∧
  (s.srclen = 0 ∨ s.cap = 0 ∨ s.dst + s.cap ≤ s.src ∨ s.src + s.srclen ≤ s.dst)

/-- The source bytes of a command. -/
def sourceBytes (s : State) : List Byte := s.mem.readRange s.src s.srclen

/-- The 30 header bytes at the source (R96, R97). -/
def sourceHeader (s : State) : Header := Header.ofBytes (s.mem.readRange s.src 30)

/-- The table entries at the source (R106). -/
def sourceEntries (s : State) : List (Byte × Word32) :=
  storedEntries s.mem (s.src + 30) (sourceHeader s).entryCount.toNat

/-- The address of payload byte 0 at the source (R95). -/
def sourcePayload (s : State) : Nat := s.src + 30 + 5 * (sourceHeader s).entryCount.toNat

/-- L (R108), for the container at the source. -/
def sourceL (s : State) : Nat :=
  8 * (sourceHeader s).compressedSize.toNat - (sourceHeader s).paddingBits.toNat

/-- The bitstream of the container at the source (R107, R108). -/
def sourceStream (s : State) : Bits := streamBits s.mem (sourcePayload s) 0 (sourceL s)

/-- R301 and R303 to R307 all pass: the source is a container that DECODE accepts as far as its tree. -/
def containerOk (s : State) : Prop :=
  30 ≤ s.srclen ∧ (sourceHeader s).magic = s.par.magic ∧ (sourceHeader s).version = 1 ∧
  (sourceHeader s).paddingBits.toNat ≤ 7 ∧ (sourceHeader s).entryCount.toNat ≤ 256 ∧
  s.srclen = 30 + 5 * (sourceHeader s).entryCount.toNat + (sourceHeader s).compressedSize.toNat ∧
  tableOk (sourceEntries s) ∧
  ((sourceHeader s).compressedSize = 0 → (sourceHeader s).paddingBits = 0)

/-! ### The ends of a command (48_control.md R354, R355) -/

/-- HDR_MISC (R35), as a sum. -/
def refMisc (h : Header) : Word64 :=
  BitVec.ofNat 64 (h.checksum.toNat + 2 ^ 32 * h.entryCount.toNat + 2 ^ 48 * h.paddingBits.toNat +
    2 ^ 56 * h.reserved.toNat)

/-- The result registers at an end that reports no header (R271; R36 (d)). -/
def blankRegs (r : Regs) (status : Word64) : Regs :=
  { r with status := status, resultLen := 0, hdrOrig := 0, hdrComp := 0, hdrMisc := 0, crcCalc := 0 }

/-- The result registers at an end that reports a header (R36 (a), (c)). -/
def reportRegs (r : Regs) (h : Header) (status len crc : Word64) : Regs :=
  { r with status := status, resultLen := len, hdrOrig := h.originalSize, hdrComp := h.compressedSize,
           hdrMisc := refMisc h, crcCalc := crc }

/-- The state at the end of a command: idle, with these registers, working state and memory. -/
def endState (s : State) (r : Regs) (w : Work) (m : Memory) : State :=
  { s with phase := .idle, busyLeft := 0, regs := r, work := w, mem := m }

/-- The core stuck at the byte `a` (R67), with this working state and memory: all else is as it was. -/
def stuckState (s : State) (w : Work) (m : Memory) (a : Nat) : State :=
  { s with work := w, mem := m, stuck := some a }

/-- Memory reads alike outside `[a, a + n)`. -/
def sameOutside (m m' : Memory) (a n : Nat) : Prop := ∀ x, x < a ∨ a + n ≤ x → m'.read x = m.read x

/-- An outcome without the internal working state and the last internal result. -/
def hideWork : Host.Outcome State Fault Refusal → Host.Outcome State Fault Refusal
  | .next t => .next { t with work := Work.reset, ret := .none }
  | .fault f => .fault f
  | .refused r => .refused r

/-! ### Invariants -/

/-- The STATUS words that R25, R401 and R402 allow: none yet, running, success, and one for each
listed error but the one that is never raised (C10). -/
def statusWords : List Word64 :=
  [0x0, 0x1, 0x2] ++
  (List.range 12).map (fun d => 0x16 + BitVec.ofNat 64 ((d + 1) * 256)) ++
  [0x126, 0x326, 0x136, 0x146, 0x156, 0x166, 0x266, 0x366, 0x176, 0x276]

/-- STATUS holds a legal word, BUSY is PHASE (R22, R25), and only a running command is stuck (R67). -/
def StatusOk (s : State) : Prop :=
  s.regs.status ∈ statusWords ∧ (statusBusy s.regs.status = true ↔ s.phase = .busy) ∧
  (s.stuck ≠ none → s.phase = .busy)

/-- Memory is canonical and lists only addresses that exist (R60). -/
def MemOk (s : State) : Prop := s.mem.wf ∧ ∀ c ∈ s.mem, c.1 < 2 ^ s.par.addrW

/-- CRC_CALC[63:32] is zero (R37). -/
def CrcCalcOk (s : State) : Prop := s.regs.crcCalc.toNat < 2 ^ 32

/-- The packer's accumulator invariant (R206). -/
def PackerOk (s : State) : Prop :=
  s.work.pk.cnt ≤ 7 ∧ s.work.pk.acc.toNat < 2 ^ s.work.pk.cnt

/-- The queue is a set of at most 256 allocated indices, in ascending order (R42, R146), and the arena
holds at most 511 nodes (R41). -/
def QueueOk (s : State) : Prop :=
  s.work.pq.Pairwise (· < ·) ∧ (∀ i ∈ s.work.pq, i < s.work.nodes.length) ∧
  s.work.pq.length ≤ 256 ∧ s.work.nodes.length ≤ 511

end Sys2Proof.Machine
end

