-- ==== Sys2Proof/Certificates/Slice0/Obligations.lean ====
section
/-! DEFINITION. The statements about the machine, in the order of the spec's files. Each docstring says which
rules a statement formalises; OBLIGATIONS.json lists them. -/

open Sys2Proof Sys2Proof.Machine

/-! ## Reset and registers (10_state.md, 70_reset_and_hazards.md) -/

/-- R49: the machine after reset is idle, and every register but ID reads 0. -/
def Obligations.ResetState : Prop :=
  core.reset = State.reset ∧ State.reset.phase = .idle ∧
  (∀ r, r ≠ .id → readReg r State.reset = (0, State.reset))

/-- R23, R26, R28 to R38: what the host reads while IDLE, one line a register; that ID, CMD, STATUS, the
operands and the reserved offsets answer the same while BUSY; and that a result register read while BUSY
answers some value (R32 to R37), where the model takes a free one (log entry 2). -/
def Obligations.RegisterReads : Prop :=
  ∀ (s : State) (rest : List HostOp) (var : String),
    (∀ r : Reg, s.phase = .idle ∨ r ∈ [.id, .cmd, .status, .srcAddr, .srcLen, .dstAddr, .dstCap] ∨
        (∃ i, r = .reserved i) →
      ∃ v, hostMove (.rd r var) rest s =
          .next { s with inbox := rest, observed := .reg var v :: s.observed } ∧
        (r = .id → v.toNat = s.par.magic.toNat + 2 ^ 32) ∧ (r = .cmd → v = 0) ∧
        (r = .status → v = s.regs.status) ∧ (r = .srcAddr → v = s.regs.srcAddr) ∧
        (r = .srcLen → v = s.regs.srcLen) ∧ (r = .dstAddr → v = s.regs.dstAddr) ∧
        (r = .dstCap → v = s.regs.dstCap) ∧ (r = .resultLen → v = s.regs.resultLen) ∧
        (r = .hdrOrig → v = s.regs.hdrOrig) ∧ (r = .hdrComp → v = s.regs.hdrComp) ∧
        (r = .hdrMisc → v = s.regs.hdrMisc) ∧ (r = .crcCalc → v = s.regs.crcCalc) ∧
        (∀ i, r = .reserved i → v = 0)) ∧
    (∀ r ∈ [Reg.resultLen, .hdrOrig, .hdrComp, .hdrMisc, .crcCalc], s.phase = .busy →
      ∃ v, hostMove (.rd r var) rest s =
        .next { s with inbox := rest, observed := .reg var v :: s.observed, draws := s.draws + 1 })

/-- R24, R38, R39: while IDLE a RW register takes all 64 bits written and a write of any other register but
CMD changes nothing; while BUSY a write of any register, CMD too (R27), changes nothing. -/
def Obligations.RegisterWrites : Prop :=
  ∀ (s : State) (rest : List HostOp) (v : Word64),
    (s.phase = .idle →
      hostMove (.wr .srcAddr v) rest s =
        .next { s with inbox := rest, regs := { s.regs with srcAddr := v } } ∧
      hostMove (.wr .srcLen v) rest s =
        .next { s with inbox := rest, regs := { s.regs with srcLen := v } } ∧
      hostMove (.wr .dstAddr v) rest s =
        .next { s with inbox := rest, regs := { s.regs with dstAddr := v } } ∧
      hostMove (.wr .dstCap v) rest s =
        .next { s with inbox := rest, regs := { s.regs with dstCap := v } } ∧
      ∀ r, r ∉ [Reg.cmd, .srcAddr, .srcLen, .dstAddr, .dstCap] →
        hostMove (.wr r v) rest s = .next { s with inbox := rest }) ∧
    (s.phase = .busy → ∀ r, hostMove (.wr r v) rest s = .next { s with inbox := rest })

/-- R24, R64: a bus access reaches a register only as an aligned 64-bit word of the window; every other
access of the register port has no step. Aligned is said of the offset from REG_BASE (log entry 1). -/
def Obligations.OnlyAlignedWordsReachRegisters : Prop :=
  ∀ (s : State) (rest : List HostOp) (addr width : Nat) (v : Word64) (var : String),
    (∀ r : Reg, hostMove (.busWrite (s.par.regBase + r.offset) 8 v) rest s = hostMove (.wr r v) rest s ∧
      hostMove (.busRead (s.par.regBase + r.offset) 8 var) rest s = hostMove (.rd r var) rest s) ∧
    ((¬ ∃ k < 32, width = 8 ∧ addr = s.par.regBase + 8 * k) →
      hostMove (.busWrite addr width v) rest s = .refused (.registerAccess addr width) ∧
      hostMove (.busRead addr width var) rest s = .refused (.registerAccess addr width))

/-- R450, R451, R452: reset puts every register at its reset value and the block at IDLE, frees a stuck core,
takes no parameter with it, and leaves memory as it was while IDLE; while BUSY memory keeps every byte outside DST,
and every byte at all when the command is neither ENCODE nor DECODE. The equation also puts the latch and the
working state at `Latch.reset` and `Work.reset`: R450 leaves the working state unspecified and says nothing of
the latch, so those values are the model's choice (log entry 4); so are those of the model's own fields `ret`
and `busyLeft` (log entries 5 and 7). -/
def Obligations.ResetInput : Prop :=
  ∀ (s : State) (rest : List HostOp), ∃ m n,
    hostMove .reset rest s = .next { State.reset with
      par := s.par, mem := m, inbox := rest, observed := s.observed, draws := n } ∧
    (s.phase = .idle → m = s.mem) ∧
    (s.mem.wf → sameOutside s.mem m s.dst s.cap) ∧
    (s.phase = .busy → decodeWord s.latch.cmd ≠ .encode → (∀ k, decodeWord s.latch.cmd ≠ .decode k) →
      m = s.mem)

/-! ## Memory and the host (20_memory.md) -/

/-- R60, R67: a byte reads as the last value written to it, and a write of a run of bytes changes those bytes
only; both keep the canonical form. -/
def Obligations.MemoryReadsLastWrite : Prop :=
  ∀ m : Memory, m.wf →
    (∀ a b, (m.write a b).wf ∧ ∀ x, (m.write a b).read x = if x = a then b else m.read x) ∧
    (∀ a bs, (m.writeRange a bs).wf ∧ (m.writeRange a bs).readRange a bs.length = bs ∧
      sameOutside m (m.writeRange a bs) a bs.length)

/-- R67, and the STATUS of item 15 of 93_implementation_defined.md. Only a core access to an existing byte
without backing makes the core stuck, whichever instruction makes it, and it leaves PHASE and STATUS as they
were. Such an access does so: the byte that pk_emit, pk_write_bit, pk_write_bits or pk_flush emits; the byte
that up_read_bit reads; the first such byte that read_header, freq_count, parse_table, write_container and
ENCODE meet; the first such header byte that DECODE meets, and its first output byte; the first payload byte
and the first output byte of walk. The bytes stored before it stay stored. A stuck core stays stuck, and
STATUS as it is, at every step but the host's reset. Which access comes first, and what a stuck core leaves, is the
model's order (log entry 9; R71 leaves it open). -/
def Obligations.UnbackedByteIsStuck : Prop :=
  (∀ (i : Instr) (s t : State) (a : Nat), s.stuck = none → exec i s = .next t → t.stuck = some a →
    noBacking s.par a ∧ t.phase = s.phase ∧ t.regs.status = s.regs.status) ∧
  (∀ (s : State) (a : Nat), a = s.work.pk.base + s.work.pk.out → noBacking s.par a →
    (∀ v, exec (.pkEmit v) s = .next (stuckState s s.work s.mem a)) ∧
    (∀ b, s.work.pk.cnt + 1 = 8 → ∃ w, exec (.pkWriteBit b) s = .next (stuckState s w s.mem a)) ∧
    (∀ (bits : BitsOperand) (c : Bits) (v k : Nat), PackerOk s →
      (bits = .code c ∧ k = c.length ∨ bits = .value v k) → 8 ≤ s.work.pk.cnt + k →
      ∃ w, exec (.pkWriteBits bits) s = .next (stuckState s w s.mem a)) ∧
    (0 < s.work.pk.cnt → ∃ w, exec .pkFlush s = .next (stuckState s w s.mem a))) ∧
  (∀ (s : State) (a : Nat), a = s.work.up.base + s.work.up.pos / 8 → noBacking s.par a →
    s.work.up.pos ≠ s.work.up.len → exec .upReadBit s = .next (stuckState s s.work s.mem a)) ∧
  (∀ (s : State) (j : Nat), j < 30 → backed s.par s.src j → noBacking s.par (s.src + j) →
    exec .readHeader s = .next (stuckState s s.work s.mem (s.src + j)) ∧
    ∀ skip, buffersOk s → 30 ≤ s.srclen → exec (.decode skip) s =
      .next { stuckState s s.work s.mem (s.src + j) with latch := { s.latch with verify := !skip } }) ∧
  (∀ (s : State) (src srclen : Word64) (j : Nat), j < srclen.toNat → backed s.par src.toNat j →
    noBacking s.par (src.toNat + j) → (∀ b, (s.mem.readRange src.toNat j).count b < 2 ^ 32) →
    ∃ w, exec (.freqCount src srclen) s = .next (stuckState s w s.mem (src.toNat + j))) ∧
  (∀ (s : State) (k : BitVec 16) (j : Nat), k.toNat ≤ 256 → 30 + 5 * k.toNat ≤ s.srclen → j < 5 * k.toNat →
    backed s.par (s.src + 30) j → noBacking s.par (s.src + 30 + j) →
    tableOk (storedEntries s.mem (s.src + 30) (j / 5)) →
    ∃ w, exec (.parseTable k) s = .next (stuckState s w s.mem (s.src + 30 + j))) ∧
  (∀ (s : State) (cs : Word64) (crc : Word32) (k : BitVec 16) (pad : Byte) (h : Header) (c : List Byte)
      (j : Nat), s.mem.wf → buffersOk s → backed s.par s.src s.srclen →
    coded s.work.code (sourceBytes s) → k.toNat = (refLeaves s.work.freq).length →
    h = ⟨s.par.magic, 1, s.latch.srclen, cs, crc, k, pad, 0⟩ →
    c = refContainer h s.work.freq (messageBits s.work.code (sourceBytes s)) → c.length ≤ s.cap →
    j < c.length → backed s.par s.dst j → noBacking s.par (s.dst + j) →
    ∃ w, exec (.writeContainer cs crc k pad) s =
      .next (stuckState s w (s.mem.writeRange s.dst (c.take j)) (s.dst + j))) ∧
  (∀ (s : State) (j : Nat), buffersOk s → j < s.srclen → backed s.par s.src j → noBacking s.par (s.src + j) →
    (∀ b, (s.mem.readRange s.src j).count b < 2 ^ 32) →
    ∃ w, exec .encode s = .next (stuckState s w s.mem (s.src + j))) ∧
  (∀ (s : State) (freq : Table Word32) (code : Table (Option Bits)) (size j : Nat), s.mem.wf → buffersOk s →
    backed s.par s.src s.srclen → Counts freq (sourceBytes s) → isCodeTable freq code →
    size = 30 + 5 * (refLeaves freq).length + ((messageBits code (sourceBytes s)).length + 7) / 8 →
    size ≤ s.cap → j < size → backed s.par s.dst j → noBacking s.par (s.dst + j) →
    ∃ w m, exec .encode s = .next (stuckState s w m (s.dst + j)) ∧ sameOutside s.mem m s.dst j) ∧
  (∀ (s : State) (base len : Nat) (orig : Word64) (code : Table (Option Bits)) (b : Byte) (p rest : Bits),
    isBuilt s.work → 2 ≤ (refLeaves s.work.freq).length → isCodeTable s.work.freq code → 0 < orig.toNat →
    (0 < len → noBacking s.par base →
      ∃ w, exec (.walk base len orig) s = .next (stuckState s w s.mem base)) ∧
    (tget code b = some p → streamBits s.mem base 0 len = p ++ rest →
      backed s.par base ((p.length + 7) / 8) → noBacking s.par s.dst →
      ∃ w, exec (.walk base len orig) s = .next (stuckState s w s.mem s.dst))) ∧
  (∀ (s : State) (skip : Bool) (freq : Table Word32) (code : Table (Option Bits)) (b : Byte) (p rest : Bits),
    buffersOk s → backed s.par s.src s.srclen → containerOk s → IsTableOf freq (sourceEntries s) →
    isCodeTable freq code → 0 < (sourceHeader s).originalSize.toNat →
    (sourceHeader s).originalSize.toNat ≤ s.cap → noBacking s.par s.dst →
    ((sourceEntries s).length = 1 ∨
      2 ≤ (sourceEntries s).length ∧ tget code b = some p ∧ sourceStream s = p ++ rest) →
    ∃ w, exec (.decode skip) s = .next { stuckState s w s.mem s.dst with
      regs := { s.regs with
        hdrOrig := (sourceHeader s).originalSize
        hdrComp := (sourceHeader s).compressedSize
        hdrMisc := refMisc (sourceHeader s) }
      latch := { s.latch with verify := !skip } }) ∧
  (∀ s t : State, s.phase = .busy → s.stuck ≠ none → (∀ rest, s.inbox ≠ .reset :: rest) →
    step s = .next t → t.phase = .busy ∧ t.stuck = s.stuck ∧ t.regs.status = s.regs.status)

/-- R60, R71, R72, R416: a host write of bytes that exist takes effect at once, and a host read of them answers
what plain memory holds and some byte for each without backing (log entries 2 and 15), unless the write meets SRC or DST or the
read meets DST while BUSY: such an access has no step, nor has one to bytes that do not exist. -/
def Obligations.HostMemoryAccess : Prop :=
  ∀ (s : State) (rest : List HostOp) (a n : Nat) (bs : List Byte) (var : String),
    (a + bs.length ≤ 2 ^ s.par.addrW →
      (s.phase = .idle ∨ ∀ x, a ≤ x → x < a + bs.length →
        (x < s.src ∨ s.src + s.srclen ≤ x) ∧ (x < s.dst ∨ s.dst + s.cap ≤ x)) →
      hostMove (.memw a bs) rest s = .next { s with inbox := rest, mem := s.mem.writeRange a bs }) ∧
    (a + n ≤ 2 ^ s.par.addrW →
      (s.phase = .idle ∨ ∀ x, a ≤ x → x < a + n → x < s.dst ∨ s.dst + s.cap ≤ x) →
      ∃ out d, hostMove (.memr a n var) rest s =
          .next { s with inbox := rest, observed := .mem var out :: s.observed, draws := d } ∧
        out.length = n ∧ (∀ k < n, busOk s.par (a + k) → out[k]? = some (s.mem.read (a + k))) ∧
        (backed s.par a n → out = s.mem.readRange a n ∧ d = s.draws)) ∧
    (s.phase = .busy → (∃ x, a ≤ x ∧ x < a + bs.length ∧
        ((s.src ≤ x ∧ x < s.src + s.srclen) ∨ (s.dst ≤ x ∧ x < s.dst + s.cap))) →
      hostMove (.memw a bs) rest s = .refused (.hostRace a bs.length)) ∧
    (s.phase = .busy → (∃ x, a ≤ x ∧ x < a + n ∧ s.dst ≤ x ∧ x < s.dst + s.cap) →
      hostMove (.memr a n var) rest s = .refused (.hostRace a n)) ∧
    (s.phase = .idle → 2 ^ s.par.addrW < a + bs.length → bs ≠ [] →
      hostMove (.memw a bs) rest s = .refused (.hostMemory a bs.length)) ∧
    (s.phase = .idle → 2 ^ s.par.addrW < a + n → 0 < n →
      hostMove (.memr a n var) rest s = .refused (.hostMemory a n))

/-! ## Encodings (30_encoding.md) -/

/-- R113, R93, R357: the four command words, and five illegal ones. -/
def Obligations.CommandWords : Prop :=
  decode [0x00, 0, 0, 0, 0, 0, 0, 0] = .ok (.nop, []) ∧
  decode [0x01, 0, 0, 0, 0, 0, 0, 0] = .ok (.encode, []) ∧
  decode [0x02, 0, 0, 0, 0, 0, 0, 0] = .ok (.decode false, []) ∧
  decode [0x02, 1, 0, 0, 0, 0, 0, 0] = .ok (.decode true, []) ∧
  decode [0x03, 0, 0, 0, 0, 0, 0, 0] = .ok (.illegalCommand 0x03, []) ∧
  decode [0xFF, 0, 0, 0, 0, 0, 0, 0] = .ok (.illegalCommand 0xFF, []) ∧
  decode [0x00, 1, 0, 0, 0, 0, 0, 0] = .ok (.illegalCommand 0x100, []) ∧
  decode [0x01, 1, 0, 0, 0, 0, 0, 0] = .ok (.illegalCommand 0x101, []) ∧
  decode [0x02, 0, 0, 0, 1, 0, 0, 0] = .ok (.illegalCommand 0x100000002, [])

/-- R90, R94, R113: exactly the commands have a command word, of 8 bytes, and decoding it gives the command
back, whatever bytes follow. -/
def Obligations.DecodeEncodeAgree : Prop :=
  ∀ i : Instr, i.wf = true →
    ((encode i).isSome = true ↔ i = .nop ∨ i = .encode ∨ (∃ k, i = .decode k) ∨
      ∃ w, i = .illegalCommand w) ∧
    ∀ bs rest, encode i = some bs → bs.length = 8 ∧ decode (bs ++ rest) = .ok (i, rest)

/-- R90, R353: every 64-bit word is one well-formed command, whose command word is that word. -/
def Obligations.EncodeDecodeAgree : Prop :=
  ∀ w : Word64, (decodeWord w).wf = true ∧ encodeWord (decodeWord w) = some w ∧
    decode (leBytes 8 w.toNat) = .ok (decodeWord w, [])

/-- R92, R93: a word is illegal exactly when its opcode is reserved, or a bit of w[63:9] is set, or bit 8 is
set with an opcode other than 2. -/
def Obligations.IllegalWordsExactly : Prop :=
  ∀ w : Word64, (∃ v, decodeWord w = .illegalCommand v) ↔
    (w.toNat % 256 ≠ 0 ∧ w.toNat % 256 ≠ 1 ∧ w.toNat % 256 ≠ 2) ∨ 512 ≤ w.toNat ∨
    (w.toNat / 256 % 2 = 1 ∧ w.toNat % 256 ≠ 2)

/-- R350, R353 (the schedule is the model's own, log entry 7): when the core's turn has come, a step runs the
instruction that the bytes of the latched command word decode to; at every other time, a stuck core's (R67)
among them, a step is the host's turn; and the next step after placing a word runs that word. -/
def Obligations.StepRunsDecodedCommand : Prop :=
  (∀ (s : State) (i : Instr), s.phase = .busy → s.busyLeft = 0 → s.stuck = none →
    decode (leBytes 8 s.latch.cmd.toNat) = .ok (i, []) → step s = exec i s) ∧
  (∀ s : State, s.phase = .idle ∨ s.busyLeft ≠ 0 ∨ s.stuck ≠ none → step s =
    match s.inbox with
    | [] => .next { s with busyLeft := s.busyLeft - 1 }
    | op :: rest => hostMove op rest { s with busyLeft := s.busyLeft - 1 }) ∧
  (∀ (s : State) (w : Word64), step (s.withFetchWord 64 w.toNat) =
    exec (decodeWord w) (s.withFetchWord 64 w.toNat))

/-! ## The priority queue (40_priority_queue.md) -/

/-- R141, R144, R145. -/
def Obligations.QueueClearEmptySize : Prop :=
  ∀ s : State,
    exec .pqClear s = .next { s with work := { s.work with pq := [] } } ∧
    exec .pqIsEmpty s = .next { s with ret := .flag (decide (s.work.pq.length = 0)) } ∧
    exec .pqSize s = .next { s with ret := .count s.work.pq.length } ∧
    runAll [.pqClear, .pqSize] s = .next { s with work := { s.work with pq := [] }, ret := .count 0 }

/-- R142: an allocated index that is not queued is added, and nothing else; a full queue is UNREACHABLE,
which is a fault of the model (R146). -/
def Obligations.QueueInsert : Prop :=
  ∀ (s : State) (i : Nat),
    (QueueOk s → s.work.pq.length < 256 → i < s.work.nodes.length → i ∉ s.work.pq →
      ∃ q, exec (.pqInsert i) s = .next { s with work := { s.work with pq := q } } ∧
        (∀ j, j ∈ q ↔ j = i ∨ j ∈ s.work.pq) ∧ q.length = s.work.pq.length + 1) ∧
    (s.work.pq.length = 256 → exec (.pqInsert i) s = .fault .pqOverflow)

/-- R143: the index with the least key is returned and removed, and nothing else changes; an empty queue is
UNREACHABLE, which is a fault of the model (R146). -/
def Obligations.QueueExtractMin : Prop :=
  ∀ s : State,
    (QueueOk s → s.work.pq ≠ [] →
      ∃ m q, m ∈ s.work.pq ∧ (∀ j ∈ s.work.pq, j ≠ m → precedes s.work.nodes m j) ∧
        (∀ j, j ∈ q ↔ j ∈ s.work.pq ∧ j ≠ m) ∧ q.length + 1 = s.work.pq.length ∧
        exec .pqExtractMin s = .next { s with work := { s.work with pq := q }, ret := .node m }) ∧
    (s.work.pq = [] → exec .pqExtractMin s = .fault .pqEmpty)

/-- What 40_priority_queue.md derives of its order ("is a function of the queue's content and the frequencies
alone, not of insertion order or of any storage layout"): the indices that extractions return. -/
def Obligations.ExtractOrderOfContent : Prop :=
  (∀ (s t : State) (n : Nat), QueueOk s → QueueOk t → (∀ j, j ∈ s.work.pq ↔ j ∈ t.work.pq) →
    (∀ j ∈ s.work.pq, freqAt s.work.nodes j = freqAt t.work.nodes j) → drain n s = drain n t) ∧
  (∀ (s t : State) (is js : List Nat) (n : Nat), QueueOk s → is.Perm js →
    runAll (is.map .pqInsert) s = .next t →
    ∃ u, runAll (js.map .pqInsert) s = .next u ∧ drain n u = drain n t)

/-! ## The tree (41_tree_builder.md) -/

/-- R162: the leaves in ascending order of symbol, all queued; the root too when there are none (R164) or
one (R165). From every state. -/
def Obligations.BuildLeaves : Prop :=
  ∀ s : State, exec .buildTreeLeaves s = .next { s with work := { s.work with
    nodes := refLeaves s.work.freq
    pq := List.range (refLeaves s.work.freq).length
    root := if (refLeaves s.work.freq).length = 0 then none
      else if (refLeaves s.work.freq).length = 1 then some 0 else s.work.root } }

/-- R163: on the state R162 leaves with n ≥ 2 leaves, merging the two least until one is left gives the
reference tree and its root, and leaves the queue empty. -/
def Obligations.BuildMerges : Prop :=
  ∀ s : State, s.work.nodes = refLeaves s.work.freq →
    s.work.pq = List.range (refLeaves s.work.freq).length → 2 ≤ (refLeaves s.work.freq).length →
    exec .buildTreeMerges s = .next { s with work := { s.work with
      nodes := (refTree s.work.freq).1, root := (refTree s.work.freq).2, pq := [] } }

/-- R166: tree_rebuild is the build of R162 to R165, and reads only FREQ: from every state it leaves the
tree that a build on a sorted queue makes of FREQ. What is left in the queue is the model's reading of R162
and R165 (a single leaf stays queued). -/
def Obligations.RebuildIsTheBuild : Prop :=
  ∀ s : State,
    exec .treeRebuild s = .next { s with work := { s.work with
      nodes := (refTree s.work.freq).1, root := (refTree s.work.freq).2
      pq := if (refLeaves s.work.freq).length = 1 then [0] else [] } } ∧
    runAll (if 2 ≤ (refLeaves s.work.freq).length then [.buildTreeLeaves, .buildTreeMerges]
      else [.buildTreeLeaves]) s = exec .treeRebuild s

/-- R164, R165: no counted symbol gives EMPTY and no node; one counted symbol gives its bare leaf as the
root. -/
def Obligations.SmallTrees : Prop :=
  ∀ s : State,
    ((∀ b, tget s.work.freq b = 0) →
      ∃ q, exec .treeRebuild s =
        .next { s with work := { s.work with nodes := [], root := none, pq := q } }) ∧
    (∀ v, (∀ b, tget s.work.freq b ≠ 0 ↔ b = v) →
      ∃ q, exec .treeRebuild s = .next { s with work := { s.work with
        nodes := [.leaf v (tget s.work.freq v).toNat], root := some 0, pq := q } })

/-- The tree properties that 41_tree_builder.md marks as derived ("Tree properties a model may rely on, each
derived"): (a) the root's frequency is the sum of FREQ; (b) children have smaller indices, and a parent's
frequency is their sum; (c) each leaf is reached from the root by exactly one path; (d) of length at most
n - 1, which is at most 255. With what it derives of the merges: NCOUNT is 2n - 1, the root is the last node,
and no frequency is above 256 * (2^32 - 1). -/
def Obligations.TreeProperties : Prop :=
  ∀ (w : Work) (r : Nat), isBuilt w → w.root = some r →
    freqAt w.nodes r = ((List.range 256).map fun s => (tget w.freq (BitVec.ofNat 8 s)).toNat).sum ∧
    (∀ (i f l k : Nat), w.nodes[i]? = some (.internal f l k) →
      l < i ∧ k < i ∧ f = freqAt w.nodes l + freqAt w.nodes k) ∧
    w.nodes.length = 2 * (refLeaves w.freq).length - 1 ∧ r + 1 = w.nodes.length ∧
    (∀ i, freqAt w.nodes i ≤ 256 * (2 ^ 32 - 1)) ∧ (refLeaves w.freq).length ≤ 256 ∧
    ∀ i < (refLeaves w.freq).length, ∃ p, follow w.nodes r p = some i ∧
      p.length ≤ (refLeaves w.freq).length - 1 ∧ ∀ q, follow w.nodes r q = some i → q = p

/-! ## Codes (42_code_gen.md) -/

/-- R180, R182, R183: on a built tree a symbol's code is its leaf's path from the root, "0" for a bare leaf,
and a symbol without a leaf has NONE. -/
def Obligations.GenerateCodes : Prop :=
  ∀ s : State, isBuilt s.work →
    ∃ c, exec .generateCodes s = .next { s with work := { s.work with code := c } } ∧
      isCodeTable s.work.freq c

/-- What 42_code_gen.md derives of the codes ("no code is a prefix of another (guaranteed by the tree's
leaf-only-terminal structure)", "Every code has length between 1 and 255"): the counted symbols are those with
a code, no code begins another, every code has length 1 to 255, and with two or more symbols the code
lengths fill the code space. -/
def Obligations.CodesArePrefixFree : Prop :=
  ∀ s : State, isBuilt s.work →
    ∃ t, exec .generateCodes s = .next t ∧
      (∀ b, tget t.work.code b = none ↔ tget s.work.freq b = 0) ∧
      (∀ b p, tget t.work.code b = some p → 1 ≤ p.length ∧ p.length ≤ 255) ∧
      (∀ a b p q, tget t.work.code a = some p → tget t.work.code b = some q → a ≠ b → ¬ p <+: q) ∧
      (2 ≤ (refLeaves s.work.freq).length →
        ((List.range 256).map fun x =>
          match tget t.work.code (BitVec.ofNat 8 x) with
          | some p => 2 ^ (255 - p.length)
          | none => 0).sum = 2 ^ 255)

/-- R181: a lookup returns the symbol's code; a symbol with no code is UNREACHABLE, a fault of the model. -/
def Obligations.CodeLookup : Prop :=
  ∀ (s : State) (sym : Byte),
    (∀ c, tget s.work.code sym = some c → exec (.codeLookup sym) s = .next { s with ret := .code c }) ∧
    (tget s.work.code sym = none → exec (.codeLookup sym) s = .fault (.absentSymbol sym))

/-! ## The bit packer (43_bit_packer.md) -/

/-- R200, R201. -/
def Obligations.PackerInitEmit : Prop :=
  (∀ (s : State) (base : Nat), exec (.pkInit base) s =
    .next { s with work := { s.work with pk := ⟨base, 0, 0, 0, 0⟩ } }) ∧
  (∀ (s : State) (v : Byte), backed s.par (s.work.pk.base + s.work.pk.out) 1 →
    exec (.pkEmit v) s = .next { s with
      mem := s.mem.write (s.work.pk.base + s.work.pk.out) v
      work := { s.work with pk := { s.work.pk with out := s.work.pk.out + 1 } } })

/-- R202: shift a bit in; the eighth emits the byte. -/
def Obligations.PackerWriteBit : Prop :=
  ∀ (s : State) (b : Bool),
    (s.work.pk.cnt + 1 ≠ 8 → exec (.pkWriteBit b) s = .next { s with work := { s.work with pk :=
      { s.work.pk with
        acc := BitVec.ofNat 8 (2 * s.work.pk.acc.toNat + b.toNat)
        cnt := s.work.pk.cnt + 1 } } }) ∧
    (s.work.pk.cnt + 1 = 8 → backed s.par (s.work.pk.base + s.work.pk.out) 1 →
      exec (.pkWriteBit b) s = .next { s with
        mem := s.mem.write (s.work.pk.base + s.work.pk.out)
          (BitVec.ofNat 8 (2 * s.work.pk.acc.toNat + b.toNat))
        work := { s.work with pk := ⟨s.work.pk.base, 0, 0, s.work.pk.out + 1, s.work.pk.pad⟩ } })

/-- R203: the bits of a value, most significant first, or of a code string, in order, each by
pk_write_bit; it completes where the bytes it fills are backed, and changes no other byte. -/
def Obligations.PackerWriteBits : Prop :=
  (∀ (s : State) (v n : Nat), exec (.pkWriteBits (.value v n)) s =
    runAll ((List.range n).reverse.map fun j => .pkWriteBit (v.testBit j)) s) ∧
  (∀ (s : State) (c : Bits), exec (.pkWriteBits (.code c)) s = runAll (c.map .pkWriteBit) s) ∧
  (∀ (s : State) (bits : BitsOperand) (c : Bits) (v k : Nat), PackerOk s → s.mem.wf →
    (bits = .code c ∧ k = c.length ∨ bits = .value v k) →
    backed s.par (s.work.pk.base + s.work.pk.out) ((s.work.pk.cnt + k) / 8) →
    ∃ acc m, exec (.pkWriteBits bits) s = .next { s with
        mem := m
        work := { s.work with pk := ⟨s.work.pk.base, acc, (s.work.pk.cnt + k) % 8,
          s.work.pk.out + (s.work.pk.cnt + k) / 8, s.work.pk.pad⟩ } } ∧
      sameOutside s.mem m (s.work.pk.base + s.work.pk.out) ((s.work.pk.cnt + k) / 8))

/-- R204: flush pads the bits held on the right with zeros and records how many; with none held it writes
nothing and records 0. -/
def Obligations.PackerFlush : Prop :=
  ∀ s : State,
    (s.work.pk.cnt = 0 → exec .pkFlush s =
      .next { s with work := { s.work with pk := { s.work.pk with pad := 0 } } }) ∧
    (0 < s.work.pk.cnt → s.work.pk.cnt ≤ 7 → backed s.par (s.work.pk.base + s.work.pk.out) 1 →
      exec .pkFlush s = .next { s with
        mem := s.mem.write (s.work.pk.base + s.work.pk.out)
          (BitVec.ofNat 8 (s.work.pk.acc.toNat * 2 ^ (8 - s.work.pk.cnt)))
        work := { s.work with pk := ⟨s.work.pk.base, 0, 0, s.work.pk.out + 1, 8 - s.work.pk.cnt⟩ } })

/-- What 43_bit_packer.md derives of its operations ("where T is the total number of bits written since
`pk_init`"): pk_init, any code strings and pk_flush leave ceil(T/8) bytes and the padding; bit k
of the strings is bit 7 - k mod 8 of byte k div 8, the bits after the T-th are 0, and no other byte of memory
changes. -/
def Obligations.PackedStream : Prop :=
  ∀ (s : State) (base : Nat) (codes : List Bits), s.mem.wf →
    backed s.par base ((codes.flatten.length + 7) / 8) →
    ∃ m, runAll (.pkInit base :: codes.map (fun c => .pkWriteBits (.code c)) ++ [.pkFlush]) s =
        .next { s with mem := m, work := { s.work with pk :=
          ⟨base, 0, 0, (codes.flatten.length + 7) / 8, (8 - codes.flatten.length % 8) % 8⟩ } } ∧
      (∀ k < 8 * ((codes.flatten.length + 7) / 8),
        (m.read (base + k / 8)).getLsbD (7 - k % 8) = codes.flatten.getD k false) ∧
      sameOutside s.mem m base ((codes.flatten.length + 7) / 8)

/-! ## The bit unpacker (44_bit_unpacker.md) -/

/-- R220, R221, R223: start, read the next bit, say how many were read; at L the answer is END and nothing
else changes (R222). -/
def Obligations.UnpackerSteps : Prop :=
  ∀ s : State,
    (∀ base len, exec (.upInit base len) s =
      .next { s with work := { s.work with up := ⟨base, 0, len⟩ } }) ∧
    exec .upConsumed s = .next { s with ret := .count s.work.up.pos } ∧
    (s.work.up.pos = s.work.up.len → exec .upReadBit s = .next { s with ret := .endOfData }) ∧
    (s.work.up.pos ≠ s.work.up.len → backed s.par (s.work.up.base + s.work.up.pos / 8) 1 →
      exec .upReadBit s = .next { s with
        work := { s.work with up := { s.work.up with pos := s.work.up.pos + 1 } }
        ret := .bit ((s.mem.read (s.work.up.base + s.work.up.pos / 8)).getLsbD
          (7 - s.work.up.pos % 8)) })

/-- R221, R222: what a packer wrote is read back bit by bit, and then END; the bits after L are never
read. -/
def Obligations.UnpackReadsPacked : Prop :=
  ∀ (s : State) (base : Nat) (bits : Bits), backed s.par base ((bits.length + 7) / 8) →
    (∀ k (h : k < bits.length), (s.mem.read (base + k / 8)).getLsbD (7 - k % 8) = bits[k]) →
    (∀ k (h : k < bits.length),
      runAll (.upInit base bits.length :: List.replicate (k + 1) .upReadBit) s =
        .next { s with work := { s.work with up := ⟨base, k + 1, bits.length⟩ }, ret := .bit bits[k] }) ∧
    runAll (.upInit base bits.length :: List.replicate (bits.length + 1) .upReadBit) s =
      .next { s with work := { s.work with up := ⟨base, bits.length, bits.length⟩ }, ret := .endOfData }

/-! ## The checksum (45_crc32.md) -/

/-- R241, R243, R244: the three operations; crc_update is the table form, CRC_TAB being R242's eight steps. -/
def Obligations.CrcSteps : Prop :=
  ∀ (s : State) (b : Byte),
    exec .crcInit s = .next { s with work := { s.work with crcReg := 0xFFFFFFFF } } ∧
    exec (.crcUpdate b) s = .next { s with work := { s.work with
      crcReg := (s.work.crcReg >>> 8) ^^^
        refCrcByte (((s.work.crcReg ^^^ b.zeroExtend 32) &&& 0xFF)) } } ∧
    exec .crcFinal s = .next { s with ret := .crc (s.work.crcReg ^^^ 0xFFFFFFFF) }

/-- What 45_crc32.md derives of its operations ("This equals one iteration of the outer loop"): crc_init,
crc_update of each byte and crc_final return the bit by bit CRC32 of the bytes; that of "123456789" is
0xCBF43926, its check value, and that of no byte is 0. -/
def Obligations.CrcOfBytes : Prop :=
  (∀ (s : State) (bs : List Byte), ∃ c,
    runAll (.crcInit :: bs.map .crcUpdate ++ [.crcFinal]) s =
      .next { s with work := { s.work with crcReg := c }, ret := .crc (refCrc32 bs) }) ∧
  refCrc32 [0x31, 0x32, 0x33, 0x34, 0x35, 0x36, 0x37, 0x38, 0x39] = 0xCBF43926 ∧ refCrc32 [] = 0

/-! ## ENCODE (46_encode.md) -/

/-- R261, R262: the count of every byte value; a byte value that occurs 2^32 times or more raises
COUNT_OVERFLOW(1), with no byte of memory written. -/
def Obligations.FreqCount : Prop :=
  ∀ (s : State) (src srclen : Word64), backed s.par src.toNat srclen.toNat →
    ((∀ b, (s.mem.readRange src.toNat srclen.toNat).count b < 2 ^ 32) →
      ∃ t, exec (.freqCount src srclen) s = .next { s with work := { s.work with freq := t } } ∧
        Counts t (s.mem.readRange src.toNat srclen.toNat)) ∧
    ((∃ b, 2 ^ 32 ≤ (s.mem.readRange src.toNat srclen.toNat).count b) →
      ∃ t, exec (.freqCount src srclen) s =
        .next (endState s (blankRegs s.regs 0x156) { s.work with freq := t } s.mem))

/-- R270: the container's bytes at dst, the packer's counts, the registers and the successful end. -/
def Obligations.WriteContainer : Prop :=
  ∀ (s : State) (cs : Word64) (crc : Word32) (k : BitVec 16) (pad : Byte) (bits : Bits),
    s.mem.wf → buffersOk s → backed s.par s.src s.srclen →
    coded s.work.code (sourceBytes s) → bits = messageBits s.work.code (sourceBytes s) →
    k.toNat = (refLeaves s.work.freq).length → 30 + 5 * k.toNat + (bits.length + 7) / 8 ≤ s.cap →
    backed s.par s.dst (30 + 5 * k.toNat + (bits.length + 7) / 8) →
    exec (.writeContainer cs crc k pad) s = .next (endState s
      (reportRegs s.regs ⟨s.par.magic, 1, s.latch.srclen, cs, crc, k, pad, 0⟩ 0x2
        (BitVec.ofNat 64 (30 + 5 * k.toNat + cs.toNat)) (crc.zeroExtend 64))
      { s.work with pk := ⟨s.dst + 30 + 5 * k.toNat, 0, 0, (bits.length + 7) / 8,
        (8 - bits.length % 8) % 8⟩ }
      (s.mem.writeRange s.dst
        (refContainer ⟨s.par.magic, 1, s.latch.srclen, cs, crc, k, pad, 0⟩ s.work.freq bits)))

/-- R260, R263, R266 to R270, and the sizes that 46_encode.md derives (T, cs, pad): ENCODE of a backed source
into a backed destination with room writes exactly the container of R95 to R107 and reports it. -/
def Obligations.EncodeWritesContainer : Prop :=
  ∀ s : State, s.mem.wf → buffersOk s → backed s.par s.src s.srclen →
    (∀ b, (sourceBytes s).count b < 2 ^ 32) →
    ∃ freq code bits, Counts freq (sourceBytes s) ∧ isCodeTable freq code ∧
      coded code (sourceBytes s) ∧ bits = messageBits code (sourceBytes s) ∧
      bits.length = ((List.range 256).map fun x => (tget freq (BitVec.ofNat 8 x)).toNat *
        ((tget code (BitVec.ofNat 8 x)).getD []).length).sum ∧
      ∀ k size h, k = (refLeaves freq).length → size = 30 + 5 * k + (bits.length + 7) / 8 →
        h = Header.mk s.par.magic 1 s.latch.srclen (BitVec.ofNat 64 ((bits.length + 7) / 8))
          (refCrc32 (sourceBytes s)) (BitVec.ofNat 16 k) (BitVec.ofNat 8 ((8 - bits.length % 8) % 8)) 0 →
        size ≤ s.cap → backed s.par s.dst size →
        (refContainer h freq bits).length = size ∧
        ∃ w, exec .encode s = .next (endState s
          (reportRegs s.regs h 0x2 (BitVec.ofNat 64 size) ((refCrc32 (sourceBytes s)).zeroExtend 64)) w
          (s.mem.writeRange s.dst (refContainer h freq bits)))

/-- R271, with R65, R66, R262, R268 and the order of R404: each error of ENCODE, its STATUS word, the
cleared registers, and no byte of memory written. -/
def Obligations.EncodeErrors : Prop :=
  ∀ (s : State) (status : Word64),
    (2 ^ s.par.addrW ≤ s.src ∨ 2 ^ s.par.addrW < s.src + s.srclen) ∧ status = 0x166 ∨
    (s.src < 2 ^ s.par.addrW ∧ s.src + s.srclen ≤ 2 ^ s.par.addrW ∧
      (2 ^ s.par.addrW ≤ s.dst ∨ 2 ^ s.par.addrW < s.dst + s.cap)) ∧ status = 0x266 ∨
    (s.src < 2 ^ s.par.addrW ∧ s.src + s.srclen ≤ 2 ^ s.par.addrW ∧ s.dst < 2 ^ s.par.addrW ∧
      s.dst + s.cap ≤ 2 ^ s.par.addrW ∧ 0 < s.srclen ∧ 0 < s.cap ∧ s.src < s.dst + s.cap ∧
      s.dst < s.src + s.srclen) ∧ status = 0x366 ∨
    (buffersOk s ∧ backed s.par s.src s.srclen ∧ ∃ b, 2 ^ 32 ≤ (sourceBytes s).count b) ∧
      status = 0x156 ∨
    (buffersOk s ∧ backed s.par s.src s.srclen ∧ ∃ freq code, Counts freq (sourceBytes s) ∧
      isCodeTable freq code ∧ s.cap < 30 + 5 * (refLeaves freq).length +
        ((messageBits code (sourceBytes s)).length + 7) / 8) ∧ status = 0x146 →
    ∃ w, exec .encode s = .next (endState s (blankRegs s.regs status) w s.mem)

/-- R274, R275: the empty input gives the header alone; a source of one byte value gives one table entry and a
payload of zeros, one bit a byte. -/
def Obligations.EncodeSmallInputs : Prop :=
  (∀ s : State, s.mem.wf → buffersOk s → s.srclen = 0 → 30 ≤ s.cap → backed s.par s.dst 30 →
    ∃ w, exec .encode s = .next (endState s
      (reportRegs s.regs ⟨s.par.magic, 1, 0, 0, 0, 0, 0, 0⟩ 0x2 30 0) w
      (s.mem.writeRange s.dst (leBytes 4 s.par.magic.toNat ++ [1, 0] ++ List.replicate 24 0)))) ∧
  (∀ (s : State) (v : Byte), s.mem.wf → buffersOk s → backed s.par s.src s.srclen → 0 < s.srclen →
    s.srclen < 2 ^ 32 → sourceBytes s = List.replicate s.srclen v →
    35 + (s.srclen + 7) / 8 ≤ s.cap → backed s.par s.dst (35 + (s.srclen + 7) / 8) →
    ∃ w h, h = Header.mk s.par.magic 1 s.latch.srclen (BitVec.ofNat 64 ((s.srclen + 7) / 8))
        (refCrc32 (sourceBytes s)) 1 (BitVec.ofNat 8 ((8 - s.srclen % 8) % 8)) 0 ∧
      exec .encode s = .next (endState s
        (reportRegs s.regs h 0x2 (BitVec.ofNat 64 (35 + (s.srclen + 7) / 8))
          ((refCrc32 (sourceBytes s)).zeroExtend 64)) w
        (s.mem.writeRange s.dst (h.toBytes ++ (v :: leBytes 4 s.srclen) ++
          List.replicate ((s.srclen + 7) / 8) 0))))

/-! ## DECODE (47_decode.md) -/

/-- R302, R97: the 30 header bytes, little-endian, and the header registers. -/
def Obligations.ReadHeader : Prop :=
  ∀ s : State, backed s.par s.src 30 →
    ∃ h, exec .readHeader s = .next { s with
        ret := .header h
        regs := { s.regs with
          hdrOrig := h.originalSize, hdrComp := h.compressedSize, hdrMisc := refMisc h } } ∧
      ∀ x : Nat → Nat, (∀ i, x i = (s.mem.read (s.src + i)).toNat) →
        h.magic.toNat = x 0 + 2 ^ 8 * x 1 + 2 ^ 16 * x 2 + 2 ^ 24 * x 3 ∧
        h.version.toNat = x 4 + 2 ^ 8 * x 5 ∧
        h.originalSize.toNat = ((List.range 8).map fun i => x (6 + i) * 2 ^ (8 * i)).sum ∧
        h.compressedSize.toNat = ((List.range 8).map fun i => x (14 + i) * 2 ^ (8 * i)).sum ∧
        h.checksum.toNat = ((List.range 4).map fun i => x (22 + i) * 2 ^ (8 * i)).sum ∧
        h.entryCount.toNat = x 26 + 2 ^ 8 * x 27 ∧ h.paddingBits.toNat = x 28 ∧
        h.reserved.toNat = x 29

/-- R306: the table of k entries fills FREQ; and each of its four errors, in their order. -/
def Obligations.ParseTable : Prop :=
  ∀ (s : State) (k : BitVec 16),
    (k.toNat ≤ 256 → 30 + 5 * k.toNat ≤ s.srclen → backed s.par (s.src + 30) (5 * k.toNat) →
      tableOk (storedEntries s.mem (s.src + 30) k.toNat) →
      ∃ t seen, exec (.parseTable k) s =
          .next { s with work := { s.work with freq := t, seen := seen } } ∧
        IsTableOf t (storedEntries s.mem (s.src + 30) k.toNat)) ∧
    (∀ status : Word64,
      256 < k.toNat ∧ status = 0x516 ∨
      (k.toNat ≤ 256 ∧ s.srclen < 30 + 5 * k.toNat) ∧ status = 0x616 ∨
      (k.toNat ≤ 256 ∧ 30 + 5 * k.toNat ≤ s.srclen ∧ backed s.par (s.src + 30) (5 * k.toNat) ∧
        ∃ j e, (storedEntries s.mem (s.src + 30) k.toNat)[j]? = some e ∧
          tableOk ((storedEntries s.mem (s.src + 30) k.toNat).take j) ∧
          (e.2 = 0 ∧ status = 0x716 ∨
            e.2 ≠ 0 ∧ e.1 ∈ ((storedEntries s.mem (s.src + 30) k.toNat).take j).map Prod.fst ∧
              status = 0x816)) →
      ∃ w, exec (.parseTable k) s = .next (endState s
        { s.regs with status := status, resultLen := 0, crcCalc := 0 } w s.mem))

/-- R307, R108: L where the extent fits, and each of the three errors, in their order. -/
def Obligations.CheckPayloadExtent : Prop :=
  ∀ (s : State) (k : BitVec 16) (cs : Word64) (pad : Byte) (size : Nat),
    size = 30 + 5 * k.toNat + cs.toNat →
    (s.srclen = size → (cs = 0 → pad = 0) →
      exec (.checkPayloadExtent k cs pad) s =
        .next { s with ret := .count (8 * cs.toNat - pad.toNat) }) ∧
    ∀ status : Word64,
      s.srclen < size ∧ status = 0x916 ∨ size < s.srclen ∧ status = 0xA16 ∨
      (s.srclen = size ∧ cs = 0 ∧ pad ≠ 0) ∧ status = 0xB16 →
      exec (.checkPayloadExtent k cs pad) s = .next (endState s
        { s.regs with status := status, resultLen := 0, crcCalc := 0 } s.work s.mem)

/-- R311: on a tree of two or more symbols, a stream that is exactly the codes of `orig` symbols is emitted
as those symbols; bits left over raise CORRUPT_STREAM(3) and a stream that ends in or before a code raises
CORRUPT_STREAM(1), with every byte outside `[dst, dst + orig)` unchanged (R313). -/
def Obligations.WalkEmitsSymbols : Prop :=
  ∀ (s : State) (base len : Nat) (orig : Word64) (code : Table (Option Bits)) (out : List Byte),
    s.mem.wf → isBuilt s.work → 2 ≤ (refLeaves s.work.freq).length → isCodeTable s.work.freq code →
    coded code out → backed s.par base ((len + 7) / 8) → backed s.par s.dst orig.toNat →
    (∀ x, base ≤ x → x < base + (len + 7) / 8 → x < s.dst ∨ s.dst + orig.toNat ≤ x) →
    (streamBits s.mem base 0 len = messageBits code out → out.length = orig.toNat →
      ∃ node, exec (.walk base len orig) s = .next { s with
        mem := s.mem.writeRange s.dst out
        work := { s.work with up := ⟨base, len, len⟩, wk := ⟨node, orig.toNat⟩ } }) ∧
    (∀ status : Word64,
      (∃ rest, rest ≠ [] ∧ streamBits s.mem base 0 len = messageBits code out ++ rest ∧
        out.length = orig.toNat) ∧ status = 0x326 ∨
      (∃ p c sym, c ≠ [] ∧ streamBits s.mem base 0 len = messageBits code out ++ p ∧
        tget code sym = some (p ++ c) ∧ out.length < orig.toNat) ∧ status = 0x126 →
      ∃ w m n, exec (.walk base len orig) s = .next { endState s
          { s.regs with status := status, resultLen := 0, crcCalc := 0 } w m with draws := n } ∧
        sameOutside s.mem m s.dst orig.toNat)

/-- R300, R311 to R313: DECODE of a container whose stream is the codes of `original_size` symbols writes
those symbols; with verification on, when their CRC32 is the header's checksum. -/
def Obligations.DecodeEmitsMessage : Prop :=
  ∀ (s : State) (skip : Bool) (freq : Table Word32) (code : Table (Option Bits)) (out : List Byte),
    s.mem.wf → buffersOk s → backed s.par s.src s.srclen → containerOk s →
    IsTableOf freq (sourceEntries s) → 2 ≤ (sourceEntries s).length → isCodeTable freq code →
    coded code out → sourceStream s = messageBits code out →
    out.length = (sourceHeader s).originalSize.toNat → out.length ≤ s.cap →
    backed s.par s.dst out.length → (skip = true ∨ refCrc32 out = (sourceHeader s).checksum) →
    ∃ w, exec (.decode skip) s = .next { endState s
      (reportRegs s.regs (sourceHeader s) 0x2 (sourceHeader s).originalSize
        (if skip then 0 else (refCrc32 out).zeroExtend 64)) w (s.mem.writeRange s.dst out) with
      latch := { s.latch with verify := !skip } }

/-- R308, R310: an empty table with `original_size = 0` gives no byte, and a table of one symbol gives that
symbol `original_size` times, without a look at the payload. -/
def Obligations.DecodeWithoutWalk : Prop :=
  ∀ (s : State) (skip : Bool) (out : List Byte),
    s.mem.wf → buffersOk s → backed s.par s.src s.srclen → containerOk s →
    (sourceEntries s = [] ∧ out = [] ∨ ∃ e, sourceEntries s = [e] ∧ out = List.replicate out.length e.1) →
    out.length = (sourceHeader s).originalSize.toNat → out.length ≤ s.cap →
    backed s.par s.dst out.length → (skip = true ∨ refCrc32 out = (sourceHeader s).checksum) →
    ∃ w, exec (.decode skip) s = .next { endState s
      (reportRegs s.regs (sourceHeader s) 0x2 (sourceHeader s).originalSize
        (if skip then 0 else (refCrc32 out).zeroExtend 64)) w (s.mem.writeRange s.dst out) with
      latch := { s.latch with verify := !skip } }

/-- R301, R303, R304, R305, with the parameter checks before them (R65, R66, R404): the errors up to the
header's fields; before the header is read the header registers become 0, and then they report it. -/
def Obligations.DecodeHeaderErrors : Prop :=
  ∀ (s : State) (skip : Bool) (status : Word64),
    ((2 ^ s.par.addrW ≤ s.src ∨ 2 ^ s.par.addrW < s.src + s.srclen) ∧ status = 0x166 ∨
      (s.src < 2 ^ s.par.addrW ∧ s.src + s.srclen ≤ 2 ^ s.par.addrW ∧
        (2 ^ s.par.addrW ≤ s.dst ∨ 2 ^ s.par.addrW < s.dst + s.cap)) ∧ status = 0x266 ∨
      (s.src < 2 ^ s.par.addrW ∧ s.src + s.srclen ≤ 2 ^ s.par.addrW ∧ s.dst < 2 ^ s.par.addrW ∧
        s.dst + s.cap ≤ 2 ^ s.par.addrW ∧ 0 < s.srclen ∧ 0 < s.cap ∧ s.src < s.dst + s.cap ∧
        s.dst < s.src + s.srclen) ∧ status = 0x366 ∨
      (buffersOk s ∧ s.srclen < 30) ∧ status = 0x116 →
      exec (.decode skip) s = .next { endState s (blankRegs s.regs status) s.work s.mem with
        latch := { s.latch with verify := !skip } }) ∧
    (buffersOk s → 30 ≤ s.srclen → backed s.par s.src 30 →
      (sourceHeader s).magic ≠ s.par.magic ∧ status = 0x216 ∨
      ((sourceHeader s).magic = s.par.magic ∧ (sourceHeader s).version ≠ 1) ∧ status = 0x316 ∨
      ((sourceHeader s).magic = s.par.magic ∧ (sourceHeader s).version = 1 ∧
        7 < (sourceHeader s).paddingBits.toNat) ∧ status = 0x416 →
      exec (.decode skip) s = .next { endState s
        (reportRegs s.regs (sourceHeader s) status 0 0) s.work s.mem with
        latch := { s.latch with verify := !skip } })

/-- R306, R307 within DECODE (R404): the errors of the table and of the payload's extent, with the header
reported and no byte of memory written (R313). -/
def Obligations.DecodeTableErrors : Prop :=
  ∀ (s : State) (skip : Bool) (status : Word64) (k : Nat),
    buffersOk s → backed s.par s.src s.srclen → 30 ≤ s.srclen →
    (sourceHeader s).magic = s.par.magic → (sourceHeader s).version = 1 →
    (sourceHeader s).paddingBits.toNat ≤ 7 → k = (sourceHeader s).entryCount.toNat →
    (256 < k ∧ status = 0x516 ∨ (k ≤ 256 ∧ s.srclen < 30 + 5 * k) ∧ status = 0x616 ∨
      (k ≤ 256 ∧ 30 + 5 * k ≤ s.srclen ∧ ∃ j e, (sourceEntries s)[j]? = some e ∧
        tableOk ((sourceEntries s).take j) ∧
        (e.2 = 0 ∧ status = 0x716 ∨
          e.2 ≠ 0 ∧ e.1 ∈ ((sourceEntries s).take j).map Prod.fst ∧ status = 0x816)) ∨
      (k ≤ 256 ∧ 30 + 5 * k ≤ s.srclen ∧ tableOk (sourceEntries s) ∧
        (s.srclen < 30 + 5 * k + (sourceHeader s).compressedSize.toNat ∧ status = 0x916 ∨
          30 + 5 * k + (sourceHeader s).compressedSize.toNat < s.srclen ∧ status = 0xA16 ∨
          (s.srclen = 30 + 5 * k + (sourceHeader s).compressedSize.toNat ∧
            (sourceHeader s).compressedSize = 0 ∧ (sourceHeader s).paddingBits ≠ 0) ∧
              status = 0xB16))) →
    ∃ w, exec (.decode skip) s = .next { endState s
      (reportRegs s.regs (sourceHeader s) status 0 0) w s.mem with
      latch := { s.latch with verify := !skip } }

/-- R308, R309: an empty table with a nonzero `original_size` raises FORMAT(12), and an `original_size`
above the capacity RESOURCE(1), both before any byte is written. -/
def Obligations.DecodeSizeErrors : Prop :=
  ∀ (s : State) (skip : Bool) (status : Word64),
    buffersOk s → backed s.par s.src s.srclen → containerOk s →
    (sourceEntries s = [] ∧ (sourceHeader s).originalSize ≠ 0) ∧ status = 0xC16 ∨
    (sourceEntries s ≠ [] ∧ s.cap < (sourceHeader s).originalSize.toNat) ∧ status = 0x146 →
    ∃ w, exec (.decode skip) s = .next { endState s
      (reportRegs s.regs (sourceHeader s) status 0 0) w s.mem with
      latch := { s.latch with verify := !skip } }

/-- R311, R312, R313: the errors after output has begun, with the checksum's on every path: the walk, the
single leaf and the empty table. CRC_CALC is 0 after CORRUPT_STREAM and the CRC32 of the output after
CHECKSUM_MISMATCH; every byte outside `[dst, dst + original_size)` is unchanged. -/
def Obligations.DecodeStreamErrors : Prop :=
  ∀ (s : State) (skip : Bool) (freq : Table Word32) (code : Table (Option Bits)) (out : List Byte)
    (status crc : Word64),
    s.mem.wf → buffersOk s → backed s.par s.src s.srclen → containerOk s →
    (sourceHeader s).originalSize.toNat ≤ s.cap →
    backed s.par s.dst (sourceHeader s).originalSize.toNat →
    (IsTableOf freq (sourceEntries s) ∧ 2 ≤ (sourceEntries s).length ∧ isCodeTable freq code ∧
        coded code out ∧
        ((∃ rest, rest ≠ [] ∧ sourceStream s = messageBits code out ++ rest ∧
            out.length = (sourceHeader s).originalSize.toNat) ∧ status = 0x326 ∧ crc = 0 ∨
          (∃ p c sym, c ≠ [] ∧ sourceStream s = messageBits code out ++ p ∧
            tget code sym = some (p ++ c) ∧ out.length < (sourceHeader s).originalSize.toNat) ∧
              status = 0x126 ∧ crc = 0) ∨
      ((IsTableOf freq (sourceEntries s) ∧ 2 ≤ (sourceEntries s).length ∧ isCodeTable freq code ∧
            coded code out ∧ sourceStream s = messageBits code out ∨
          (∃ e, sourceEntries s = [e] ∧ out = List.replicate out.length e.1) ∨
          sourceEntries s = [] ∧ out = []) ∧
        out.length = (sourceHeader s).originalSize.toNat ∧ skip = false ∧
        refCrc32 out ≠ (sourceHeader s).checksum) ∧ status = 0x136 ∧ crc = (refCrc32 out).zeroExtend 64) →
    ∃ w m n, exec (.decode skip) s = .next { endState s
        (reportRegs s.regs (sourceHeader s) status 0 crc) w m with
        latch := { s.latch with verify := !skip }, draws := n } ∧
      sameOutside s.mem m s.dst (sourceHeader s).originalSize.toNat

/-- What 47_decode.md derives of the two commands ("succeeds and writes exactly B"): DECODE, verified or not,
of a container that ENCODE wrote gives the bytes back. -/
def Obligations.RoundTrip : Prop :=
  ∀ (s t u : State) (skip : Bool), s.mem.wf → buffersOk s → backed s.par s.src s.srclen →
    (∀ b, (sourceBytes s).count b < 2 ^ 32) → backed s.par s.dst s.cap → exec .encode s = .next t →
    t.regs.status = 0x2 →
    u.mem.wf → buffersOk u → backed u.par u.src u.srclen → u.par.magic = s.par.magic →
    u.srclen = t.regs.resultLen.toNat →
    sourceBytes u = t.mem.readRange s.dst t.regs.resultLen.toNat → s.srclen ≤ u.cap →
    backed u.par u.dst s.srclen →
    ∃ v, exec (.decode skip) u = .next v ∧ v.regs.status = 0x2 ∧ v.regs.resultLen = s.latch.srclen ∧
      v.mem.readRange u.dst s.srclen = sourceBytes s ∧ sameOutside u.mem v.mem u.dst s.srclen

/-! ## Control (48_control.md, 60_exceptions.md, 70_reset_and_hazards.md) -/

/-- R352: what issuing latches; how many host moves the command lasts is any number (R462, R463). -/
def Obligations.IssueLatchesOperands : Prop :=
  ∀ (s : State) (rest : List HostOp) (w : Word64), s.phase = .idle →
    ∃ n d, hostMove (.wr .cmd w) rest s = .next { s with
      inbox := rest
      phase := .busy
      stuck := none
      regs := { s.regs with status := 0x1 }
      latch := ⟨w, s.regs.srcAddr, s.regs.srcLen, s.regs.dstAddr, s.regs.dstCap, !w.getLsbD 8⟩
      busyLeft := n
      draws := d }

/-- R356: NOP writes STATUS and PHASE only. -/
def Obligations.NopEnds : Prop :=
  ∀ s : State, exec .nop s =
    .next { s with phase := .idle, busyLeft := 0, regs := { s.regs with status := 0x2 } }

/-- R357: an illegal word ends with ILLEGAL_CMD(1) or (2) and keeps memory and every other register. -/
def Obligations.IllegalCommandEnds : Prop :=
  ∀ (s : State) (w : Word64), exec (.illegalCommand w) s =
    .next { s with
      phase := .idle
      busyLeft := 0
      regs := { s.regs with status :=
        if w.toNat % 256 ≠ 0 ∧ w.toNat % 256 ≠ 1 ∧ w.toNat % 256 ≠ 2 then 0x176 else 0x276 } }

/-- R112, R462: POLL reads STATUS at every host turn, a stuck core's (R67) among them, and is over when BUSY
reads 0. -/
def Obligations.PollReadsUntilIdle : Prop :=
  ∀ (s : State) (rest : List HostOp) (var : String), StatusOk s → s.inbox = .poll var :: rest →
    (s.phase = .busy → s.busyLeft ≠ 0 ∨ s.stuck ≠ none → step s = .next { s with
      busyLeft := s.busyLeft - 1, observed := .reg var s.regs.status :: s.observed }) ∧
    (s.phase = .idle → step s = .next { s with
      busyLeft := s.busyLeft - 1, observed := .reg var s.regs.status :: s.observed, inbox := rest })

/-- R463, R354, R355: every command whose buffers, if they pass R65 and R66, are backed ends: idle, with
DONE, and with a STATUS word of R401 and R402. One step from issue to end is the model's schedule (log entry
7). -/
def Obligations.EveryCommandEnds : Prop :=
  ∀ (s : State) (w : Word64), s.mem.wf →
    (buffersOk s → backed s.par s.src s.srclen ∧ backed s.par s.dst s.cap) →
    ∃ t, exec (decodeWord w) s = .next t ∧ t.phase = .idle ∧ t.regs.status ∈ statusWords ∧
      t.regs.status.getLsbD 0 = false ∧ t.regs.status.getLsbD 1 = true

/-- R61, R68: a command writes no byte outside its destination buffer and none of its source; DECODE writes
none outside `[dst, dst + original_size)`. -/
def Obligations.CommandsWriteOnlyDst : Prop :=
  ∀ (s t : State) (w : Word64), s.mem.wf → exec (decodeWord w) s = .next t →
    sameOutside s.mem t.mem s.dst s.cap ∧
    t.mem.readRange s.src s.srclen = s.mem.readRange s.src s.srclen ∧
    ((∃ k, decodeWord w = .decode k) →
      sameOutside s.mem t.mem s.dst (sourceHeader s).originalSize.toNat)

/-- R46, R272: no command's outcome depends on what the internal working state held before it. The two runs
start with the same counter `draws`, so a byte of DST that R313 leaves with any value is the same draw in
both: that equality is the model's counter (log entry 2), not the spec's. -/
def Obligations.WorkingStateInvisible : Prop :=
  ∀ (s : State) (c : Word64) (w : Work) (r : OpRet),
    hideWork (exec (decodeWord c) { s with work := w, ret := r }) =
      hideWork (exec (decodeWord c) s)

/-! ## Invariants -/

/-- Every step keeps memory canonical and inside the address space (R60), CRC_CALC[63:32] zero (R37), the
packer's invariant (R206), the queue's and the arena's bounds (R41, R42), and the parameters (R7). -/
def Obligations.StepKeepsInvariants : Prop :=
  ∀ s t : State, step s = .next t → t.par = s.par ∧
    (MemOk s → CrcCalcOk s → PackerOk s → QueueOk s → MemOk t ∧ CrcCalcOk t ∧ PackerOk t ∧ QueueOk t)

/-- R25, R401, R402: STATUS holds a legal word at every step, BUSY is PHASE (R22), and only a running command
is stuck (R67). -/
def Obligations.StatusStaysLegal : Prop :=
  ∀ s t : State, StatusOk s → step s = .next t → StatusOk t

/-- The invariants hold after reset; the working state's and memory's reset values are the model's (log
entries 3 and 4). -/
def Obligations.ResetMeetsInvariants : Prop :=
  MemOk State.reset ∧ CrcCalcOk State.reset ∧ PackerOk State.reset ∧ QueueOk State.reset ∧
  StatusOk State.reset
end

