-- ==== Sys2Proof/Laws/State.lean ====
section
/-! SUPPORT. What each named update of the state leaves in each field. -/

namespace Sys2Proof.Machine

/-- ADDR_W is 1 to 64 (R7). -/
theorem addrW_range (p : Params) : 1 ≤ p.addrW ∧ p.addrW ≤ 64 := by
  have := p.topBit.isLt
  rw [Params.addrW]
  omega

/-! What each named update of the working state leaves in each field. -/

@[simp] theorem Work.setFreq_freq (w : Work) (x : Table Word32) : (w.setFreq x).freq = x := rfl
@[simp] theorem Work.setFreq_seen (w : Work) (x : Table Word32) : (w.setFreq x).seen = w.seen := rfl
@[simp] theorem Work.setFreq_nodes (w : Work) (x : Table Word32) : (w.setFreq x).nodes = w.nodes := rfl
@[simp] theorem Work.setFreq_root (w : Work) (x : Table Word32) : (w.setFreq x).root = w.root := rfl
@[simp] theorem Work.setFreq_pq (w : Work) (x : Table Word32) : (w.setFreq x).pq = w.pq := rfl
@[simp] theorem Work.setFreq_code (w : Work) (x : Table Word32) : (w.setFreq x).code = w.code := rfl
@[simp] theorem Work.setFreq_pk (w : Work) (x : Table Word32) : (w.setFreq x).pk = w.pk := rfl
@[simp] theorem Work.setFreq_up (w : Work) (x : Table Word32) : (w.setFreq x).up = w.up := rfl
@[simp] theorem Work.setFreq_wk (w : Work) (x : Table Word32) : (w.setFreq x).wk = w.wk := rfl
@[simp] theorem Work.setFreq_crcReg (w : Work) (x : Table Word32) : (w.setFreq x).crcReg = w.crcReg := rfl
@[simp] theorem Work.setFreq_setFreq (w : Work) (x y : Table Word32) : (w.setFreq x).setFreq y = w.setFreq y := rfl
@[simp] theorem Work.setFreq_self (w : Work) : w.setFreq w.freq = w := rfl

@[simp] theorem Work.setSeen_freq (w : Work) (x : Table Bool) : (w.setSeen x).freq = w.freq := rfl
@[simp] theorem Work.setSeen_seen (w : Work) (x : Table Bool) : (w.setSeen x).seen = x := rfl
@[simp] theorem Work.setSeen_nodes (w : Work) (x : Table Bool) : (w.setSeen x).nodes = w.nodes := rfl
@[simp] theorem Work.setSeen_root (w : Work) (x : Table Bool) : (w.setSeen x).root = w.root := rfl
@[simp] theorem Work.setSeen_pq (w : Work) (x : Table Bool) : (w.setSeen x).pq = w.pq := rfl
@[simp] theorem Work.setSeen_code (w : Work) (x : Table Bool) : (w.setSeen x).code = w.code := rfl
@[simp] theorem Work.setSeen_pk (w : Work) (x : Table Bool) : (w.setSeen x).pk = w.pk := rfl
@[simp] theorem Work.setSeen_up (w : Work) (x : Table Bool) : (w.setSeen x).up = w.up := rfl
@[simp] theorem Work.setSeen_wk (w : Work) (x : Table Bool) : (w.setSeen x).wk = w.wk := rfl
@[simp] theorem Work.setSeen_crcReg (w : Work) (x : Table Bool) : (w.setSeen x).crcReg = w.crcReg := rfl
@[simp] theorem Work.setSeen_setSeen (w : Work) (x y : Table Bool) : (w.setSeen x).setSeen y = w.setSeen y := rfl
@[simp] theorem Work.setSeen_self (w : Work) : w.setSeen w.seen = w := rfl

@[simp] theorem Work.setNodes_freq (w : Work) (x : List Node) : (w.setNodes x).freq = w.freq := rfl
@[simp] theorem Work.setNodes_seen (w : Work) (x : List Node) : (w.setNodes x).seen = w.seen := rfl
@[simp] theorem Work.setNodes_nodes (w : Work) (x : List Node) : (w.setNodes x).nodes = x := rfl
@[simp] theorem Work.setNodes_root (w : Work) (x : List Node) : (w.setNodes x).root = w.root := rfl
@[simp] theorem Work.setNodes_pq (w : Work) (x : List Node) : (w.setNodes x).pq = w.pq := rfl
@[simp] theorem Work.setNodes_code (w : Work) (x : List Node) : (w.setNodes x).code = w.code := rfl
@[simp] theorem Work.setNodes_pk (w : Work) (x : List Node) : (w.setNodes x).pk = w.pk := rfl
@[simp] theorem Work.setNodes_up (w : Work) (x : List Node) : (w.setNodes x).up = w.up := rfl
@[simp] theorem Work.setNodes_wk (w : Work) (x : List Node) : (w.setNodes x).wk = w.wk := rfl
@[simp] theorem Work.setNodes_crcReg (w : Work) (x : List Node) : (w.setNodes x).crcReg = w.crcReg := rfl
@[simp] theorem Work.setNodes_setNodes (w : Work) (x y : List Node) : (w.setNodes x).setNodes y = w.setNodes y := rfl
@[simp] theorem Work.setNodes_self (w : Work) : w.setNodes w.nodes = w := rfl

@[simp] theorem Work.setRoot_freq (w : Work) (x : Option Nat) : (w.setRoot x).freq = w.freq := rfl
@[simp] theorem Work.setRoot_seen (w : Work) (x : Option Nat) : (w.setRoot x).seen = w.seen := rfl
@[simp] theorem Work.setRoot_nodes (w : Work) (x : Option Nat) : (w.setRoot x).nodes = w.nodes := rfl
@[simp] theorem Work.setRoot_root (w : Work) (x : Option Nat) : (w.setRoot x).root = x := rfl
@[simp] theorem Work.setRoot_pq (w : Work) (x : Option Nat) : (w.setRoot x).pq = w.pq := rfl
@[simp] theorem Work.setRoot_code (w : Work) (x : Option Nat) : (w.setRoot x).code = w.code := rfl
@[simp] theorem Work.setRoot_pk (w : Work) (x : Option Nat) : (w.setRoot x).pk = w.pk := rfl
@[simp] theorem Work.setRoot_up (w : Work) (x : Option Nat) : (w.setRoot x).up = w.up := rfl
@[simp] theorem Work.setRoot_wk (w : Work) (x : Option Nat) : (w.setRoot x).wk = w.wk := rfl
@[simp] theorem Work.setRoot_crcReg (w : Work) (x : Option Nat) : (w.setRoot x).crcReg = w.crcReg := rfl
@[simp] theorem Work.setRoot_setRoot (w : Work) (x y : Option Nat) : (w.setRoot x).setRoot y = w.setRoot y := rfl
@[simp] theorem Work.setRoot_self (w : Work) : w.setRoot w.root = w := rfl

@[simp] theorem Work.setPq_freq (w : Work) (x : List Nat) : (w.setPq x).freq = w.freq := rfl
@[simp] theorem Work.setPq_seen (w : Work) (x : List Nat) : (w.setPq x).seen = w.seen := rfl
@[simp] theorem Work.setPq_nodes (w : Work) (x : List Nat) : (w.setPq x).nodes = w.nodes := rfl
@[simp] theorem Work.setPq_root (w : Work) (x : List Nat) : (w.setPq x).root = w.root := rfl
@[simp] theorem Work.setPq_pq (w : Work) (x : List Nat) : (w.setPq x).pq = x := rfl
@[simp] theorem Work.setPq_code (w : Work) (x : List Nat) : (w.setPq x).code = w.code := rfl
@[simp] theorem Work.setPq_pk (w : Work) (x : List Nat) : (w.setPq x).pk = w.pk := rfl
@[simp] theorem Work.setPq_up (w : Work) (x : List Nat) : (w.setPq x).up = w.up := rfl
@[simp] theorem Work.setPq_wk (w : Work) (x : List Nat) : (w.setPq x).wk = w.wk := rfl
@[simp] theorem Work.setPq_crcReg (w : Work) (x : List Nat) : (w.setPq x).crcReg = w.crcReg := rfl
@[simp] theorem Work.setPq_setPq (w : Work) (x y : List Nat) : (w.setPq x).setPq y = w.setPq y := rfl
@[simp] theorem Work.setPq_self (w : Work) : w.setPq w.pq = w := rfl

@[simp] theorem Work.setCode_freq (w : Work) (x : Table (Option Bits)) : (w.setCode x).freq = w.freq := rfl
@[simp] theorem Work.setCode_seen (w : Work) (x : Table (Option Bits)) : (w.setCode x).seen = w.seen := rfl
@[simp] theorem Work.setCode_nodes (w : Work) (x : Table (Option Bits)) : (w.setCode x).nodes = w.nodes := rfl
@[simp] theorem Work.setCode_root (w : Work) (x : Table (Option Bits)) : (w.setCode x).root = w.root := rfl
@[simp] theorem Work.setCode_pq (w : Work) (x : Table (Option Bits)) : (w.setCode x).pq = w.pq := rfl
@[simp] theorem Work.setCode_code (w : Work) (x : Table (Option Bits)) : (w.setCode x).code = x := rfl
@[simp] theorem Work.setCode_pk (w : Work) (x : Table (Option Bits)) : (w.setCode x).pk = w.pk := rfl
@[simp] theorem Work.setCode_up (w : Work) (x : Table (Option Bits)) : (w.setCode x).up = w.up := rfl
@[simp] theorem Work.setCode_wk (w : Work) (x : Table (Option Bits)) : (w.setCode x).wk = w.wk := rfl
@[simp] theorem Work.setCode_crcReg (w : Work) (x : Table (Option Bits)) : (w.setCode x).crcReg = w.crcReg := rfl
@[simp] theorem Work.setCode_setCode (w : Work) (x y : Table (Option Bits)) : (w.setCode x).setCode y = w.setCode y := rfl
@[simp] theorem Work.setCode_self (w : Work) : w.setCode w.code = w := rfl

@[simp] theorem Work.setPk_freq (w : Work) (x : Packer) : (w.setPk x).freq = w.freq := rfl
@[simp] theorem Work.setPk_seen (w : Work) (x : Packer) : (w.setPk x).seen = w.seen := rfl
@[simp] theorem Work.setPk_nodes (w : Work) (x : Packer) : (w.setPk x).nodes = w.nodes := rfl
@[simp] theorem Work.setPk_root (w : Work) (x : Packer) : (w.setPk x).root = w.root := rfl
@[simp] theorem Work.setPk_pq (w : Work) (x : Packer) : (w.setPk x).pq = w.pq := rfl
@[simp] theorem Work.setPk_code (w : Work) (x : Packer) : (w.setPk x).code = w.code := rfl
@[simp] theorem Work.setPk_pk (w : Work) (x : Packer) : (w.setPk x).pk = x := rfl
@[simp] theorem Work.setPk_up (w : Work) (x : Packer) : (w.setPk x).up = w.up := rfl
@[simp] theorem Work.setPk_wk (w : Work) (x : Packer) : (w.setPk x).wk = w.wk := rfl
@[simp] theorem Work.setPk_crcReg (w : Work) (x : Packer) : (w.setPk x).crcReg = w.crcReg := rfl
@[simp] theorem Work.setPk_setPk (w : Work) (x y : Packer) : (w.setPk x).setPk y = w.setPk y := rfl
@[simp] theorem Work.setPk_self (w : Work) : w.setPk w.pk = w := rfl

@[simp] theorem Work.setUp_freq (w : Work) (x : Unpacker) : (w.setUp x).freq = w.freq := rfl
@[simp] theorem Work.setUp_seen (w : Work) (x : Unpacker) : (w.setUp x).seen = w.seen := rfl
@[simp] theorem Work.setUp_nodes (w : Work) (x : Unpacker) : (w.setUp x).nodes = w.nodes := rfl
@[simp] theorem Work.setUp_root (w : Work) (x : Unpacker) : (w.setUp x).root = w.root := rfl
@[simp] theorem Work.setUp_pq (w : Work) (x : Unpacker) : (w.setUp x).pq = w.pq := rfl
@[simp] theorem Work.setUp_code (w : Work) (x : Unpacker) : (w.setUp x).code = w.code := rfl
@[simp] theorem Work.setUp_pk (w : Work) (x : Unpacker) : (w.setUp x).pk = w.pk := rfl
@[simp] theorem Work.setUp_up (w : Work) (x : Unpacker) : (w.setUp x).up = x := rfl
@[simp] theorem Work.setUp_wk (w : Work) (x : Unpacker) : (w.setUp x).wk = w.wk := rfl
@[simp] theorem Work.setUp_crcReg (w : Work) (x : Unpacker) : (w.setUp x).crcReg = w.crcReg := rfl
@[simp] theorem Work.setUp_setUp (w : Work) (x y : Unpacker) : (w.setUp x).setUp y = w.setUp y := rfl
@[simp] theorem Work.setUp_self (w : Work) : w.setUp w.up = w := rfl

@[simp] theorem Work.setWk_freq (w : Work) (x : Walker) : (w.setWk x).freq = w.freq := rfl
@[simp] theorem Work.setWk_seen (w : Work) (x : Walker) : (w.setWk x).seen = w.seen := rfl
@[simp] theorem Work.setWk_nodes (w : Work) (x : Walker) : (w.setWk x).nodes = w.nodes := rfl
@[simp] theorem Work.setWk_root (w : Work) (x : Walker) : (w.setWk x).root = w.root := rfl
@[simp] theorem Work.setWk_pq (w : Work) (x : Walker) : (w.setWk x).pq = w.pq := rfl
@[simp] theorem Work.setWk_code (w : Work) (x : Walker) : (w.setWk x).code = w.code := rfl
@[simp] theorem Work.setWk_pk (w : Work) (x : Walker) : (w.setWk x).pk = w.pk := rfl
@[simp] theorem Work.setWk_up (w : Work) (x : Walker) : (w.setWk x).up = w.up := rfl
@[simp] theorem Work.setWk_wk (w : Work) (x : Walker) : (w.setWk x).wk = x := rfl
@[simp] theorem Work.setWk_crcReg (w : Work) (x : Walker) : (w.setWk x).crcReg = w.crcReg := rfl
@[simp] theorem Work.setWk_setWk (w : Work) (x y : Walker) : (w.setWk x).setWk y = w.setWk y := rfl
@[simp] theorem Work.setWk_self (w : Work) : w.setWk w.wk = w := rfl

@[simp] theorem Work.setCrcReg_freq (w : Work) (x : Word32) : (w.setCrcReg x).freq = w.freq := rfl
@[simp] theorem Work.setCrcReg_seen (w : Work) (x : Word32) : (w.setCrcReg x).seen = w.seen := rfl
@[simp] theorem Work.setCrcReg_nodes (w : Work) (x : Word32) : (w.setCrcReg x).nodes = w.nodes := rfl
@[simp] theorem Work.setCrcReg_root (w : Work) (x : Word32) : (w.setCrcReg x).root = w.root := rfl
@[simp] theorem Work.setCrcReg_pq (w : Work) (x : Word32) : (w.setCrcReg x).pq = w.pq := rfl
@[simp] theorem Work.setCrcReg_code (w : Work) (x : Word32) : (w.setCrcReg x).code = w.code := rfl
@[simp] theorem Work.setCrcReg_pk (w : Work) (x : Word32) : (w.setCrcReg x).pk = w.pk := rfl
@[simp] theorem Work.setCrcReg_up (w : Work) (x : Word32) : (w.setCrcReg x).up = w.up := rfl
@[simp] theorem Work.setCrcReg_wk (w : Work) (x : Word32) : (w.setCrcReg x).wk = w.wk := rfl
@[simp] theorem Work.setCrcReg_crcReg (w : Work) (x : Word32) : (w.setCrcReg x).crcReg = x := rfl
@[simp] theorem Work.setCrcReg_setCrcReg (w : Work) (x y : Word32) : (w.setCrcReg x).setCrcReg y = w.setCrcReg y := rfl
@[simp] theorem Work.setCrcReg_self (w : Work) : w.setCrcReg w.crcReg = w := rfl

variable (s : State)

@[simp] theorem State.setPhase_par (p : Phase) : (s.setPhase p).par = s.par := rfl
@[simp] theorem State.setPhase_phase (p : Phase) : (s.setPhase p).phase = p := rfl
@[simp] theorem State.setPhase_stuck (p : Phase) : (s.setPhase p).stuck = s.stuck := rfl
@[simp] theorem State.setPhase_regs (p : Phase) : (s.setPhase p).regs = s.regs := rfl
@[simp] theorem State.setPhase_latch (p : Phase) : (s.setPhase p).latch = s.latch := rfl
@[simp] theorem State.setPhase_work (p : Phase) : (s.setPhase p).work = s.work := rfl
@[simp] theorem State.setPhase_mem (p : Phase) : (s.setPhase p).mem = s.mem := rfl
@[simp] theorem State.setPhase_ret (p : Phase) : (s.setPhase p).ret = s.ret := rfl
@[simp] theorem State.setPhase_inbox (p : Phase) : (s.setPhase p).inbox = s.inbox := rfl
@[simp] theorem State.setPhase_observed (p : Phase) : (s.setPhase p).observed = s.observed := rfl
@[simp] theorem State.setPhase_busyLeft (p : Phase) : (s.setPhase p).busyLeft = s.busyLeft := rfl
@[simp] theorem State.setPhase_draws (p : Phase) : (s.setPhase p).draws = s.draws := rfl

@[simp] theorem State.setStuck_par (x : Option Nat) : (s.setStuck x).par = s.par := rfl
@[simp] theorem State.setStuck_phase (x : Option Nat) : (s.setStuck x).phase = s.phase := rfl
@[simp] theorem State.setStuck_stuck (x : Option Nat) : (s.setStuck x).stuck = x := rfl
@[simp] theorem State.setStuck_regs (x : Option Nat) : (s.setStuck x).regs = s.regs := rfl
@[simp] theorem State.setStuck_latch (x : Option Nat) : (s.setStuck x).latch = s.latch := rfl
@[simp] theorem State.setStuck_work (x : Option Nat) : (s.setStuck x).work = s.work := rfl
@[simp] theorem State.setStuck_mem (x : Option Nat) : (s.setStuck x).mem = s.mem := rfl
@[simp] theorem State.setStuck_ret (x : Option Nat) : (s.setStuck x).ret = s.ret := rfl
@[simp] theorem State.setStuck_inbox (x : Option Nat) : (s.setStuck x).inbox = s.inbox := rfl
@[simp] theorem State.setStuck_observed (x : Option Nat) : (s.setStuck x).observed = s.observed := rfl
@[simp] theorem State.setStuck_busyLeft (x : Option Nat) : (s.setStuck x).busyLeft = s.busyLeft := rfl
@[simp] theorem State.setStuck_draws (x : Option Nat) : (s.setStuck x).draws = s.draws := rfl

@[simp] theorem State.setRegs_par (r : Regs) : (s.setRegs r).par = s.par := rfl
@[simp] theorem State.setRegs_phase (r : Regs) : (s.setRegs r).phase = s.phase := rfl
@[simp] theorem State.setRegs_stuck (r : Regs) : (s.setRegs r).stuck = s.stuck := rfl
@[simp] theorem State.setRegs_regs (r : Regs) : (s.setRegs r).regs = r := rfl
@[simp] theorem State.setRegs_latch (r : Regs) : (s.setRegs r).latch = s.latch := rfl
@[simp] theorem State.setRegs_work (r : Regs) : (s.setRegs r).work = s.work := rfl
@[simp] theorem State.setRegs_mem (r : Regs) : (s.setRegs r).mem = s.mem := rfl
@[simp] theorem State.setRegs_ret (r : Regs) : (s.setRegs r).ret = s.ret := rfl
@[simp] theorem State.setRegs_inbox (r : Regs) : (s.setRegs r).inbox = s.inbox := rfl
@[simp] theorem State.setRegs_observed (r : Regs) : (s.setRegs r).observed = s.observed := rfl
@[simp] theorem State.setRegs_busyLeft (r : Regs) : (s.setRegs r).busyLeft = s.busyLeft := rfl
@[simp] theorem State.setRegs_draws (r : Regs) : (s.setRegs r).draws = s.draws := rfl

@[simp] theorem State.setLatch_par (l : Latch) : (s.setLatch l).par = s.par := rfl
@[simp] theorem State.setLatch_phase (l : Latch) : (s.setLatch l).phase = s.phase := rfl
@[simp] theorem State.setLatch_stuck (l : Latch) : (s.setLatch l).stuck = s.stuck := rfl
@[simp] theorem State.setLatch_regs (l : Latch) : (s.setLatch l).regs = s.regs := rfl
@[simp] theorem State.setLatch_latch (l : Latch) : (s.setLatch l).latch = l := rfl
@[simp] theorem State.setLatch_work (l : Latch) : (s.setLatch l).work = s.work := rfl
@[simp] theorem State.setLatch_mem (l : Latch) : (s.setLatch l).mem = s.mem := rfl
@[simp] theorem State.setLatch_ret (l : Latch) : (s.setLatch l).ret = s.ret := rfl
@[simp] theorem State.setLatch_inbox (l : Latch) : (s.setLatch l).inbox = s.inbox := rfl
@[simp] theorem State.setLatch_observed (l : Latch) : (s.setLatch l).observed = s.observed := rfl
@[simp] theorem State.setLatch_busyLeft (l : Latch) : (s.setLatch l).busyLeft = s.busyLeft := rfl
@[simp] theorem State.setLatch_draws (l : Latch) : (s.setLatch l).draws = s.draws := rfl

@[simp] theorem State.setWork_par (w : Work) : (s.setWork w).par = s.par := rfl
@[simp] theorem State.setWork_phase (w : Work) : (s.setWork w).phase = s.phase := rfl
@[simp] theorem State.setWork_stuck (w : Work) : (s.setWork w).stuck = s.stuck := rfl
@[simp] theorem State.setWork_regs (w : Work) : (s.setWork w).regs = s.regs := rfl
@[simp] theorem State.setWork_latch (w : Work) : (s.setWork w).latch = s.latch := rfl
@[simp] theorem State.setWork_work (w : Work) : (s.setWork w).work = w := rfl
@[simp] theorem State.setWork_mem (w : Work) : (s.setWork w).mem = s.mem := rfl
@[simp] theorem State.setWork_ret (w : Work) : (s.setWork w).ret = s.ret := rfl
@[simp] theorem State.setWork_inbox (w : Work) : (s.setWork w).inbox = s.inbox := rfl
@[simp] theorem State.setWork_observed (w : Work) : (s.setWork w).observed = s.observed := rfl
@[simp] theorem State.setWork_busyLeft (w : Work) : (s.setWork w).busyLeft = s.busyLeft := rfl
@[simp] theorem State.setWork_draws (w : Work) : (s.setWork w).draws = s.draws := rfl

@[simp] theorem State.setMem_par (m : Memory) : (s.setMem m).par = s.par := rfl
@[simp] theorem State.setMem_phase (m : Memory) : (s.setMem m).phase = s.phase := rfl
@[simp] theorem State.setMem_stuck (m : Memory) : (s.setMem m).stuck = s.stuck := rfl
@[simp] theorem State.setMem_regs (m : Memory) : (s.setMem m).regs = s.regs := rfl
@[simp] theorem State.setMem_latch (m : Memory) : (s.setMem m).latch = s.latch := rfl
@[simp] theorem State.setMem_work (m : Memory) : (s.setMem m).work = s.work := rfl
@[simp] theorem State.setMem_mem (m : Memory) : (s.setMem m).mem = m := rfl
@[simp] theorem State.setMem_ret (m : Memory) : (s.setMem m).ret = s.ret := rfl
@[simp] theorem State.setMem_inbox (m : Memory) : (s.setMem m).inbox = s.inbox := rfl
@[simp] theorem State.setMem_observed (m : Memory) : (s.setMem m).observed = s.observed := rfl
@[simp] theorem State.setMem_busyLeft (m : Memory) : (s.setMem m).busyLeft = s.busyLeft := rfl
@[simp] theorem State.setMem_draws (m : Memory) : (s.setMem m).draws = s.draws := rfl

@[simp] theorem State.setRet_par (r : OpRet) : (s.setRet r).par = s.par := rfl
@[simp] theorem State.setRet_phase (r : OpRet) : (s.setRet r).phase = s.phase := rfl
@[simp] theorem State.setRet_stuck (r : OpRet) : (s.setRet r).stuck = s.stuck := rfl
@[simp] theorem State.setRet_regs (r : OpRet) : (s.setRet r).regs = s.regs := rfl
@[simp] theorem State.setRet_latch (r : OpRet) : (s.setRet r).latch = s.latch := rfl
@[simp] theorem State.setRet_work (r : OpRet) : (s.setRet r).work = s.work := rfl
@[simp] theorem State.setRet_mem (r : OpRet) : (s.setRet r).mem = s.mem := rfl
@[simp] theorem State.setRet_ret (r : OpRet) : (s.setRet r).ret = r := rfl
@[simp] theorem State.setRet_inbox (r : OpRet) : (s.setRet r).inbox = s.inbox := rfl
@[simp] theorem State.setRet_observed (r : OpRet) : (s.setRet r).observed = s.observed := rfl
@[simp] theorem State.setRet_busyLeft (r : OpRet) : (s.setRet r).busyLeft = s.busyLeft := rfl
@[simp] theorem State.setRet_draws (r : OpRet) : (s.setRet r).draws = s.draws := rfl

@[simp] theorem State.setInbox_par (q : List HostOp) : (s.setInbox q).par = s.par := rfl
@[simp] theorem State.setInbox_phase (q : List HostOp) : (s.setInbox q).phase = s.phase := rfl
@[simp] theorem State.setInbox_stuck (q : List HostOp) : (s.setInbox q).stuck = s.stuck := rfl
@[simp] theorem State.setInbox_regs (q : List HostOp) : (s.setInbox q).regs = s.regs := rfl
@[simp] theorem State.setInbox_latch (q : List HostOp) : (s.setInbox q).latch = s.latch := rfl
@[simp] theorem State.setInbox_work (q : List HostOp) : (s.setInbox q).work = s.work := rfl
@[simp] theorem State.setInbox_mem (q : List HostOp) : (s.setInbox q).mem = s.mem := rfl
@[simp] theorem State.setInbox_ret (q : List HostOp) : (s.setInbox q).ret = s.ret := rfl
@[simp] theorem State.setInbox_inbox (q : List HostOp) : (s.setInbox q).inbox = q := rfl
@[simp] theorem State.setInbox_observed (q : List HostOp) : (s.setInbox q).observed = s.observed := rfl
@[simp] theorem State.setInbox_busyLeft (q : List HostOp) : (s.setInbox q).busyLeft = s.busyLeft := rfl
@[simp] theorem State.setInbox_draws (q : List HostOp) : (s.setInbox q).draws = s.draws := rfl

@[simp] theorem State.observe_par (o : Observation) : (s.observe o).par = s.par := rfl
@[simp] theorem State.observe_phase (o : Observation) : (s.observe o).phase = s.phase := rfl
@[simp] theorem State.observe_stuck (o : Observation) : (s.observe o).stuck = s.stuck := rfl
@[simp] theorem State.observe_regs (o : Observation) : (s.observe o).regs = s.regs := rfl
@[simp] theorem State.observe_latch (o : Observation) : (s.observe o).latch = s.latch := rfl
@[simp] theorem State.observe_work (o : Observation) : (s.observe o).work = s.work := rfl
@[simp] theorem State.observe_mem (o : Observation) : (s.observe o).mem = s.mem := rfl
@[simp] theorem State.observe_ret (o : Observation) : (s.observe o).ret = s.ret := rfl
@[simp] theorem State.observe_inbox (o : Observation) : (s.observe o).inbox = s.inbox := rfl
@[simp] theorem State.observe_observed (o : Observation) : (s.observe o).observed = o :: s.observed := rfl
@[simp] theorem State.observe_busyLeft (o : Observation) : (s.observe o).busyLeft = s.busyLeft := rfl
@[simp] theorem State.observe_draws (o : Observation) : (s.observe o).draws = s.draws := rfl

@[simp] theorem State.setBusyLeft_par (n : Nat) : (s.setBusyLeft n).par = s.par := rfl
@[simp] theorem State.setBusyLeft_phase (n : Nat) : (s.setBusyLeft n).phase = s.phase := rfl
@[simp] theorem State.setBusyLeft_stuck (n : Nat) : (s.setBusyLeft n).stuck = s.stuck := rfl
@[simp] theorem State.setBusyLeft_regs (n : Nat) : (s.setBusyLeft n).regs = s.regs := rfl
@[simp] theorem State.setBusyLeft_latch (n : Nat) : (s.setBusyLeft n).latch = s.latch := rfl
@[simp] theorem State.setBusyLeft_work (n : Nat) : (s.setBusyLeft n).work = s.work := rfl
@[simp] theorem State.setBusyLeft_mem (n : Nat) : (s.setBusyLeft n).mem = s.mem := rfl
@[simp] theorem State.setBusyLeft_ret (n : Nat) : (s.setBusyLeft n).ret = s.ret := rfl
@[simp] theorem State.setBusyLeft_inbox (n : Nat) : (s.setBusyLeft n).inbox = s.inbox := rfl
@[simp] theorem State.setBusyLeft_observed (n : Nat) : (s.setBusyLeft n).observed = s.observed := rfl
@[simp] theorem State.setBusyLeft_busyLeft (n : Nat) : (s.setBusyLeft n).busyLeft = n := rfl
@[simp] theorem State.setBusyLeft_draws (n : Nat) : (s.setBusyLeft n).draws = s.draws := rfl

@[simp] theorem State.addDraws_par (n : Nat) : (s.addDraws n).par = s.par := rfl
@[simp] theorem State.addDraws_phase (n : Nat) : (s.addDraws n).phase = s.phase := rfl
@[simp] theorem State.addDraws_stuck (n : Nat) : (s.addDraws n).stuck = s.stuck := rfl
@[simp] theorem State.addDraws_regs (n : Nat) : (s.addDraws n).regs = s.regs := rfl
@[simp] theorem State.addDraws_latch (n : Nat) : (s.addDraws n).latch = s.latch := rfl
@[simp] theorem State.addDraws_work (n : Nat) : (s.addDraws n).work = s.work := rfl
@[simp] theorem State.addDraws_mem (n : Nat) : (s.addDraws n).mem = s.mem := rfl
@[simp] theorem State.addDraws_ret (n : Nat) : (s.addDraws n).ret = s.ret := rfl
@[simp] theorem State.addDraws_inbox (n : Nat) : (s.addDraws n).inbox = s.inbox := rfl
@[simp] theorem State.addDraws_observed (n : Nat) : (s.addDraws n).observed = s.observed := rfl
@[simp] theorem State.addDraws_busyLeft (n : Nat) : (s.addDraws n).busyLeft = s.busyLeft := rfl
@[simp] theorem State.addDraws_draws (n : Nat) : (s.addDraws n).draws = s.draws + n := rfl

/-! Two updates of one field. -/

@[simp] theorem State.setPhase_setPhase (x y : Phase) : (s.setPhase x).setPhase y = s.setPhase y := rfl
@[simp] theorem State.setStuck_setStuck (x y : Option Nat) : (s.setStuck x).setStuck y = s.setStuck y := rfl
@[simp] theorem State.setRegs_setRegs (x y : Regs) : (s.setRegs x).setRegs y = s.setRegs y := rfl
@[simp] theorem State.setLatch_setLatch (x y : Latch) : (s.setLatch x).setLatch y = s.setLatch y := rfl
@[simp] theorem State.setWork_setWork (x y : Work) : (s.setWork x).setWork y = s.setWork y := rfl
@[simp] theorem State.setMem_setMem (x y : Memory) : (s.setMem x).setMem y = s.setMem y := rfl
@[simp] theorem State.setRet_setRet (x y : OpRet) : (s.setRet x).setRet y = s.setRet y := rfl

/-! An update that writes what the field holds. -/

@[simp] theorem State.setPhase_self : s.setPhase s.phase = s := rfl
@[simp] theorem State.setStuck_self : s.setStuck s.stuck = s := rfl
@[simp] theorem State.setRegs_self : s.setRegs s.regs = s := rfl
@[simp] theorem State.setLatch_self : s.setLatch s.latch = s := rfl
@[simp] theorem State.setWork_self : s.setWork s.work = s := rfl
@[simp] theorem State.setMem_self : s.setMem s.mem = s := rfl
@[simp] theorem State.setRet_self : s.setRet s.ret = s := rfl

/-! The latched operands. -/

@[simp] theorem State.setPhase_src (p : Phase) : (s.setPhase p).src = s.src := rfl
@[simp] theorem State.setPhase_srclen (p : Phase) : (s.setPhase p).srclen = s.srclen := rfl
@[simp] theorem State.setPhase_dst (p : Phase) : (s.setPhase p).dst = s.dst := rfl
@[simp] theorem State.setPhase_cap (p : Phase) : (s.setPhase p).cap = s.cap := rfl
@[simp] theorem State.setStuck_src (x : Option Nat) : (s.setStuck x).src = s.src := rfl
@[simp] theorem State.setStuck_srclen (x : Option Nat) : (s.setStuck x).srclen = s.srclen := rfl
@[simp] theorem State.setStuck_dst (x : Option Nat) : (s.setStuck x).dst = s.dst := rfl
@[simp] theorem State.setStuck_cap (x : Option Nat) : (s.setStuck x).cap = s.cap := rfl
@[simp] theorem State.setRegs_src (r : Regs) : (s.setRegs r).src = s.src := rfl
@[simp] theorem State.setRegs_srclen (r : Regs) : (s.setRegs r).srclen = s.srclen := rfl
@[simp] theorem State.setRegs_dst (r : Regs) : (s.setRegs r).dst = s.dst := rfl
@[simp] theorem State.setRegs_cap (r : Regs) : (s.setRegs r).cap = s.cap := rfl
@[simp] theorem State.setWork_src (w : Work) : (s.setWork w).src = s.src := rfl
@[simp] theorem State.setWork_srclen (w : Work) : (s.setWork w).srclen = s.srclen := rfl
@[simp] theorem State.setWork_dst (w : Work) : (s.setWork w).dst = s.dst := rfl
@[simp] theorem State.setWork_cap (w : Work) : (s.setWork w).cap = s.cap := rfl
@[simp] theorem State.setMem_src (m : Memory) : (s.setMem m).src = s.src := rfl
@[simp] theorem State.setMem_srclen (m : Memory) : (s.setMem m).srclen = s.srclen := rfl
@[simp] theorem State.setMem_dst (m : Memory) : (s.setMem m).dst = s.dst := rfl
@[simp] theorem State.setMem_cap (m : Memory) : (s.setMem m).cap = s.cap := rfl
@[simp] theorem State.setRet_src (r : OpRet) : (s.setRet r).src = s.src := rfl
@[simp] theorem State.setRet_srclen (r : OpRet) : (s.setRet r).srclen = s.srclen := rfl
@[simp] theorem State.setRet_dst (r : OpRet) : (s.setRet r).dst = s.dst := rfl
@[simp] theorem State.setRet_cap (r : OpRet) : (s.setRet r).cap = s.cap := rfl
@[simp] theorem State.setInbox_src (q : List HostOp) : (s.setInbox q).src = s.src := rfl
@[simp] theorem State.setInbox_srclen (q : List HostOp) : (s.setInbox q).srclen = s.srclen := rfl
@[simp] theorem State.setInbox_dst (q : List HostOp) : (s.setInbox q).dst = s.dst := rfl
@[simp] theorem State.setInbox_cap (q : List HostOp) : (s.setInbox q).cap = s.cap := rfl
@[simp] theorem State.observe_src (o : Observation) : (s.observe o).src = s.src := rfl
@[simp] theorem State.observe_srclen (o : Observation) : (s.observe o).srclen = s.srclen := rfl
@[simp] theorem State.observe_dst (o : Observation) : (s.observe o).dst = s.dst := rfl
@[simp] theorem State.observe_cap (o : Observation) : (s.observe o).cap = s.cap := rfl
@[simp] theorem State.setBusyLeft_src (n : Nat) : (s.setBusyLeft n).src = s.src := rfl
@[simp] theorem State.setBusyLeft_srclen (n : Nat) : (s.setBusyLeft n).srclen = s.srclen := rfl
@[simp] theorem State.setBusyLeft_dst (n : Nat) : (s.setBusyLeft n).dst = s.dst := rfl
@[simp] theorem State.setBusyLeft_cap (n : Nat) : (s.setBusyLeft n).cap = s.cap := rfl
@[simp] theorem State.addDraws_src (n : Nat) : (s.addDraws n).src = s.src := rfl
@[simp] theorem State.addDraws_srclen (n : Nat) : (s.addDraws n).srclen = s.srclen := rfl
@[simp] theorem State.addDraws_dst (n : Nat) : (s.addDraws n).dst = s.dst := rfl
@[simp] theorem State.addDraws_cap (n : Nat) : (s.addDraws n).cap = s.cap := rfl

/-! Updates of two fields commute; work is written before memory. -/

theorem State.setWork_setMem (w : Work) (m : Memory) : (s.setWork w).setMem m = (s.setMem m).setWork w := rfl

end Sys2Proof.Machine
end

