-- ==== Sys2Proof/Laws/Memory.lean ====
section
/-! SUPPORT. Memory: reads after writes, the canonical form, and the addresses listed. -/

namespace Sys2Proof.Machine

variable {m : Memory}

/-- Every listed address is below `n` (R60). -/
def Memory.below (n : Nat) (m : Memory) : Prop := ∀ c ∈ m, c.1 < n

theorem Memory.wf_nil : Memory.wf [] := by simp [Memory.wf]

theorem Memory.wf_cons {c : Host.Cell} {t : Memory} :
    Memory.wf (c :: t) ↔ (∀ d ∈ t, c.1 < d.1) ∧ c.2 ≠ Memory.unwritten ∧ Memory.wf t := by
  simp only [Memory.wf, List.pairwise_cons, List.mem_cons, forall_eq_or_imp]
  tauto

theorem Memory.read_head (c : Host.Cell) (t : Memory) : Memory.read (c :: t) c.1 = c.2 := by
  rw [Memory.read, if_pos rfl]

theorem Memory.read_tail {c : Host.Cell} {t : Memory} {a : Nat} (h : c.1 ≠ a) :
    Memory.read (c :: t) a = t.read a := by
  rw [Memory.read, if_neg h]

/-- An address that is not listed reads as unwritten. -/
theorem Memory.read_of_not_listed {a : Nat} (h : ∀ c ∈ m, c.1 ≠ a) :
    m.read a = Memory.unwritten := by
  induction m with
  | nil => rfl
  | cons c t ih =>
    rw [Memory.read, if_neg (h c (by simp))]
    exact ih fun d hd => h d (by simp [hd])

theorem Memory.read_of_lt {a : Nat} (h : ∀ c ∈ m, a < c.1) : m.read a = Memory.unwritten :=
  Memory.read_of_not_listed fun c hc => (h c hc).ne'

/-- What a write can list: the cell written, and cells listed before. -/
theorem Memory.mem_write {a : Nat} {b : Byte} {c : Host.Cell} (h : c ∈ m.write a b) :
    (c = (a, b) ∧ b ≠ Memory.unwritten) ∨ c ∈ m := by
  induction m with
  | nil =>
    by_cases hb : b = Memory.unwritten <;> simp_all [Memory.write]
  | cons d t ih =>
    obtain ⟨x, v⟩ := d
    rw [Memory.write] at h
    split_ifs at h <;> simp_all
    · tauto
    · rcases h with h | h
      · exact .inr (.inl h)
      · rcases ih h with h | h
        · exact .inl h
        · exact .inr (.inr h)

/-- Every memory operation keeps the canonical form: a write. -/
theorem Memory.write_wf {a : Nat} {b : Byte} (h : m.wf) : (m.write a b).wf := by
  induction m with
  | nil => by_cases hb : b = Memory.unwritten <;> simp [Memory.write, Memory.wf, hb]
  | cons d t ih =>
    obtain ⟨x, v⟩ := d
    obtain ⟨hlt, hv, ht⟩ := Memory.wf_cons.1 h
    rw [Memory.write]
    split_ifs with h1 h2 h3 h4
    · exact h
    · refine Memory.wf_cons.2 ⟨?_, h2, h⟩
      intro d hd
      rcases List.mem_cons.1 hd with rfl | hd
      · exact h1
      · exact h1.trans (hlt d hd)
    · exact ht
    · exact Memory.wf_cons.2 ⟨by simpa [h3] using hlt, h4, ht⟩
    · refine Memory.wf_cons.2 ⟨?_, hv, ih ht⟩
      intro d hd
      rcases Memory.mem_write hd with ⟨rfl, -⟩ | hd
      · simp only; omega
      · exact hlt d hd

/-- Read after write, every address at once. -/
theorem Memory.read_write {a : Nat} {b : Byte} (h : m.wf) (x : Nat) :
    (m.write a b).read x = if x = a then b else m.read x := by
  induction m with
  | nil =>
    by_cases hb : b = Memory.unwritten
    · simp [Memory.write, Memory.read, hb]
    · simp [Memory.write, Memory.read, hb, eq_comm]
  | cons d t ih =>
    obtain ⟨y, v⟩ := d
    obtain ⟨hlt, hv, ht⟩ := Memory.wf_cons.1 h
    rw [Memory.write]
    by_cases h1 : a < y
    · rw [if_pos h1]
      have hread : Memory.read ((y, v) :: t) a = Memory.unwritten := by
        refine Memory.read_of_lt fun c hc => ?_
        rcases List.mem_cons.1 hc with rfl | hc
        · exact h1
        · exact h1.trans (hlt c hc)
      split_ifs with h2 h3 h3
      · rw [h3, hread, h2]
      · rfl
      · simp [Memory.read, h3]
      · rw [Memory.read, if_neg (Ne.symm h3)]
    · rw [if_neg h1]
      by_cases h2 : a = y
      · subst h2
        rw [if_pos rfl]
        by_cases hx : x = a
        · subst hx
          rw [if_pos rfl]
          split_ifs with h3
          · rw [Memory.read_of_lt hlt, h3]
          · exact Memory.read_head (x, b) t
        · rw [if_neg hx]
          split_ifs with h3
          · exact (Memory.read_tail (c := (a, v)) (Ne.symm hx)).symm
          · rw [Memory.read_tail (c := (a, b)) (Ne.symm hx), Memory.read_tail (c := (a, v)) (Ne.symm hx)]
      · rw [if_neg h2, Memory.read, ih ht, Memory.read]
        split_ifs with h3 h4 <;> first | rfl | (exfalso; omega)

theorem Memory.read_write_same {a : Nat} {b : Byte} (h : m.wf) : (m.write a b).read a = b := by
  rw [Memory.read_write h, if_pos rfl]

theorem Memory.read_write_other {a x : Nat} {b : Byte} (h : m.wf) (hx : x ≠ a) :
    (m.write a b).read x = m.read x := by
  rw [Memory.read_write h, if_neg hx]

/-- Two canonical memories that read alike at every address are the same data. -/
theorem Memory.ext_read {m n : Memory} (hm : m.wf) (hn : n.wf) (h : ∀ a, m.read a = n.read a) :
    m = n := by
  induction m generalizing n with
  | nil =>
    cases n with
    | nil => rfl
    | cons d t =>
      refine absurd ?_ (Memory.wf_cons.1 hn).2.1
      rw [← Memory.read_head d t, ← h d.1, Memory.read]
  | cons c s ih =>
    obtain ⟨hc, hc0, hs⟩ := Memory.wf_cons.1 hm
    cases n with
    | nil =>
      refine absurd ?_ hc0
      rw [← Memory.read_head c s, h c.1, Memory.read]
    | cons d t =>
      obtain ⟨hd, hd0, ht⟩ := Memory.wf_cons.1 hn
      have key : c.1 = d.1 := by
        rcases Nat.lt_trichotomy c.1 d.1 with hlt | heq | hgt
        · refine absurd ?_ hc0
          rw [← Memory.read_head c s, h c.1]
          refine Memory.read_of_lt fun e he => ?_
          rcases List.mem_cons.1 he with rfl | he
          · exact hlt
          · exact hlt.trans (hd e he)
        · exact heq
        · refine absurd ?_ hd0
          rw [← Memory.read_head d t, ← h d.1]
          refine Memory.read_of_lt fun e he => ?_
          rcases List.mem_cons.1 he with rfl | he
          · exact hgt
          · exact hgt.trans (hc e he)
      have hv : c = d := by
        refine Prod.ext key ?_
        rw [← Memory.read_head c s, h c.1, key, Memory.read_head]
      subst hv
      congr 1
      refine ih hs ht fun a => ?_
      by_cases ha : c.1 = a
      · rw [Memory.read_of_lt (ha ▸ hc), Memory.read_of_lt (ha ▸ hd)]
      · rw [← Memory.read_tail ha, h a, Memory.read_tail ha]

theorem Memory.write_below {a n : Nat} {b : Byte} (h : m.below n) (ha : a < n) :
    (m.write a b).below n := by
  intro c hc
  rcases Memory.mem_write hc with ⟨rfl, -⟩ | hc
  · exact ha
  · exact h c hc

@[simp] theorem Memory.readRange_length (a n : Nat) : (m.readRange a n).length = n := by
  induction n generalizing a with
  | zero => rfl
  | succ n ih => simp [Memory.readRange, ih]

theorem Memory.readRange_getElem? (a n i : Nat) :
    (m.readRange a n)[i]? = if i < n then some (m.read (a + i)) else none := by
  induction n generalizing a i with
  | zero => simp [Memory.readRange]
  | succ n ih =>
    cases i with
    | zero => simp [Memory.readRange]
    | succ i =>
      simp only [Memory.readRange, List.getElem?_cons_succ, ih, Nat.add_lt_add_iff_right]
      congr 3
      omega

theorem Memory.readRange_append (a n k : Nat) :
    m.readRange a (n + k) = m.readRange a n ++ m.readRange (a + n) k := by
  induction n generalizing a with
  | zero => simp [Memory.readRange]
  | succ n ih =>
    rw [Nat.add_right_comm, Memory.readRange, ih, Memory.readRange, List.cons_append]
    congr 3
    omega

theorem Memory.readRange_congr {m' : Memory} {a n : Nat}
    (h : ∀ x, a ≤ x → x < a + n → m.read x = m'.read x) : m.readRange a n = m'.readRange a n := by
  induction n generalizing a with
  | zero => rfl
  | succ n ih =>
    rw [Memory.readRange, Memory.readRange, h a (by omega) (by omega), ih]
    intro x h1 h2
    exact h x (by omega) (by omega)

/-- Every memory operation keeps the canonical form: a byte sequence. -/
theorem Memory.writeRange_wf {a : Nat} {bs : List Byte} (h : m.wf) : (m.writeRange a bs).wf := by
  induction bs generalizing m a with
  | nil => exact h
  | cons b bs ih => exact ih (Memory.write_wf h)

theorem Memory.writeRange_below {a n : Nat} {bs : List Byte} (h : m.below n)
    (ha : a + bs.length ≤ n) : (m.writeRange a bs).below n := by
  induction bs generalizing m a with
  | nil => exact h
  | cons b bs ih =>
    rw [List.length_cons] at ha
    exact ih (Memory.write_below h (by omega)) (by omega)

theorem Memory.writeRange_append {a : Nat} {bs cs : List Byte} :
    m.writeRange a (bs ++ cs) = (m.writeRange a bs).writeRange (a + bs.length) cs := by
  induction bs generalizing m a with
  | nil => rfl
  | cons b bs ih =>
    rw [List.cons_append, Memory.writeRange, Memory.writeRange, ih, List.length_cons]
    congr 1
    omega

/-- Read after a write of a byte sequence, every address at once. -/
theorem Memory.read_writeRange {a : Nat} {bs : List Byte} (h : m.wf) (x : Nat) :
    (m.writeRange a bs).read x =
      if hx : a ≤ x ∧ x < a + bs.length then bs[x - a] else m.read x := by
  induction bs generalizing m a with
  | nil => rw [Memory.writeRange, dif_neg]; simp
  | cons b bs ih =>
    rw [Memory.writeRange, ih (Memory.write_wf h), Memory.read_write h]
    by_cases hx : x = a
    · subst hx
      rw [dif_neg (by omega), if_pos rfl, dif_pos (by simp)]
      simp
    · by_cases h2 : a + 1 ≤ x ∧ x < a + 1 + bs.length
      · rw [dif_pos h2, dif_pos (by simp only [List.length_cons]; omega)]
        have : x - a = (x - (a + 1)) + 1 := by omega
        simp only [this, List.getElem_cons_succ]
      · rw [dif_neg h2, if_neg hx, dif_neg (by simp only [List.length_cons]; omega)]

theorem Memory.read_writeRange_outside {a x : Nat} {bs : List Byte} (h : m.wf)
    (hx : x < a ∨ a + bs.length ≤ x) : (m.writeRange a bs).read x = m.read x := by
  rw [Memory.read_writeRange h, dif_neg (by omega)]

theorem Memory.readRange_writeRange {a : Nat} {bs : List Byte} (h : m.wf) :
    (m.writeRange a bs).readRange a bs.length = bs := by
  apply List.ext_getElem?
  intro i
  rw [Memory.readRange_getElem?]
  split_ifs with hi
  · rw [Memory.read_writeRange h, dif_pos ⟨by omega, by omega⟩]
    simp [hi]
  · exact (List.getElem?_eq_none (by omega)).symm

theorem Memory.readRange_writeRange_outside {a b n : Nat} {bs : List Byte} (h : m.wf)
    (hx : b + n ≤ a ∨ a + bs.length ≤ b) :
    (m.writeRange a bs).readRange b n = m.readRange b n :=
  Memory.readRange_congr fun x h1 h2 => Memory.read_writeRange_outside h (by omega)

/-- Every memory operation keeps the canonical form: free values. -/
theorem Memory.scramble_wf {a n d : Nat} (h : m.wf) : (m.scramble a n d).wf := by
  induction n generalizing m a d with
  | zero => exact h
  | succ n ih => exact ih (Memory.write_wf h)

theorem Memory.scramble_below {a n d k : Nat} (h : m.below k) (ha : a + n ≤ k) :
    (m.scramble a n d).below k := by
  induction n generalizing m a d with
  | zero => exact h
  | succ n ih => exact ih (Memory.write_below h (by omega)) (by omega)

/-- Read after free values, every address at once. -/
theorem Memory.read_scramble {a n d : Nat} (h : m.wf) (x : Nat) :
    (m.scramble a n d).read x =
      if a ≤ x ∧ x < a + n then Config.freeByte (d + (x - a)) else m.read x := by
  induction n generalizing m a d with
  | zero => rw [Memory.scramble, if_neg (by omega)]
  | succ n ih =>
    rw [Memory.scramble, ih (Memory.write_wf h), Memory.read_write h]
    by_cases hx : x = a
    · subst hx
      rw [if_neg (by omega), if_pos rfl, if_pos (by omega)]
      simp
    · by_cases h2 : a + 1 ≤ x ∧ x < a + 1 + n
      · rw [if_pos h2, if_pos (by omega)]
        congr 1
        omega
      · rw [if_neg h2, if_neg hx, if_neg (by omega)]

theorem Memory.read_scramble_outside {a n d x : Nat} (h : m.wf) (hx : x < a ∨ a + n ≤ x) :
    (m.scramble a n d).read x = m.read x := by
  rw [Memory.read_scramble h, if_neg (by omega)]

end Sys2Proof.Machine
end

