-- ==== Sys2Proof/Laws/Ops.lean ====
section
/-! SUPPORT. What the shared operations can do: memory accesses, the ends of a command, and the two
ways an operation of a command can end. -/

namespace Sys2Proof.Machine

/-! ### How an operation ends -/

/-- Where the operation answers a value, `Q` holds of it; where it raises an error or the core is stuck, `R`
holds of that. -/
def Post {α : Type} (Q : α → Prop) (R : Halt → Prop) : Except Halt α → Prop
  | .ok a => Q a
  | .error (.raised e s) => R (.raised e s)
  | .error (.stuck a s) => R (.stuck a s)
  | .error (.fault _) => True

section Post
variable {α β : Type} {Q : α → Prop} {P : β → Prop} {R : Halt → Prop}

@[simp] theorem Post_ok (a : α) : Post Q R (.ok a) ↔ Q a := Iff.rfl
@[simp] theorem Post_raised (e : Err) (s : State) :
    Post Q R (.error (.raised e s)) ↔ R (.raised e s) := Iff.rfl
@[simp] theorem Post_stuck (a : Nat) (s : State) :
    Post Q R (.error (.stuck a s)) ↔ R (.stuck a s) := Iff.rfl
@[simp] theorem Post_fault (f : Fault) : Post Q R (.error (.fault f)) ↔ True := Iff.rfl
@[simp] theorem Post_throwErr (k : ErrKind) (d : Byte) (s : State) :
    Post Q R (throwErr k d s) ↔ R (.raised ⟨k, d⟩ s) := Iff.rfl
@[simp] theorem Post_pure (a : α) : Post Q R (pure a) ↔ Q a := Iff.rfl

theorem Post.bind {x : Except Halt α} {f : α → Except Halt β} (hx : Post Q R x)
    (hf : ∀ a, Q a → Post P R (f a)) : Post P R (x >>= f) := by
  match x, hx with
  | .ok a, hx => exact hf a hx
  | .error (.raised e s), hx => exact hx
  | .error (.stuck a s), hx => exact hx
  | .error (.fault _), _ => trivial

theorem Post.mono {x : Except Halt α} {Q' : α → Prop} {R' : Halt → Prop}
    (hx : Post Q R x) (hQ : ∀ a, Q a → Q' a) (hR : ∀ h, R h → R' h) : Post Q' R' x := by
  match x, hx with
  | .ok a, hx => exact hQ a hx
  | .error (.raised e s), hx => exact hR _ hx
  | .error (.stuck a s), hx => exact hR _ hx
  | .error (.fault _), _ => trivial

theorem Post.of_ok {x : Except Halt α} {a : α} (hx : Post Q R x) (h : x = .ok a) : Q a := by
  subst h; exact hx

theorem Post.of_raised {x : Except Halt α} {e : Err} {s : State} (hx : Post Q R x)
    (h : x = .error (.raised e s)) : R (.raised e s) := by
  subst h; exact hx

/-- The outcome of a command or an internal operation, from how it ends. -/
theorem Post.outcome {Q : State → Prop} {R : Halt → Prop} {x : Except Halt State}
    {clear : Err → Regs → Regs} {t : State} (hx : Post Q R x)
    (h : Machine.outcome clear x = .next t) :
    Q t ∨ (∃ e s, R (.raised e s) ∧ t = raiseEnd clear e s) ∨
      ∃ a s, R (.stuck a s) ∧ t = s.setStuck (some a) := by
  match x, hx, h with
  | .ok s, hx, h =>
    cases h
    exact .inl hx
  | .error (.raised e s), hx, h =>
    cases h
    exact .inr (.inl ⟨e, s, hx, rfl⟩)
  | .error (.stuck a s), hx, h =>
    cases h
    exact .inr (.inr ⟨a, s, hx, rfl⟩)

end Post

@[simp] theorem outcome_ok (c : Err → Regs → Regs) (s : State) : outcome c (.ok s) = .next s := rfl
@[simp] theorem outcome_raised (c : Err → Regs → Regs) (e : Err) (s : State) :
    outcome c (.error (.raised e s)) = .next (raiseEnd c e s) := rfl
@[simp] theorem outcome_stuck (c : Err → Regs → Regs) (a : Nat) (s : State) :
    outcome c (.error (.stuck a s)) = .next (s.setStuck (some a)) := rfl
@[simp] theorem outcome_fault (c : Err → Regs → Regs) (f : Fault) :
    outcome c (.error (.fault f)) = .fault f := rfl
@[simp] theorem workOutcome_ok (s : State) (w : Work) : workOutcome s (.ok w) = .next (s.setWork w) := rfl
@[simp] theorem workOutcome_error (s : State) (f : Fault) : workOutcome s (.error f) = .fault f := rfl

@[simp] theorem ok_bind {ε α β : Type} (a : α) (f : α → Except ε β) :
    ((Except.ok a : Except ε α) >>= f) = f a := rfl
@[simp] theorem error_bind {ε α β : Type} (e : ε) (f : α → Except ε β) :
    ((Except.error e : Except ε α) >>= f) = .error e := rfl

/-- Where a composed operation answers a value, so does its first part. -/
theorem bind_eq_ok {ε α β : Type} {x : Except ε α} {f : α → Except ε β} {b : β} :
    (x >>= f) = .ok b ↔ ∃ a, x = .ok a ∧ f a = .ok b := by
  cases x <;> simp

/-! ### Accesses to memory -/

/-- Every byte of `[a, a + n)` exists and is backed (R60, R67). -/
def Reachable (p : Params) (a n : Nat) : Prop := ∀ x, a ≤ x → x < a + n → accessible p x

theorem Reachable.tail {p : Params} {a n : Nat} (h : Reachable p a (n + 1)) :
    Reachable p (a + 1) n := fun x h1 h2 => h x (by omega) (by omega)

theorem Reachable.head {p : Params} {a n : Nat} (h : Reachable p a (n + 1)) : accessible p a :=
  h a (by omega) (by omega)

theorem Reachable.sub {p : Params} {a n b k : Nat} (h : Reachable p a n) (h1 : a ≤ b)
    (h2 : b + k ≤ a + n) : Reachable p b k := fun x _ _ => h x (by omega) (by omega)

theorem Reachable.zero {p : Params} {a : Nat} : Reachable p a 0 := fun _ _ _ => by omega

theorem accessible_iff {p : Params} {a : Nat} :
    accessible p a = true ↔ a < 2 ^ p.addrW ∧ busOk p a = true := by
  simp [accessible]

theorem loadByte_eq_ok {s : State} {a : Nat} {b : Byte} :
    loadByte s a = .ok b ↔ accessible s.par a ∧ b = s.mem.read a := by
  rw [accessible_iff, loadByte]
  split_ifs with h1 h2
  · simp only [Except.ok.injEq, h1, h2, and_self, true_and]
    exact eq_comm
  · simp [h2]
  · simp [h1]

theorem storeByte_eq_ok {s t : State} {a : Nat} {b : Byte} :
    storeByte s a b = .ok t ↔ accessible s.par a ∧ t = s.setMem (s.mem.write a b) := by
  rw [accessible_iff, storeByte]
  split_ifs with h1 h2
  · simp only [Except.ok.injEq, h1, h2, and_self, true_and]
    exact eq_comm
  · simp [h2]
  · simp [h1]

/-- A load of a byte that exists and is not backed leaves the core stuck (R67). -/
theorem loadByte_stuck {s : State} {a : Nat} (h : noBacking s.par a) :
    loadByte s a = .error (.stuck a s) := by
  simp [loadByte, h.1, h.2]

theorem storeByte_stuck {s : State} {a : Nat} {b : Byte} (h : noBacking s.par a) :
    storeByte s a b = .error (.stuck a s) := by
  simp [storeByte, h.1, h.2]

theorem loadBytes_eq_ok {s : State} {a n : Nat} {bs : List Byte} :
    loadBytes s a n = .ok bs ↔ Reachable s.par a n ∧ bs = s.mem.readRange a n := by
  induction n generalizing a bs with
  | zero => simp [loadBytes, Memory.readRange, Reachable.zero, eq_comm]
  | succ n ih =>
    rw [loadBytes]
    simp only [bind_eq_ok, loadByte_eq_ok, ih, Memory.readRange, pure, Except.pure]
    constructor
    · rintro ⟨b, ⟨hb, rfl⟩, cs, ⟨hr, rfl⟩, h⟩
      cases h
      refine ⟨fun x h1 h2 => ?_, rfl⟩
      by_cases hx : x = a
      · exact hx ▸ hb
      · exact hr x (by omega) (by omega)
    · rintro ⟨hr, rfl⟩
      exact ⟨_, ⟨hr.head, rfl⟩, _, ⟨hr.tail, rfl⟩, rfl⟩

theorem storeBytes_eq_ok {s t : State} {a : Nat} {bs : List Byte} :
    storeBytes s a bs = .ok t ↔
      Reachable s.par a bs.length ∧ t = s.setMem (s.mem.writeRange a bs) := by
  induction bs generalizing a s with
  | nil => simp [storeBytes, Memory.writeRange, Reachable.zero, eq_comm]
  | cons b bs ih =>
    rw [storeBytes]
    simp only [bind_eq_ok, storeByte_eq_ok, ih, Memory.writeRange, List.length_cons]
    constructor
    · rintro ⟨u, ⟨hb, rfl⟩, hr, rfl⟩
      refine ⟨fun x h1 h2 => ?_, rfl⟩
      by_cases hx : x = a
      · exact hx ▸ hb
      · exact hr x (by omega) (by omega)
    · rintro ⟨hr, rfl⟩
      exact ⟨_, ⟨hr.head, rfl⟩, hr.tail, rfl⟩

/-- An access never raises an error: it answers, or the core is stuck in the state it had, or the byte
does not exist. -/
theorem loadByte_post {s : State} {a : Nat} {R : Halt → Prop}
    (hR : noBacking s.par a → R (.stuck a s)) :
    Post (fun b => accessible s.par a ∧ b = s.mem.read a) R (loadByte s a) := by
  rw [loadByte, accessible_iff]
  split_ifs with h1 h2
  · simp [h1, h2]
  · exact hR ⟨h1, by simpa using h2⟩
  · simp

theorem storeByte_post {s : State} {a : Nat} {b : Byte} {R : Halt → Prop}
    (hR : noBacking s.par a → R (.stuck a s)) :
    Post (fun t => accessible s.par a ∧ t = s.setMem (s.mem.write a b)) R (storeByte s a b) := by
  rw [storeByte, accessible_iff]
  split_ifs with h1 h2
  · simp [h1, h2]
  · exact hR ⟨h1, by simpa using h2⟩
  · simp

theorem loadBytes_post {s : State} {a n : Nat} {R : Halt → Prop}
    (hR : ∀ x, noBacking s.par x → R (.stuck x s)) :
    Post (fun bs => Reachable s.par a n ∧ bs = s.mem.readRange a n) R (loadBytes s a n) := by
  induction n generalizing a with
  | zero => simp [loadBytes, Memory.readRange, Reachable.zero]
  | succ n ih =>
    rw [loadBytes]
    refine (loadByte_post (hR a)).bind fun b hb => ih.bind fun bs hbs => ?_
    have := (loadBytes_eq_ok (s := s) (a := a) (n := n + 1) (bs := b :: bs)).1
    refine this ?_
    rw [loadBytes, loadByte_eq_ok.2 hb, ok_bind, loadBytes_eq_ok.2 hbs]
    rfl

/-- A load of bytes is stuck at the first that is not backed (R67). -/
theorem loadBytes_stuck {s : State} {a n j : Nat} (hj : j < n) (h : Reachable s.par a j)
    (hb : noBacking s.par (a + j)) : loadBytes s a n = .error (.stuck (a + j) s) := by
  induction n generalizing a j with
  | zero => omega
  | succ n ih =>
    rw [loadBytes]
    cases j with
    | zero =>
      rw [Nat.add_zero] at hb ⊢
      rw [loadByte_stuck hb]
      rfl
    | succ j =>
      rw [loadByte_eq_ok.2 ⟨h.head, rfl⟩, ok_bind]
      rw [show a + (j + 1) = a + 1 + j by omega] at hb ⊢
      rw [ih (by omega) h.tail hb]
      rfl

/-- A store of bytes is stuck at the first that is not backed, with those before it written (R67). -/
theorem storeBytes_stuck {s : State} {a j : Nat} {bs : List Byte} (hj : j < bs.length)
    (h : Reachable s.par a j) (hb : noBacking s.par (a + j)) :
    storeBytes s a bs =
      .error (.stuck (a + j) (s.setMem (s.mem.writeRange a (bs.take j)))) := by
  induction bs generalizing a j s with
  | nil => simp at hj
  | cons b bs ih =>
    rw [storeBytes]
    cases j with
    | zero =>
      rw [Nat.add_zero] at hb ⊢
      rw [storeByte_stuck hb]
      rfl
    | succ j =>
      rw [storeByte_eq_ok.2 ⟨h.head, rfl⟩, ok_bind]
      rw [show a + (j + 1) = a + 1 + j by omega] at hb ⊢
      rw [ih (s := s.setMem (s.mem.write a b)) (by simpa using hj) h.tail hb]
      rfl

/-! ### The checks -/

theorem rangeCheck_eq_ok {s : State} :
    rangeCheck s = .ok () ↔
      s.src < 2 ^ s.par.addrW ∧ s.src + s.srclen ≤ 2 ^ s.par.addrW ∧
      s.dst < 2 ^ s.par.addrW ∧ s.dst + s.cap ≤ 2 ^ s.par.addrW := by
  rw [rangeCheck]
  split_ifs with h1 h2
  · simp only [throwErr, reduceCtorEq, false_iff]; omega
  · simp only [throwErr, reduceCtorEq, false_iff]; omega
  · simp only [true_iff]; omega

theorem overlapCheck_eq_ok {s : State} :
    overlapCheck s = .ok () ↔
      (s.srclen = 0 ∨ s.cap = 0 ∨ s.dst + s.cap ≤ s.src ∨ s.src + s.srclen ≤ s.dst) := by
  rw [overlapCheck]
  split_ifs with h1
  · simp only [throwErr, reduceCtorEq, false_iff]; omega
  · simp only [true_iff]; omega

theorem rangeCheck_post {s : State} :
    Post (fun _ => rangeCheck s = .ok ()) (fun h => ∃ d, h = .raised ⟨.param, d⟩ s) (rangeCheck s) := by
  rw [rangeCheck]
  split_ifs <;> simp

theorem overlapCheck_post {s : State} :
    Post (fun _ => overlapCheck s = .ok ()) (fun h => ∃ d, h = .raised ⟨.param, d⟩ s)
      (overlapCheck s) := by
  rw [overlapCheck]
  split_ifs <;> simp

/-! ### The ends of a command -/

section Ends
variable (st : Word64) (len : Nat) (c : Err → Regs → Regs) (e : Err) (s : State)

@[simp] theorem endCommand_par : (endCommand st s).par = s.par := rfl
@[simp] theorem endCommand_phase : (endCommand st s).phase = .idle := rfl
@[simp] theorem endCommand_stuck : (endCommand st s).stuck = s.stuck := rfl
@[simp] theorem endCommand_regs : (endCommand st s).regs = { s.regs with status := st } := rfl
@[simp] theorem endCommand_latch : (endCommand st s).latch = s.latch := rfl
@[simp] theorem endCommand_work : (endCommand st s).work = s.work := rfl
@[simp] theorem endCommand_mem : (endCommand st s).mem = s.mem := rfl
@[simp] theorem endCommand_ret : (endCommand st s).ret = s.ret := rfl
@[simp] theorem endCommand_inbox : (endCommand st s).inbox = s.inbox := rfl
@[simp] theorem endCommand_observed : (endCommand st s).observed = s.observed := rfl
@[simp] theorem endCommand_busyLeft : (endCommand st s).busyLeft = 0 := rfl
@[simp] theorem endCommand_draws : (endCommand st s).draws = s.draws := rfl

@[simp] theorem complete_par : (complete len s).par = s.par := rfl
@[simp] theorem complete_phase : (complete len s).phase = .idle := rfl
@[simp] theorem complete_stuck : (complete len s).stuck = s.stuck := rfl
@[simp] theorem complete_regs : (complete len s).regs =
    { s.regs with status := statusComplete, resultLen := BitVec.ofNat 64 len } := rfl
@[simp] theorem complete_latch : (complete len s).latch = s.latch := rfl
@[simp] theorem complete_work : (complete len s).work = s.work := rfl
@[simp] theorem complete_mem : (complete len s).mem = s.mem := rfl
@[simp] theorem complete_ret : (complete len s).ret = s.ret := rfl
@[simp] theorem complete_inbox : (complete len s).inbox = s.inbox := rfl
@[simp] theorem complete_observed : (complete len s).observed = s.observed := rfl
@[simp] theorem complete_busyLeft : (complete len s).busyLeft = 0 := rfl
@[simp] theorem complete_draws : (complete len s).draws = s.draws := rfl

@[simp] theorem raiseEnd_par : (raiseEnd c e s).par = s.par := rfl
@[simp] theorem raiseEnd_phase : (raiseEnd c e s).phase = .idle := rfl
@[simp] theorem raiseEnd_stuck : (raiseEnd c e s).stuck = s.stuck := rfl
@[simp] theorem raiseEnd_regs :
    (raiseEnd c e s).regs = { c e s.regs with status := statusError e } := rfl
@[simp] theorem raiseEnd_latch : (raiseEnd c e s).latch = s.latch := rfl
@[simp] theorem raiseEnd_work : (raiseEnd c e s).work = s.work := rfl
@[simp] theorem raiseEnd_mem : (raiseEnd c e s).mem = s.mem := rfl
@[simp] theorem raiseEnd_ret : (raiseEnd c e s).ret = s.ret := rfl
@[simp] theorem raiseEnd_inbox : (raiseEnd c e s).inbox = s.inbox := rfl
@[simp] theorem raiseEnd_observed : (raiseEnd c e s).observed = s.observed := rfl
@[simp] theorem raiseEnd_busyLeft : (raiseEnd c e s).busyLeft = 0 := rfl
@[simp] theorem raiseEnd_draws : (raiseEnd c e s).draws = s.draws := rfl

end Ends

/-! ### Free values -/

section Scramble
variable (s : State) (a n : Nat)

@[simp] theorem scramble_par : (scramble s a n).par = s.par := rfl
@[simp] theorem scramble_phase : (scramble s a n).phase = s.phase := rfl
@[simp] theorem scramble_stuck : (scramble s a n).stuck = s.stuck := rfl
@[simp] theorem scramble_regs : (scramble s a n).regs = s.regs := rfl
@[simp] theorem scramble_latch : (scramble s a n).latch = s.latch := rfl
@[simp] theorem scramble_work : (scramble s a n).work = s.work := rfl
@[simp] theorem scramble_ret : (scramble s a n).ret = s.ret := rfl
@[simp] theorem scramble_inbox : (scramble s a n).inbox = s.inbox := rfl
@[simp] theorem scramble_observed : (scramble s a n).observed = s.observed := rfl
@[simp] theorem scramble_busyLeft : (scramble s a n).busyLeft = s.busyLeft := rfl

theorem scramble_wf {s : State} (h : s.mem.wf) : (scramble s a n).mem.wf := Memory.scramble_wf h

theorem scramble_below {s : State} (h : s.mem.below (2 ^ s.par.addrW)) :
    (scramble s a n).mem.below (2 ^ s.par.addrW) := by
  by_cases ha : a ≤ 2 ^ s.par.addrW
  · exact Memory.scramble_below h (by omega)
  · have : min n (2 ^ s.par.addrW - a) = 0 := by omega
    rw [scramble]
    simpa [this, Memory.scramble] using h

/-- Free values leave every byte outside `[a, a + n)` as it was. -/
theorem scramble_read {s : State} (h : s.mem.wf) {x : Nat} (hx : x < a ∨ a + n ≤ x) :
    (scramble s a n).mem.read x = s.mem.read x :=
  Memory.read_scramble_outside h (by omega)

end Scramble

/-! ### Operations of the working state inside a command -/

theorem onWork_eq_ok {f : Work → Except Fault Work} {s t : State} :
    onWork f s = .ok t ↔ ∃ w, f s.work = .ok w ∧ t = s.setWork w := by
  rw [onWork]
  split <;> simp_all [eq_comm]

theorem onWork_post {f : Work → Except Fault Work} {s : State} {R : Halt → Prop} :
    Post (fun t => ∃ w, f s.work = .ok w ∧ t = s.setWork w) R (onWork f s) := by
  rw [onWork]
  split <;> simp_all

/-! ### Issue -/

section Issue
variable (w : Word64) (n : Nat) (s : State)

@[simp] theorem latchCommand_par : (latchCommand w n s).par = s.par := rfl
@[simp] theorem latchCommand_phase : (latchCommand w n s).phase = .busy := rfl
@[simp] theorem latchCommand_stuck : (latchCommand w n s).stuck = none := rfl
@[simp] theorem latchCommand_regs :
    (latchCommand w n s).regs = { s.regs with status := statusIssued } := rfl
@[simp] theorem latchCommand_latch : (latchCommand w n s).latch =
    ⟨w, s.regs.srcAddr, s.regs.srcLen, s.regs.dstAddr, s.regs.dstCap, !cmdSkipVerify w⟩ := rfl
@[simp] theorem latchCommand_work : (latchCommand w n s).work = s.work := rfl
@[simp] theorem latchCommand_mem : (latchCommand w n s).mem = s.mem := rfl
@[simp] theorem latchCommand_ret : (latchCommand w n s).ret = s.ret := rfl
@[simp] theorem latchCommand_inbox : (latchCommand w n s).inbox = s.inbox := rfl
@[simp] theorem latchCommand_observed : (latchCommand w n s).observed = s.observed := rfl
@[simp] theorem latchCommand_busyLeft : (latchCommand w n s).busyLeft = n := rfl
@[simp] theorem latchCommand_draws : (latchCommand w n s).draws = s.draws := rfl

end Issue

end Sys2Proof.Machine
end

