-- ==== Sys2Proof/Laws/PriorityQueue.lean ====
section
/-! SUPPORT. The priority queue: insertion, the least key, and what each operation does. -/

namespace Sys2Proof.Machine

/-! ### Insertion into the ascending list -/

theorem mem_insertAsc {i j : Nat} {l : List Nat} : j ∈ insertAsc i l ↔ j = i ∨ j ∈ l := by
  induction l with
  | nil => simp [insertAsc]
  | cons k ks ih =>
    rw [insertAsc]
    split_ifs with h1 h2
    · simp
    · simp [h2]
    · simp only [List.mem_cons, ih]; tauto

theorem insertAsc_length {i : Nat} {l : List Nat} (h : i ∉ l) :
    (insertAsc i l).length = l.length + 1 := by
  induction l with
  | nil => rfl
  | cons k ks ih =>
    rw [List.mem_cons, not_or] at h
    rw [insertAsc, if_neg h.1]
    split_ifs
    · rfl
    · simp [ih h.2]

theorem insertAsc_pairwise {i : Nat} {l : List Nat} (h : l.Pairwise (· < ·)) :
    (insertAsc i l).Pairwise (· < ·) := by
  induction l with
  | nil => simp [insertAsc]
  | cons k ks ih =>
    rw [List.pairwise_cons] at h
    rw [insertAsc]
    split_ifs with h1 h2
    · refine List.pairwise_cons.2 ⟨fun j hj => ?_, List.pairwise_cons.2 h⟩
      rcases List.mem_cons.1 hj with rfl | hj
      · exact h1
      · exact h1.trans (h.1 j hj)
    · exact List.pairwise_cons.2 h
    · refine List.pairwise_cons.2 ⟨fun j hj => ?_, ih h.2⟩
      rcases mem_insertAsc.1 hj with rfl | hj
      · omega
      · exact h.1 j hj

/-- Two ascending lists with the same members are the same list. -/
theorem asc_ext {l k : List Nat} (hl : l.Pairwise (· < ·)) (hk : k.Pairwise (· < ·))
    (h : ∀ x, x ∈ l ↔ x ∈ k) : l = k := by
  have hp : l.Perm k := (List.perm_ext_iff_of_nodup (hl.imp fun h => h.ne) (hk.imp fun h => h.ne)).2 h
  exact hp.eq_of_pairwise (fun a b _ _ h1 h2 => absurd h2 (by omega)) hl hk

/-- An index above all queued ones goes to the end. -/
theorem insertAsc_above {i : Nat} {l : List Nat} (h : ∀ j ∈ l, j < i) : insertAsc i l = l ++ [i] := by
  induction l with
  | nil => rfl
  | cons k ks ih =>
    have := h k (by simp)
    rw [insertAsc, if_neg (by omega), if_neg (by omega), ih fun j hj => h j (by simp [hj]),
      List.cons_append]

/-! ### The order -/

/-- R140's order on the keys of two indices. -/
theorem keyLt_iff {fi i fj j : Nat} : keyLt fi i fj j = true ↔ fi < fj ∨ (fi = fj ∧ i < j) := by
  simp [keyLt]

theorem keyLt_trichotomy {fi i fj j : Nat} (h : i ≠ j) :
    keyLt fi i fj j = true ∨ keyLt fj j fi i = true := by
  simp only [keyLt_iff]; omega

theorem leastKey_mem (nodes : List Node) (b : Nat) (l : List Nat) : leastKey nodes b l ∈ b :: l := by
  induction l generalizing b with
  | nil => simp [leastKey]
  | cons j js ih =>
    rw [leastKey]
    split_ifs
    · exact List.mem_cons_of_mem _ (ih j)
    · rcases List.mem_cons.1 (ih b) with h | h
      · rw [h]; exact List.mem_cons_self
      · exact List.mem_cons_of_mem _ (List.mem_cons_of_mem _ h)

/-- The index extracted precedes every other in R140's order. -/
theorem leastKey_least (nodes : List Node) (b : Nat) (l : List Nat) :
    ∀ j ∈ b :: l, j ≠ leastKey nodes b l →
      keyLt (nodeFreq nodes (leastKey nodes b l)) (leastKey nodes b l) (nodeFreq nodes j) j = true := by
  induction l generalizing b with
  | nil => simp [leastKey]
  | cons k ks ih =>
    intro j hj hne
    rw [leastKey] at hne ⊢
    have hmem := leastKey_mem nodes
      (if keyLt (nodeFreq nodes k) k (nodeFreq nodes b) b then k else b) ks
    have key := ih (if keyLt (nodeFreq nodes k) k (nodeFreq nodes b) b then k else b)
    generalize hm : leastKey nodes (if keyLt (nodeFreq nodes k) k (nodeFreq nodes b) b then k else b)
      ks = m at *
    split_ifs at key hmem with hk
    · rcases List.mem_cons.1 hj with rfl | hj
      · by_cases hmk : k = m
        · subst hmk; exact hk
        · have h1 := key k (by simp) hmk
          rw [keyLt_iff] at h1 hk ⊢
          omega
      · exact key j hj hne
    · simp only [List.mem_cons] at hj
      rcases hj with rfl | rfl | hj
      · exact key j (by simp) hne
      · by_cases hbm : b = m
        · subst hbm
          rcases keyLt_trichotomy (fi := nodeFreq nodes j) (fj := nodeFreq nodes b) hne with h | h
          · exact absurd h hk
          · exact h
        · have h1 := key b (by simp) hbm
          rw [keyLt_iff] at h1 hk ⊢
          omega
      · exact key j (by simp [hj]) hne

/-! ### The operations -/

/-- The queue is a set of at most 256 allocated indices (R42), held in ascending order. -/
structure PqOk (w : Work) : Prop where
  asc : w.pq.Pairwise (· < ·)
  alloc : ∀ i ∈ w.pq, i < w.nodes.length
  cap : w.pq.length ≤ 256

theorem pqClear_ok (w : Work) : PqOk (pqClear w) := ⟨List.Pairwise.nil, by simp [pqClear], by simp [pqClear]⟩

theorem pqInsert_eq_ok {i : Nat} {w v : Work} :
    pqInsert i w = .ok v ↔ w.pq.length ≠ 256 ∧ i < w.nodes.length ∧ i ∉ w.pq ∧
      v = w.setPq (insertAsc i w.pq) := by
  rw [pqInsert]
  split_ifs with h1 h2
  · simp only [false_iff]; tauto
  · simp only [false_iff]
    rintro ⟨-, h3, h4, -⟩
    rcases h2 with h2 | h2
    · omega
    · exact h4 h2
  · simp only [not_or, not_le] at h2
    simp only [Except.ok.injEq, ne_eq, h1, not_false_eq_true, h2, true_and]
    exact eq_comm

theorem pqInsert_keeps {i : Nat} {w v : Work} (hw : PqOk w) (h : pqInsert i w = .ok v) : PqOk v := by
  obtain ⟨h1, h2, h3, rfl⟩ := pqInsert_eq_ok.1 h
  refine ⟨insertAsc_pairwise hw.asc, fun j hj => ?_, ?_⟩
  · rcases mem_insertAsc.1 hj with rfl | hj
    · exact h2
    · exact hw.alloc j hj
  · have := hw.cap
    rw [Work.setPq_pq, insertAsc_length h3]
    omega

/-- pq_extract_min removes the index that precedes every other (R140, R143). -/
theorem pqExtractMin_eq_ok {m : Nat} {w v : Work} (h : pqExtractMin w = .ok (m, v)) :
    m ∈ w.pq ∧ (∀ j ∈ w.pq, j < w.nodes.length) ∧
    (∀ j ∈ w.pq, j ≠ m → keyLt (nodeFreq w.nodes m) m (nodeFreq w.nodes j) j = true) ∧
    v = w.setPq (w.pq.erase m) := by
  rw [pqExtractMin] at h
  split at h
  · exact absurd h (by simp)
  · rename_i i is hpq
    split at h
    · exact absurd h (by simp)
    · rename_i hfind
      rw [List.find?_eq_none] at hfind
      simp only [Except.ok.injEq, Prod.mk.injEq] at h
      obtain ⟨rfl, rfl⟩ := h
      rw [hpq] at hfind ⊢
      refine ⟨leastKey_mem _ _ _, fun j hj => ?_, leastKey_least _ _ _, rfl⟩
      have := hfind j hj
      simpa using this

theorem pqExtractMin_completes {w : Work} (hne : w.pq ≠ []) (h : ∀ i ∈ w.pq, i < w.nodes.length) :
    ∃ m v, pqExtractMin w = .ok (m, v) := by
  rw [pqExtractMin]
  split
  · contradiction
  · split
    · rename_i j hfind
      have h1 := List.find?_some hfind
      have h2 := h j (List.mem_of_find?_eq_some hfind)
      simp only [decide_eq_true_eq] at h1
      omega
    · exact ⟨_, _, rfl⟩

theorem pqExtractMin_keeps {m : Nat} {w v : Work} (hw : PqOk w) (h : pqExtractMin w = .ok (m, v)) :
    PqOk v := by
  obtain ⟨-, -, -, rfl⟩ := pqExtractMin_eq_ok h
  refine ⟨hw.asc.sublist (List.erase_sublist ..), fun j hj => ?_, ?_⟩
  · exact hw.alloc j (List.mem_of_mem_erase hj)
  · exact ((List.erase_sublist ..).length_le).trans hw.cap

theorem pqExtractMin_length {m : Nat} {w v : Work} (h : pqExtractMin w = .ok (m, v)) :
    v.pq.length + 1 = w.pq.length := by
  obtain ⟨hm, -, -, rfl⟩ := pqExtractMin_eq_ok h
  have := List.length_pos_of_mem hm
  rw [Work.setPq_pq, List.length_erase_of_mem hm]
  omega

end Sys2Proof.Machine
end

