-- ==== Sys2Proof/Laws/Tables.lean ====
section
/-! SUPPORT. Tables of one entry for each symbol, and the symbols with a nonzero count. -/

namespace Sys2Proof.Machine

variable {α : Type}

theorem tget_tset (t : Table α) (b c : Byte) (x : α) :
    tget (tset t b x) c = if c = b then x else tget t c := by
  rw [tget, tset, Vector.getElem_set]
  by_cases h : c = b
  · rw [if_pos h, if_pos (by rw [h])]
  · rw [if_neg h, if_neg (fun h' => h (BitVec.eq_of_toNat_eq h'.symm)), tget]

theorem tget_replicate (x : α) (b : Byte) : tget (Vector.replicate 256 x) b = x := by
  rw [tget, Vector.getElem_replicate]

theorem Table.ext {t u : Table α} (h : ∀ b, tget t b = tget u b) : t = u := by
  refine Vector.ext fun i hi => ?_
  have := h (BitVec.ofNat 8 i)
  simpa [tget, Nat.mod_eq_of_lt hi] using this

@[simp] theorem allSymbols_length : allSymbols.length = 256 := by simp [allSymbols]

theorem allSymbols_getElem (i : Nat) (h : i < allSymbols.length) :
    allSymbols[i] = BitVec.ofNat 8 i := by simp [allSymbols]

theorem mem_allSymbols (b : Byte) : b ∈ allSymbols := by
  refine List.mem_map.2 ⟨b.toNat, List.mem_range.2 b.isLt, ?_⟩
  simp

theorem allSymbols_pairwise : allSymbols.Pairwise (fun x y => x.toNat < y.toNat) := by
  rw [List.pairwise_iff_getElem]
  intro i j hi hj hij
  rw [allSymbols_getElem, allSymbols_getElem]
  simp only [allSymbols_length] at hi hj
  simp [Nat.mod_eq_of_lt hi, Nat.mod_eq_of_lt hj, hij]

theorem entries_eq (t : Table α) : entries t = allSymbols.map fun s => (s, tget t s) := by
  refine List.ext_getElem (by simp [entries]) fun i h1 h2 => ?_
  have hi : i < 256 := by simpa [entries] using h1
  simp only [entries, List.getElem_zip, List.getElem_map, allSymbols_getElem]
  simp [tget, Nat.mod_eq_of_lt hi]

theorem counted_eq (t : Table Word32) :
    counted t = (allSymbols.filter fun s => tget t s != 0).map fun s => (s, tget t s) := by
  rw [counted, entries_eq, List.filter_map]
  rfl

/-- The counted symbols are those with a nonzero count, each with its count. -/
theorem mem_counted {t : Table Word32} {s : Byte} {f : Word32} :
    (s, f) ∈ counted t ↔ tget t s = f ∧ f ≠ 0 := by
  rw [counted_eq, List.mem_map]
  constructor
  · rintro ⟨x, hx, h⟩
    cases h
    simpa using (List.mem_filter.1 hx).2
  · rintro ⟨rfl, hf⟩
    exact ⟨s, List.mem_filter.2 ⟨mem_allSymbols s, by simpa using hf⟩, rfl⟩

theorem counted_ne_zero {t : Table Word32} {e : Byte × Word32} (h : e ∈ counted t) : e.2 ≠ 0 :=
  (mem_counted.1 (show (e.1, e.2) ∈ counted t from h)).2

theorem counted_tget {t : Table Word32} {e : Byte × Word32} (h : e ∈ counted t) :
    tget t e.1 = e.2 := (mem_counted.1 (show (e.1, e.2) ∈ counted t from h)).1

theorem counted_length (t : Table Word32) : (counted t).length ≤ 256 := by
  rw [counted_eq, List.length_map]
  exact (List.length_filter_le _ _).trans (by simp)

/-- The counted symbols stand in ascending order. -/
theorem counted_pairwise (t : Table Word32) :
    (counted t).Pairwise (fun x y => x.1.toNat < y.1.toNat) := by
  rw [counted_eq, List.pairwise_map]
  exact allSymbols_pairwise.filter _

theorem counted_syms_nodup (t : Table Word32) : ((counted t).map Prod.fst).Nodup := by
  rw [List.Nodup, List.pairwise_map]
  exact (counted_pairwise t).imp fun h e => by rw [e] at h; exact lt_irrefl _ h

end Sys2Proof.Machine
end

