-- ==== Sys2Proof/Laws/Tree.lean ====
section
/-! SUPPORT. Tree construction: the trees that an arena holds, and what each part of the build leaves. -/

namespace Sys2Proof.Machine

/-! ### Trees, and the arena nodes that hold one -/

/-- The strict binary tree of R160 that hangs below a node: never one child, no sharing, no cycle. -/
inductive Tree where
  | leaf (sym : Byte) (freq : Nat)
  | node (left right : Tree)
  deriving DecidableEq, Repr

/-- The combined frequency (R160). -/
def Tree.freq : Tree → Nat
  | .leaf _ f => f
  | .node l r => l.freq + r.freq

/-- The leaves, left to right. -/
def Tree.leaves : Tree → List (Byte × Nat)
  | .leaf s f => [(s, f)]
  | .node l r => l.leaves ++ r.leaves

/-- The number of edges on the longest path. -/
def Tree.depth : Tree → Nat
  | .leaf _ _ => 0
  | .node l r => max l.depth r.depth + 1

/-- The arena holds this tree below index `i`; children have smaller indices than their parent. -/
inductive IsTree (nodes : List Node) : Nat → Tree → Prop
  | leaf {i : Nat} {s : Byte} {f : Nat} : nodes[i]? = some (.leaf s f) → IsTree nodes i (.leaf s f)
  | node {i l r : Nat} {tl tr : Tree} : nodes[i]? = some (.internal (tl.freq + tr.freq) l r) →
      l < i → r < i → IsTree nodes l tl → IsTree nodes r tr → IsTree nodes i (.node tl tr)

theorem IsTree.lt {nodes : List Node} {i : Nat} {t : Tree} (h : IsTree nodes i t) :
    i < nodes.length := by
  cases h with
  | leaf h => exact (List.getElem?_eq_some_iff.1 h).1
  | node h => exact (List.getElem?_eq_some_iff.1 h).1

theorem IsTree.freq {nodes : List Node} {i : Nat} {t : Tree} (h : IsTree nodes i t) :
    nodeFreq nodes i = t.freq := by
  cases h with
  | leaf h => simp [nodeFreq, h, Node.freq, Tree.freq]
  | node h => simp [nodeFreq, h, Node.freq, Tree.freq]

/-- An allocation leaves the trees the arena holds as they are. -/
theorem IsTree.append {nodes : List Node} {i : Nat} {t : Tree} (h : IsTree nodes i t)
    (more : List Node) : IsTree (nodes ++ more) i t := by
  induction h with
  | leaf h =>
    refine .leaf ?_
    rw [List.getElem?_append_left (List.getElem?_eq_some_iff.1 h).1, h]
  | node h hl hr _ _ ihl ihr =>
    refine .node ?_ hl hr ihl ihr
    rw [List.getElem?_append_left (List.getElem?_eq_some_iff.1 h).1, h]

theorem IsTree.unique {nodes : List Node} {i : Nat} {t u : Tree} (h : IsTree nodes i t)
    (h' : IsTree nodes i u) : t = u := by
  induction h generalizing u with
  | leaf h =>
    cases h' with
    | leaf h2 => rw [h] at h2; cases h2; rfl
    | node h2 => rw [h] at h2; cases h2
  | node h _ _ _ _ ihl ihr =>
    cases h' with
    | leaf h2 => rw [h] at h2; cases h2
    | node h2 _ _ hl hr =>
      rw [h] at h2
      simp only [Option.some.injEq, Node.internal.injEq] at h2
      obtain ⟨-, rfl, rfl⟩ := h2
      rw [ihl hl, ihr hr]

theorem Tree.leaves_length_pos (t : Tree) : 0 < t.leaves.length := by
  induction t with
  | leaf => simp [Tree.leaves]
  | node l r ihl _ => simp only [Tree.leaves, List.length_append]; omega

/-- R168 (d): a tree of n leaves has depth at most n - 1. -/
theorem Tree.depth_lt (t : Tree) : t.depth < t.leaves.length := by
  induction t with
  | leaf => simp [Tree.leaves, Tree.depth]
  | node l r ihl ihr =>
    have := l.leaves_length_pos
    have := r.leaves_length_pos
    simp only [Tree.depth, Tree.leaves, List.length_append]
    omega

/-- R168 (a): the root's frequency is the sum of the leaves'. -/
theorem Tree.freq_eq_sum (t : Tree) : t.freq = (t.leaves.map Prod.snd).sum := by
  induction t with
  | leaf => simp [Tree.leaves, Tree.freq]
  | node l r ihl ihr => simp [Tree.leaves, Tree.freq, ihl, ihr]

/-! ### Allocation -/

theorem allocNode_eq_ok {n : Node} {w v : Work} :
    allocNode n w = .ok v ↔ w.nodes.length < 511 ∧ v = w.setNodes (w.nodes ++ [n]) := by
  rw [allocNode]
  split_ifs with h
  · simp only [false_iff]
    rintro ⟨h', -⟩
    exact absurd h (Nat.not_le.2 h')
  · simp only [Except.ok.injEq, Nat.not_le.1 h, true_and]
    exact eq_comm

/-! ### The leaves (R161, R162) -/

/-- The leaf node of a counted symbol. -/
def leafNode (e : Byte × Word32) : Node := .leaf e.1 e.2.toNat

theorem leafLoop_eq {es : List (Byte × Word32)} {w : Work} (hq : w.pq = List.range w.nodes.length)
    (hn : w.nodes.length + es.length ≤ 256) :
    leafLoop es w = .ok ((w.setNodes (w.nodes ++ es.map leafNode)).setPq
      (List.range (w.nodes.length + es.length))) := by
  induction es generalizing w with
  | nil =>
    simp only [leafLoop, List.map_nil, List.append_nil, List.length_nil, Nat.add_zero, ← hq]
    rfl
  | cons e es ih =>
    obtain ⟨s, f⟩ := e
    rw [List.length_cons] at hn
    have h1 := (allocNode_eq_ok (n := .leaf s f.toNat) (w := w)).2 ⟨by omega, rfl⟩
    have h2 : pqInsert w.nodes.length (w.setNodes (w.nodes ++ [.leaf s f.toNat])) =
        .ok ((w.setNodes (w.nodes ++ [.leaf s f.toNat])).setPq (List.range (w.nodes.length + 1))) := by
      refine pqInsert_eq_ok.2 ⟨?_, by simp, ?_, ?_⟩
      · simp only [Work.setNodes_pq, hq, List.length_range]; omega
      · simp [hq]
      · rw [Work.setNodes_pq, hq]
        rw [insertAsc_above (fun j hj => List.mem_range.1 hj), List.range_succ]
    rw [leafLoop, leafStep, h1]
    simp only [ok_bind, h2]
    rw [ih (by simp) (by
      simp only [Work.setPq_nodes, Work.setNodes_nodes, List.length_append, List.length_singleton]
      omega)]
    simp only [Work.setPq_nodes, Work.setNodes_nodes, List.length_append, List.append_assoc, List.singleton_append, List.map_cons, leafNode, List.length_cons]
    rw [Nat.add_right_comm, Nat.add_assoc]
    rfl

/-- What R162's root is: EMPTY (R164), the bare leaf (R165), or not yet there. -/
def leavesRoot (n : Nat) (old : Option Nat) : Option Nat :=
  if n = 0 then none else if n = 1 then some 0 else old

/-- R162 completes from every state, and this is what it leaves. -/
theorem buildTreeLeaves_eq (w : Work) :
    buildTreeLeaves w = .ok (((w.setNodes ((counted w.freq).map leafNode)).setPq
      (List.range (counted w.freq).length)).setRoot (leavesRoot (counted w.freq).length w.root)) := by
  rw [buildTreeLeaves, leafLoop_eq (by simp [pqClear]) (by simpa [pqClear] using counted_length _)]
  simp only [ok_bind, pqClear, Work.setPq_nodes, Work.setNodes_nodes, List.nil_append,
    List.length_map, List.length_nil, Nat.zero_add, pure, Except.pure, leavesRoot]
  split_ifs <;> rfl

/-! ### The merges (R163) -/

/-- The queued nodes are the roots of trees whose leaves, together, are `ls`. -/
def Forest (ls : List (Byte × Nat)) (w : Work) : Prop :=
  ∃ ts : List (Nat × Tree), (ts.map Prod.fst).Perm w.pq ∧ (∀ p ∈ ts, IsTree w.nodes p.1 p.2) ∧
    (ts.flatMap fun p => p.2.leaves).Perm ls

/-- Extracting the minimum takes one tree out of the forest. -/
theorem Forest.extract {ts : List (Nat × Tree)} {q : List Nat} {m : Nat}
    (hq : (ts.map Prod.fst).Perm q) (hm : m ∈ q) :
    ∃ t ts', ts.Perm ((m, t) :: ts') ∧ (ts'.map Prod.fst).Perm (q.erase m) := by
  obtain ⟨p, hp, rfl⟩ := List.mem_map.1 (hq.mem_iff.2 hm)
  refine ⟨p.2, ts.erase p, List.perm_cons_erase hp, ?_⟩
  have h1 : (p.1 :: (ts.erase p).map Prod.fst).Perm q :=
    ((List.perm_cons_erase hp).map Prod.fst).symm.trans hq
  exact (List.perm_cons_erase hm).symm.trans h1.symm |>.cons_inv |>.symm

/-- One merge: the two least trees become one, and nothing else changes. -/
theorem mergeStep_eq {ls : List (Byte × Nat)} {w : Work} (hw : PqOk w) (hf : Forest ls w)
    (h2 : 2 ≤ w.pq.length) (hcap : w.nodes.length < 511) :
    ∃ f a b q, mergeStep w = .ok ((w.setNodes (w.nodes ++ [.internal f a b])).setPq q) ∧
      q.length + 1 = w.pq.length ∧
      PqOk ((w.setNodes (w.nodes ++ [.internal f a b])).setPq q) ∧
      Forest ls ((w.setNodes (w.nodes ++ [.internal f a b])).setPq q) ∧
      a ∈ w.pq ∧ b ∈ w.pq ∧ a ≠ b ∧
      keyLt (nodeFreq w.nodes a) a (nodeFreq w.nodes b) b = true ∧
      (∀ j ∈ w.pq, j ≠ a → j ≠ b → keyLt (nodeFreq w.nodes b) b (nodeFreq w.nodes j) j = true) ∧
      f = nodeFreq w.nodes a + nodeFreq w.nodes b ∧
      (∀ j, j ∈ q ↔ j = w.nodes.length ∨ (j ∈ w.pq ∧ j ≠ a ∧ j ≠ b)) := by
  have nodup : w.pq.Nodup := hw.asc.imp fun h => h.ne
  -- the first extraction
  obtain ⟨a, v, ha⟩ := pqExtractMin_completes (w := w) (by rintro h; simp [h] at h2) hw.alloc
  obtain ⟨ham, -, hamin, rfl⟩ := pqExtractMin_eq_ok ha
  have hlen := pqExtractMin_length ha
  have hvok := pqExtractMin_keeps hw ha
  rw [Work.setPq_pq] at hlen
  -- the second
  obtain ⟨b, u, hb⟩ := pqExtractMin_completes (w := w.setPq (w.pq.erase a))
    (by rw [Work.setPq_pq]; rintro h; rw [h, List.length_nil] at hlen; omega) hvok.alloc
  obtain ⟨hbm, -, hbmin, rfl⟩ := pqExtractMin_eq_ok hb
  have hlen2 := pqExtractMin_length hb
  have huok := pqExtractMin_keeps hvok hb
  simp only [Work.setPq_pq, Work.setPq_nodes, Work.setPq_setPq] at hb hbm hbmin hlen2 huok
  generalize huq : (w.pq.erase a).erase b = q at *
  have hmemu : ∀ j, j ∈ q ↔ j ∈ w.pq ∧ j ≠ a ∧ j ≠ b := by
    intro j
    rw [← huq, (nodup.erase a).mem_erase_iff, nodup.mem_erase_iff]
    tauto
  have hbw : b ≠ a ∧ b ∈ w.pq := nodup.mem_erase_iff.1 hbm
  -- the new node and its insertion
  have hnew : w.nodes.length ∉ q := fun h => absurd (huok.alloc _ h) (by simp)
  have halloc := (allocNode_eq_ok (w := w.setPq q)
    (n := .internal (nodeFreq w.nodes a + nodeFreq w.nodes b) a b)).2 ⟨hcap, rfl⟩
  have hins := (pqInsert_eq_ok (i := w.nodes.length)
    (w := (w.setPq q).setNodes
      (w.nodes ++ [.internal (nodeFreq w.nodes a + nodeFreq w.nodes b) a b]))).2
    ⟨by have := hw.cap; simp only [Work.setNodes_pq, Work.setPq_pq]; omega, by simp, hnew, rfl⟩
  have hok := pqInsert_keeps
    (w := (w.setPq q).setNodes
      (w.nodes ++ [.internal (nodeFreq w.nodes a + nodeFreq w.nodes b) a b]))
    ⟨huok.asc, fun j hj => (huok.alloc j hj).trans (by simp), huok.cap⟩ hins
  refine ⟨nodeFreq w.nodes a + nodeFreq w.nodes b, a, b, insertAsc w.nodes.length q, ?_, ?_, hok, ?_,
    ham, hbw.2, hbw.1.symm, hamin b hbw.2 hbw.1, ?_, rfl, ?_⟩
  · rw [mergeStep, ha]
    simp only [ok_bind, hb]
    rw [show (w.setPq q).nodes = w.nodes from rfl, halloc, ok_bind]
    exact hins
  · rw [insertAsc_length hnew]; omega
  · obtain ⟨ts, hts, htree, hls⟩ := hf
    obtain ⟨ta, ts1, hp1, hq1⟩ := Forest.extract hts ham
    obtain ⟨tb, ts2, hp2, hq2⟩ := Forest.extract hq1 hbm
    rw [huq] at hq2
    have hp : ts.Perm ((a, ta) :: (b, tb) :: ts2) := hp1.trans (hp2.cons _)
    have htree' : ∀ p ∈ (a, ta) :: (b, tb) :: ts2, IsTree w.nodes p.1 p.2 :=
      fun p h => htree p (hp.mem_iff.2 h)
    have hta : IsTree w.nodes a ta := htree' (a, ta) (by simp)
    have htb : IsTree w.nodes b tb := htree' (b, tb) (by simp)
    refine ⟨(w.nodes.length, .node ta tb) :: ts2, ?_, ?_, ?_⟩
    · rw [List.map_cons, Work.setPq_pq]
      have h1 : (w.nodes.length :: ts2.map Prod.fst).Nodup := by
        refine List.nodup_cons.2 ⟨fun h => hnew (hq2.mem_iff.1 h), ?_⟩
        rw [hq2.nodup_iff, ← huq]
        exact (nodup.erase a).erase b
      refine (List.perm_ext_iff_of_nodup h1 (hok.asc.imp fun h => h.ne)).2 fun j => ?_
      rw [List.mem_cons, hq2.mem_iff]
      exact mem_insertAsc.symm
    · intro p hp'
      rw [Work.setPq_nodes, Work.setNodes_nodes]
      rcases List.mem_cons.1 hp' with rfl | hp'
      · exact .node (by simp [hta.freq, htb.freq]) (hw.alloc a ham) (hw.alloc b hbw.2)
          (hta.append _) (htb.append _)
      · exact (htree' p (by simp [hp'])).append _
    · refine List.Perm.trans ?_ ((hp.flatMap_right _).symm.trans hls)
      simp [Tree.leaves]
  · exact fun j hj hja hjb => hbmin j (nodup.mem_erase_iff.2 ⟨hja, hj⟩) hjb
  · intro j
    rw [mem_insertAsc, hmemu]

/-- The whole loop: one tree is left, and each merge has allocated one node. -/
theorem mergeLoop_eq {ls : List (Byte × Nat)} {n : Nat} {w : Work} (hw : PqOk w) (hf : Forest ls w)
    (h1 : 1 ≤ w.pq.length) (hn : w.pq.length ≤ n) (hcap : w.nodes.length + w.pq.length ≤ 512) :
    ∃ more r, mergeLoop n w = .ok ((w.setNodes (w.nodes ++ more)).setPq [r]) ∧
      more.length + 1 = w.pq.length ∧
      PqOk ((w.setNodes (w.nodes ++ more)).setPq [r]) ∧
      Forest ls ((w.setNodes (w.nodes ++ more)).setPq [r]) ∧
      (more ≠ [] → r + 1 = (w.nodes ++ more).length) := by
  induction n generalizing w with
  | zero => omega
  | succ n ih =>
    rw [mergeLoop]
    by_cases h2 : 1 < pqSize w
    · rw [if_pos h2]
      obtain ⟨f, a, b, q, hstep, hq, hok, hfor, -, -, -, -, -, -, hmem⟩ :=
        mergeStep_eq hw hf h2 (by rw [pqSize] at h2; omega)
      rw [hstep]
      simp only [ok_bind]
      obtain ⟨more, r, hl, hlen, hok', hfor', hr⟩ := ih hok hfor
        (by rw [Work.setPq_pq]; rw [pqSize] at h2; omega) (by rw [Work.setPq_pq]; omega)
        (by
          simp only [Work.setPq_pq, Work.setPq_nodes, Work.setNodes_nodes, List.length_append,
            List.length_singleton]
          omega)
      simp only [Work.setPq_nodes, Work.setNodes_nodes, List.append_assoc, List.singleton_append,
        Work.setPq_pq] at hl hlen hok' hfor' hr
      refine ⟨.internal f a b :: more, r, hl, ?_, hok', hfor', ?_⟩
      · rw [List.length_cons]; omega
      · intro _
        by_cases hm : more = []
        · subst hm
          have hq1 : q.length = 1 := by simp only [List.length_nil] at hlen; omega
          -- the loop stops at once, so r is the node just inserted
          have hstop : mergeLoop n ((w.setNodes (w.nodes ++ [.internal f a b])).setPq q) =
              .ok ((w.setNodes (w.nodes ++ [.internal f a b])).setPq q) := by
            cases n with
            | zero => rfl
            | succ n => rw [mergeLoop, if_neg]; simp [pqSize, hq1]
          rw [hstop] at hl
          have hqr : q = [r] := congrArg Work.pq (Except.ok.inj hl)
          have := (hmem w.nodes.length).2 (.inl rfl)
          rw [hqr, List.mem_singleton] at this
          simp [← this]
        · exact hr hm
    · rw [if_neg h2]
      have hl : w.pq.length = 1 := by rw [pqSize] at h2; omega
      obtain ⟨r, hr⟩ := List.length_eq_one_iff.1 hl
      refine ⟨[], r, ?_, by simp [hl], ?_, ?_, by simp⟩
      · rw [List.append_nil, ← hr]; rfl
      · rw [List.append_nil, ← hr]; exact hw
      · rw [List.append_nil, ← hr]; exact hf

/-- The leaves of a build, as a forest of single leaves. -/
theorem Forest.leaves (w : Work) (es : List (Byte × Word32)) (hn : w.nodes = es.map leafNode)
    (hq : w.pq = List.range es.length) :
    Forest (es.map fun e => (e.1, e.2.toNat)) w := by
  refine ⟨(List.range es.length).zip (es.map fun e => .leaf e.1 e.2.toNat), ?_, ?_, ?_⟩
  · rw [hq, List.map_fst_zip (by simp)]
  · intro p hp
    obtain ⟨i, hi, rfl⟩ := List.mem_iff_getElem.1 hp
    simp only [List.length_zip, List.length_range, List.length_map, min_self] at hi
    simp only [List.getElem_zip, List.getElem_range, List.getElem_map]
    refine .leaf ?_
    rw [hn, List.getElem?_map, List.getElem?_eq_getElem hi]
    rfl
  · have : ((List.range es.length).zip (es.map fun e => Tree.leaf e.1 e.2.toNat)).flatMap
        (fun p => p.2.leaves) = es.map fun e => (e.1, e.2.toNat) := by
      have h : ∀ (is : List Nat) (es : List (Byte × Word32)), is.length = es.length →
          (is.zip (es.map fun e => Tree.leaf e.1 e.2.toNat)).flatMap (fun p => p.2.leaves) =
            es.map fun e => (e.1, e.2.toNat) := by
        intro is es
        induction es generalizing is with
        | nil => intro h; simp
        | cons e es ih =>
          intro h
          cases is with
          | nil => simp at h
          | cons i is => simp [Tree.leaves, ih is (by simpa using h)]
      exact h _ _ (by simp)
    rw [this]

/-- The counted symbols with their counts as numbers: the leaves of every tree built from FREQ. -/
def countedLeaves (t : Table Word32) : List (Byte × Nat) :=
  (counted t).map fun e => (e.1, e.2.toNat)

@[simp] theorem countedLeaves_length (t : Table Word32) :
    (countedLeaves t).length = (counted t).length := by simp [countedLeaves]

/-- R163 completes on what R162 leaves with two or more leaves: n - 1 merges, and the root last. -/
theorem buildTreeMerges_eq {w : Work} {es : List (Byte × Word32)} (hn : w.nodes = es.map leafNode)
    (hq : w.pq = List.range es.length) (h2 : 2 ≤ es.length) (h256 : es.length ≤ 256) :
    ∃ more t, buildTreeMerges w = .ok (((w.setNodes (w.nodes ++ more)).setPq []).setRoot
        (some (2 * es.length - 2))) ∧
      more.length = es.length - 1 ∧
      IsTree (w.nodes ++ more) (2 * es.length - 2) t ∧
      t.leaves.Perm (es.map fun e => (e.1, e.2.toNat)) := by
  have hok : PqOk w := by
    refine ⟨?_, ?_, ?_⟩
    · rw [hq]; exact List.pairwise_lt_range
    · rw [hq, hn]; simp
    · rw [hq]; simpa using h256
  have hl : w.pq.length = es.length := by rw [hq, List.length_range]
  have hnl : w.nodes.length = es.length := by rw [hn, List.length_map]
  obtain ⟨more, r, hloop, hlen, hok', ⟨ts, hts, htree, hls⟩, hr⟩ :=
    mergeLoop_eq (n := pqSize w) hok (Forest.leaves w es hn hq) (by omega) (by rw [pqSize])
      (by omega)
  have hrv : r = 2 * es.length - 2 := by
    have := hr (by rintro rfl; simp only [List.length_nil] at hlen; omega)
    rw [List.length_append] at this
    omega
  obtain ⟨m, v, hm⟩ := pqExtractMin_completes
    (w := ((w.setNodes (w.nodes ++ more)).setPq [r])) (by simp) hok'.alloc
  obtain ⟨hmem, -, -, hv⟩ := pqExtractMin_eq_ok hm
  rw [Work.setPq_pq, List.mem_singleton] at hmem
  subst hmem
  rw [Work.setPq_pq] at hts
  have hts1 : ∃ t, ts = [(m, t)] := by
    have hlen1 := hts.length_eq
    simp only [List.length_map, List.length_singleton] at hlen1
    obtain ⟨p, rfl⟩ := List.length_eq_one_iff.1 hlen1
    simp only [List.map_cons, List.map_nil, List.perm_singleton, List.cons.injEq, and_true] at hts
    exact ⟨p.2, by rw [← hts]⟩
  obtain ⟨t, rfl⟩ := hts1
  refine ⟨more, t, ?_, by omega, ?_, ?_⟩
  · rw [buildTreeMerges, hloop]
    simp only [ok_bind, hm, pure, Except.pure, hv, ← hrv]
    simp
  · rw [← hrv]; exact htree (m, t) (by simp)
  · simpa using hls

/-- The whole build completes from every state (R162 to R166): its root is EMPTY for no counted symbol
(R164), and otherwise the root of a tree whose leaves are the counted symbols. -/
theorem buildTree_eq (w : Work) :
    ∃ more root, buildTree w = .ok (((w.setNodes ((counted w.freq).map leafNode ++ more)).setPq
        (if (counted w.freq).length = 1 then [0] else [])).setRoot root) ∧
      more.length = (counted w.freq).length - 1 ∧
      (root = none ↔ counted w.freq = []) ∧
      ∀ r, root = some r → r = 2 * (counted w.freq).length - 2 ∧
        ∃ t, IsTree ((counted w.freq).map leafNode ++ more) r t ∧
          t.leaves.Perm (countedLeaves w.freq) := by
  rw [buildTree, buildTreeLeaves_eq]
  simp only [ok_bind, Work.setRoot_nodes, Work.setPq_nodes, Work.setNodes_nodes, List.length_map]
  by_cases h2 : 2 ≤ (counted w.freq).length
  · rw [if_pos h2]
    obtain ⟨more, t, hm, hlen, htree, hls⟩ := buildTreeMerges_eq
      (w := ((w.setNodes ((counted w.freq).map leafNode)).setPq
        (List.range (counted w.freq).length)).setRoot (leavesRoot (counted w.freq).length w.root))
      (es := counted w.freq) rfl rfl h2 (counted_length _)
    simp only [Work.setRoot_nodes, Work.setPq_nodes, Work.setNodes_nodes] at hm htree
    refine ⟨more, some (2 * (counted w.freq).length - 2), ?_, hlen, ?_, ?_⟩
    · rw [hm, if_neg (by omega)]
      rfl
    · simp only [reduceCtorEq, false_iff]
      rintro h
      simp [h] at h2
    · rintro r h
      cases h
      exact ⟨rfl, t, htree, hls⟩
  · rw [if_neg h2]
    by_cases h0 : (counted w.freq).length = 0
    · have hnil := List.length_eq_zero_iff.1 h0
      refine ⟨[], none, ?_, by simp [h0], by simp [hnil], by simp⟩
      rw [if_neg (by omega)]
      simp [leavesRoot, h0]
    · have h1 : (counted w.freq).length = 1 := by omega
      obtain ⟨e, he⟩ := List.length_eq_one_iff.1 h1
      refine ⟨[], some 0, ?_, by simp [h1], by simp [he], ?_⟩
      · rw [if_pos h1]
        simp [leavesRoot, h1, List.range_succ]
      · rintro r h
        cases h
        refine ⟨by omega, .leaf e.1 e.2.toNat, .leaf (by simp [he, leafNode]), ?_⟩
        simp [countedLeaves, he, Tree.leaves]

end Sys2Proof.Machine
end

