-- ==== Sys2Proof/Laws/Codes.lean ====
section
/-! SUPPORT. Code generation: the codes are the paths of the tree, one for each counted symbol, and no
code is the beginning of another. -/

namespace Sys2Proof.Machine

/-- The paths from the root to the leaves (R180), behind the path `p`. -/
def Tree.paths : Tree → Bits → List (Byte × Bits)
  | .leaf s _, p => [(s, p)]
  | .node l r, p => l.paths (p ++ [false]) ++ r.paths (p ++ [true])

theorem Tree.paths_syms (t : Tree) (p : Bits) :
    (t.paths p).map Prod.fst = t.leaves.map Prod.fst := by
  induction t generalizing p with
  | leaf => rfl
  | node l r ihl ihr => simp [Tree.paths, Tree.leaves, ihl, ihr]

/-- A path goes on from the path it starts behind. -/
theorem Tree.paths_append (t : Tree) (p : Bits) :
    t.paths p = (t.paths []).map fun e => (e.1, p ++ e.2) := by
  induction t generalizing p with
  | leaf => simp [Tree.paths]
  | node l r ihl ihr =>
    rw [Tree.paths, ihl, ihr, Tree.paths, ihl ([] ++ [false]), ihr ([] ++ [true])]
    simp [List.map_append, Function.comp_def]

theorem Tree.paths_length_le (t : Tree) : ∀ e ∈ t.paths [], e.2.length ≤ t.depth := by
  induction t with
  | leaf => simp [Tree.paths, Tree.depth]
  | node l r ihl ihr =>
    intro e he
    rw [Tree.paths, List.mem_append, Tree.paths_append l, Tree.paths_append r, List.mem_map,
      List.mem_map] at he
    rw [Tree.depth]
    rcases he with ⟨d, hd, rfl⟩ | ⟨d, hd, rfl⟩
    · have := ihl d hd
      simp only [List.nil_append, List.singleton_append, List.length_cons]
      omega
    · have := ihr d hd
      simp only [List.nil_append, List.singleton_append, List.length_cons]
      omega

/-- Set the entries of a list of symbols, one after the other. -/
def setCodes (t : Table (Option Bits)) : List (Byte × Bits) → Table (Option Bits)
  | [] => t
  | e :: es => setCodes (tset t e.1 (some e.2)) es

theorem setCodes_append (t : Table (Option Bits)) (es ds : List (Byte × Bits)) :
    setCodes t (es ++ ds) = setCodes (setCodes t es) ds := by
  induction es generalizing t with
  | nil => rfl
  | cons e es ih => exact ih _

theorem tget_setCodes_of_not_mem {t : Table (Option Bits)} {es : List (Byte × Bits)} {s : Byte}
    (h : s ∉ es.map Prod.fst) : tget (setCodes t es) s = tget t s := by
  induction es generalizing t with
  | nil => rfl
  | cons e es ih =>
    rw [List.map_cons, List.mem_cons, not_or] at h
    rw [setCodes, ih h.2, tget_tset, if_neg h.1]

theorem tget_setCodes_of_mem {t : Table (Option Bits)} {es : List (Byte × Bits)} {s : Byte} {c : Bits}
    (hn : (es.map Prod.fst).Nodup) (h : (s, c) ∈ es) : tget (setCodes t es) s = some c := by
  induction es generalizing t with
  | nil => simp at h
  | cons e es ih =>
    rw [List.map_cons, List.nodup_cons] at hn
    rw [setCodes]
    rcases List.mem_cons.1 h with rfl | h
    · rw [tget_setCodes_of_not_mem hn.1, tget_tset, if_pos rfl]
    · exact ih hn.2 h

/-- R180's walk over a tree sets the entry of each leaf to its path. -/
theorem codeWalk_eq {nodes : List Node} {i : Nat} {t : Tree} (ht : IsTree nodes i t) {fuel : Nat}
    (hf : t.depth < fuel) (p : Bits) (tab : Table (Option Bits)) :
    codeWalk nodes fuel i p tab = .ok (setCodes tab (t.paths p)) := by
  induction ht generalizing fuel p tab with
  | leaf h =>
    cases fuel with
    | zero => omega
    | succ fuel => simp [codeWalk, h, Tree.paths, setCodes]
  | node h _ _ _ _ ihl ihr =>
    cases fuel with
    | zero => omega
    | succ fuel =>
      rw [Tree.depth] at hf
      rw [codeWalk, h]
      simp only [ihl (fuel := fuel) (by omega), ok_bind, ihr (fuel := fuel) (by omega), Tree.paths,
        setCodes_append]

/-- The codes of a tree (R180, R182): its paths, or "0" for a bare leaf. -/
def Tree.codes : Tree → List (Byte × Bits)
  | .leaf s _ => [(s, [false])]
  | .node l r => (Tree.node l r).paths []

theorem Tree.codes_syms (t : Tree) : t.codes.map Prod.fst = t.leaves.map Prod.fst := by
  cases t with
  | leaf => rfl
  | node l r => exact Tree.paths_syms _ _

/-- R184: every code has length 1 to 255 when the tree has at most 256 leaves. -/
theorem Tree.codes_length {t : Tree} (h : t.leaves.length ≤ 256) :
    ∀ e ∈ t.codes, 1 ≤ e.2.length ∧ e.2.length ≤ 255 := by
  cases t with
  | leaf => simp [Tree.codes]
  | node l r =>
    intro e he
    have h1 := Tree.paths_length_le _ e he
    have h2 := Tree.depth_lt (.node l r)
    refine ⟨?_, by omega⟩
    rw [Tree.codes, Tree.paths, List.mem_append, Tree.paths_append l, Tree.paths_append r,
      List.mem_map, List.mem_map] at he
    rcases he with ⟨d, -, rfl⟩ | ⟨d, -, rfl⟩ <;> simp

/-- What generate_codes leaves after a build: the table of the codes of the tree, and NONE elsewhere. -/
theorem generateCodes_eq {w : Work} {t : Tree} {r : Nat} (hr : w.root = some r)
    (ht : IsTree w.nodes r t) (hl : t.leaves.length ≤ 256) :
    generateCodes w = .ok (w.setCode (setCodes (Vector.replicate 256 none) t.codes)) := by
  rw [generateCodes, hr]
  cases ht with
  | leaf h => simp [h, Tree.codes, setCodes]
  | node h hl' hr' htl htr =>
    rename_i l r' tl tr
    have hd := Tree.depth_lt (.node tl tr)
    have := codeWalk_eq (.node h hl' hr' htl htr) (fuel := Config.maxCodeLen + 1)
      (by rw [show Config.maxCodeLen + 1 = 256 from rfl]; omega) [] (Vector.replicate 256 none)
    simp only [h, this, ok_bind, Tree.codes]
    rfl

theorem generateCodes_empty {w : Work} (hr : w.root = none) :
    generateCodes w = .ok (w.setCode (Vector.replicate 256 none)) := by
  rw [generateCodes, hr]

/-! ### Prefix freedom and the Kraft sum (R185) -/

theorem Tree.paths_head_node {l r : Tree} {e : Byte × Bits} (h : e ∈ (Tree.node l r).paths []) :
    (∃ d ∈ l.paths [], e = (d.1, false :: d.2)) ∨ (∃ d ∈ r.paths [], e = (d.1, true :: d.2)) := by
  rw [Tree.paths, List.mem_append, Tree.paths_append l, Tree.paths_append r, List.mem_map,
    List.mem_map] at h
  rcases h with ⟨d, hd, rfl⟩ | ⟨d, hd, rfl⟩
  · exact .inl ⟨d, hd, by simp⟩
  · exact .inr ⟨d, hd, by simp⟩

/-- In a tree with distinct symbols, one path begins another only if it is the same leaf's. -/
theorem Tree.paths_free {t : Tree} (hn : (t.leaves.map Prod.fst).Nodup) :
    ∀ d ∈ t.paths [], ∀ e ∈ t.paths [], d.2 <+: e.2 → d = e := by
  induction t with
  | leaf s f =>
    intro d hd e he _
    simp only [Tree.paths, List.mem_singleton] at hd he
    rw [hd, he]
  | node l r ihl ihr =>
    rw [Tree.leaves, List.map_append, List.nodup_append] at hn
    intro d hd e he h
    rcases Tree.paths_head_node hd with ⟨d', hd', rfl⟩ | ⟨d', hd', rfl⟩ <;>
      rcases Tree.paths_head_node he with ⟨e', he', rfl⟩ | ⟨e', he', rfl⟩
    · rw [List.cons_prefix_cons] at h
      rw [ihl hn.1 d' hd' e' he' h.2]
    · simp [List.cons_prefix_cons] at h
    · simp [List.cons_prefix_cons] at h
    · rw [List.cons_prefix_cons] at h
      rw [ihr hn.2.1 d' hd' e' he' h.2]

/-- The Kraft sum of a tree's paths, scaled by a power of two that covers the depth. -/
theorem Tree.kraft (t : Tree) (n : Nat) (h : t.depth ≤ n) :
    ((t.paths []).map fun e => 2 ^ (n - e.2.length)).sum = 2 ^ n := by
  induction t generalizing n with
  | leaf => simp [Tree.paths]
  | node l r ihl ihr =>
    rw [Tree.depth] at h
    obtain ⟨k, rfl⟩ : ∃ k, n = k + 1 := ⟨n - 1, by omega⟩
    rw [Tree.paths, Tree.paths_append l, Tree.paths_append r]
    have e1 : ∀ (u : Tree) (b : Bool), (((u.paths []).map fun e => (e.1, [] ++ [b] ++ e.2)).map
        fun e => 2 ^ (k + 1 - e.2.length)) = (u.paths []).map fun e => 2 ^ (k - e.2.length) := by
      intro u b
      rw [List.map_map]
      refine List.map_congr_left fun e _ => ?_
      simp [Nat.add_sub_add_right]
    rw [List.map_append, e1, e1, List.sum_append, ihl k (by omega), ihr k (by omega), pow_succ]
    omega

end Sys2Proof.Machine
end

