-- ==== Sys2Proof/Laws/Crc.lean ====
section
/-! SUPPORT. The checksum: the table form of the machine is the bit-by-bit form of R240. -/

namespace Sys2Proof.Machine

theorem refCrcByte_eq (c : Word32) : refCrcByte c = crcShifts 8 c := by
  simp only [refCrcByte, List.range_succ, List.range_zero, List.nil_append, List.cons_append,
    List.foldl_cons, List.foldl_nil, crcShifts, crcShift]
  rfl

theorem bit0_xor (a b : Word32) : (a ^^^ b).getLsbD 0 = (a.getLsbD 0 ^^ b.getLsbD 0) :=
  BitVec.getLsbD_xor

/-- One step of the inner loop is linear over exclusive or. -/
theorem crcShift_xor (a b : Word32) : crcShift (a ^^^ b) = crcShift a ^^^ crcShift b := by
  simp only [crcShift, bit0_xor, BitVec.ushiftRight_xor_distrib]
  generalize Config.crcPoly = p
  generalize a >>> 1 = x
  generalize b >>> 1 = y
  cases a.getLsbD 0 <;> cases b.getLsbD 0
  · rfl
  · exact BitVec.xor_assoc _ _ _
  · change x ^^^ y ^^^ p = x ^^^ p ^^^ y
    ac_rfl
  · change x ^^^ y = x ^^^ p ^^^ (y ^^^ p)
    rw [show x ^^^ p ^^^ (y ^^^ p) = x ^^^ y ^^^ (p ^^^ p) by ac_rfl, BitVec.xor_self,
      BitVec.xor_zero]

theorem crcShifts_xor (n : Nat) (a b : Word32) :
    crcShifts n (a ^^^ b) = crcShifts n a ^^^ crcShifts n b := by
  induction n generalizing a b with
  | zero => rfl
  | succ n ih => simp only [crcShifts, crcShift_xor, ih]

/-- Steps over low zero bits only shift. -/
theorem crcShifts_zeros (n : Nat) (a : Word32) (h : ∀ i < n, a.getLsbD i = false) :
    crcShifts n a = a >>> n := by
  induction n generalizing a with
  | zero => simp [crcShifts]
  | succ n ih =>
    have h0 : crcShift a = a >>> 1 := by rw [crcShift, if_neg (by rw [h 0 (by omega)]; simp)]
    rw [crcShifts, h0, ih _ (fun i hi => by simpa [Nat.add_comm] using h (i + 1) (by omega)),
      ← BitVec.shiftRight_add, Nat.add_comm]

/-- R243: the table form is one turn of R240's outer loop. -/
theorem crcNext_eq (c : Word32) (b : Byte) : crcNext c b = refCrcByte (c ^^^ b.zeroExtend 32) := by
  rw [refCrcByte_eq, crcNext, crcTab]
  set x := c ^^^ b.zeroExtend 32 with hx
  set low : Word32 := (x.extractLsb' 0 8).zeroExtend 32 with hlow
  have hl : ∀ i, low.getLsbD i = (decide (i < 8) && x.getLsbD i) := by
    intro i
    rw [hlow, BitVec.zeroExtend_eq_setWidth, BitVec.getLsbD_setWidth, BitVec.getLsbD_extractLsb',
      Nat.zero_add]
    by_cases h : i < 8
    · simp [h, show i < 32 by omega]
    · simp [h]
  have hsplit : x = (x ^^^ low) ^^^ low := by
    rw [BitVec.xor_assoc, BitVec.xor_self, BitVec.xor_zero]
  have h8 : (x ^^^ low) >>> 8 = c >>> 8 := by
    refine BitVec.eq_of_getLsbD_eq fun i hi => ?_
    rw [BitVec.getLsbD_ushiftRight, BitVec.getLsbD_ushiftRight, BitVec.getLsbD_xor, hl, hx,
      BitVec.getLsbD_xor, BitVec.zeroExtend_eq_setWidth, BitVec.getLsbD_setWidth,
      BitVec.getLsbD_of_ge b (8 + i) (by omega)]
    simp
  conv_rhs => rw [hsplit]
  rw [crcShifts_xor, crcShifts_zeros 8 (x ^^^ low) (fun i hi => by
    rw [BitVec.getLsbD_xor, hl]; simp [hi]), h8]

theorem crcRun_eq (bs : List Byte) (w : Work) :
    crcRun bs w = w.setCrcReg (bs.foldl crcNext w.crcReg) := by
  induction bs generalizing w with
  | nil => rfl
  | cons b bs ih => rw [crcRun, ih]; rfl

/-- crc_init, crc_update of each byte and crc_final give R240's CRC32. -/
theorem crc_eq (bs : List Byte) (w : Work) :
    crcFinal (crcRun bs (crcInit w)) = refCrc32 bs := by
  rw [crcRun_eq]
  simp only [crcFinal, crcInit, Work.setCrcReg_crcReg, refCrc32]
  congr 2
  funext c b
  exact crcNext_eq c b

end Sys2Proof.Machine
end

