-- ==== Sys2Proof/Laws/Packer.lean ====
section
/-! SUPPORT. The bit packer and the bit unpacker: the bytes a bit string is packed into, what each
operation does to memory and to the packer, and that the unpacker reads the bits back. -/

namespace Sys2Proof.Machine

/-! ### The packer's state -/

section SetPk
variable (s : State) (x : Packer)

@[simp] theorem State.setPk_par : (s.setPk x).par = s.par := rfl
@[simp] theorem State.setPk_phase : (s.setPk x).phase = s.phase := rfl
@[simp] theorem State.setPk_stuck : (s.setPk x).stuck = s.stuck := rfl
@[simp] theorem State.setPk_regs : (s.setPk x).regs = s.regs := rfl
@[simp] theorem State.setPk_latch : (s.setPk x).latch = s.latch := rfl
@[simp] theorem State.setPk_work : (s.setPk x).work = s.work.setPk x := rfl
@[simp] theorem State.setPk_mem : (s.setPk x).mem = s.mem := rfl
@[simp] theorem State.setPk_ret : (s.setPk x).ret = s.ret := rfl
@[simp] theorem State.setPk_inbox : (s.setPk x).inbox = s.inbox := rfl
@[simp] theorem State.setPk_observed : (s.setPk x).observed = s.observed := rfl
@[simp] theorem State.setPk_busyLeft : (s.setPk x).busyLeft = s.busyLeft := rfl
@[simp] theorem State.setPk_draws : (s.setPk x).draws = s.draws := rfl
@[simp] theorem State.setPk_setPk (y : Packer) : (s.setPk x).setPk y = s.setPk y := rfl

end SetPk

/-! ### The bytes of a bit string (R107) -/

/-- The byte with these bits in its low end, the first bit highest. -/
def byteOf (bs : Bits) : Byte := bs.foldl shiftIn 0

theorem byteOf_append (bs : Bits) (b : Bool) : byteOf (bs ++ [b]) = shiftIn (byteOf bs) b := by
  simp [byteOf]

theorem shiftIn_getLsbD (acc : Byte) (b : Bool) (j : Nat) :
    (shiftIn acc b).getLsbD j = if j = 0 then b else decide (j < 8) && acc.getLsbD (j - 1) := by
  cases b <;> cases j <;> simp [shiftIn]

/-- Bit j of `byteOf`, counted from the low end, is bit j of the string counted from its end. -/
theorem byteOf_getLsbD (bs : Bits) (j : Nat) (hl : bs.length ≤ 8) :
    (byteOf bs).getLsbD j = (decide (j < bs.length) && bs.getD (bs.length - 1 - j) false) := by
  induction bs using List.reverseRecOn generalizing j with
  | nil => simp [byteOf]
  | append_singleton bs b ih =>
    rw [List.length_append, List.length_singleton] at hl
    rw [byteOf_append, shiftIn_getLsbD]
    cases j with
    | zero => simp
    | succ j =>
      rw [if_neg (by omega), Nat.add_sub_cancel, ih _ (by omega), List.length_append,
        List.length_singleton]
      by_cases hj : j < bs.length
      · have h1 : bs.length + 1 - 1 - (j + 1) = bs.length - 1 - j := by omega
        have h2 : bs.length - 1 - j < bs.length := by omega
        rw [h1]
        simp only [List.getD_eq_getElem?_getD, List.getElem?_append_left h2]
        simp [hj, show j + 1 < 8 by omega]
      · simp [hj]

/-- Pack bits behind the pending bits `p`: the whole bytes, and the bits then pending. -/
def packBytes : Bits → Bits → List Byte × Bits
  | p, [] => ([], p)
  | p, b :: bs =>
    if p.length + 1 = 8 then (byteOf (p ++ [b]) :: (packBytes [] bs).1, (packBytes [] bs).2)
    else packBytes (p ++ [b]) bs

/-- The byte that flush emits for the bits pending, padded on the right (R204). -/
def packTail (p : Bits) : List Byte := if p.length = 0 then [] else [byteOf p <<< (8 - p.length)]

/-- The payload bytes of a bit string (R107): whole bytes, then the padded last byte. -/
def packed (bits : Bits) : List Byte := (packBytes [] bits).1 ++ packTail (packBytes [] bits).2

theorem packBytes_pending {p bits : Bits} (hp : p.length < 8) : (packBytes p bits).2.length < 8 := by
  induction bits generalizing p with
  | nil => exact hp
  | cons b bs ih =>
    rw [packBytes]
    split_ifs with h
    · exact ih (by simp)
    · refine ih ?_
      simp only [List.length_append, List.length_singleton]
      omega

theorem packBytes_count {p bits : Bits} (hp : p.length < 8) :
    8 * (packBytes p bits).1.length + (packBytes p bits).2.length = p.length + bits.length := by
  induction bits generalizing p with
  | nil => simp [packBytes]
  | cons b bs ih =>
    rw [packBytes]
    split_ifs with h
    · have := ih (p := []) (by simp)
      simp only [List.length_cons, List.length_nil] at this ⊢
      omega
    · have := ih (p := p ++ [b]) (by simp only [List.length_append, List.length_singleton]; omega)
      simp only [List.length_append, List.length_cons, List.length_nil] at this ⊢
      omega

theorem packBytes_append (p bs cs : Bits) :
    packBytes p (bs ++ cs) =
      ((packBytes p bs).1 ++ (packBytes (packBytes p bs).2 cs).1,
        (packBytes (packBytes p bs).2 cs).2) := by
  induction bs generalizing p with
  | nil => simp [packBytes]
  | cons b bs ih =>
    rw [List.cons_append, packBytes, packBytes]
    split_ifs with h
    · rw [ih]; simp
    · rw [ih]

/-- R205: the number of payload bytes. -/
theorem packed_length (bits : Bits) : (packed bits).length = (bits.length + 7) / 8 := by
  have h1 := packBytes_count (p := []) (bits := bits) (by simp)
  have h2 := packBytes_pending (p := []) (bits := bits) (by simp)
  rw [packed, List.length_append, packTail]
  rw [List.length_nil] at h1
  split_ifs with h
  · rw [List.length_nil]
    omega
  · rw [List.length_singleton]
    omega

/-- R107: bit k of the stream is bit `7 - (k mod 8)` of byte `k div 8`, and the padding is zero. -/
theorem packBytes_bit {p bits : Bits} (hp : p.length < 8) (k : Nat) :
    ∀ b, ((packBytes p bits).1 ++ packTail (packBytes p bits).2)[k / 8]? = some b →
      streamBit b k = (p ++ bits).getD k false := by
  induction bits generalizing p k with
  | nil =>
    intro b hb
    replace hb : (packTail p)[k / 8]? = some b := hb
    by_cases h : p.length = 0
    · rw [packTail, if_pos h] at hb
      simp at hb
    · rw [packTail, if_neg h] at hb
      have hk : k / 8 = 0 := by
        by_contra hk
        rw [List.getElem?_eq_none (by simp only [List.length_singleton]; omega)] at hb
        simp at hb
      have hk8 : k < 8 := by omega
      rw [hk] at hb
      simp only [List.getElem?_cons_zero, Option.some.injEq] at hb
      subst hb
      rw [streamBit, List.append_nil, Nat.mod_eq_of_lt hk8, BitVec.getLsbD_shiftLeft,
        byteOf_getLsbD _ _ (by omega)]
      by_cases hkp : k < p.length
      · have h1 : ¬ 7 - k < 8 - p.length := by omega
        have h2 : 7 - k - (8 - p.length) < p.length := by omega
        have h3 : p.length - 1 - (7 - k - (8 - p.length)) = k := by omega
        rw [h3]
        simp [h1, h2, show 7 - k < 8 by omega]
      · have h1 : 7 - k < 8 - p.length := by omega
        rw [List.getD_eq_getElem?_getD (l := p) (i := k), List.getElem?_eq_none (by omega)]
        simp [h1]
  | cons b bs ih =>
    intro c hc
    rw [packBytes] at hc
    split_ifs at hc with h
    · rw [List.cons_append] at hc
      have hlen : (p ++ [b]).length = 8 := by simpa using h
      rw [show p ++ b :: bs = (p ++ [b]) ++ bs by simp]
      by_cases hk8 : k < 8
      · rw [show k / 8 = 0 by omega] at hc
        simp only [List.getElem?_cons_zero, Option.some.injEq] at hc
        subst hc
        have hk' : k < (p ++ [b]).length := by rw [hlen]; exact hk8
        rw [streamBit, Nat.mod_eq_of_lt hk8, byteOf_getLsbD _ _ hlen.le, hlen,
          show 8 - 1 - (7 - k) = k by omega, List.getD_eq_getElem?_getD (l := (p ++ [b]) ++ bs),
          List.getElem?_append_left hk', ← List.getD_eq_getElem?_getD]
        simp [show 7 - k < 8 by omega]
      · have hk : k / 8 = (k - 8) / 8 + 1 := by omega
        rw [hk, List.getElem?_cons_succ] at hc
        have := ih (p := []) (by simp) (k - 8) c hc
        rw [streamBit] at this ⊢
        rw [show k % 8 = (k - 8) % 8 by omega, this, List.nil_append,
          List.getD_eq_getElem?_getD, List.getD_eq_getElem?_getD,
          List.getElem?_append_right (by rw [hlen]; omega), hlen]
    · have := ih (p := p ++ [b])
        (by simp only [List.length_append, List.length_singleton]; omega) k c hc
      rw [this]
      simp

theorem packed_bit (bits : Bits) (k : Nat) {b : Byte} (h : (packed bits)[k / 8]? = some b) :
    streamBit b k = bits.getD k false := by
  have := packBytes_bit (p := []) (bits := bits) (by simp) k b h
  simpa using this

/-! ### The operations -/

theorem pkEmit_eq {s : State} {v : Byte}
    (h : accessible s.par (s.work.pk.base + s.work.pk.out)) :
    pkEmit v s = .ok ((s.setMem (s.mem.write (s.work.pk.base + s.work.pk.out) v)).setPk
      { s.work.pk with out := s.work.pk.out + 1 }) := by
  rw [pkEmit, storeByte_eq_ok.2 ⟨h, rfl⟩]
  rfl

/-- The packer holds the pending bits `p` (R206). -/
structure Holds (s : State) (p : Bits) : Prop where
  acc : s.work.pk.acc = byteOf p
  cnt : s.work.pk.cnt = p.length
  lt : p.length < 8

@[simp] theorem msbFirst_length (v k : Nat) : (msbFirst v k).length = k := by
  induction k with
  | zero => rfl
  | succ k ih => rw [msbFirst, List.length_cons, ih]

/-- A packer that meets its invariant holds some pending bits. -/
theorem PackerOk.holds {s : State} (h : PackerOk s) : ∃ p, Holds s p := by
  have hk : ∀ k ≤ 7, ∀ a < 2 ^ k, byteOf (msbFirst a k) = BitVec.ofNat 8 a := by
    intro k hk
    interval_cases k <;> decide +kernel
  refine ⟨msbFirst s.work.pk.acc.toNat s.work.pk.cnt, ?_, (msbFirst_length _ _).symm, ?_⟩
  · rw [hk _ h.1 _ h.2, BitVec.ofNat_toNat, BitVec.setWidth_eq]
  · rw [msbFirst_length]
    exact Nat.lt_succ_of_le h.1

/-- pk_write_bits: the whole bytes go to memory, the other bits stay pending (R202, R203). -/
theorem pkWriteBits_eq {bits : Bits} {s : State} {p : Bits} (hp : Holds s p)
    (hr : Reachable s.par (s.work.pk.base + s.work.pk.out) (packBytes p bits).1.length) :
    pkWriteBits bits s =
      .ok ((s.setMem (s.mem.writeRange (s.work.pk.base + s.work.pk.out) (packBytes p bits).1)).setPk
        { s.work.pk with
          acc := byteOf (packBytes p bits).2
          cnt := (packBytes p bits).2.length
          out := s.work.pk.out + (packBytes p bits).1.length }) := by
  induction bits generalizing s p with
  | nil =>
    simp only [pkWriteBits, packBytes, Memory.writeRange, State.setMem_self, ← hp.acc, ← hp.cnt,
      List.length_nil, Nat.add_zero]
    rfl
  | cons b bs ih =>
    have hacc : shiftIn s.work.pk.acc b = byteOf (p ++ [b]) := by rw [hp.acc, byteOf_append]
    rw [packBytes] at hr ⊢
    rw [pkWriteBits, pkWriteBit]
    simp only [hacc, hp.cnt]
    by_cases h : p.length + 1 = 8
    · rw [if_pos h] at hr
      simp only [List.length_cons] at hr
      simp only [if_pos h]
      rw [pkEmit_eq (by simpa using hr.head)]
      simp only [ok_bind, pure, Except.pure]
      rw [ih (p := []) ⟨rfl, rfl, by simp⟩ ?_]
      · simp only [State.setPk_work, State.setMem_work, Work.setPk_pk, State.setPk_mem,
          State.setMem_mem, Memory.writeRange, List.length_cons]
        simp only [State.setPk, State.setMem_work, State.setWork_work, Work.setPk_setPk,
          Nat.add_assoc, Nat.add_comm 1]
        rfl
      · simp only [State.setPk_work, State.setMem_work, Work.setPk_pk, State.setPk_par,
          State.setMem_par]
        exact hr.tail
    · rw [if_neg h] at hr
      simp only [if_neg h, ok_bind]
      rw [ih (p := p ++ [b]) ⟨rfl, by simp,
        by have := hp.lt; simp only [List.length_append, List.length_singleton]; omega⟩ (by simpa using hr)]
      simp only [State.setPk_work, Work.setPk_pk, State.setPk_mem]
      rfl

/-- pk_flush: the pending bits go out in a last byte, padded on the right (R204). -/
theorem pkFlush_eq {s : State} {p : Bits} (hp : Holds s p)
    (hr : Reachable s.par (s.work.pk.base + s.work.pk.out) (packTail p).length) :
    pkFlush s =
      .ok ((s.setMem (s.mem.writeRange (s.work.pk.base + s.work.pk.out) (packTail p))).setPk
        { s.work.pk with
          acc := 0
          cnt := 0
          out := s.work.pk.out + (packTail p).length
          pad := (8 - p.length) % 8 }) := by
  rw [pkFlush, hp.cnt]
  by_cases h : p.length = 0
  · have h1 := hp.acc
    have h2 := hp.cnt
    rw [List.length_eq_zero_iff.1 h] at h1 h2 ⊢
    simp only [byteOf, List.foldl_nil, List.length_nil] at h1 h2
    simp only [List.length_nil, lt_irrefl, if_false, packTail, if_true, Memory.writeRange,
      State.setMem_self, Nat.add_zero, Nat.sub_zero, Nat.mod_self]
    rw [← h1]
    nth_rewrite 2 [← h2]
    rfl
  · have hpos := Nat.pos_of_ne_zero h
    have hlt := hp.lt
    rw [packTail, if_neg h] at hr ⊢
    rw [if_pos hpos]
    simp only [hp.acc, State.setPk_work, Work.setPk_pk]
    rw [pkEmit_eq (by simpa using hr.head)]
    simp only [ok_bind, pure, Except.pure, Memory.writeRange, List.length_singleton,
      Nat.mod_eq_of_lt (show 8 - p.length < 8 by omega)]
    rfl

/-! ### The unpacker -/

/-- up_read_bit before L: the next bit of the stream (R221). -/
theorem upReadBit_eq {s : State} (hpos : s.work.up.pos ≠ s.work.up.len)
    (h : accessible s.par (s.work.up.base + s.work.up.pos / 8)) :
    upReadBit s = .ok (some (streamBit (s.mem.read (s.work.up.base + s.work.up.pos / 8)) s.work.up.pos),
      s.setWork (s.work.setUp { s.work.up with pos := s.work.up.pos + 1 })) := by
  rw [upReadBit, if_neg hpos, loadByte_eq_ok.2 ⟨h, rfl⟩]
  rfl

/-- up_read_bit at L: END (R222). -/
theorem upReadBit_end {s : State} (hpos : s.work.up.pos = s.work.up.len) :
    upReadBit s = .ok (none, s) := by
  rw [upReadBit, if_pos hpos]

end Sys2Proof.Machine
end

