-- ==== Sys2Proof/Laws/Encode.lean ====
section
/-! SUPPORT. The ENCODE command's parts: counting, the sizes, the container's bytes. -/

namespace Sys2Proof.Machine

theorem backed_iff {p : Params} {a n : Nat} : backed p a n ↔ Reachable p a n := Iff.rfl

/-! ### Byte order -/

@[simp] theorem leBytes_length (n v : Nat) : (leBytes n v).length = n := by
  induction n generalizing v with
  | zero => rfl
  | succ n ih => simp [leBytes, ih]

theorem leValue_leBytes (n v : Nat) : leValue (leBytes n v) = v % 256 ^ n := by
  induction n generalizing v with
  | zero => simp [leBytes, leValue, Nat.mod_one]
  | succ n ih =>
    rw [leBytes, leValue, ih, BitVec.toNat_ofNat, show (256:Nat) ^ (n + 1) = 256 * 256 ^ n from pow_succ' 256 n, Nat.mod_mul]

theorem leValue_lt (bs : List Byte) : leValue bs < 256 ^ bs.length := by
  induction bs with
  | nil => simp [leValue]
  | cons b bs ih =>
    have := b.isLt
    rw [leValue, List.length_cons, pow_succ]
    omega

theorem leValue_leBytes_word {k : Nat} (v : BitVec k) (n : Nat) (h : 2 ^ k ≤ 256 ^ n) :
    BitVec.ofNat k (leValue (leBytes n v.toNat)) = v := by
  rw [leValue_leBytes, Nat.mod_eq_of_lt (v.isLt.trans_le h)]
  exact BitVec.ofNat_toNat _ _ |>.trans (by simp)

/-! ### freq_count -/

theorem toNat_add_one {x : Word32} (h : x ≠ 0xFFFFFFFF) : (x + 1).toNat = x.toNat + 1 := by
  have h1 := x.isLt
  have h2 : x.toNat ≠ 0xFFFFFFFF := fun e => h (BitVec.eq_of_toNat_eq e)
  rw [BitVec.toNat_add, Nat.mod_eq_of_lt]
  · rfl
  · rw [show (1 : Word32).toNat = 1 from rfl]; omega

/-- Counting the bytes of a backed range whose counts all fit 32 bits. -/
theorem countLoop_eq {n a : Nat} {s : State} (hr : Reachable s.par a n)
    (hfit : ∀ b, (tget s.work.freq b).toNat + (s.mem.readRange a n).count b < 2 ^ 32) :
    ∃ t, countLoop a n s = .ok (s.setWork (s.work.setFreq t)) ∧
      ∀ b, (tget t b).toNat = (tget s.work.freq b).toNat + (s.mem.readRange a n).count b := by
  induction n generalizing a s with
  | zero => exact ⟨s.work.freq, rfl, by simp [Memory.readRange]⟩
  | succ n ih =>
    rw [countLoop, loadByte_eq_ok.2 ⟨hr.head, rfl⟩, ok_bind, countByte]
    have hne : tget s.work.freq (s.mem.read a) ≠ 0xFFFFFFFF := by
      intro h
      have := hfit (s.mem.read a)
      rw [h, Memory.readRange, List.count_cons_self] at this
      rw [show (0xFFFFFFFF : Word32).toNat = 2 ^ 32 - 1 from rfl] at this
      omega
    have step : ∀ b, (tget (tset s.work.freq (s.mem.read a)
        (tget s.work.freq (s.mem.read a) + 1)) b).toNat + (s.mem.readRange (a + 1) n).count b =
        (tget s.work.freq b).toNat + (s.mem.readRange a (n + 1)).count b := by
      intro b
      rw [tget_tset, Memory.readRange, List.count_cons]
      by_cases hb : b = s.mem.read a
      · subst hb
        rw [if_pos rfl, toNat_add_one hne]
        simp only [beq_self_eq_true, if_true]
        omega
      · rw [if_neg hb]
        simp [Ne.symm hb]
    rw [if_neg hne, ok_bind]
    obtain ⟨t, ht, hc⟩ := ih (a := a + 1)
      (s := s.setWork (s.work.setFreq (tset s.work.freq (s.mem.read a)
        (tget s.work.freq (s.mem.read a) + 1)))) hr.tail
      (fun b => by
        have := hfit b
        rw [← step b] at this
        exact this)
    refine ⟨t, ht, fun b => ?_⟩
    rw [hc b, ← step b]
    rfl

theorem freqCount_eq {a n : Nat} {s : State} (hr : Reachable s.par a n)
    (hfit : ∀ b, (s.mem.readRange a n).count b < 2 ^ 32) :
    ∃ t, freqCount a n s = .ok (s.setWork (s.work.setFreq t)) ∧
      Counts t (s.mem.readRange a n) := by
  obtain ⟨t, ht, hc⟩ := countLoop_eq (a := a) (n := n)
    (s := s.setWork (s.work.setFreq (Vector.replicate 256 0))) hr
    (by intro b; simpa [tget_replicate] using hfit b)
  exact ⟨t, ht, fun b => by rw [hc b]; simp [tget_replicate]⟩

/-- A count that does not fit raises COUNT_OVERFLOW(1), and nothing but FREQ has changed (R262). -/
theorem countLoop_overflow {n a : Nat} {s : State} (hr : Reachable s.par a n)
    (hover : ∃ b, 2 ^ 32 ≤ (tget s.work.freq b).toNat + (s.mem.readRange a n).count b) :
    ∃ t, countLoop a n s =
      .error (.raised ⟨.countOverflow, 1⟩ (s.setWork (s.work.setFreq t))) := by
  induction n generalizing a s with
  | zero =>
    obtain ⟨b, hb⟩ := hover
    have := (tget s.work.freq b).isLt
    simp only [Memory.readRange, List.count_nil] at hb
    omega
  | succ n ih =>
    rw [countLoop, loadByte_eq_ok.2 ⟨hr.head, rfl⟩, ok_bind, countByte]
    by_cases h : tget s.work.freq (s.mem.read a) = 0xFFFFFFFF
    · exact ⟨s.work.freq, by rw [if_pos h]; rfl⟩
    · rw [if_neg h, ok_bind]
      obtain ⟨t, ht⟩ := ih (a := a + 1)
        (s := s.setWork (s.work.setFreq (tset s.work.freq (s.mem.read a)
          (tget s.work.freq (s.mem.read a) + 1)))) hr.tail (by
          obtain ⟨b, hb⟩ := hover
          refine ⟨b, hb.trans ?_⟩
          simp only [State.setWork_work, Work.setFreq_freq, State.setWork_mem, tget_tset]
          rw [Memory.readRange, List.count_cons]
          by_cases hb' : b = s.mem.read a
          · subst hb'
            rw [if_pos rfl, toNat_add_one h]
            simp only [beq_self_eq_true, if_true]
            omega
          · rw [if_neg hb']
            simp [Ne.symm hb'])
      exact ⟨t, ht⟩

end Sys2Proof.Machine
end

