-- ==== Sys2Proof/Laws/EncodeCommand.lean ====
section
/-! SUPPORT. The ENCODE command: its sizes, the bytes of its container, and what it leaves. -/

namespace Sys2Proof.Machine

/-! ### The sizes (R264 to R267) -/

/-- The bits of a message, counted symbol by symbol. -/
theorem messageBits_length_eq (w : Work) (bs : List Byte) :
    (messageBits w.code bs).length = (allSymbols.map fun s => bs.count s * codeLen w s).sum := by
  induction bs with
  | nil =>
    generalize allSymbols = l
    simp [messageBits]
  | cons b bs ih =>
    have h1 : (messageBits w.code (b :: bs)).length =
        codeLen w b + (messageBits w.code bs).length := by
      simp only [messageBits, List.flatMap_cons, List.length_append, codeLen]
      cases tget w.code b <;> simp
    have h2 : ∀ l : List Byte, l.Nodup →
        (l.map fun s => (b :: bs).count s * codeLen w s).sum =
          (if b ∈ l then codeLen w b else 0) + (l.map fun s => bs.count s * codeLen w s).sum := by
      intro l
      induction l with
      | nil => simp
      | cons x l ihl =>
        intro hn
        rw [List.nodup_cons] at hn
        rw [List.map_cons, List.sum_cons, ihl hn.2, List.map_cons, List.sum_cons, List.count_cons]
        by_cases hx : b = x
        · subst hx
          simp [hn.1, Nat.add_mul]
          omega
        · simp [hx, beq_eq_false_iff_ne.2 hx]
          omega
    rw [h1, ih, h2 _ (allSymbols_pairwise.imp fun h e => by rw [e] at h; exact lt_irrefl _ h),
      if_pos (mem_allSymbols b)]

/-- R264: T is the number of bits of the message. -/
theorem payloadBits_eq {w : Work} {bs : List Byte} (hc : Counts w.freq bs) :
    payloadBits w = (messageBits w.code bs).length := by
  rw [messageBits_length_eq, payloadBits, counted_eq, List.map_map]
  have : ∀ l : List Byte, ((l.filter fun s => tget w.freq s != 0).map
      ((fun e : Byte × Word32 => e.2.toNat * codeLen w e.1) ∘ fun s => (s, tget w.freq s))).sum =
      (l.map fun s => bs.count s * codeLen w s).sum := by
    intro l
    induction l with
    | nil => rfl
    | cons x l ih =>
      rw [List.map_cons, List.sum_cons, ← ih, ← hc x]
      by_cases hx : tget w.freq x = 0
      · rw [List.filter_cons_of_neg (by simp [hx])]
        simp [hx]
      · rw [List.filter_cons_of_pos (by simpa using hx)]
        rfl
  exact this _

/-! ### The table (R106, R270) -/

theorem writeTable_eq {es : List (Byte × Word32)} {a : Nat} {s : State}
    (hr : Reachable s.par a (5 * es.length)) :
    writeTable es a s =
      .ok (s.setMem (s.mem.writeRange a (es.flatMap fun e => e.1 :: leBytes 4 e.2.toNat))) := by
  induction es generalizing a s with
  | nil => rfl
  | cons e es ih =>
    obtain ⟨sym, f⟩ := e
    rw [List.length_cons] at hr
    rw [writeTable, storeBytes_eq_ok.2 ⟨hr.sub (le_refl a)
      (by simp only [List.length_cons, leBytes_length]; omega), rfl⟩, ok_bind,
      ih (by
        rw [State.setMem_par]
        exact hr.sub (by simp) (by rw [show Config.entrySize = 5 from rfl]; omega))]
    simp only [State.setMem_mem, State.setMem_setMem, List.flatMap_cons, Memory.writeRange_append,
      List.length_cons, leBytes_length]

theorem refTable_length (t : Table Word32) : (refTable t).length = 5 * (counted t).length := by
  rw [refTable]
  generalize counted t = es
  induction es with
  | nil => rfl
  | cons e es ih =>
    simp only [List.flatMap_cons, List.length_append, ih, List.length_cons, leBytes_length]
    omega

/-! ### The payload (R107, R270) -/

theorem messageBits_cons {code : Table (Option Bits)} {b : Byte} {bs : List Byte} {c : Bits}
    (h : tget code b = some c) : messageBits code (b :: bs) = c ++ messageBits code bs := by
  simp [messageBits, h]

theorem packLoop_eq {n a : Nat} {s : State} {p : Bits} (hp : Holds s p) (hm : s.mem.wf)
    (hs : Reachable s.par a n)
    (hcode : ∀ b ∈ s.mem.readRange a n, ∃ c, tget s.work.code b = some c)
    (hr : Reachable s.par (s.work.pk.base + s.work.pk.out)
      (packBytes p (messageBits s.work.code (s.mem.readRange a n))).1.length)
    (hd : a + n ≤ s.work.pk.base + s.work.pk.out ∨ s.work.pk.base + s.work.pk.out +
      (packBytes p (messageBits s.work.code (s.mem.readRange a n))).1.length ≤ a) :
    packLoop a n s =
      .ok ((s.setMem (s.mem.writeRange (s.work.pk.base + s.work.pk.out)
        (packBytes p (messageBits s.work.code (s.mem.readRange a n))).1)).setPk
        { s.work.pk with
          acc := byteOf (packBytes p (messageBits s.work.code (s.mem.readRange a n))).2
          cnt := (packBytes p (messageBits s.work.code (s.mem.readRange a n))).2.length
          out := s.work.pk.out +
            (packBytes p (messageBits s.work.code (s.mem.readRange a n))).1.length }) := by
  induction n generalizing a s p with
  | zero =>
    have := pkWriteBits_eq (bits := []) hp (by simpa [packBytes] using Reachable.zero)
    simp only [pkWriteBits] at this
    simpa only [packLoop, Memory.readRange, messageBits, List.flatMap_nil] using this
  | succ n ih =>
    obtain ⟨c, hc⟩ := hcode (s.mem.read a) (by simp [Memory.readRange])
    rw [Memory.readRange, messageBits_cons hc, packBytes_append] at hr hd ⊢
    simp only [List.length_append] at hr hd ⊢
    rw [packLoop, loadByte_eq_ok.2 ⟨hs.head, rfl⟩, ok_bind]
    simp only [codeLookup, hc]
    rw [pkWriteBits_eq hp (hr.sub (le_refl _) (by omega)), ok_bind]
    generalize hu : (packBytes p c).1 = u at *
    generalize hv : (packBytes p c).2 = v at *
    have hvl : v.length < 8 := hv ▸ packBytes_pending hp.lt
    have hrange : (s.mem.writeRange (s.work.pk.base + s.work.pk.out) u).readRange (a + 1) n =
        s.mem.readRange (a + 1) n :=
      Memory.readRange_writeRange_outside hm (by omega)
    set s' := (s.setMem (s.mem.writeRange (s.work.pk.base + s.work.pk.out) u)).setPk
      { s.work.pk with acc := byteOf v, cnt := v.length, out := s.work.pk.out + u.length } with hs'
    have hmem : s'.mem.readRange (a + 1) n = s.mem.readRange (a + 1) n := hrange
    have hcd : s'.work.code = s.work.code := rfl
    have hbase : s'.work.pk.base + s'.work.pk.out = s.work.pk.base + s.work.pk.out + u.length := by
      simp [hs', Nat.add_assoc]
    rw [ih (p := v) (s := s') ⟨rfl, rfl, hvl⟩ (Memory.writeRange_wf hm) hs.tail
      (by
        rw [hmem, hcd]
        exact fun b hb => hcode b (by rw [Memory.readRange]; exact List.mem_cons_of_mem _ hb))
      (by rw [hmem, hcd, hbase]; exact hr.sub (by omega) (by omega))
      (by rw [hmem, hcd, hbase]; omega)]
    rw [hmem, hcd, hbase, Memory.writeRange_append]
    simp only [hs', State.setPk_mem, State.setMem_mem, State.setPk_work, Work.setPk_pk,
      Nat.add_assoc]
    rfl

/-- The model's packed bytes are the payload bytes of the reference. -/
theorem refPayloadByte_eq (bits : Bits) (j : Nat) :
    refPayloadByte bits j = byteOf ((List.range 8).map fun i => bits.getD (8 * j + i) false) := by
  rw [refPayloadByte, byteOf, List.foldl_map]
  rfl

theorem refPayloadByte_bit (bits : Bits) (k : Nat) :
    streamBit (refPayloadByte bits (k / 8)) k = bits.getD k false := by
  rw [refPayloadByte_eq, streamBit, byteOf_getLsbD _ _ (by simp)]
  have h : 7 - k % 8 < 8 := by omega
  have h2 : 8 - 1 - (7 - k % 8) = k % 8 := by omega
  have h3 : k % 8 < 8 := by omega
  simp only [List.length_map, List.length_range, h, h2, decide_true, Bool.true_and]
  simp only [List.getD_eq_getElem?_getD, List.getElem?_map, List.getElem?_range h3, Option.map_some,
    Option.getD_some]
  rw [show 8 * (k / 8) + k % 8 = k by omega]

theorem byte_ext_stream {a b : Byte} (j : Nat)
    (h : ∀ i < 8, streamBit a (8 * j + i) = streamBit b (8 * j + i)) : a = b := by
  refine BitVec.eq_of_getLsbD_eq fun i hi => ?_
  have := h (7 - i) (by omega)
  rw [streamBit, streamBit, show 7 - (8 * j + (7 - i)) % 8 = i by omega] at this
  exact this

theorem packed_eq (bits : Bits) : packed bits = refPayload bits := by
  refine List.ext_getElem (by simp [packed_length, refPayload]) fun j h1 h2 => ?_
  simp only [refPayload, List.getElem_map, List.getElem_range]
  refine byte_ext_stream j fun i hi => ?_
  have hk : (8 * j + i) / 8 = j := by omega
  have e1 := packed_bit bits (8 * j + i) (b := (packed bits)[j]) (by
    rw [hk, List.getElem?_eq_getElem h1])
  have e2 := refPayloadByte_bit bits (8 * j + i)
  rw [hk] at e2
  rw [e1, e2]

theorem refPayload_length (bits : Bits) : (refPayload bits).length = (bits.length + 7) / 8 := by
  simp [refPayload]

/-! ### Codes -/

/-- After a build and generate_codes, the counted symbols and no others have codes. -/
structure CodesOk (w : Work) (t : Option Tree) : Prop where
  root : match t with
    | none => w.root = none ∧ counted w.freq = []
    | some t => ∃ r, w.root = some r ∧ IsTree w.nodes r t ∧ t.leaves.Perm (countedLeaves w.freq)
  code : w.code = setCodes (Vector.replicate 256 none) (match t with | none => [] | some t => t.codes)

theorem buildCodes_eq (w : Work) :
    ∃ v u t, buildTree w = .ok v ∧ generateCodes v = .ok u ∧ CodesOk u t ∧ u.freq = w.freq ∧
      u.pk = w.pk ∧ u.crcReg = w.crcReg ∧ u.seen = w.seen ∧ u.up = w.up ∧ u.wk = w.wk := by
  obtain ⟨more, root, hb, -, hroot, htree⟩ := buildTree_eq w
  cases root with
  | none =>
    refine ⟨_, _, none, hb, generateCodes_empty (by simp), ⟨⟨?_, ?_⟩, ?_⟩, rfl, rfl, rfl, rfl, rfl, rfl⟩
    · simp
    · simpa using hroot
    · simp [setCodes]
  | some r =>
    obtain ⟨-, t, ht, hl⟩ := htree r rfl
    have hlen : t.leaves.length ≤ 256 := by
      rw [hl.length_eq, countedLeaves_length]; exact counted_length _
    refine ⟨_, _, some t, hb, generateCodes_eq (r := r) (by simp) (by simpa using ht) hlen,
      ⟨⟨r, rfl, ?_, ?_⟩, ?_⟩, rfl, rfl, rfl, rfl, rfl, rfl⟩
    · simpa using ht
    · simpa using hl
    · simp

theorem CodesOk.syms_nodup {w : Work} {t : Tree} (h : CodesOk w (some t)) :
    (t.codes.map Prod.fst).Nodup := by
  obtain ⟨r, -, -, hl⟩ := h.root
  rw [Tree.codes_syms, (hl.map Prod.fst).nodup_iff]
  simpa [countedLeaves, Function.comp_def] using counted_syms_nodup w.freq

theorem CodesOk.tget_iff {w : Work} {t : Option Tree} (h : CodesOk w t) {b : Byte} {c : Bits} :
    tget w.code b = some c ↔ ∃ u, t = some u ∧ (b, c) ∈ u.codes := by
  rw [h.code]
  cases t with
  | none => simp [setCodes, tget_replicate]
  | some u =>
    simp only [Option.some.injEq, exists_eq_left']
    by_cases hb : b ∈ u.codes.map Prod.fst
    · obtain ⟨e, he, rfl⟩ := List.mem_map.1 hb
      rw [tget_setCodes_of_mem (c := e.2) h.syms_nodup he, Option.some.injEq]
      constructor
      · rintro rfl; exact he
      · intro hc
        have h1 := tget_setCodes_of_mem (t := Vector.replicate 256 none) h.syms_nodup hc
        have h2 := tget_setCodes_of_mem (t := Vector.replicate 256 none) (c := e.2) h.syms_nodup he
        rw [h1] at h2
        exact (Option.some.inj h2).symm
    · rw [tget_setCodes_of_not_mem hb, tget_replicate]
      simp only [reduceCtorEq, false_iff]
      intro hc
      exact hb (List.mem_map.2 ⟨_, hc, rfl⟩)

/-- A symbol has a code exactly when its count is not zero (R181). -/
theorem CodesOk.coded_iff {w : Work} {t : Option Tree} (h : CodesOk w t) {b : Byte} :
    (∃ c, tget w.code b = some c) ↔ tget w.freq b ≠ 0 := by
  simp only [h.tget_iff]
  have hmem : tget w.freq b ≠ 0 ↔ b ∈ (countedLeaves w.freq).map Prod.fst := by
    simp only [countedLeaves, List.map_map, List.mem_map, Function.comp]
    constructor
    · intro hb; exact ⟨(b, tget w.freq b), mem_counted.2 ⟨rfl, hb⟩, rfl⟩
    · rintro ⟨e, he, rfl⟩
      rw [counted_tget he]
      exact counted_ne_zero he
  rw [hmem]
  cases t with
  | none =>
    have := h.root.2
    simp [countedLeaves, this]
  | some u =>
    obtain ⟨r, -, -, hl⟩ := h.root
    rw [← (hl.map Prod.fst).mem_iff, ← Tree.codes_syms, List.mem_map]
    constructor
    · rintro ⟨c, v, hv, hc⟩
      cases hv
      exact ⟨_, hc, rfl⟩
    · rintro ⟨e, he, rfl⟩
      exact ⟨e.2, u, rfl, he⟩

/-! ### write_container and the command -/

@[simp] theorem Header.toBytes_length (h : Header) : h.toBytes.length = 30 := by
  simp [Header.toBytes]

/-- What write_container leaves: the container at dst, the packer's last state, the registers. -/
theorem writeContainer_eq {s : State} {cs : Word64} {crc : Word32} {k : BitVec 16} {pad : Byte}
    (hm : s.mem.wf) (hb : buffersOk s)
    (hsrc : Reachable s.par s.src s.srclen)
    (hk : k.toNat = (counted s.work.freq).length)
    (hcode : ∀ b ∈ sourceBytes s, ∃ c, tget s.work.code b = some c)
    (hfit : 30 + 5 * k.toNat + ((messageBits s.work.code (sourceBytes s)).length + 7) / 8 ≤ s.cap)
    (hdst : Reachable s.par s.dst
      (30 + 5 * k.toNat + ((messageBits s.work.code (sourceBytes s)).length + 7) / 8)) :
    ∃ pk, writeContainer cs crc k pad s = .ok (complete (30 + 5 * k.toNat + cs.toNat)
      (((s.setMem (s.mem.writeRange s.dst (refContainer (encodeHeader s cs crc k pad) s.work.freq
        (messageBits s.work.code (sourceBytes s))))).setWork (s.work.setPk pk)).setRegs
        { setHeaderRegs (encodeHeader s cs crc k pad) s.regs with crcCalc := crc.zeroExtend 64 })) ∧
      pk.out = ((messageBits s.work.code (sourceBytes s)).length + 7) / 8 ∧
      pk.pad = (8 - (messageBits s.work.code (sourceBytes s)).length % 8) % 8 ∧
      pk.base = s.dst + 30 + 5 * k.toNat ∧ pk.acc = 0 ∧ pk.cnt = 0 := by
  generalize hbits : messageBits s.work.code (sourceBytes s) = bits at *
  generalize hh : encodeHeader s cs crc k pad = h
  have hcap : 0 < s.cap := by omega
  have hdis : s.srclen = 0 ∨ s.dst + s.cap ≤ s.src ∨ s.src + s.srclen ≤ s.dst := by
    rcases hb.2.2.2.2 with h | h | h
    · exact .inl h
    · omega
    · exact .inr h
  rw [writeContainer, hh]
  dsimp only
  rw [storeBytes_eq_ok.2 ⟨hdst.sub (le_refl _) (by simp; omega), rfl⟩, ok_bind,
    State.setMem_work, State.setMem_dst, writeTable_eq (es := counted s.work.freq) (by
      rw [State.setMem_par]
      exact hdst.sub (by simp) (by
        rw [← hk, show Config.hdrSize = 30 from rfl]; omega))]
  simp only [ok_bind, State.setMem_setMem, State.setMem_mem]
  rw [show Config.hdrSize = h.toBytes.length by simp, ← Memory.writeRange_append]
  rw [show ((counted s.work.freq).flatMap fun e => e.1 :: leBytes 4 e.2.toNat) = refTable s.work.freq
    from rfl, Header.toBytes_length]
  generalize hm1 : s.mem.writeRange s.dst (h.toBytes ++ refTable s.work.freq) = m1
  have hlen1 : (h.toBytes ++ refTable s.work.freq).length = 30 + 5 * k.toNat := by
    simp [refTable_length, hk]
  have hm1wf : m1.wf := hm1 ▸ Memory.writeRange_wf hm
  have hread : m1.readRange s.src s.srclen = s.mem.readRange s.src s.srclen := by
    rw [← hm1]
    rcases hdis with h0 | h0
    · rw [h0]; rfl
    · exact Memory.readRange_writeRange_outside hm (by rw [hlen1]; omega)
  set s1 := (s.setMem m1).setWork (pkInit (s.dst + 30 + Config.entrySize * k.toNat) s.work) with hs1
  have hpk : Holds s1 [] := ⟨rfl, rfl, by simp⟩
  have hb1 : messageBits s1.work.code (s1.mem.readRange s.src s.srclen) = bits := by
    rw [show s1.mem = m1 from rfl, hread, ← hbits]; rfl
  have hcnt := packBytes_count (p := []) (bits := bits) (by simp)
  have hpend := packBytes_pending (p := []) (bits := bits) (by simp)
  rw [List.length_nil, Nat.zero_add] at hcnt
  have hbase : s1.work.pk.base + s1.work.pk.out = s.dst + (30 + 5 * k.toNat) := by
    simp [hs1, pkInit, Nat.add_assoc]
  have htail : (packBytes [] bits).1.length + (packTail (packBytes [] bits).2).length =
      (bits.length + 7) / 8 := by
    have := packed_length bits
    rwa [packed, List.length_append] at this
  have hloop := packLoop_eq (n := s.srclen) (a := s.src) (s := s1) hpk hm1wf hsrc (by
      rw [show s1.mem = m1 from rfl, hread]
      exact hcode)
    (by rw [hb1, hbase]; exact hdst.sub (by omega) (by omega))
    (by
      rw [hb1, hbase]
      rcases hdis with h0 | h0
      · rw [h0]
        by_cases hx : s.src ≤ s.dst + (30 + 5 * k.toNat)
        · exact .inl (by omega)
        · have : bits = [] := by
            rw [← hbits, sourceBytes, h0]; rfl
          rw [this]
          exact .inr (by simp [packBytes]; omega)
      · omega)
  rw [hb1, hbase] at hloop
  have e1 : ((s.setMem m1).setWork (pkInit ((s.setMem m1).dst + 30 + Config.entrySize * k.toNat)
      (s.setMem m1).work)) = s1 := rfl
  rw [e1]
  rw [show s1.src = s.src from rfl, show s1.srclen = s.srclen from rfl, hloop, ok_bind]
  set s2 := (s1.setMem (s1.mem.writeRange (s.dst + (30 + 5 * k.toNat)) (packBytes [] bits).1)).setPk
    { s1.work.pk with
      acc := byteOf (packBytes [] bits).2
      cnt := (packBytes [] bits).2.length
      out := s1.work.pk.out + (packBytes [] bits).1.length } with hs2
  have hbase2 : s2.work.pk.base + s2.work.pk.out =
      s.dst + (30 + 5 * k.toNat) + (packBytes [] bits).1.length := by
    have : s2.work.pk.base + s2.work.pk.out =
      s1.work.pk.base + s1.work.pk.out + (packBytes [] bits).1.length := by
      simp [hs2, Nat.add_assoc]
    rw [this, hbase]
  rw [pkFlush_eq (s := s2) (p := (packBytes [] bits).2) ⟨rfl, rfl, hpend⟩ (by
    rw [hbase2]; exact hdst.sub (by omega) (by omega)), ok_bind]
  refine ⟨{ s2.work.pk with
      acc := 0
      cnt := 0
      out := s2.work.pk.out + (packTail (packBytes [] bits).2).length
      pad := (8 - (packBytes [] bits).2.length) % 8 }, ?_, ?_, ?_, ?_, rfl, rfl⟩
  · have hmem : s2.mem.writeRange (s2.work.pk.base + s2.work.pk.out) (packTail (packBytes [] bits).2) =
        s.mem.writeRange s.dst (refContainer h s.work.freq bits) := by
      rw [hbase2, refContainer, ← packed_eq, packed, Memory.writeRange_append, hm1,
        Memory.writeRange_append, hlen1]
      rfl
    rw [hmem]
    rfl
  · simp [hs2, hs1, pkInit]; omega
  · simp only []
    have : (packBytes [] bits).2.length = bits.length % 8 := by omega
    rw [this]
  · simp [hs2, hs1, pkInit]

/-- The checks that precede the counting pass. -/
theorem checks_ok {s : State} (hb : buffersOk s) :
    rangeCheck s = .ok () ∧ overlapCheck s = .ok () :=
  ⟨rangeCheck_eq_ok.2 ⟨hb.1, hb.2.1, hb.2.2.1, hb.2.2.2.1⟩, overlapCheck_eq_ok.2 hb.2.2.2.2⟩

theorem sourceCrc_eq {s : State} (hsrc : Reachable s.par s.src s.srclen) :
    sourceCrc s = .ok (s.setWork (crcRun (sourceBytes s) (crcInit s.work))) := by
  rw [sourceCrc, loadBytes_eq_ok.2 ⟨hsrc, rfl⟩]
  rfl

/-- R260 up to the capacity check: the counts, the tree, the codes, the sizes. -/
theorem encodeCommand_sized {s : State} (hb : buffersOk s)
    (hsrc : Reachable s.par s.src s.srclen)
    (hfit : ∀ b, (sourceBytes s).count b < 2 ^ 32) :
    ∃ t v u tree, Counts t (sourceBytes s) ∧ buildTree (s.work.setFreq t) = .ok v ∧
      generateCodes v = .ok u ∧ CodesOk u tree ∧ u.freq = t ∧
      encodeCommand s =
        if s.cap < 30 + 5 * (counted t).length + ((messageBits u.code (sourceBytes s)).length + 7) / 8
        then throwErr .resource 1 (s.setWork u)
        else writeContainer
          (BitVec.ofNat 64 (((messageBits u.code (sourceBytes s)).length + 7) / 8))
          (refCrc32 (sourceBytes s)) (BitVec.ofNat 16 (counted t).length)
          (BitVec.ofNat 8 ((8 - (messageBits u.code (sourceBytes s)).length % 8) % 8))
          (s.setWork (crcRun (sourceBytes s) (crcInit u))) := by
  obtain ⟨t, ht, hc⟩ := freqCount_eq hsrc hfit
  obtain ⟨v, u, tree, hv, hu, hok, hfreq, -⟩ := buildCodes_eq (s.work.setFreq t)
  rw [Work.setFreq_freq] at hfreq
  refine ⟨t, v, u, tree, hc, hv, hu, hok, hfreq, ?_⟩
  have hT : payloadBits u = (messageBits u.code (sourceBytes s)).length :=
    payloadBits_eq (by rw [hfreq]; exact hc)
  have h1 : onWork buildTree (s.setWork (s.work.setFreq t)) = .ok (s.setWork v) :=
    onWork_eq_ok.2 ⟨v, hv, rfl⟩
  have h2 : onWork generateCodes (s.setWork v) = .ok (s.setWork u) := onWork_eq_ok.2 ⟨u, hu, rfl⟩
  rw [encodeCommand, (checks_ok hb).1, ok_bind, (checks_ok hb).2, ok_bind, ht, ok_bind, h1, ok_bind,
    h2, ok_bind]
  simp only [State.setWork_work, State.setWork_cap, hT, payloadSize, payloadPad, entryCount, hfreq,
    containerSize, Config.hdrSize, Config.entrySize]
  rw [sourceCrc_eq (s := s.setWork u) hsrc, ok_bind, State.setWork_work, crc_eq]
  rfl

theorem crcRun_code (bs : List Byte) (w : Work) :
    (crcRun bs w).code = w.code ∧ (crcRun bs w).freq = w.freq := by
  rw [crcRun_eq]
  exact ⟨rfl, rfl⟩

/-- ENCODE with room for its container (R260, R270). -/
theorem encodeCommand_eq {s : State} (hm : s.mem.wf) (hb : buffersOk s)
    (hsrc : Reachable s.par s.src s.srclen)
    (hfit : ∀ b, (sourceBytes s).count b < 2 ^ 32) :
    ∃ t v u tree, Counts t (sourceBytes s) ∧ buildTree (s.work.setFreq t) = .ok v ∧
      generateCodes v = .ok u ∧ CodesOk u tree ∧ u.freq = t ∧
      ∀ bits size, bits = messageBits u.code (sourceBytes s) →
      size = 30 + 5 * (counted t).length + (bits.length + 7) / 8 → size ≤ s.cap →
      Reachable s.par s.dst size →
      ∀ h, h = encodeHeader s (BitVec.ofNat 64 ((bits.length + 7) / 8)) (refCrc32 (sourceBytes s))
        (BitVec.ofNat 16 (counted t).length) (BitVec.ofNat 8 ((8 - bits.length % 8) % 8)) →
      ∃ w, encodeCommand s = .ok (complete size
        (((s.setMem (s.mem.writeRange s.dst (refContainer h t bits))).setWork w).setRegs
          { setHeaderRegs h s.regs with crcCalc := (refCrc32 (sourceBytes s)).zeroExtend 64 })) ∧
        w.pk.out = (bits.length + 7) / 8 ∧ w.pk.pad = (8 - bits.length % 8) % 8 := by
  obtain ⟨t, v, u, tree, hc, hv, hu, hok, hfreq, henc⟩ := encodeCommand_sized hb hsrc hfit
  refine ⟨t, v, u, tree, hc, hv, hu, hok, hfreq, ?_⟩
  rintro bits size rfl rfl hsize hdst h rfl
  rw [henc, if_neg (by omega)]
  have hcl := counted_length t
  have hk : (BitVec.ofNat 16 (counted t).length).toNat = (counted t).length := by
    rw [BitVec.toNat_ofNat, Nat.mod_eq_of_lt (by omega)]
  have hcode := (crcRun_code (sourceBytes s) (crcInit u)).1
  have hfr := (crcRun_code (sourceBytes s) (crcInit u)).2
  have hcs : (BitVec.ofNat 64 (((messageBits u.code (sourceBytes s)).length + 7) / 8)).toNat =
      ((messageBits u.code (sourceBytes s)).length + 7) / 8 := by
    rw [BitVec.toNat_ofNat, Nat.mod_eq_of_lt]
    have : s.cap < 2 ^ 64 := s.latch.cap.isLt
    omega
  set s' := s.setWork (crcRun (sourceBytes s) (crcInit u)) with hs'
  have e2 : s'.work.code = u.code := hcode
  have e3 : s'.work.freq = t := hfr.trans hfreq
  have e4 : sourceBytes s' = sourceBytes s := rfl
  obtain ⟨pk, hw, hout, hpad, -⟩ := writeContainer_eq (s := s')
    (cs := BitVec.ofNat 64 (((messageBits u.code (sourceBytes s)).length + 7) / 8))
    (crc := refCrc32 (sourceBytes s)) (k := BitVec.ofNat 16 (counted t).length)
    (pad := BitVec.ofNat 8 ((8 - (messageBits u.code (sourceBytes s)).length % 8) % 8))
    hm hb hsrc (by rw [hk, e3]) (by
      intro b hb'
      rw [e2, hok.coded_iff, hfreq]
      intro h0
      have := hc b
      rw [h0] at this
      exact absurd this.symm (List.count_pos_iff.2 (e4 ▸ hb')).ne')
    (by rw [hk, e2, e4]; exact hsize) (by rw [hk, e2, e4]; exact hdst)
  rw [e2, e4] at hout hpad
  refine ⟨s'.work.setPk pk, ?_, by simpa using hout, by simpa using hpad⟩
  rw [hw, e2, e3, e4, hk, hcs]
  rfl

end Sys2Proof.Machine
end

