-- ==== Sys2Proof/Laws/Decode.lean ====
section
/-! SUPPORT. The parts of DECODE: the header, the table, the walk, the output. -/

namespace Sys2Proof.Machine

/-! ### The header (R96, R97, R302) -/

theorem field_append {pre mid post : List Byte} {o n : Nat} (ho : o = pre.length)
    (hn : n = mid.length) : field (pre ++ mid ++ post) o n = leValue mid := by
  subst ho hn
  rw [field, List.append_assoc, List.drop_left, List.take_left]

/-- The header's bytes give its fields back. -/
theorem Header.ofBytes_toBytes (h : Header) : Header.ofBytes h.toBytes = h := by
  obtain ⟨magic, version, orig, comp, crc, count, pad, res⟩ := h
  have e0 : field (Header.toBytes ⟨magic, version, orig, comp, crc, count, pad, res⟩) 0 4 =
      leValue (leBytes 4 magic.toNat) := by
    simpa [Header.toBytes] using field_append (pre := []) (mid := leBytes 4 magic.toNat)
      (post := leBytes 2 version.toNat ++ leBytes 8 orig.toNat ++ leBytes 8 comp.toNat ++
        leBytes 4 crc.toNat ++ leBytes 2 count.toNat ++ [pad] ++ [res]) (o := 0) (n := 4)
        (by simp) (by simp)
  have e1 : field (Header.toBytes ⟨magic, version, orig, comp, crc, count, pad, res⟩) 4 2 =
      leValue (leBytes 2 version.toNat) := by
    simpa [Header.toBytes] using field_append (pre := leBytes 4 magic.toNat)
      (mid := leBytes 2 version.toNat)
      (post := leBytes 8 orig.toNat ++ leBytes 8 comp.toNat ++
        leBytes 4 crc.toNat ++ leBytes 2 count.toNat ++ [pad] ++ [res]) (o := 4) (n := 2)
        (by simp) (by simp)
  have e2 : field (Header.toBytes ⟨magic, version, orig, comp, crc, count, pad, res⟩) 6 8 =
      leValue (leBytes 8 orig.toNat) := by
    simpa [Header.toBytes] using field_append (pre := leBytes 4 magic.toNat ++ leBytes 2 version.toNat)
      (mid := leBytes 8 orig.toNat)
      (post := leBytes 8 comp.toNat ++
        leBytes 4 crc.toNat ++ leBytes 2 count.toNat ++ [pad] ++ [res]) (o := 6) (n := 8)
        (by simp) (by simp)
  have e3 : field (Header.toBytes ⟨magic, version, orig, comp, crc, count, pad, res⟩) 14 8 =
      leValue (leBytes 8 comp.toNat) := by
    simpa [Header.toBytes] using field_append
      (pre := leBytes 4 magic.toNat ++ leBytes 2 version.toNat ++ leBytes 8 orig.toNat)
      (mid := leBytes 8 comp.toNat)
      (post := leBytes 4 crc.toNat ++ leBytes 2 count.toNat ++ [pad] ++ [res]) (o := 14) (n := 8)
        (by simp) (by simp)
  have e4 : field (Header.toBytes ⟨magic, version, orig, comp, crc, count, pad, res⟩) 22 4 =
      leValue (leBytes 4 crc.toNat) := by
    simpa [Header.toBytes] using field_append
      (pre := leBytes 4 magic.toNat ++ leBytes 2 version.toNat ++ leBytes 8 orig.toNat ++
        leBytes 8 comp.toNat)
      (mid := leBytes 4 crc.toNat)
      (post := leBytes 2 count.toNat ++ [pad] ++ [res]) (o := 22) (n := 4)
        (by simp) (by simp)
  have e5 : field (Header.toBytes ⟨magic, version, orig, comp, crc, count, pad, res⟩) 26 2 =
      leValue (leBytes 2 count.toNat) := by
    simpa [Header.toBytes] using field_append
      (pre := leBytes 4 magic.toNat ++ leBytes 2 version.toNat ++ leBytes 8 orig.toNat ++
        leBytes 8 comp.toNat ++ leBytes 4 crc.toNat)
      (mid := leBytes 2 count.toNat)
      (post := [pad] ++ [res]) (o := 26) (n := 2)
        (by simp) (by simp)
  have e6 : field (Header.toBytes ⟨magic, version, orig, comp, crc, count, pad, res⟩) 28 1 =
      leValue [pad] := by
    simpa [Header.toBytes] using field_append
      (pre := leBytes 4 magic.toNat ++ leBytes 2 version.toNat ++ leBytes 8 orig.toNat ++
        leBytes 8 comp.toNat ++ leBytes 4 crc.toNat ++ leBytes 2 count.toNat)
      (mid := [pad])
      (post := [res]) (o := 28) (n := 1)
        (by simp) (by simp)
  have e7 : field (Header.toBytes ⟨magic, version, orig, comp, crc, count, pad, res⟩) 29 1 =
      leValue [res] := by
    simpa [Header.toBytes] using field_append
      (pre := leBytes 4 magic.toNat ++ leBytes 2 version.toNat ++ leBytes 8 orig.toNat ++
        leBytes 8 comp.toNat ++ leBytes 4 crc.toNat ++ leBytes 2 count.toNat ++ [pad])
      (mid := [res])
      (post := []) (o := 29) (n := 1)
        (by simp) (by simp)
  rw [Header.ofBytes, e0, e1, e2, e3, e4, e5, e6, e7, leValue_leBytes_word _ _ (by norm_num),
    leValue_leBytes_word _ _ (by norm_num), leValue_leBytes_word _ _ (by norm_num),
    leValue_leBytes_word _ _ (by norm_num), leValue_leBytes_word _ _ (by norm_num),
    leValue_leBytes_word _ _ (by norm_num)]
  simp [leValue]

/-- read_header reads the 30 bytes and sets the header registers. -/
theorem readHeader_eq {s : State} (hr : Reachable s.par s.src 30) :
    readHeader s = .ok (Header.ofBytes (s.mem.readRange s.src 30),
      s.setRegs (setHeaderRegs (Header.ofBytes (s.mem.readRange s.src 30)) s.regs)) := by
  rw [readHeader, loadBytes_eq_ok.2 ⟨hr, rfl⟩]
  rfl

/-! ### The table (R306) -/

theorem parseEntry_eq {a : Nat} {s : State} (hr : Reachable s.par a 5) :
    parseEntry a s =
      if BitVec.ofNat 32 (leValue (s.mem.readRange (a + 1) 4)) = (0 : Word32) then throwErr .format 7 s
      else if tget s.work.seen (s.mem.read a) then throwErr .format 8 s
      else .ok (s.setWork ((s.work.setSeen (tset s.work.seen (s.mem.read a) true)).setFreq
        (tset s.work.freq (s.mem.read a) (BitVec.ofNat 32 (leValue (s.mem.readRange (a + 1) 4)))))) := by
  rw [parseEntry, loadByte_eq_ok.2 ⟨hr a (le_refl _) (by omega), rfl⟩, ok_bind,
    loadBytes_eq_ok.2 ⟨hr.sub (by omega) (by omega), rfl⟩, ok_bind]

/-- Set the entries of a list of symbols with their frequencies, one after the other. -/
def setFreqs (t : Table Word32) : List (Byte × Word32) → Table Word32
  | [] => t
  | e :: es => setFreqs (tset t e.1 e.2) es

/-- Mark the symbols of a list as seen. -/
def setSeens (t : Table Bool) : List (Byte × Word32) → Table Bool
  | [] => t
  | e :: es => setSeens (tset t e.1 true) es

theorem tget_setFreqs_not_mem {t : Table Word32} {es : List (Byte × Word32)} {b : Byte}
    (h : b ∉ es.map Prod.fst) : tget (setFreqs t es) b = tget t b := by
  induction es generalizing t with
  | nil => rfl
  | cons e es ih =>
    rw [List.map_cons, List.mem_cons, not_or] at h
    rw [setFreqs, ih h.2, tget_tset, if_neg h.1]

theorem tget_setFreqs_mem {t : Table Word32} {es : List (Byte × Word32)} {e : Byte × Word32}
    (hn : (es.map Prod.fst).Nodup) (h : e ∈ es) : tget (setFreqs t es) e.1 = e.2 := by
  induction es generalizing t with
  | nil => simp at h
  | cons d es ih =>
    rw [List.map_cons, List.nodup_cons] at hn
    rw [setFreqs]
    rcases List.mem_cons.1 h with rfl | h
    · rw [tget_setFreqs_not_mem hn.1, tget_tset, if_pos rfl]
    · exact ih hn.2 h

theorem setFreqs_isTable {es : List (Byte × Word32)} (h : tableOk es) :
    IsTableOf (setFreqs (Vector.replicate 256 0) es) es :=
  ⟨fun _ he => tget_setFreqs_mem h.2 he,
    fun _ hb => by rw [tget_setFreqs_not_mem hb, tget_replicate]⟩

theorem IsTableOf.unique {t u : Table Word32} {es : List (Byte × Word32)} (ht : IsTableOf t es)
    (hu : IsTableOf u es) : t = u := by
  refine Table.ext fun b => ?_
  by_cases hb : b ∈ es.map Prod.fst
  · obtain ⟨e, he, rfl⟩ := List.mem_map.1 hb
    rw [ht.1 e he, hu.1 e he]
  · rw [ht.2 b hb, hu.2 b hb]

/-- The counted entries of a table make that table. -/
theorem isTableOf_counted (t : Table Word32) : IsTableOf t (counted t) := by
  refine ⟨fun e he => counted_tget he, fun b hb => ?_⟩
  by_contra h
  exact hb (List.mem_map.2 ⟨(b, tget t b), mem_counted.2 ⟨rfl, h⟩, rfl⟩)

theorem tableOk_counted (t : Table Word32) : tableOk (counted t) :=
  ⟨fun _ he => counted_ne_zero he, counted_syms_nodup t⟩

/-- R306's loop over acceptable entries. -/
theorem parseLoop_eq {k a : Nat} {s : State} (hr : Reachable s.par a (5 * k))
    (hok : tableOk (storedEntries s.mem a k))
    (hseen : ∀ e ∈ storedEntries s.mem a k, tget s.work.seen e.1 = false) :
    parseLoop a k s = .ok (s.setWork
      ((s.work.setSeen (setSeens s.work.seen (storedEntries s.mem a k))).setFreq
        (setFreqs s.work.freq (storedEntries s.mem a k)))) := by
  induction k generalizing a s with
  | zero => rfl
  | succ k ih =>
    rw [storedEntries] at hok hseen ⊢
    obtain ⟨hnz, hnd⟩ := hok
    rw [List.map_cons, List.nodup_cons] at hnd
    have h0 := hnz _ (List.mem_cons_self ..)
    have hs0 := hseen _ (List.mem_cons_self ..)
    dsimp only at h0 hs0
    rw [parseLoop, parseEntry_eq (hr.sub (le_refl _) (by omega)), if_neg h0, hs0]
    simp only [Bool.false_eq_true, if_false, ok_bind]
    set s' := s.setWork ((s.work.setSeen (tset s.work.seen (s.mem.read a) true)).setFreq
      (tset s.work.freq (s.mem.read a)
        (BitVec.ofNat 32 (leValue (s.mem.readRange (a + 1) 4))))) with hs'
    have := ih (a := a + 5) (s := s') (hr.sub (by omega) (by omega))
      ⟨fun e he => hnz e (List.mem_cons_of_mem _ he), hnd.2⟩ (by
        intro e he
        rw [hs', State.setWork_work, Work.setFreq_seen, Work.setSeen_seen, tget_tset, if_neg]
        · exact hseen e (List.mem_cons_of_mem _ he)
        · intro h
          exact hnd.1 (List.mem_map.2 ⟨e, he, h⟩))
    rw [show a + Config.entrySize = a + 5 from rfl, this]
    rfl

theorem parseTable_eq {k : Nat} {s : State} (hk : k ≤ 256) (hl : 30 + 5 * k ≤ s.srclen)
    (hr : Reachable s.par (s.src + 30) (5 * k)) (hok : tableOk (storedEntries s.mem (s.src + 30) k)) :
    ∃ t seen, parseTable k s = .ok (s.setWork ((s.work.setSeen seen).setFreq t)) ∧
      IsTableOf t (storedEntries s.mem (s.src + 30) k) := by
  refine ⟨_, setSeens (Vector.replicate 256 false) (storedEntries s.mem (s.src + 30) k), ?_,
    setFreqs_isTable hok⟩
  rw [parseTable, if_neg (by rw [show Config.alphabet = 256 from rfl]; omega),
    if_neg (by rw [show Config.hdrSize = 30 from rfl, show Config.entrySize = 5 from rfl]; omega),
    parseLoop_eq (s := s.setWork ((s.work.setFreq (Vector.replicate 256 0)).setSeen
      (Vector.replicate 256 false))) hr hok (by simp [tget_replicate])]
  rfl

/-- The first entry that is not acceptable ends the command (R306, R404). -/
theorem parseLoop_bad {k a : Nat} {s : State} (hr : Reachable s.par a (5 * k))
    (j : Nat) (e : Byte × Word32) (hj : (storedEntries s.mem a k)[j]? = some e)
    (hok : tableOk ((storedEntries s.mem a k).take j))
    (hseen : ∀ e ∈ (storedEntries s.mem a k).take j, tget s.work.seen e.1 = false)
    (hbad : e.2 = 0 ∨ e.1 ∈ ((storedEntries s.mem a k).take j).map Prod.fst ∨
      tget s.work.seen e.1 = true) :
    ∃ w, parseLoop a k s =
      .error (.raised ⟨.format, if e.2 = 0 then 7 else 8⟩ (s.setWork w)) := by
  induction k generalizing a s j with
  | zero => simp [storedEntries] at hj
  | succ k ih =>
    rw [storedEntries] at hj hok hseen hbad
    rw [parseLoop, parseEntry_eq (hr.sub (le_refl _) (by omega))]
    cases j with
    | zero =>
      simp only [List.getElem?_cons_zero, Option.some.injEq] at hj
      subst hj
      simp only [List.take_zero, List.map_nil, List.not_mem_nil, false_or] at hbad
      by_cases h0 : BitVec.ofNat 32 (leValue (s.mem.readRange (a + 1) 4)) = (0 : Word32)
      · exact ⟨s.work, by rw [if_pos h0, if_pos h0]; rfl⟩
      · have hs := hbad.resolve_left h0
        exact ⟨s.work, by rw [if_neg h0, if_neg h0, if_pos hs]; rfl⟩
    | succ j =>
      simp only [List.getElem?_cons_succ, List.take_succ_cons, List.map_cons, List.mem_cons,
        forall_eq_or_imp] at hj hok hseen hbad
      obtain ⟨hnz, hnd⟩ := hok
      rw [List.map_cons, List.nodup_cons] at hnd
      have h0 := hnz _ (List.mem_cons_self ..)
      dsimp only at h0
      rw [if_neg h0, hseen.1]
      simp only [Bool.false_eq_true, if_false, ok_bind]
      set s' := s.setWork ((s.work.setSeen (tset s.work.seen (s.mem.read a) true)).setFreq
        (tset s.work.freq (s.mem.read a)
          (BitVec.ofNat 32 (leValue (s.mem.readRange (a + 1) 4))))) with hs'
      have hseen' : ∀ b, tget s'.work.seen b = if b = s.mem.read a then true else tget s.work.seen b :=
        fun b => by simp [hs', tget_tset]
      obtain ⟨w, hw⟩ := ih (a := a + 5) (s := s') (hr.sub (by omega) (by omega)) j hj
        ⟨fun e he => hnz e (List.mem_cons_of_mem _ he), hnd.2⟩ (by
          intro e he
          rw [hseen', if_neg (fun h => hnd.1 (List.mem_map.2 ⟨e, he, h⟩))]
          exact hseen.2 e he) (by
          rw [hseen']
          rcases hbad with h | (h | h) | h
          · exact .inl h
          · exact .inr (.inr (by rw [if_pos h]))
          · exact .inr (.inl h)
          · refine .inr (.inr ?_)
            split_ifs <;> simp [h])
      exact ⟨w, hw⟩

/-! ### The stream and the walk (R221, R311) -/

theorem streamBits_append (m : Memory) (base k n j : Nat) :
    streamBits m base k (n + j) = streamBits m base k n ++ streamBits m base (k + n) j := by
  induction n generalizing k with
  | zero => simp [streamBits]
  | succ n ih =>
    rw [Nat.add_right_comm, streamBits, ih, streamBits, List.cons_append,
      show k + 1 + n = k + (n + 1) by omega]

@[simp] theorem streamBits_length (m : Memory) (base k n : Nat) :
    (streamBits m base k n).length = n := by
  induction n generalizing k with
  | zero => rfl
  | succ n ih => simp [streamBits, ih]

/-- A write outside the payload's bytes leaves the stream as it is. -/
theorem streamBits_congr {m m' : Memory} {base k n : Nat}
    (h : ∀ x, base ≤ x → x < base + (k + n + 7) / 8 → m'.read x = m.read x) :
    streamBits m' base k n = streamBits m base k n := by
  induction n generalizing k with
  | zero => rfl
  | succ n ih =>
    rw [streamBits, streamBits, h _ (by omega) (by omega),
      ih fun x h1 h2 => h x h1 (by omega)]

/-- The walker in the middle of its work. -/
def walkAt (s : State) (base len : Nat) (m : Memory) (pos node emit : Nat) : State :=
  (s.setMem m).setWork ((s.work.setUp ⟨base, pos, len⟩).setWk ⟨node, emit⟩)

section Walk
variable {s : State} {base len orig : Nat} {m : Memory} {pos i emit r n : Nat}

theorem walkAt_read (hacc : accessible s.par (base + pos / 8)) (hpos : pos < len) :
    upReadBit (walkAt s base len m pos i emit) =
      .ok (some ((m.read (base + pos / 8)).getLsbD (7 - pos % 8)),
        walkAt s base len m (pos + 1) i emit) := by
  have hne : (walkAt s base len m pos i emit).work.up.pos ≠
      (walkAt s base len m pos i emit).work.up.len := by
    show pos ≠ len
    omega
  rw [upReadBit_eq hne hacc]
  rfl

/-- Reading a code from a node walks to its leaf, emits the symbol and goes back to the root. -/
theorem walkLoop_code {u : Tree} {c : Bits} {sym : Byte} (hroot : s.work.root = some r)
    (hu : IsTree s.work.nodes i u) (hc : (sym, c) ∈ u.paths []) (hc0 : c ≠ [])
    (hstream : streamBits m base pos c.length = c)
    (hpos : pos + c.length ≤ len) (hacc : Reachable s.par base ((len + 7) / 8))
    (hdst : accessible s.par (s.dst + emit)) (hemit : emit < orig) :
    walkLoop orig (c.length + n) (walkAt s base len m pos i emit) =
      (walkLoop orig n (walkAt s base len (m.write (s.dst + emit) sym) (pos + c.length) r (emit + 1))
        >>= fun p => .ok (sym :: p.1, p.2)) := by
  induction c generalizing i u pos with
  | nil => exact absurd rfl hc0
  | cons b c ih =>
    rw [List.length_cons] at hpos
    rw [List.length_cons, streamBits, List.cons.injEq] at hstream
    cases hu with
    | leaf h => simp [Tree.paths] at hc
    | node h hl hr htl htr =>
      rename_i l r' tl tr
      have hbit := walkAt_read (s := s) (base := base) (len := len) (m := m) (pos := pos) (i := i)
        (emit := emit) (hacc _ (by omega) (by omega)) (by omega)
      rw [hstream.1] at hbit
      rw [List.length_cons, Nat.add_right_comm, walkLoop, if_pos (show (walkAt s base len m pos i emit).work.wk.emit < orig from hemit), hbit,
        ok_bind]
      simp only []
      -- the child that the bit selects
      obtain ⟨ch, hch, hsub⟩ : ∃ ch : Tree, IsTree s.work.nodes (if b then r' else l) ch ∧
          (sym, c) ∈ ch.paths [] := by
        rcases Tree.paths_head_node hc with ⟨d, hd, he⟩ | ⟨d, hd, he⟩
        · simp only [Prod.mk.injEq, List.cons.injEq] at he
          obtain ⟨rfl, rfl, rfl⟩ := he
          exact ⟨tl, htl, hd⟩
        · simp only [Prod.mk.injEq, List.cons.injEq] at he
          obtain ⟨rfl, rfl, rfl⟩ := he
          exact ⟨tr, htr, hd⟩
      have hnode : (walkAt s base len m (pos + 1) i emit).work.nodes[
          (walkAt s base len m (pos + 1) i emit).work.wk.node]? =
          some (.internal (tl.freq + tr.freq) l r') := h
      rw [walkBit, hnode]
      simp only []
      cases hch with
      | leaf hleaf =>
        simp only [Tree.paths, List.mem_singleton, Prod.mk.injEq] at hsub
        obtain ⟨rfl, rfl⟩ := hsub
        have hleaf' : (walkAt s base len m (pos + 1) i emit).work.nodes[if b then r' else l]? =
            some (.leaf sym _) := hleaf
        rw [hleaf']
        simp only [emitSymbol]
        have hst := storeByte_eq_ok (s := walkAt s base len m (pos + 1) i emit) (a := s.dst + emit)
          (b := sym) (t := walkAt s base len (m.write (s.dst + emit) sym) (pos + 1) i emit)
        have hst' := hst.2 ⟨hdst, rfl⟩
        simp only [show (walkAt s base len m (pos + 1) i emit).dst +
          (walkAt s base len m (pos + 1) i emit).work.wk.emit = s.dst + emit from rfl, hst', ok_bind]
        have hr0 : ((walkAt s base len (m.write (s.dst + emit) sym) (pos + 1) i emit).setWk
            { (walkAt s base len (m.write (s.dst + emit) sym) (pos + 1) i emit).work.wk with
              emit := (walkAt s base len (m.write (s.dst + emit) sym) (pos + 1) i
                emit).work.wk.emit + 1 }).work.root = some r := hroot
        simp only [pure, Except.pure, ok_bind, hr0, List.length_nil, Nat.zero_add]
        rfl
      | node h2 hl2 hr2 htl2 htr2 =>
        have h2' : (walkAt s base len m (pos + 1) i emit).work.nodes[if b then r' else l]? = some _ := h2
        rw [h2']
        simp only [ok_bind]
        have hc1 : c ≠ [] := by
          rintro rfl
          rcases Tree.paths_head_node hsub with ⟨d, hd, he⟩ | ⟨d, hd, he⟩ <;> simp at he
        have := ih (i := if b then r' else l) (.node h2 hl2 hr2 htl2 htr2) hsub hc1
          (pos := pos + 1) hstream.2 (by omega)
        rw [show ((walkAt s base len m (pos + 1) i emit).setWk
          { (walkAt s base len m (pos + 1) i emit).work.wk with node := if b then r' else l }) =
            walkAt s base len m (pos + 1) (if b then r' else l) emit from rfl, this]
        rw [show pos + 1 + c.length = pos + (c.length + 1) by omega]
        generalize walkLoop orig n _ = x
        rcases x with e | ⟨out, t⟩ <;> rfl

/-- With every symbol emitted the loop ends, whatever bits are left. -/
theorem walkLoop_done (h : orig ≤ emit) :
    walkLoop orig n (walkAt s base len m pos i emit) = .ok ([], walkAt s base len m pos i emit) := by
  have hne : ¬ (walkAt s base len m pos i emit).work.wk.emit < orig := Nat.not_lt.2 h
  cases n with
  | zero => rw [walkLoop, if_neg hne]
  | succ n => rw [walkLoop, if_neg hne]

/-- A stream that ends inside a code, or before any, with symbols still to come (R311). -/
theorem walkLoop_short {u : Tree} {p c : Bits} {sym : Byte}
    (hu : IsTree s.work.nodes i u) (hc : (sym, p ++ c) ∈ u.paths []) (hc0 : c ≠ [])
    (hstream : streamBits m base pos p.length = p)
    (hpos : pos + p.length ≤ len) (hacc : Reachable s.par base ((len + 7) / 8))
    (hemit : emit < orig) :
    ∃ j, walkLoop orig p.length (walkAt s base len m pos i emit) =
      throwCorrupt .corruptStream 1 orig (walkAt s base len m (pos + p.length) j emit) := by
  induction p generalizing i u pos with
  | nil =>
    refine ⟨i, ?_⟩
    rw [List.length_nil, walkLoop, if_pos (show (walkAt s base len m pos i emit).work.wk.emit < orig
      from hemit)]
    rfl
  | cons b p ih =>
    rw [List.length_cons] at hpos
    rw [List.length_cons, streamBits, List.cons.injEq] at hstream
    cases hu with
    | leaf h => simp [Tree.paths] at hc
    | node h hl hr htl htr =>
      rename_i l r' tl tr
      have hbit := walkAt_read (s := s) (base := base) (len := len) (m := m) (pos := pos) (i := i)
        (emit := emit) (hacc _ (by omega) (by omega)) (by omega)
      rw [hstream.1] at hbit
      rw [List.length_cons, walkLoop,
        if_pos (show (walkAt s base len m pos i emit).work.wk.emit < orig from hemit), hbit, ok_bind]
      simp only []
      obtain ⟨ch, hch, hsub⟩ : ∃ ch : Tree, IsTree s.work.nodes (if b then r' else l) ch ∧
          (sym, p ++ c) ∈ ch.paths [] := by
        rcases Tree.paths_head_node hc with ⟨d, hd, he⟩ | ⟨d, hd, he⟩
        · simp only [List.cons_append, Prod.mk.injEq, List.cons.injEq] at he
          obtain ⟨rfl, rfl, he⟩ := he
          exact ⟨tl, htl, he ▸ hd⟩
        · simp only [List.cons_append, Prod.mk.injEq, List.cons.injEq] at he
          obtain ⟨rfl, rfl, he⟩ := he
          exact ⟨tr, htr, he ▸ hd⟩
      have hnode : (walkAt s base len m (pos + 1) i emit).work.nodes[
          (walkAt s base len m (pos + 1) i emit).work.wk.node]? =
          some (.internal (tl.freq + tr.freq) l r') := h
      rw [walkBit, hnode]
      simp only []
      cases hch with
      | leaf hleaf => simp [Tree.paths, hc0] at hsub
      | node h2 hl2 hr2 htl2 htr2 =>
        have h2' : (walkAt s base len m (pos + 1) i emit).work.nodes[if b then r' else l]? = some _ := h2
        rw [h2']
        simp only [ok_bind]
        obtain ⟨j, hj⟩ := ih (i := if b then r' else l) (.node h2 hl2 hr2 htl2 htr2) hsub
          (pos := pos + 1) hstream.2 (by omega)
        refine ⟨j, ?_⟩
        rw [show ((walkAt s base len m (pos + 1) i emit).setWk
          { (walkAt s base len m (pos + 1) i emit).work.wk with node := if b then r' else l }) =
            walkAt s base len m (pos + 1) (if b then r' else l) emit from rfl, hj]
        rw [show pos + 1 + p.length = pos + (p.length + 1) by omega]
        rfl

/-- Reading the codes of a message emits the message. -/
theorem walkLoop_message {tl tr : Tree} {code : Table (Option Bits)} {out : List Byte}
    (hroot : s.work.root = some r) (ht : IsTree s.work.nodes r (.node tl tr)) (hm : m.wf)
    (hcode : ∀ b ∈ out, ∃ c, tget code b = some c ∧ (b, c) ∈ (Tree.node tl tr).paths [])
    (hstream : streamBits m base pos (messageBits code out).length = messageBits code out)
    (hpos : pos + (messageBits code out).length ≤ len)
    (hacc : Reachable s.par base ((len + 7) / 8)) (hdst : Reachable s.par s.dst orig)
    (hdis : ∀ x, base ≤ x → x < base + (len + 7) / 8 → x < s.dst ∨ s.dst + orig ≤ x)
    (hemit : emit + out.length ≤ orig) :
    walkLoop orig ((messageBits code out).length + n) (walkAt s base len m pos r emit) =
      (walkLoop orig n (walkAt s base len (m.writeRange (s.dst + emit) out)
        (pos + (messageBits code out).length) r (emit + out.length)) >>= fun p =>
          .ok (out ++ p.1, p.2)) := by
  induction out generalizing m pos emit with
  | nil =>
    rw [show messageBits code [] = [] from rfl]
    simp only [List.length_nil, Nat.zero_add, Memory.writeRange, Nat.add_zero, List.nil_append]
    generalize walkLoop orig n _ = x
    rcases x with e | ⟨out, t⟩ <;> rfl
  | cons b out ih =>
    obtain ⟨c, hcb, hc⟩ := hcode b (List.mem_cons_self ..)
    rw [messageBits_cons hcb, List.length_append] at hstream hpos ⊢
    rw [List.length_cons] at hemit
    rw [streamBits_append] at hstream
    obtain ⟨hs1, hs2⟩ := List.append_inj hstream (by simp)
    have hc0 : c ≠ [] := by
      rintro rfl
      rcases Tree.paths_head_node hc with ⟨d, hd, he⟩ | ⟨d, hd, he⟩ <;> simp at he
    rw [Nat.add_assoc, walkLoop_code hroot ht hc hc0 hs1 (by omega) hacc
      (hdst _ (by omega) (by omega)) (by omega)]
    rw [ih (m := m.write (s.dst + emit) b) (pos := pos + c.length) (emit := emit + 1)
      (Memory.write_wf hm) (fun b hb => hcode b (List.mem_cons_of_mem _ hb)) (by
        rw [streamBits_congr (m := m), hs2]
        intro x h1 h2
        refine Memory.read_write_other hm ?_
        have := hdis x h1 (by omega)
        omega) (by omega) (by omega)]
    rw [show s.dst + (emit + 1) = s.dst + emit + 1 by omega,
      show pos + c.length + (messageBits code out).length =
        pos + (c.length + (messageBits code out).length) by omega,
      show emit + 1 + out.length = emit + (b :: out).length by rw [List.length_cons]; omega]
    rw [Memory.writeRange]
    generalize walkLoop orig n _ = x
    rcases x with e | ⟨o, t⟩ <;> rfl

end Walk

/-- Before the walk begins. -/
theorem walk_start {s : State} {base len orig r : Nat} (hroot : s.work.root = some r) :
    walk base len orig s = (walkLoop orig len (walkAt s base len s.mem 0 r 0) >>= fun p =>
      if p.2.work.up.pos ≠ len then throwCorrupt .corruptStream 3 orig p.2 else .ok p) := by
  rw [walk, hroot]
  simp only []
  rw [show s.setWork ((upInit base len s.work).setWk ⟨r, 0⟩) = walkAt s base len s.mem 0 r 0 from rfl]
  rfl

section WalkEnds
variable {s : State} {base len orig r : Nat} {tl tr : Tree} {code : Table (Option Bits)}
  {out : List Byte}

/-- R311: a stream of exactly the codes of `orig` symbols decodes to them. -/
theorem walk_message (hroot : s.work.root = some r) (ht : IsTree s.work.nodes r (.node tl tr))
    (hm : s.mem.wf)
    (hcode : ∀ b ∈ out, ∃ c, tget code b = some c ∧ (b, c) ∈ (Tree.node tl tr).paths [])
    (hstream : streamBits s.mem base 0 len = messageBits code out)
    (hacc : Reachable s.par base ((len + 7) / 8)) (hdst : Reachable s.par s.dst orig)
    (hdis : ∀ x, base ≤ x → x < base + (len + 7) / 8 → x < s.dst ∨ s.dst + orig ≤ x)
    (hout : out.length = orig) :
    walk base len orig s =
      .ok (out, walkAt s base len (s.mem.writeRange s.dst out) len r orig) := by
  have hl : (messageBits code out).length = len := by rw [← hstream, streamBits_length]
  have h := walkLoop_message (n := 0) (emit := 0) (pos := 0) hroot ht hm hcode
    (by rw [hl, hstream]) (by omega) hacc hdst hdis (by omega)
  rw [hl, Nat.add_zero len] at h
  rw [walk_start hroot, h, walkLoop_done (by omega)]
  simp only [ok_bind, List.append_nil, Nat.zero_add, Nat.add_zero, hout]
  rw [if_neg]
  simp [walkAt]

/-- R311: bits left over that are not padding. -/
theorem walk_trailing {rest : Bits} (hroot : s.work.root = some r)
    (ht : IsTree s.work.nodes r (.node tl tr)) (hm : s.mem.wf)
    (hcode : ∀ b ∈ out, ∃ c, tget code b = some c ∧ (b, c) ∈ (Tree.node tl tr).paths [])
    (hstream : streamBits s.mem base 0 len = messageBits code out ++ rest) (hrest : rest ≠ [])
    (hacc : Reachable s.par base ((len + 7) / 8)) (hdst : Reachable s.par s.dst orig)
    (hdis : ∀ x, base ≤ x → x < base + (len + 7) / 8 → x < s.dst ∨ s.dst + orig ≤ x)
    (hout : out.length = orig) :
    walk base len orig s = throwCorrupt .corruptStream 3 orig
      (walkAt s base len (s.mem.writeRange s.dst out) (messageBits code out).length r orig) := by
  have hl : (messageBits code out).length + rest.length = len := by
    rw [← List.length_append, ← hstream, streamBits_length]
  have hrl := List.length_pos_of_ne_nil hrest
  have h := walkLoop_message (n := rest.length) (emit := 0) (pos := 0) hroot ht hm hcode
    (by
      rw [← hl, streamBits_append] at hstream
      exact (List.append_inj hstream (by simp)).1) (by omega) hacc hdst hdis (by omega)
  rw [hl] at h
  rw [walk_start hroot, h, walkLoop_done (by omega)]
  simp only [ok_bind, List.append_nil, Nat.zero_add, Nat.add_zero, hout]
  rw [if_pos]
  simp only [walkAt, State.setWork_work, Work.setWk_up, Work.setUp_up]
  omega

/-- R311: the stream ends before `orig` symbols. -/
theorem walk_short {p c : Bits} {sym : Byte} (hroot : s.work.root = some r)
    (ht : IsTree s.work.nodes r (.node tl tr)) (hm : s.mem.wf)
    (hcode : ∀ b ∈ out, ∃ c, tget code b = some c ∧ (b, c) ∈ (Tree.node tl tr).paths [])
    (hstream : streamBits s.mem base 0 len = messageBits code out ++ p)
    (hp : (sym, p ++ c) ∈ (Tree.node tl tr).paths []) (hc0 : c ≠ [])
    (hacc : Reachable s.par base ((len + 7) / 8)) (hdst : Reachable s.par s.dst orig)
    (hdis : ∀ x, base ≤ x → x < base + (len + 7) / 8 → x < s.dst ∨ s.dst + orig ≤ x)
    (hout : out.length < orig) :
    ∃ j, walk base len orig s = throwCorrupt .corruptStream 1 orig
      (walkAt s base len (s.mem.writeRange s.dst out) len j out.length) := by
  have hl : (messageBits code out).length + p.length = len := by
    rw [← List.length_append, ← hstream, streamBits_length]
  have hstr := hstream
  rw [← hl, streamBits_append] at hstr
  obtain ⟨hs1, hs2⟩ := List.append_inj hstr (by simp)
  have h := walkLoop_message (n := p.length) (emit := 0) (pos := 0) hroot ht hm hcode
    hs1 (by omega) hacc hdst hdis (by omega)
  obtain ⟨j, hj⟩ := walkLoop_short (s := s) (base := base) (len := len) (orig := orig)
    (m := s.mem.writeRange s.dst out) (pos := 0 + (messageBits code out).length) (i := r)
    (emit := out.length) ht hp hc0 (by
      rw [streamBits_congr (m := s.mem), hs2]
      intro x h1 h2
      refine Memory.read_writeRange_outside hm ?_
      have := hdis x h1 (by omega)
      omega) (by omega) hacc hout
  rw [hl] at h
  refine ⟨j, ?_⟩
  rw [walk_start hroot, h]
  simp only [Nat.zero_add, Nat.add_zero] at hj ⊢
  rw [hj, hl]
  rfl

end WalkEnds

/-- Every bit string is a run of codes and a part of one more code (R185: the code is complete). -/
theorem Tree.run (tl tr : Tree) (bits : Bits) : ∃ (es : List (Byte × Bits)) (p c : Bits) (sym : Byte),
    (∀ e ∈ es, e ∈ (Tree.node tl tr).paths []) ∧ bits = es.flatMap Prod.snd ++ p ∧
    (sym, p ++ c) ∈ (Tree.node tl tr).paths [] ∧ c ≠ [] := by
  -- one code, or a part of one, from a subtree
  have one : ∀ (u : Tree) (bits : Bits), (∃ e ∈ u.paths [], ∃ rest, bits = e.2 ++ rest) ∨
      ∃ sym c, c ≠ [] ∧ (sym, bits ++ c) ∈ u.paths [] := by
    intro u
    induction u with
    | leaf s f => intro bits; exact .inl ⟨(s, []), by simp [Tree.paths], bits, by simp⟩
    | node l r ihl ihr =>
      intro bits
      have key : ∀ (b : Bool) (e : Byte × Bits), e ∈ (if b then r else l).paths [] →
          (e.1, b :: e.2) ∈ (Tree.node l r).paths [] := by
        intro b e he
        rw [Tree.paths, Tree.paths_append l, Tree.paths_append r, List.mem_append, List.mem_map,
          List.mem_map]
        cases b
        · exact .inl ⟨e, he, by simp⟩
        · exact .inr ⟨e, he, by simp⟩
      cases bits with
      | nil =>
        obtain ⟨e, he⟩ : ∃ e, e ∈ l.paths [] := by
          have := l.leaves_length_pos
          have h2 := congrArg List.length (l.paths_syms [])
          simp only [List.length_map] at h2
          exact List.exists_mem_of_length_pos (by omega)
        exact .inr ⟨e.1, false :: e.2, by simp, key false e he⟩
      | cons b bits =>
        have ih : (∃ e ∈ (if b then r else l).paths [], ∃ rest, bits = e.2 ++ rest) ∨
            ∃ sym c, c ≠ [] ∧ (sym, bits ++ c) ∈ (if b then r else l).paths [] := by
          cases b
          · exact ihl bits
          · exact ihr bits
        rcases ih with ⟨e, he, rest, rfl⟩ | ⟨sym, c, hc, h⟩
        · exact .inl ⟨_, key b e he, rest, by simp⟩
        · exact .inr ⟨sym, c, hc, key b _ h⟩
  induction hn : bits.length using Nat.strong_induction_on generalizing bits with
  | _ n ih =>
    rcases one (.node tl tr) bits with ⟨e, he, rest, rfl⟩ | ⟨sym, c, hc, h⟩
    · have he0 : e.2 ≠ [] := by
        intro h0
        rcases Tree.paths_head_node he with ⟨d, -, rfl⟩ | ⟨d, -, rfl⟩ <;> simp at h0
      have := List.length_pos_of_ne_nil he0
      rw [List.length_append] at hn
      obtain ⟨es, p, c, sym, hes, hr, hp, hc⟩ := ih rest.length (by omega) rest rfl
      refine ⟨e :: es, p, c, sym, ?_, ?_, hp, hc⟩
      · intro d hd
        rcases List.mem_cons.1 hd with rfl | hd
        · exact he
        · exact hes d hd
      · rw [List.flatMap_cons, List.append_assoc, ← hr]
    · exact ⟨[], bits, c, sym, by simp, by simp, h, hc⟩

end Sys2Proof.Machine
end

