-- ==== Sys2Proof/Laws/DecodeCommand.lean ====
section
/-! SUPPORT. The DECODE command: what it does with a container, and that it ends. -/

namespace Sys2Proof.Machine

/-! ### A single leaf (R310) -/

theorem fillLoop_eq {n : Nat} {sym : Byte} {s : State}
    (hr : Reachable s.par (s.dst + s.work.wk.emit) n) :
    fillLoop sym n s = .ok (List.replicate n sym,
      (s.setMem (s.mem.writeRange (s.dst + s.work.wk.emit) (List.replicate n sym))).setWk
        { s.work.wk with emit := s.work.wk.emit + n }) := by
  induction n generalizing s with
  | zero => rfl
  | succ n ih =>
    rw [fillLoop, emitSymbol, storeByte_eq_ok.2 ⟨hr.head, rfl⟩]
    simp only [ok_bind, pure, Except.pure]
    set s' := (s.setMem (s.mem.write (s.dst + s.work.wk.emit) sym)).setWk
      { s.work.wk with emit := s.work.wk.emit + 1 } with hs'
    have h1 : s'.dst + s'.work.wk.emit = s.dst + s.work.wk.emit + 1 := rfl
    have := ih (s := s') (by rw [h1]; exact hr.tail)
    rw [h1] at this
    rw [show ((s.setMem (s.mem.write (s.dst + s.work.wk.emit) sym)).setWk
      { (s.setMem (s.mem.write (s.dst + s.work.wk.emit) sym)).work.wk with
        emit := (s.setMem (s.mem.write (s.dst + s.work.wk.emit) sym)).work.wk.emit + 1 }) = s' from rfl,
      this]
    simp only [ok_bind, List.replicate_succ, Memory.writeRange]
    rw [show s'.work.wk.emit + n = s.work.wk.emit + (n + 1) by
      show s.work.wk.emit + 1 + n = _; omega]
    rfl

/-! ### The walk ends on every stream -/

/-- The codes of a root that is an internal node, as a table. -/
theorem node_code {w : Work} {tl tr : Tree}
    (hl : (Tree.node tl tr).leaves.Perm (countedLeaves w.freq)) :
    ∀ e ∈ (Tree.node tl tr).paths [],
      tget (setCodes (Vector.replicate 256 none) (Tree.node tl tr).codes) e.1 = some e.2 := by
  intro e he
  refine tget_setCodes_of_mem ?_ he
  rw [Tree.codes_syms, (hl.map Prod.fst).nodup_iff]
  simpa [countedLeaves, Function.comp_def] using counted_syms_nodup w.freq

/-- R311 answers the message whose codes are the stream, or raises CORRUPT_STREAM(1) or (3); the output
lies in `[dst, dst + orig)`. -/
theorem walk_ends {s : State} {base len orig r : Nat} {tl tr : Tree}
    (hroot : s.work.root = some r) (ht : IsTree s.work.nodes r (.node tl tr)) (hm : s.mem.wf)
    (hl : (Tree.node tl tr).leaves.Perm (countedLeaves s.work.freq))
    (hacc : Reachable s.par base ((len + 7) / 8)) (hdst : Reachable s.par s.dst orig)
    (hdis : ∀ x, base ≤ x → x < base + (len + 7) / 8 → x < s.dst ∨ s.dst + orig ≤ x) :
    ∃ out pos node, out.length ≤ orig ∧
      (walk base len orig s = .ok (out, walkAt s base len (s.mem.writeRange s.dst out) pos node out.length)
          ∧ out.length = orig ∨
       ∃ d, (d = 1 ∨ d = 3) ∧ walk base len orig s = throwCorrupt .corruptStream d orig
          (walkAt s base len (s.mem.writeRange s.dst out) pos node out.length)) := by
  obtain ⟨es, p, c, sym, hes, hbits, hp, hc0⟩ := Tree.run tl tr (streamBits s.mem base 0 len)
  set code := setCodes (Vector.replicate 256 none) (Tree.node tl tr).codes with hcode
  have htab := node_code hl
  have hmsg : ∀ ds : List (Byte × Bits), (∀ e ∈ ds, e ∈ (Tree.node tl tr).paths []) →
      messageBits code (ds.map Prod.fst) = ds.flatMap Prod.snd := by
    intro ds hds
    induction ds with
    | nil => rfl
    | cons d ds ih =>
      rw [List.map_cons, messageBits_cons (htab d (hds d (List.mem_cons_self ..))),
        ih fun e he => hds e (List.mem_cons_of_mem _ he), List.flatMap_cons]
  have hcoded : ∀ ds : List (Byte × Bits), (∀ e ∈ ds, e ∈ (Tree.node tl tr).paths []) →
      ∀ b ∈ ds.map Prod.fst, ∃ c, tget code b = some c ∧ (b, c) ∈ (Tree.node tl tr).paths [] := by
    intro ds hds b hb
    obtain ⟨e, he, rfl⟩ := List.mem_map.1 hb
    exact ⟨e.2, htab e (hds e he), hds e he⟩
  by_cases hlen : es.length < orig
  · obtain ⟨j, hj⟩ := walk_short (out := es.map Prod.fst) hroot ht hm (hcoded es hes)
      (by rw [hmsg es hes, hbits]) hp hc0 hacc hdst hdis (by simpa using hlen)
    exact ⟨_, _, _, by simpa using hlen.le, .inr ⟨1, .inl rfl, hj⟩⟩
  · have htake : ∀ e ∈ es.take orig, e ∈ (Tree.node tl tr).paths [] :=
      fun e he => hes e (List.mem_of_mem_take he)
    have hsplit : streamBits s.mem base 0 len =
        messageBits code ((es.take orig).map Prod.fst) ++ ((es.drop orig).flatMap Prod.snd ++ p) := by
      rw [hmsg _ htake, hbits, ← List.append_assoc, ← List.flatMap_append, List.take_append_drop]
    have hlt : ((es.take orig).map Prod.fst).length = orig := by
      rw [List.length_map, List.length_take]; omega
    by_cases hrest : (es.drop orig).flatMap Prod.snd ++ p = []
    · rw [hrest, List.append_nil] at hsplit
      refine ⟨_, len, r, hlt.le, .inl ⟨?_, hlt⟩⟩
      · rw [walk_message hroot ht hm (hcoded _ htake) hsplit hacc hdst hdis hlt, hlt]
    · refine ⟨_, (messageBits code ((es.take orig).map Prod.fst)).length, r, hlt.le,
        .inr ⟨3, .inr rfl, ?_⟩⟩
      · rw [walk_trailing hroot ht hm (hcoded _ htake) hsplit hrest hacc hdst hdis hlt, hlt]

/-! ### The command -/

section Command
variable {s : State}

/-- The state in which the output is emitted. -/
def decodedAt (s : State) (v : Work) : State :=
  (s.setRegs (setHeaderRegs (sourceHeader s) s.regs)).setWork v

theorem parse_ok (hc : containerOk s) (hsrc : Reachable s.par s.src s.srclen) :
    ∃ t seen, parseTable (sourceHeader s).entryCount.toNat
        (s.setRegs (setHeaderRegs (sourceHeader s) s.regs)) =
        .ok ((s.setRegs (setHeaderRegs (sourceHeader s) s.regs)).setWork
          ((s.work.setSeen seen).setFreq t)) ∧ IsTableOf t (sourceEntries s) := by
  obtain ⟨h30, hmag, hver, hpad, hk, hlen, hok, h11⟩ := hc
  rw [sourceEntries] at hok ⊢
  generalize sourceHeader s = h at *
  have h1 : Reachable s.par (s.src + 30) (5 * h.entryCount.toNat) :=
    hsrc.sub (by omega) (by omega)
  have h2 : 30 + 5 * h.entryCount.toNat ≤ s.srclen := by omega
  exact parseTable_eq (s := s.setRegs (setHeaderRegs h s.regs)) hk h2 h1 hok

/-- R300 on a container that passes R301 to R307. -/
theorem decodeCommand_parsed (hb : buffersOk s) (hc : containerOk s)
    (hsrc : Reachable s.par s.src s.srclen) :
    ∃ t seen v, IsTableOf t (sourceEntries s) ∧
      buildTree ((s.work.setSeen seen).setFreq t) = .ok v ∧
      decodeCommand s =
        if v.root = none ∧ (sourceHeader s).originalSize.toNat ≠ 0 then
          throwErr .format 12 (decodedAt s v)
        else if s.cap < (sourceHeader s).originalSize.toNat then throwErr .resource 1 (decodedAt s v)
        else emitOutput (sourcePayload s) (sourceL s) (sourceHeader s).originalSize.toNat (decodedAt s v)
          >>= fun p => verifyOutput p.1 (sourceHeader s).checksum
            (sourceHeader s).originalSize.toNat p.2 >>= fun u =>
              .ok (complete (sourceHeader s).originalSize.toNat u) := by
  obtain ⟨t, seen, hparse, htab⟩ := parse_ok hc hsrc
  obtain ⟨h30, hmag, hver, hpad, hk, hlen, hok, h11⟩ := hc
  obtain ⟨more, root, hbt, -⟩ := buildTree_eq ((s.work.setSeen seen).setFreq t)
  refine ⟨t, seen, _, htab, hbt, ?_⟩
  generalize (((((s.work.setSeen seen).setFreq t).setNodes
    ((counted ((s.work.setSeen seen).setFreq t).freq).map leafNode ++ more)).setPq _).setRoot root) = v
    at *
  have hrd := readHeader_eq (s := s) (hsrc.sub (le_refl _) (by omega))
  rw [show Header.ofBytes (s.mem.readRange s.src 30) = sourceHeader s from rfl] at hrd
  have hrun : decodeCommand s = (readHeader s >>= fun p => headerCheck p.1 p.2 >>= fun _ =>
      parseTable p.1.entryCount.toNat p.2 >>= fun u =>
      checkPayloadExtent p.1.entryCount.toNat p.1.compressedSize.toNat p.1.paddingBits.toNat u >>=
        fun len => onWork buildTree u >>= fun u =>
        if u.work.root = none ∧ p.1.originalSize.toNat ≠ 0 then throwErr .format 12 u
        else if u.cap < p.1.originalSize.toNat then throwErr .resource 1 u
        else emitOutput (u.src + 30 + 5 * p.1.entryCount.toNat) len p.1.originalSize.toNat u >>= fun q =>
          verifyOutput q.1 p.1.checksum p.1.originalSize.toNat q.2 >>= fun u =>
            .ok (complete p.1.originalSize.toNat u)) := by
    rw [decodeCommand, (checks_ok hb).1, ok_bind, (checks_ok hb).2, ok_bind,
      if_neg (show ¬ s.srclen < Config.hdrSize from Nat.not_lt.2 h30)]
    rfl
  rw [hrun, hrd, ok_bind]
  rw [sourceL, sourcePayload, decodedAt]
  generalize sourceHeader s = h at *
  have h1 : onWork buildTree ((s.setRegs (setHeaderRegs h s.regs)).setWork
      ((s.work.setSeen seen).setFreq t)) = .ok ((s.setRegs (setHeaderRegs h s.regs)).setWork v) :=
    onWork_eq_ok.2 ⟨v, hbt, rfl⟩
  have h2 : headerCheck h (s.setRegs (setHeaderRegs h s.regs)) = .ok () := by
    rw [headerCheck, if_neg (show ¬ h.magic ≠ (s.setRegs (setHeaderRegs h s.regs)).par.magic from
      not_not.2 hmag), if_neg (show ¬ h.version ≠ Config.formatVersion from not_not.2 hver),
      if_neg (by omega)]
  have h3 : checkPayloadExtent h.entryCount.toNat h.compressedSize.toNat h.paddingBits.toNat
      ((s.setRegs (setHeaderRegs h s.regs)).setWork ((s.work.setSeen seen).setFreq t)) =
      .ok (8 * h.compressedSize.toNat - h.paddingBits.toNat) := by
    have e : containerSize h.entryCount.toNat h.compressedSize.toNat = s.srclen := hlen.symm
    rw [checkPayloadExtent, e, State.setWork_srclen, State.setRegs_srclen, if_neg (lt_irrefl _),
      if_neg (lt_irrefl _), if_neg]
    rintro ⟨h0, hp⟩
    exact hp (by rw [h11 (BitVec.eq_of_toNat_eq h0)]; rfl)
  rw [h2, ok_bind, hparse, ok_bind, h3, ok_bind, h1, ok_bind]
  rfl

/-- The output of R308, R310 and R311 on what the build left: it is answered, or it is CORRUPT_STREAM;
it never has no step when its bytes are backed. -/
theorem emitOutput_ends {base len orig : Nat} {w : Work} (hm : s.mem.wf)
    (hacc : Reachable s.par base ((len + 7) / 8)) (hdst : Reachable s.par s.dst orig)
    (hdis : ∀ x, base ≤ x → x < base + (len + 7) / 8 → x < s.dst ∨ s.dst + orig ≤ x)
    (hv : buildTree w = .ok s.work) (hroot : s.work.root = none → orig = 0) :
    ∃ out w', out.length ≤ orig ∧
      (emitOutput base len orig s =
          .ok (out, (s.setWork w').setMem (s.mem.writeRange s.dst out)) ∧ out.length = orig ∨
       ∃ d, (d = 1 ∨ d = 3) ∧ emitOutput base len orig s =
          throwCorrupt .corruptStream d orig
            ((s.setWork w').setMem (s.mem.writeRange s.dst out))) := by
  obtain ⟨more, root, hb', hlen, hnone, htree⟩ := buildTree_eq w
  rw [hv] at hb'
  have hw := Except.ok.inj hb'
  have hvr : s.work.root = root := by rw [hw]; rfl
  have hvn : s.work.nodes = (counted w.freq).map leafNode ++ more := by rw [hw]; rfl
  have hvf : s.work.freq = w.freq := by rw [hw]; rfl
  clear hw hb'
  cases root with
  | none =>
    refine ⟨[], s.work, Nat.zero_le _, .inl ⟨?_, (hroot hvr).symm⟩⟩
    rw [emitOutput, hvr]
    rfl
  | some r =>
    obtain ⟨hr, t, ht, hl⟩ := htree r rfl
    rw [← hvn] at ht
    rw [← hvf] at hl
    rw [emitOutput, hvr]
    cases ht with
    | leaf h =>
      simp only [h]
      rename_i sym f
      have := fillLoop_eq (n := orig) (sym := sym) (s := s.setWk { s.work.wk with emit := 0 }) hdst
      refine ⟨List.replicate orig sym, s.work.setWk ⟨s.work.wk.node, 0 + orig⟩, by simp,
        .inl ⟨?_, by simp⟩⟩
      rw [this]
      rfl
    | node h hlr hrr htl htr =>
      simp only [h]
      obtain ⟨out, pos, node, hol, hw⟩ := walk_ends hvr (.node h hlr hrr htl htr) hm hl hacc hdst hdis
      refine ⟨out, (s.work.setUp ⟨base, pos, len⟩).setWk ⟨node, out.length⟩, hol, ?_⟩
      rcases hw with ⟨hw, h1⟩ | ⟨d, hd, hw⟩
      · exact .inl ⟨hw, h1⟩
      · exact .inr ⟨d, hd, hw⟩

/-- Verification of an output (R312). -/
theorem verifyOutput_eq {out : List Byte} {crc : Word32} {orig : Nat} (s : State) :
    verifyOutput out crc orig s =
      if s.latch.verify = true then
        (fun u : State => if refCrc32 out = crc then .ok u else throwCorrupt .checksumMismatch 1 orig u)
          ((s.setWork (crcRun out (crcInit s.work))).setRegs
            { s.regs with crcCalc := (refCrc32 out).zeroExtend 64 })
      else .ok (s.setRegs { s.regs with crcCalc := 0 }) := by
  rw [verifyOutput]
  simp only [State.setWork_work, crc_eq, State.setWork_regs]

end Command

end Sys2Proof.Machine
end

