-- ==== Sys2Proof/Laws/Keeps.lean ====
section
/-! SUPPORT. What every instruction keeps: the parameters, the host's registers and moves, and the
invariants of Safety.lean. -/

namespace Sys2Proof.Machine

/-- The invariants of the working state, memory and CRC_CALC together. -/
structure CoreOk (s : State) : Prop where
  mem : MemOk s
  crc : CrcCalcOk s
  pk : PackerOk s
  pq : QueueOk s

/-- The errors of R402 that a command can raise: all but CORRUPT_STREAM(2) (C10). -/
abbrev Err.legal (e : Err) : Prop := statusError e ∈ statusWords

/-- What an operation of the core keeps, as long as its command goes on. -/
structure Keeps (s t : State) : Prop where
  par : t.par = s.par
  host : t.regs.srcAddr = s.regs.srcAddr ∧ t.regs.srcLen = s.regs.srcLen ∧
    t.regs.dstAddr = s.regs.dstAddr ∧ t.regs.dstCap = s.regs.dstCap
  inbox : t.inbox = s.inbox
  observed : t.observed = s.observed
  busyLeft : t.busyLeft = s.busyLeft
  ok : CoreOk s → CoreOk t
  phase : t.phase = s.phase
  status : t.regs.status = s.regs.status
  stuck : t.stuck = s.stuck

theorem Keeps.refl (s : State) : Keeps s s := ⟨rfl, ⟨rfl, rfl, rfl, rfl⟩, rfl, rfl, rfl, id, rfl, rfl, rfl⟩

theorem Keeps.trans {s t u : State} (h : Keeps s t) (k : Keeps t u) : Keeps s u where
  par := k.par.trans h.par
  host := ⟨k.host.1.trans h.host.1, k.host.2.1.trans h.host.2.1, k.host.2.2.1.trans h.host.2.2.1,
    k.host.2.2.2.trans h.host.2.2.2⟩
  inbox := k.inbox.trans h.inbox
  observed := k.observed.trans h.observed
  busyLeft := k.busyLeft.trans h.busyLeft
  ok := k.ok ∘ h.ok
  phase := k.phase.trans h.phase
  status := k.status.trans h.status
  stuck := k.stuck.trans h.stuck

/-- What a command that succeeds does last: complete, in a state that keeps all this. -/
def Ends (s t : State) : Prop := ∃ u len, Keeps s u ∧ t = complete len u

/-- How an operation stops its command, in a state that keeps all this: with a listed error, or stuck at a
byte that exists and is not backed. -/
abbrev Stops (s : State) : Halt → Prop
  | .raised e t => Keeps s t ∧ e.legal
  | .stuck a t => Keeps s t ∧ noBacking s.par a
  | .fault _ => True

theorem Stops.after {s t : State} (h : Keeps s t) (x : Halt) (hx : Stops t x) : Stops s x := by
  cases x with
  | raised e u => exact ⟨h.trans hx.1, hx.2⟩
  | stuck a u => exact ⟨h.trans hx.1, h.par ▸ hx.2⟩
  | fault f => trivial

/-- The core stuck in the state before the access. -/
theorem stops_stuck {s : State} {a : Nat} (h : noBacking s.par a) : Stops s (.stuck a s) :=
  ⟨Keeps.refl s, h⟩

/-- How an operation of the core ends: what it keeps, and that an error it raises is a listed one. -/
abbrev KeepsPost (s : State) (x : Except Halt State) : Prop := Post (Keeps s) (Stops s) x

theorem KeepsPost.bind {s : State} {x : Except Halt State} {f : State → Except Halt State}
    (hx : KeepsPost s x) (hf : ∀ t, KeepsPost t (f t)) : KeepsPost s (x >>= f) :=
  Post.bind hx fun t ht => (hf t).mono (fun _ hu => ht.trans hu) (Stops.after ht)

/-- What an operation keeps after an update that keeps it too. -/
theorem KeepsPost.after {s t : State} {x : Except Halt State} (h : Keeps s t) (hx : KeepsPost t x) :
    KeepsPost s x :=
  Post.mono hx (fun _ hu => h.trans hu) (Stops.after h)

theorem KeepsPost.pure {s t : State} (h : Keeps s t) : KeepsPost s (.ok t) := h

/-- How a command ends: complete, with a listed error, or stuck. -/
abbrev EndsPost (s : State) (x : Except Halt State) : Prop := Post (Ends s) (Stops s) x

theorem EndsPost.after {s t : State} {x : Except Halt State} (h : Keeps s t) (hx : EndsPost t x) :
    EndsPost s x :=
  Post.mono hx (fun _ ⟨u, len, hu, hv⟩ => ⟨u, len, h.trans hu, hv⟩) (Stops.after h)

theorem KeepsPost.ends {s : State} {x : Except Halt State} {f : State → Except Halt State}
    (hx : KeepsPost s x) (hf : ∀ t, EndsPost t (f t)) : EndsPost s (x >>= f) :=
  Post.bind hx fun t ht => (hf t).after ht

/-! ### The pieces -/

theorem keeps_setWork {s : State} {w : Work} (h : CoreOk s → PackerOk (s.setWork w) ∧
    QueueOk (s.setWork w)) : Keeps s (s.setWork w) :=
  ⟨rfl, ⟨rfl, rfl, rfl, rfl⟩, rfl, rfl, rfl, fun hs => ⟨hs.mem, hs.crc, (h hs).1, (h hs).2⟩, rfl, rfl, rfl⟩

theorem keeps_write {s : State} {a : Nat} {b : Byte} (ha : accessible s.par a) :
    Keeps s (s.setMem (s.mem.write a b)) :=
  ⟨rfl, ⟨rfl, rfl, rfl, rfl⟩, rfl, rfl, rfl,
    fun hs => ⟨⟨Memory.write_wf hs.mem.1, Memory.write_below hs.mem.2 (accessible_iff.1 ha).1⟩, hs.crc,
      hs.pk, hs.pq⟩, rfl, rfl, rfl⟩

theorem keeps_scramble (s : State) (a n : Nat) : Keeps s (scramble s a n) :=
  ⟨rfl, ⟨rfl, rfl, rfl, rfl⟩, rfl, rfl, rfl,
    fun hs => ⟨⟨scramble_wf a n hs.mem.1, scramble_below a n hs.mem.2⟩, hs.crc, hs.pk, hs.pq⟩, rfl, rfl, rfl⟩

theorem keeps_storeByte (s : State) (a : Nat) (b : Byte) : KeepsPost s (storeByte s a b) :=
  (storeByte_post stops_stuck).mono (fun _ ⟨ha, ht⟩ => ht ▸ keeps_write ha) fun _ h => h

theorem keeps_storeBytes (bs : List Byte) (s : State) (a : Nat) : KeepsPost s (storeBytes s a bs) := by
  induction bs generalizing s a with
  | nil => exact Keeps.refl s
  | cons b bs ih => exact (keeps_storeByte s a b).bind fun t => ih t (a + 1)

theorem keeps_loadByte {α : Type} {Q : α → Prop} {s : State} {a : Nat} {f : Byte → Except Halt α}
    (hf : ∀ b, Post Q (Stops s) (f b)) : Post Q (Stops s) (loadByte s a >>= f) :=
  (loadByte_post stops_stuck).bind fun b _ => hf b

theorem keeps_loadBytes {α : Type} {Q : α → Prop} {s : State} {a n : Nat}
    {f : List Byte → Except Halt α} (hf : ∀ bs, Post Q (Stops s) (f bs)) :
    Post Q (Stops s) (loadBytes s a n >>= f) :=
  (loadBytes_post fun _ => stops_stuck).bind fun bs _ => hf bs

theorem keeps_throwErr {k : ErrKind} {d : Byte} {s t : State} (h : statusError ⟨k, d⟩ ∈ statusWords)
    (ht : Keeps s t) : KeepsPost s (throwErr k d t) := ⟨ht, h⟩

theorem keeps_rangeCheck {Q : State → Prop} {s : State} {f : Unit → Except Halt State}
    (hf : Post Q (Stops s) (f ())) : Post Q (Stops s) (rangeCheck s >>= f) := by
  rw [rangeCheck]
  split_ifs
  · exact ⟨Keeps.refl s, by decide⟩
  · exact ⟨Keeps.refl s, by decide⟩
  · exact hf

theorem keeps_overlapCheck {Q : State → Prop} {s : State} {f : Unit → Except Halt State}
    (hf : Post Q (Stops s) (f ())) : Post Q (Stops s) (overlapCheck s >>= f) := by
  rw [overlapCheck]
  split_ifs
  · exact ⟨Keeps.refl s, by decide⟩
  · exact hf

/-! ### The priority queue and the tree -/

/-- The queue and the arena of a working state. -/
def WorkQueueOk (w : Work) : Prop :=
  w.pq.Pairwise (· < ·) ∧ (∀ i ∈ w.pq, i < w.nodes.length) ∧ w.pq.length ≤ 256 ∧ w.nodes.length ≤ 511

theorem WorkQueueOk.pqOk {w : Work} (h : WorkQueueOk w) : PqOk w := ⟨h.1, h.2.1, h.2.2.1⟩

theorem pqInsert_ok {i : Nat} {w v : Work} (hw : WorkQueueOk w) (h : pqInsert i w = .ok v) :
    WorkQueueOk v ∧ v.pk = w.pk := by
  have hk := pqInsert_keeps hw.pqOk h
  obtain ⟨-, -, -, rfl⟩ := pqInsert_eq_ok.1 h
  exact ⟨⟨hk.asc, hk.alloc, hk.cap, hw.2.2.2⟩, rfl⟩

theorem pqExtractMin_ok {m : Nat} {w v : Work} (hw : WorkQueueOk w) (h : pqExtractMin w = .ok (m, v)) :
    WorkQueueOk v ∧ v.pk = w.pk := by
  have hk := pqExtractMin_keeps hw.pqOk h
  obtain ⟨-, -, -, rfl⟩ := pqExtractMin_eq_ok h
  exact ⟨⟨hk.asc, hk.alloc, hk.cap, hw.2.2.2⟩, rfl⟩

theorem allocNode_ok {n : Node} {w v : Work} (hw : WorkQueueOk w) (h : allocNode n w = .ok v) :
    WorkQueueOk v ∧ v.pk = w.pk := by
  obtain ⟨h1, rfl⟩ := allocNode_eq_ok.1 h
  refine ⟨⟨hw.1, fun i hi => ?_, hw.2.2.1, ?_⟩, rfl⟩
  · have := hw.2.1 i hi
    rw [Work.setNodes_nodes, List.length_append]
    omega
  · rw [Work.setNodes_nodes, List.length_append, List.length_singleton]
    omega

theorem mergeStep_ok {w v : Work} (hw : WorkQueueOk w) (h : mergeStep w = .ok v) :
    WorkQueueOk v ∧ v.pk = w.pk := by
  rw [mergeStep] at h
  obtain ⟨⟨a, w1⟩, h1, h⟩ := bind_eq_ok.1 h
  obtain ⟨⟨b, w2⟩, h2, h⟩ := bind_eq_ok.1 h
  obtain ⟨w3, h3, h4⟩ := bind_eq_ok.1 h
  obtain ⟨k1, e1⟩ := pqExtractMin_ok hw h1
  obtain ⟨k2, e2⟩ := pqExtractMin_ok k1 h2
  obtain ⟨k3, e3⟩ := allocNode_ok k2 h3
  obtain ⟨k4, e4⟩ := pqInsert_ok k3 h4
  exact ⟨k4, e4.trans (e3.trans (e2.trans e1))⟩

theorem mergeLoop_ok {n : Nat} {w v : Work} (hw : WorkQueueOk w) (h : mergeLoop n w = .ok v) :
    WorkQueueOk v ∧ v.pk = w.pk := by
  induction n generalizing w with
  | zero => cases h; exact ⟨hw, rfl⟩
  | succ n ih =>
    rw [mergeLoop] at h
    split_ifs at h
    · obtain ⟨u, h1, h2⟩ := bind_eq_ok.1 h
      obtain ⟨k1, e1⟩ := mergeStep_ok hw h1
      obtain ⟨k2, e2⟩ := ih k1 h2
      exact ⟨k2, e2.trans e1⟩
    · cases h
      exact ⟨hw, rfl⟩

theorem buildTreeMerges_ok {w v : Work} (hw : WorkQueueOk w) (h : buildTreeMerges w = .ok v) :
    WorkQueueOk v ∧ v.pk = w.pk := by
  rw [buildTreeMerges] at h
  obtain ⟨u, h1, h⟩ := bind_eq_ok.1 h
  obtain ⟨⟨r, x⟩, h2, h⟩ := bind_eq_ok.1 h
  obtain ⟨k1, e1⟩ := mergeLoop_ok hw h1
  obtain ⟨k2, e2⟩ := pqExtractMin_ok k1 h2
  cases h
  exact ⟨k2, e2.trans e1⟩

theorem buildTreeLeaves_ok {w v : Work} (h : buildTreeLeaves w = .ok v) :
    WorkQueueOk v ∧ v.pk = w.pk := by
  rw [buildTreeLeaves_eq] at h
  cases h
  have := counted_length w.freq
  refine ⟨⟨?_, ?_, ?_, ?_⟩, rfl⟩
  · simpa using List.pairwise_lt_range
  · simp
  · simpa using this
  · simp only [Work.setRoot_nodes, Work.setPq_nodes, Work.setNodes_nodes, List.length_map]
    omega

theorem buildTree_ok {w v : Work} (h : buildTree w = .ok v) : WorkQueueOk v ∧ v.pk = w.pk := by
  rw [buildTree] at h
  obtain ⟨u, h1, h⟩ := bind_eq_ok.1 h
  obtain ⟨k1, e1⟩ := buildTreeLeaves_ok h1
  split_ifs at h
  · obtain ⟨k2, e2⟩ := buildTreeMerges_ok k1 h
    exact ⟨k2, e2.trans e1⟩
  · cases h
    exact ⟨k1, e1⟩

theorem generateCodes_ok {w v : Work} (h : generateCodes w = .ok v) : ∃ t, v = w.setCode t := by
  rw [generateCodes] at h
  split at h
  · cases h; exact ⟨_, rfl⟩
  · split at h
    · cases h
    · cases h; exact ⟨_, rfl⟩
    · obtain ⟨t, -, h⟩ := bind_eq_ok.1 h
      cases h
      exact ⟨t, rfl⟩

theorem keeps_onWork {f : Work → Except Fault Work} {s : State}
    (hf : ∀ v, f s.work = .ok v → WorkQueueOk s.work → WorkQueueOk v ∧ v.pk = s.work.pk) :
    KeepsPost s (onWork f s) := by
  refine onWork_post.mono ?_ fun _ h => h
  rintro t ⟨w, hw, rfl⟩
  refine keeps_setWork fun hs => ⟨?_, (hf w hw hs.pq).1⟩
  have := (hf w hw hs.pq).2
  show w.pk.cnt ≤ 7 ∧ w.pk.acc.toNat < 2 ^ w.pk.cnt
  rw [this]
  exact hs.pk

/-! ### The packer -/

theorem keeps_setPk {s : State} {x : Packer}
    (h : PackerOk s → x.cnt ≤ 7 ∧ x.acc.toNat < 2 ^ x.cnt) : Keeps s (s.setPk x) :=
  keeps_setWork fun hs => ⟨h hs.pk, hs.pq⟩

theorem shiftIn_lt {acc : Byte} {b : Bool} {n : Nat} (h : acc.toNat < 2 ^ n) :
    (shiftIn acc b).toNat < 2 ^ (n + 1) := by
  have h1 : (shiftIn acc b).toNat ≤ 2 * acc.toNat + b.toNat := by
    have key : ∀ (a : Byte) (b : Bool), (shiftIn a b).toNat ≤ 2 * a.toNat + b.toNat := by decide
    exact key acc b
  have : b.toNat ≤ 1 := by cases b <;> simp
  rw [pow_succ]
  omega

/-- The packer's state in the middle of a write: it holds up to eight bits. -/
theorem keeps_pkEmit (v : Byte) (s : State) : KeepsPost s (pkEmit v s) :=
  (keeps_storeByte _ _ v).bind fun _ => KeepsPost.pure (keeps_setPk fun h => h)

theorem pkEmit_post {v : Byte} {s : State} {R : Halt → Prop}
    (hR : noBacking s.par (s.work.pk.base + s.work.pk.out) →
      R (.stuck (s.work.pk.base + s.work.pk.out) s)) :
    Post (fun t => accessible s.par (s.work.pk.base + s.work.pk.out) ∧
      t = (s.setMem (s.mem.write (s.work.pk.base + s.work.pk.out) v)).setPk
        { s.work.pk with out := s.work.pk.out + 1 }) R (pkEmit v s) := by
  rw [pkEmit]
  refine (storeByte_post hR).bind fun t ⟨ha, ht⟩ => ?_
  subst ht
  exact ⟨ha, rfl⟩

theorem keeps_pkWriteBit (b : Bool) (s : State) : KeepsPost s (pkWriteBit b s) := by
  rw [pkWriteBit]
  dsimp only
  split_ifs with h
  · refine Post.bind (pkEmit_post stops_stuck) fun t ⟨ha, ht⟩ => ?_
    subst ht
    exact (keeps_write (s := s) (by exact ha)).trans (keeps_setPk (s := s.setMem _)
      (x := ⟨s.work.pk.base, 0, 0, s.work.pk.out + 1, s.work.pk.pad⟩) fun _ => by simp)
  · exact keeps_setPk fun hp => ⟨by have := hp.1; dsimp only; omega, shiftIn_lt hp.2⟩

theorem keeps_pkWriteBits (bits : Bits) (s : State) : KeepsPost s (pkWriteBits bits s) := by
  induction bits generalizing s with
  | nil => exact Keeps.refl s
  | cons b bs ih => exact (keeps_pkWriteBit b s).bind ih

theorem keeps_pkFlush (s : State) : KeepsPost s (pkFlush s) := by
  rw [pkFlush]
  split_ifs with h
  · refine Post.bind (pkEmit_post fun hb => ⟨keeps_setPk fun hp => hp, hb⟩) fun t ⟨ha, ht⟩ => ?_
    subst ht
    exact (keeps_write (s := s) (by exact ha)).trans (keeps_setPk (s := s.setMem _)
      (x := ⟨s.work.pk.base, 0, 0, s.work.pk.out + 1, 8 - s.work.pk.cnt⟩) fun _ => by simp)
  · exact keeps_setPk fun hp => hp

theorem keeps_pkInit (base : Nat) (s : State) : Keeps s (s.setWork (pkInit base s.work)) :=
  keeps_setPk (x := ⟨base, 0, 0, 0, 0⟩) fun _ => by simp

/-! ### ENCODE -/

theorem keeps_countByte (b : Byte) (s : State) : KeepsPost s (countByte b s) := by
  rw [countByte]
  split_ifs
  · exact ⟨Keeps.refl s, by decide⟩
  · exact keeps_setWork fun hs => ⟨hs.pk, hs.pq⟩

theorem keeps_countLoop (n a : Nat) (s : State) : KeepsPost s (countLoop a n s) := by
  induction n generalizing a s with
  | zero => exact Keeps.refl s
  | succ n ih => exact keeps_loadByte fun b => (keeps_countByte b s).bind fun t => ih (a + 1) t

theorem keeps_freqCount (a n : Nat) (s : State) : KeepsPost s (freqCount a n s) :=
  KeepsPost.bind (x := .ok (s.setWork (s.work.setFreq (Vector.replicate 256 0))))
    (keeps_setWork fun hs => ⟨hs.pk, hs.pq⟩) fun t => keeps_countLoop n a t

theorem keeps_writeTable (es : List (Byte × Word32)) (a : Nat) (s : State) :
    KeepsPost s (writeTable es a s) := by
  induction es generalizing a s with
  | nil => exact Keeps.refl s
  | cons e es ih => exact (keeps_storeBytes _ s a).bind fun t => ih _ t

theorem keeps_packLoop (n a : Nat) (s : State) : KeepsPost s (packLoop a n s) := by
  induction n generalizing a s with
  | zero => exact Keeps.refl s
  | succ n ih =>
    refine keeps_loadByte fun b => ?_
    split
    · exact trivial
    · exact (keeps_pkWriteBits _ s).bind fun t => ih (a + 1) t

theorem ends_complete {len : Nat} {s t : State} (h : Keeps s t) : Ends s (complete len t) := ⟨t, len, h, rfl⟩

theorem crc_fits (c : Word32) : (c.zeroExtend 64 : Word64).toNat < 2 ^ 32 := by
  have := c.isLt
  rw [BitVec.zeroExtend_eq_setWidth, BitVec.toNat_setWidth, Nat.mod_eq_of_lt (by omega)]
  exact this

theorem keeps_setRegs {s : State} {r : Regs} (hh : r.srcAddr = s.regs.srcAddr ∧
    r.srcLen = s.regs.srcLen ∧ r.dstAddr = s.regs.dstAddr ∧ r.dstCap = s.regs.dstCap)
    (hst : r.status = s.regs.status) (hc : CrcCalcOk s → r.crcCalc.toNat < 2 ^ 32) :
    Keeps s (s.setRegs r) :=
  ⟨rfl, hh, rfl, rfl, rfl, fun hs => ⟨hs.mem, hc hs.crc, hs.pk, hs.pq⟩, rfl, hst, rfl⟩

theorem keeps_writeContainer (cs : Word64) (crc : Word32) (k : BitVec 16) (pad : Byte) (s : State) :
    EndsPost s (writeContainer cs crc k pad s) := by
  refine (keeps_storeBytes _ s _).ends fun t => (keeps_writeTable _ _ t).ends fun u => ?_
  refine EndsPost.after (keeps_pkInit (u.dst + Config.hdrSize + Config.entrySize * k.toNat) u) ?_
  dsimp only
  refine (keeps_packLoop _ _ _).ends fun w => (keeps_pkFlush w).ends fun x => ?_
  exact ends_complete (keeps_setRegs (r := { setHeaderRegs (encodeHeader s cs crc k pad) x.regs with
    crcCalc := crc.zeroExtend 64 }) ⟨rfl, rfl, rfl, rfl⟩ rfl fun _ => crc_fits crc)

theorem keeps_crcRun (bs : List Byte) (s : State) : Keeps s (s.setWork (crcRun bs (crcInit s.work))) := by
  rw [crcRun_eq]
  exact keeps_setWork fun hs => ⟨hs.pk, hs.pq⟩

theorem keeps_buildTree (s : State) : KeepsPost s (onWork buildTree s) :=
  keeps_onWork fun _ h _ => buildTree_ok h

theorem keeps_generateCodes (s : State) : KeepsPost s (onWork generateCodes s) :=
  keeps_onWork fun _ h hq => by
    obtain ⟨t, rfl⟩ := generateCodes_ok h
    exact ⟨hq, rfl⟩

theorem keeps_encodeCommand (s : State) : EndsPost s (encodeCommand s) := by
  refine keeps_rangeCheck (keeps_overlapCheck ?_)
  refine (keeps_freqCount _ _ s).ends fun t => (keeps_buildTree t).ends fun u =>
    (keeps_generateCodes u).ends fun v => ?_
  dsimp only
  split_ifs
  · exact ⟨Keeps.refl v, by decide⟩
  · refine KeepsPost.ends (keeps_loadBytes fun bs => keeps_crcRun bs v) fun w => ?_
    exact keeps_writeContainer _ _ _ _ w

/-! ### DECODE -/

/-- What read_header keeps, with its second result. -/
theorem readHeader_post (s : State) : Post (fun p => Keeps s p.2) (Stops s) (readHeader s) :=
  (loadBytes_post fun _ => stops_stuck).bind fun _ _ => keeps_setRegs ⟨rfl, rfl, rfl, rfl⟩ rfl fun h => h

theorem keeps_parseEntry (a : Nat) (s : State) : KeepsPost s (parseEntry a s) := by
  refine keeps_loadByte fun sym => keeps_loadBytes fun bs => ?_
  dsimp only
  split_ifs
  · exact ⟨Keeps.refl s, by decide⟩
  · exact ⟨Keeps.refl s, by decide⟩
  · exact keeps_setWork fun hs => ⟨hs.pk, hs.pq⟩

theorem keeps_parseLoop (k a : Nat) (s : State) : KeepsPost s (parseLoop a k s) := by
  induction k generalizing a s with
  | zero => exact Keeps.refl s
  | succ k ih => exact (keeps_parseEntry a s).bind fun t => ih _ t

theorem keeps_parseTable (k : Nat) (s : State) : KeepsPost s (parseTable k s) := by
  rw [parseTable]
  split_ifs
  · exact ⟨Keeps.refl s, by decide⟩
  · exact ⟨Keeps.refl s, by decide⟩
  · exact KeepsPost.bind (x := .ok (s.setWork _)) (keeps_setWork fun hs => ⟨hs.pk, hs.pq⟩)
      fun t => keeps_parseLoop k _ t

theorem keeps_checkPayloadExtent {Q : State → Prop} {k cs pad : Nat} {s : State}
    {f : Nat → Except Halt State} (hf : ∀ n, Post Q (Stops s) (f n)) : Post Q (Stops s) (checkPayloadExtent k cs pad s >>= f) := by
  rw [checkPayloadExtent]
  split_ifs
  · exact ⟨Keeps.refl s, by decide⟩
  · exact ⟨Keeps.refl s, by decide⟩
  · exact ⟨Keeps.refl s, by decide⟩
  · exact hf _

theorem keeps_headerCheck {Q : State → Prop} {h : Header} {s : State} {f : Unit → Except Halt State}
    (hf : Post Q (Stops s) (f ())) : Post Q (Stops s) (headerCheck h s >>= f) := by
  rw [headerCheck]
  split_ifs
  · exact ⟨Keeps.refl s, by decide⟩
  · exact ⟨Keeps.refl s, by decide⟩
  · exact ⟨Keeps.refl s, by decide⟩
  · exact hf

/-- How an operation with a second result ends. -/
abbrev KeepsPost2 {α : Type} (s : State) (x : Except Halt (α × State)) : Prop :=
  Post (fun p => Keeps s p.2) (Stops s) x

theorem KeepsPost2.after {α : Type} {s t : State} {x : Except Halt (α × State)} (h : Keeps s t)
    (hx : KeepsPost2 t x) : KeepsPost2 s x :=
  Post.mono hx (fun _ hu => h.trans hu) (Stops.after h)

theorem KeepsPost2.bind {α β : Type} {s : State} {x : Except Halt (α × State)}
    {f : α × State → Except Halt (β × State)} (hx : KeepsPost2 s x)
    (hf : ∀ a t, KeepsPost2 t (f (a, t))) : KeepsPost2 s (x >>= f) :=
  Post.bind hx fun p hp => (hf p.1 p.2).mono (fun _ h => hp.trans h) (Stops.after hp)

theorem KeepsPost2.last {α : Type} {s : State} {x : Except Halt (α × State)}
    {f : α × State → Except Halt State} (hx : KeepsPost2 s x)
    (hf : ∀ a t, KeepsPost t (f (a, t))) : KeepsPost s (x >>= f) :=
  Post.bind hx fun p hp => (hf p.1 p.2).after hp

theorem KeepsPost2.ends {α : Type} {s : State} {x : Except Halt (α × State)}
    {f : α × State → Except Halt State} (hx : KeepsPost2 s x)
    (hf : ∀ a t, EndsPost t (f (a, t))) : EndsPost s (x >>= f) :=
  Post.bind hx fun p hp => (hf p.1 p.2).after hp

theorem keeps_throwCorrupt {α : Type} {k : ErrKind} {d : Byte} {orig : Nat} {s : State}
    {Q : α → Prop} (h : statusError ⟨k, d⟩ ∈ statusWords) :
    Post Q (Stops s) (throwCorrupt (α := α) k d orig s) :=
  ⟨keeps_scramble _ _ _, h⟩

theorem keeps_setWk {s : State} {x : Walker} : Keeps s (s.setWk x) :=
  keeps_setWork fun hs => ⟨hs.pk, hs.pq⟩

theorem keeps_emitSymbol (sym : Byte) (s : State) : KeepsPost s (emitSymbol sym s) :=
  (keeps_storeByte _ _ sym).bind fun _ => KeepsPost.pure keeps_setWk

theorem keeps_walkBit (b : Bool) (s : State) : KeepsPost2 s (walkBit b s) := by
  rw [walkBit]
  split
  · exact trivial
  · exact trivial
  · dsimp only
    split
    · exact trivial
    · exact keeps_setWk
    · refine Post.bind (keeps_emitSymbol _ s) fun t ht => ?_
      split
      · exact trivial
      · exact ht.trans keeps_setWk

theorem keeps_upReadBit (s : State) : KeepsPost2 s (upReadBit s) := by
  rw [upReadBit]
  split_ifs
  · exact Keeps.refl s
  · refine (loadByte_post stops_stuck).bind fun b _ => ?_
    exact keeps_setWork fun hs => ⟨hs.pk, hs.pq⟩

theorem keeps_walkLoop (orig n : Nat) (s : State) : KeepsPost2 s (walkLoop orig n s) := by
  induction n generalizing s with
  | zero =>
    rw [walkLoop]
    split_ifs
    · exact keeps_throwCorrupt (by decide)
    · exact Keeps.refl s
  | succ n ih =>
    rw [walkLoop]
    split_ifs
    · refine (keeps_upReadBit s).bind fun b t => ?_
      cases b with
      | none => exact keeps_throwCorrupt (by decide)
      | some b =>
        refine (keeps_walkBit b t).bind fun out u => (ih u).bind fun rest v => ?_
        exact Keeps.refl v
    · exact Keeps.refl s

theorem keeps_walk (base len orig : Nat) (s : State) : KeepsPost2 s (walk base len orig s) := by
  rw [walk]
  split
  · exact trivial
  · rename_i r _
    refine KeepsPost2.after (t := s.setWork ((upInit base len s.work).setWk ⟨r, 0⟩))
      (keeps_setWork fun hs => ⟨hs.pk, hs.pq⟩) ((keeps_walkLoop orig len _).bind fun out u => ?_)
    dsimp only
    split_ifs
    · exact keeps_throwCorrupt (by decide)
    · exact Keeps.refl u

theorem keeps_fillLoop (sym : Byte) (n : Nat) (s : State) : KeepsPost2 s (fillLoop sym n s) := by
  induction n generalizing s with
  | zero => exact Keeps.refl s
  | succ n ih =>
    refine Post.bind (keeps_emitSymbol sym s) fun t ht => ?_
    refine Post.mono ((ih t).bind fun rest u => (Keeps.refl u : KeepsPost2 u (.ok (sym :: rest, u))))
      (fun _ h => ht.trans h) (Stops.after ht)

theorem keeps_emitOutput (base len orig : Nat) (s : State) :
    KeepsPost2 s (emitOutput base len orig s) := by
  rw [emitOutput]
  split
  · exact Keeps.refl s
  · split
    · exact trivial
    · exact KeepsPost2.after keeps_setWk (keeps_fillLoop _ orig _)
    · exact keeps_walk base len orig s

theorem keeps_verifyOutput (out : List Byte) (crc : Word32) (orig : Nat) (s : State) :
    KeepsPost s (verifyOutput out crc orig s) := by
  have h : Keeps s ((s.setWork (crcRun out (crcInit s.work))).setRegs
      { s.regs with crcCalc := (refCrc32 out).zeroExtend 64 }) :=
    (keeps_crcRun out s).trans (keeps_setRegs (s := s.setWork _) ⟨rfl, rfl, rfl, rfl⟩ rfl
      fun _ => crc_fits _)
  rw [verifyOutput_eq]
  split_ifs
  · exact h
  · exact KeepsPost.after h (keeps_throwCorrupt (α := State) (by decide))
  · exact keeps_setRegs (s := s) (r := { s.regs with crcCalc := 0 }) ⟨rfl, rfl, rfl, rfl⟩ rfl
      fun _ => show (0 : Word64).toNat < 2 ^ 32 by decide

theorem keeps_decodeContainer (s : State) : EndsPost s (decodeContainer s) := by
  refine KeepsPost2.ends (readHeader_post s) fun h t => ?_
  refine keeps_headerCheck ?_
  refine (keeps_parseTable _ t).ends fun u => keeps_checkPayloadExtent fun len =>
    (keeps_buildTree u).ends fun v => ?_
  dsimp only
  split_ifs
  · exact ⟨Keeps.refl v, by decide⟩
  · exact ⟨Keeps.refl v, by decide⟩
  · exact (keeps_emitOutput _ _ _ v).ends fun out w => (keeps_verifyOutput _ _ _ w).ends fun x =>
      ends_complete (Keeps.refl x)

theorem keeps_decodeCommand (s : State) : EndsPost s (decodeCommand s) := by
  refine keeps_rangeCheck (keeps_overlapCheck ?_)
  split_ifs
  · exact ⟨Keeps.refl s, by decide⟩
  · exact keeps_decodeContainer s

end Sys2Proof.Machine
end

