-- ==== Sys2Proof/Laws/Step.lean ====
section
/-! SUPPORT. What every instruction and every step of the machine keeps. -/

namespace Sys2Proof.Machine

/-- The parameters, the invariants and a legal STATUS, before and after. -/
structure After (s t : State) : Prop where
  par : t.par = s.par
  host : t.regs.srcAddr = s.regs.srcAddr ∧ t.regs.srcLen = s.regs.srcLen ∧
    t.regs.dstAddr = s.regs.dstAddr ∧ t.regs.dstCap = s.regs.dstCap
  inbox : t.inbox = s.inbox
  observed : t.observed = s.observed
  ok : CoreOk s → CoreOk t
  ends : (t.phase = s.phase ∧ t.regs.status = s.regs.status) ∨
    (t.phase = .idle ∧ t.regs.status ∈ statusWords ∧ statusBusy t.regs.status = false ∧ t.stuck = s.stuck)
  stuck : t.stuck = s.stuck ∨ ∃ a, t.stuck = some a ∧ noBacking s.par a ∧ t.phase = s.phase ∧
    t.regs.status = s.regs.status

theorem Keeps.after {s t : State} (h : Keeps s t) : After s t where
  par := h.par
  host := h.host
  inbox := h.inbox
  observed := h.observed
  ok := h.ok
  ends := .inl ⟨h.phase, h.status⟩
  stuck := .inl h.stuck

/-- A command that succeeds. -/
theorem Ends.after {s t : State} (h : Ends s t) : After s t := by
  obtain ⟨u, len, h, rfl⟩ := h
  exact ⟨h.par, h.host, h.inbox, h.observed, fun hs => ⟨(h.ok hs).mem, (h.ok hs).crc, (h.ok hs).pk, (h.ok hs).pq⟩,
    .inr ⟨rfl, by show statusComplete ∈ statusWords; decide,
      by show statusBusy statusComplete = false; decide, h.stuck⟩, .inl h.stuck⟩

/-- The core stuck: PHASE and STATUS stay as they were (R67). -/
theorem Keeps.setStuck {s t : State} {a : Nat} (h : Keeps s t) (ha : noBacking s.par a) :
    After s (t.setStuck (some a)) where
  par := h.par
  host := h.host
  inbox := h.inbox
  observed := h.observed
  ok := fun hs => ⟨(h.ok hs).mem, (h.ok hs).crc, (h.ok hs).pk, (h.ok hs).pq⟩
  ends := .inl ⟨h.phase, h.status⟩
  stuck := .inr ⟨a, rfl, ha, h.phase, h.status⟩

/-- An error end keeps the operands, and puts CRC_CALC at 0 or leaves it. -/
theorem Keeps.raiseEnd {s t : State} {e : Err} {clear : Err → Regs → Regs} (h : Keeps s t)
    (he : e.legal)
    (hc : ∀ r, (clear e r).srcAddr = r.srcAddr ∧ (clear e r).srcLen = r.srcLen ∧
      (clear e r).dstAddr = r.dstAddr ∧ (clear e r).dstCap = r.dstCap ∧
      ((clear e r).crcCalc = 0 ∨ (clear e r).crcCalc = r.crcCalc)) :
    After s (raiseEnd clear e t) where
  par := h.par
  host := by
    obtain ⟨h1, h2, h3, h4, -⟩ := hc t.regs
    exact ⟨h1.trans h.host.1, h2.trans h.host.2.1, h3.trans h.host.2.2.1, h4.trans h.host.2.2.2⟩
  inbox := h.inbox
  observed := h.observed
  ok := fun hs => by
    have ht := h.ok hs
    refine ⟨ht.mem, ?_, ht.pk, ht.pq⟩
    obtain ⟨-, -, -, -, h5⟩ := hc t.regs
    show (clear e t.regs).crcCalc.toNat < 2 ^ 32
    rcases h5 with h5 | h5
    · rw [h5]; decide
    · rw [h5]; exact ht.crc
  ends := .inr ⟨rfl, he, by
    show statusBusy (statusError e) = false
    have hall : (statusWords.all fun w => !statusBusy w || w == 0x1) = true := by decide
    have : ∀ w ∈ statusWords, statusBusy w = true → w = 0x1 := fun w hw hb => by
      simpa [hb] using List.all_eq_true.1 hall w hw
    cases hb : statusBusy (statusError e) with
    | false => rfl
    | true =>
      have h1 := this _ he hb
      have h2 : (statusError e).getLsbD 1 = true := by
        simp [statusError]
      rw [h1] at h2
      exact absurd h2 (by decide), h.stuck⟩
  stuck := .inl h.stuck

theorem clearEncode_ok (e : Err) (r : Regs) : (clearEncode e r).srcAddr = r.srcAddr ∧
    (clearEncode e r).srcLen = r.srcLen ∧ (clearEncode e r).dstAddr = r.dstAddr ∧
    (clearEncode e r).dstCap = r.dstCap ∧
    ((clearEncode e r).crcCalc = 0 ∨ (clearEncode e r).crcCalc = r.crcCalc) :=
  ⟨rfl, rfl, rfl, rfl, .inl rfl⟩

theorem clearDecode_ok (e : Err) (r : Regs) : (clearDecode e r).srcAddr = r.srcAddr ∧
    (clearDecode e r).srcLen = r.srcLen ∧ (clearDecode e r).dstAddr = r.dstAddr ∧
    (clearDecode e r).dstCap = r.dstCap ∧
    ((clearDecode e r).crcCalc = 0 ∨ (clearDecode e r).crcCalc = r.crcCalc) := by
  refine ⟨rfl, rfl, rfl, rfl, ?_⟩
  rw [clearDecode]
  by_cases h : e.kind = .checksumMismatch
  · exact .inr (if_pos h)
  · exact .inl (if_neg h)

/-- What the outcome of an operation keeps, where its answer keeps it. -/
theorem after_outcome {s t : State} {Q : State → Prop} {x : Except Halt State}
    {clear : Err → Regs → Regs} (hx : Post Q (Stops s) x) (hQ : ∀ u, Q u → After s u)
    (hc : ∀ e r, (clear e r).srcAddr = r.srcAddr ∧ (clear e r).srcLen = r.srcLen ∧
      (clear e r).dstAddr = r.dstAddr ∧ (clear e r).dstCap = r.dstCap ∧
      ((clear e r).crcCalc = 0 ∨ (clear e r).crcCalc = r.crcCalc))
    (h : outcome clear x = .next t) : After s t := by
  rcases hx.outcome h with h | ⟨e, u, ⟨h1, h2⟩, rfl⟩ | ⟨a, u, h1, rfl⟩
  · exact hQ t h
  · exact h1.raiseEnd h2 (hc e)
  · exact h1.1.setStuck h1.2

/-- The outcome of an internal operation. -/
theorem after_internal {s t : State} {x : Except Halt State} {clear : Err → Regs → Regs}
    (hx : KeepsPost s x)
    (hc : ∀ e r, (clear e r).srcAddr = r.srcAddr ∧ (clear e r).srcLen = r.srcLen ∧
      (clear e r).dstAddr = r.dstAddr ∧ (clear e r).dstCap = r.dstCap ∧
      ((clear e r).crcCalc = 0 ∨ (clear e r).crcCalc = r.crcCalc))
    (h : outcome clear x = .next t) : After s t := after_outcome hx (fun _ h => h.after) hc h

/-- The outcome of a command. -/
theorem after_command {s t : State} {x : Except Halt State} {clear : Err → Regs → Regs}
    (hx : EndsPost s x)
    (hc : ∀ e r, (clear e r).srcAddr = r.srcAddr ∧ (clear e r).srcLen = r.srcLen ∧
      (clear e r).dstAddr = r.dstAddr ∧ (clear e r).dstCap = r.dstCap ∧
      ((clear e r).crcCalc = 0 ∨ (clear e r).crcCalc = r.crcCalc))
    (h : outcome clear x = .next t) : After s t := after_outcome hx (fun _ h => h.after) hc h

theorem keeps_setRet {s : State} {r : OpRet} : Keeps s (s.setRet r) :=
  ⟨rfl, ⟨rfl, rfl, rfl, rfl⟩, rfl, rfl, rfl, fun h => ⟨h.mem, h.crc, h.pk, h.pq⟩, rfl, rfl, rfl⟩

theorem after_workOutcome {s t : State} {x : Except Fault Work}
    (hx : ∀ w, x = .ok w → WorkQueueOk s.work → WorkQueueOk w ∧ w.pk = s.work.pk)
    (h : workOutcome s x = .next t) : After s t := by
  cases x with
  | error f => cases h
  | ok w =>
    cases h
    refine (keeps_setWork fun hs => ⟨?_, (hx w rfl hs.pq).1⟩).after
    have := (hx w rfl hs.pq).2
    show w.pk.cnt ≤ 7 ∧ w.pk.acc.toNat < 2 ^ w.pk.cnt
    rw [this]
    exact hs.pk

theorem After.of_eq {s s' t : State} (h : After s' t) (hp : s'.par = s.par) (hr : s'.regs = s.regs)
    (hi : s'.inbox = s.inbox) (ho : s'.observed = s.observed) (hph : s'.phase = s.phase)
    (hm : s'.mem = s.mem) (hw : s'.work = s.work) (hst : s'.stuck = s.stuck) : After s t where
  par := h.par.trans hp
  host := by rw [← hr]; exact h.host
  inbox := h.inbox.trans hi
  observed := h.observed.trans ho
  ok := fun hs => h.ok ⟨by
    have := hs.mem
    rw [MemOk, hm, hp]
    exact this, by
    have := hs.crc
    rw [CrcCalcOk, hr]
    exact this, by
    have := hs.pk
    rw [PackerOk, hw]
    exact this, by
    have := hs.pq
    rw [QueueOk, hw]
    exact this⟩
  ends := by rw [← hph, ← hr, ← hst]; exact h.ends
  stuck := by rw [← hph, ← hr, ← hst, ← hp]; exact h.stuck

/-- What every instruction keeps when it answers a next state. -/
theorem exec_after {i : Instr} {s t : State} (h : exec i s = .next t) : After s t := by
  cases i with
  | nop => cases h; exact ⟨rfl, ⟨rfl, rfl, rfl, rfl⟩, rfl, rfl, fun hs => ⟨hs.mem, hs.crc, hs.pk, hs.pq⟩,
      .inr ⟨rfl, by show statusComplete ∈ statusWords; decide, by show statusBusy statusComplete = false; decide, rfl⟩, .inl rfl⟩
  | encode => exact after_command (keeps_encodeCommand s) clearEncode_ok h
  | decode skip =>
    exact (after_command (keeps_decodeCommand _) clearDecode_ok h).of_eq rfl rfl rfl rfl rfl rfl rfl rfl
  | pqClear =>
    cases h
    exact (keeps_setWork (s := s) (w := pqClear s.work) fun hs => ⟨hs.pk, List.Pairwise.nil,
      by simp [pqClear], by simp [pqClear], hs.pq.2.2.2⟩).after
  | pqInsert i => exact after_workOutcome (fun _ hw hq => pqInsert_ok hq hw) h
  | pqExtractMin =>
    simp only [exec, execPqExtractMin] at h
    split at h
    · rename_i m w hw
      cases h
      refine Keeps.after ((keeps_setWork fun hs => ?_).trans keeps_setRet)
      obtain ⟨h1, h2⟩ := pqExtractMin_ok hs.pq hw
      refine ⟨?_, h1⟩
      show w.pk.cnt ≤ 7 ∧ w.pk.acc.toNat < 2 ^ w.pk.cnt
      rw [h2]
      exact hs.pk
    · cases h
  | pqIsEmpty => cases h; exact keeps_setRet.after
  | pqSize => cases h; exact keeps_setRet.after
  | buildTreeLeaves => exact after_workOutcome (fun _ hw _ => buildTreeLeaves_ok hw) h
  | buildTreeMerges => exact after_workOutcome (fun _ hw hq => buildTreeMerges_ok hq hw) h
  | treeRebuild => exact after_workOutcome (fun _ hw _ => buildTree_ok hw) h
  | generateCodes =>
    refine after_workOutcome (fun w hw hq => ?_) h
    obtain ⟨t, rfl⟩ := generateCodes_ok hw
    exact ⟨hq, rfl⟩
  | codeLookup sym =>
    simp only [exec, execCodeLookup] at h
    split at h
    · cases h; exact keeps_setRet.after
    · cases h
  | pkInit base => cases h; exact (keeps_pkInit base s).after
  | pkEmit v => exact after_internal (keeps_pkEmit v s) clearEncode_ok h
  | pkWriteBit b => exact after_internal (keeps_pkWriteBit b s) clearEncode_ok h
  | pkWriteBits bits => exact after_internal (keeps_pkWriteBits _ s) clearEncode_ok h
  | pkFlush => exact after_internal (keeps_pkFlush s) clearEncode_ok h
  | upInit base len =>
    cases h
    exact (keeps_setWork (s := s) (w := upInit base len s.work) fun hs => ⟨hs.pk, hs.pq⟩).after
  | upReadBit =>
    refine after_internal (x := upReadBit s >>= _) ?_ clearDecode_ok h
    exact (keeps_upReadBit s).last fun b t => keeps_setRet
  | upConsumed => cases h; exact keeps_setRet.after
  | crcInit =>
    cases h
    exact (keeps_setWork (s := s) (w := crcInit s.work) fun hs => ⟨hs.pk, hs.pq⟩).after
  | crcUpdate b =>
    cases h
    exact (keeps_setWork (s := s) (w := crcUpdate b s.work) fun hs => ⟨hs.pk, hs.pq⟩).after
  | crcFinal => cases h; exact keeps_setRet.after
  | freqCount src srclen => exact after_internal (keeps_freqCount _ _ s) clearEncode_ok h
  | writeContainer cs crc k pad =>
    exact after_command (keeps_writeContainer cs crc k pad s) clearEncode_ok h
  | readHeader =>
    refine after_internal (x := readHeader s >>= _) ?_ clearDecode_ok h
    exact KeepsPost2.last (readHeader_post s) fun h t => keeps_setRet
  | parseTable k => exact after_internal (keeps_parseTable _ s) clearDecode_ok h
  | checkPayloadExtent k cs pad =>
    refine after_internal (x := checkPayloadExtent _ _ _ s >>= _) ?_ clearDecode_ok h
    exact keeps_checkPayloadExtent fun n => keeps_setRet
  | walk base len orig =>
    refine after_internal (x := Machine.walk base len orig.toNat s >>= _) ?_ clearDecode_ok h
    exact (keeps_walk base len _ s).last fun _ t => Keeps.refl t
  | illegalCommand w =>
    cases h
    have h1 : statusError ⟨.illegalCmd, illegalDetail w⟩ ∈ statusWords := by
      rw [illegalDetail]
      split_ifs <;> decide
    exact (Keeps.refl s).raiseEnd h1 fun r => ⟨rfl, rfl, rfl, rfl, .inr rfl⟩

/-! ### The host's moves -/

theorem issue_ok {w : Word64} {s : State} (h : CoreOk s) : CoreOk (issue w s) := ⟨h.mem, h.crc, h.pk, h.pq⟩

theorem writeReg_ok {r : Reg} {v : Word64} {s : State} (h : CoreOk s) : CoreOk (writeReg r v s) := by
  rw [writeReg]
  split
  · cases r <;> exact ⟨h.mem, h.crc, h.pk, h.pq⟩
  · exact h

theorem readReg_ok (r : Reg) (s : State) : ∃ n, (readReg r s).2 = s.addDraws n := by
  have h0 : s = s.addDraws 0 := rfl
  cases r <;> first
    | exact ⟨0, rfl⟩
    | (simp only [readReg, resultReg]; split; exacts [⟨0, rfl⟩, ⟨1, rfl⟩])

theorem observeReg_ok {r : Reg} {var : String} {s : State} (h : CoreOk s) :
    CoreOk (observeReg r var s) := by
  obtain ⟨n, hn⟩ := readReg_ok r s
  rw [observeReg]
  simp only [hn]
  exact ⟨h.mem, h.crc, h.pk, h.pq⟩

theorem allAccessible_iff {p : Params} {a n : Nat} : allAccessible p a n = true ↔ Reachable p a n := by
  induction n generalizing a with
  | zero => simp [allAccessible, Reachable.zero]
  | succ n ih =>
    rw [allAccessible, Bool.and_eq_true, ih]
    constructor
    · rintro ⟨h1, h2⟩ x hx1 hx2
      by_cases hx : x = a
      · exact hx ▸ h1
      · exact h2 x (by omega) (by omega)
    · intro h
      exact ⟨h.head, h.tail⟩

/-- A host write of bytes that exist keeps memory canonical and inside the address space (R60). -/
theorem writeRange_memOk {s : State} {a : Nat} {bs : List Byte} (h : MemOk s)
    (he : allExist s.par a bs.length = true) : MemOk (s.setMem (s.mem.writeRange a bs)) := by
  refine ⟨Memory.writeRange_wf h.1, ?_⟩
  rcases of_decide_eq_true he with h0 | h1
  · rw [List.length_eq_zero_iff.1 h0]
    exact h.2
  · exact Memory.writeRange_below h.2 h1

/-- What the host reads is as long as it asked for. -/
theorem hostBytes_length {p : Params} {m : Memory} {a n d : Nat} : (hostBytes p m a n d).length = n := by
  induction n generalizing a d with
  | zero => rfl
  | succ n ih =>
    rw [hostBytes]
    split_ifs <;> simp [ih]

/-- Plain memory answers the host what it holds (R67). -/
theorem hostBytes_get {p : Params} {m : Memory} {a n d k : Nat} (hk : k < n)
    (hb : busOk p (a + k) = true) : (hostBytes p m a n d)[k]? = some (m.read (a + k)) := by
  induction n generalizing a d k with
  | zero => omega
  | succ n ih =>
    rw [hostBytes]
    cases k with
    | zero => simp [show busOk p a = true from hb]
    | succ k =>
      have h : a + (k + 1) = a + 1 + k := by omega
      rw [h] at hb ⊢
      split_ifs
      · simpa using ih (by omega) hb
      · simpa using ih (by omega) hb

/-- A host read of plain memory alone answers what it holds, with no draw. -/
theorem hostBytes_backed {p : Params} {m : Memory} {a n d : Nat} (h : Reachable p a n) :
    hostBytes p m a n d = m.readRange a n ∧ unbackedCount p a n = 0 := by
  induction n generalizing a with
  | zero => exact ⟨rfl, rfl⟩
  | succ n ih =>
    obtain ⟨h1, h2⟩ := ih h.tail
    rw [hostBytes, unbackedCount, Memory.readRange, if_pos (accessible_iff.1 h.head).2,
      if_pos (accessible_iff.1 h.head).2, h1, h2]
    exact ⟨rfl, rfl⟩

/-- Bytes that are plain memory exist. -/
theorem Reachable.allExist {p : Params} {a n : Nat} (h : Reachable p a n) : allExist p a n = true := by
  refine decide_eq_true ?_
  cases n with
  | zero => exact .inl rfl
  | succ n =>
    have := (accessible_iff.1 (h (a + n) (by omega) (by omega))).1
    omega

theorem resetBlock_ok {s : State} (h : CoreOk s) : CoreOk (resetBlock s) := by
  have h1 := (keeps_scramble s s.dst (abandoned s)).ok h
  exact ⟨h1.mem, by show (0 : Word64).toNat < 2 ^ 32; decide, ⟨Nat.zero_le 7, show (0 : Byte).toNat < 2 ^ 0 by decide⟩,
    by show List.Pairwise _ [] ∧ _; simp [resetBlock, Work.reset]⟩

/-- A host move keeps the invariants. -/
theorem hostMove_ok {op : HostOp} {rest : List HostOp} {s t : State} (h : CoreOk s)
    (ht : hostMove op rest s = .next t) : CoreOk t := by
  have hi : ∀ {u : State} {q : List HostOp}, CoreOk u → CoreOk (u.setInbox q) :=
    fun h => ⟨h.mem, h.crc, h.pk, h.pq⟩
  cases op with
  | wr r v => cases ht; exact writeReg_ok (hi h)
  | rd r var => cases ht; exact observeReg_ok (hi h)
  | busWrite addr width v =>
    simp only [hostMove] at ht
    split at ht
    · cases ht; exact writeReg_ok (hi h)
    · cases ht
  | busRead addr width var =>
    simp only [hostMove] at ht
    split at ht
    · cases ht; exact observeReg_ok (hi h)
    · cases ht
  | poll var =>
    simp only [hostMove] at ht
    split_ifs at ht <;> cases ht
    · exact observeReg_ok h
    · exact hi (observeReg_ok h)
  | memw addr bytes =>
    simp only [hostMove] at ht
    split_ifs at ht with h1 h2
    cases ht
    exact hi ⟨writeRange_memOk h.mem (h2), h.crc, h.pk, h.pq⟩
  | memr addr n var =>
    simp only [hostMove] at ht
    split_ifs at ht
    cases ht
    exact ⟨h.mem, h.crc, h.pk, h.pq⟩
  | reset => cases ht; exact hi (resetBlock_ok h)

/-- Every step keeps the invariants. -/
theorem step_ok {s t : State} (h : CoreOk s) (ht : step s = .next t) : CoreOk t := by
  rw [step] at ht
  split_ifs at ht
  · exact (exec_after ht).ok h
  · rw [hostTurn] at ht
    have hs : CoreOk (s.setBusyLeft (s.busyLeft - 1)) := ⟨h.mem, h.crc, h.pk, h.pq⟩
    split at ht
    · cases ht; exact hs
    · exact hostMove_ok hs ht

end Sys2Proof.Machine
end

