-- ==== Sys2Proof/Laws/Command.lean ====
section
/-! SUPPORT. The command word's fields as numbers (30_encoding.md R92, R93), the words that are legal, the
register window's addresses and the ID word (10_state.md R24, R26). -/

namespace Sys2Proof.Machine

theorem cmdOpcode_toNat (w : Word64) : (cmdOpcode w).toNat = w.toNat % 256 := by simp [cmdOpcode]

theorem cmdSkipVerify_eq (w : Word64) : cmdSkipVerify w = decide (w.toNat / 256 % 2 = 1) := by
  simp [cmdSkipVerify, BitVec.getLsbD, Nat.testBit, Nat.shiftRight_eq_div_pow]
  rcases Nat.mod_two_eq_zero_or_one (w.toNat / 256) with h | h <;> simp [h]

theorem cmdReserved_toNat (w : Word64) : (cmdReserved w).toNat = w.toNat / 512 := by
  have := w.isLt
  simp [cmdReserved, Nat.shiftRight_eq_div_pow]
  omega

theorem cmdBadOpcode_iff (w : Word64) :
    cmdBadOpcode w = true ↔ w.toNat % 256 ≠ 0 ∧ w.toNat % 256 ≠ 1 ∧ w.toNat % 256 ≠ 2 := by
  simp [cmdBadOpcode, ← BitVec.toNat_inj, cmdOpcode_toNat, and_assoc]

theorem cmdBadReserved_iff (w : Word64) :
    cmdBadReserved w = true ↔ 512 ≤ w.toNat ∨ (w.toNat / 256 % 2 = 1 ∧ w.toNat % 256 ≠ 2) := by
  simp [cmdBadReserved, ← BitVec.toNat_inj, cmdReserved_toNat, cmdSkipVerify_eq, cmdOpcode_toNat]

/-- A word that passes both checks of R93 is one of the four words of R113. -/
theorem legal_words {w : Word64} (h : (cmdBadOpcode w || cmdBadReserved w) = false) :
    w = 0x0 ∨ w = 0x1 ∨ w = 0x2 ∨ w = 0x102 := by
  rw [Bool.or_eq_false_iff, ← Bool.not_eq_true, ← Bool.not_eq_true, cmdBadOpcode_iff,
    cmdBadReserved_iff] at h
  have : w.toNat = 0 ∨ w.toNat = 1 ∨ w.toNat = 2 ∨ w.toNat = 0x102 := by omega
  simpa [← BitVec.toNat_inj] using this

theorem decodeWord_bad {w : Word64} (h : (cmdBadOpcode w || cmdBadReserved w) = true) :
    decodeWord w = .illegalCommand w := if_pos h

/-- ID (R26) as a sum. -/
theorem idWord_toNat (p : Params) : (idWord p).toNat = p.magic.toNat + 2 ^ 32 := by
  have h := p.magic.isLt
  have e : p.magic.toNat ||| (1 <<< 32) = p.magic.toNat + 2 ^ 32 := by
    rw [Nat.or_comm, ← Nat.shiftLeft_add_eq_or_of_lt h, Nat.shiftLeft_eq]; ring
  rw [← e]
  simp only [idWord, Config.formatVersion, BitVec.toNat_or, BitVec.toNat_shiftLeft,
    BitVec.zeroExtend_eq_setWidth, BitVec.toNat_setWidth]
  rw [Nat.mod_eq_of_lt (a := p.magic.toNat) (by omega)]
  rfl

/-- Every register is reached at its own address (R23, R24). -/
theorem busReg_offset (p : Params) (r : Reg) : busReg p (p.regBase + r.offset) 8 = some r := by
  have : r.offset % 8 = 0 ∧ windowRegs[r.offset / 8]? = some r := by
    cases r with
    | reserved i => revert i; decide
    | _ => decide
  simp [busReg, this.1, this.2]

theorem rangesMeet_iff {a n b m : Nat} :
    rangesMeet a n b m = true ↔ ∃ x, a ≤ x ∧ x < a + n ∧ b ≤ x ∧ x < b + m := by
  simp only [rangesMeet, decide_eq_true_eq]
  exact ⟨fun h => ⟨max a b, by omega, by omega, by omega, by omega⟩, fun ⟨x, h⟩ => by omega⟩

end Sys2Proof.Machine
end

