-- ==== Sys2Proof/Laws/RefTree.lean ====
section
/-! SUPPORT. The machine's tree is the tree built on a sorted queue. -/

namespace Sys2Proof.Machine

theorem freqAt_eq (nodes : List Node) (i : Nat) : freqAt nodes i = nodeFreq nodes i := by
  rw [freqAt, nodeFreq]
  cases nodes[i]? with
  | none => rfl
  | some n => cases n <;> rfl

theorem precedes_iff {nodes : List Node} {i j : Nat} :
    precedes nodes i j ↔ keyLt (nodeFreq nodes i) i (nodeFreq nodes j) j = true := by
  rw [precedes, freqAt_eq, freqAt_eq, keyLt_iff]

theorem precedes_total {nodes : List Node} {i j : Nat} (h : i ≠ j) :
    precedes nodes i j ∨ precedes nodes j i := by
  simp only [precedes]; omega

theorem precedes_asymm {nodes : List Node} {i j : Nat} (h : precedes nodes i j) :
    ¬ precedes nodes j i := by
  simp only [precedes] at *; omega

theorem precedes_trans {nodes : List Node} {i j k : Nat} (h : precedes nodes i j)
    (h' : precedes nodes j k) : precedes nodes i k := by
  simp only [precedes] at *; omega

theorem precedes_append {nodes more : List Node} {i j : Nat} (hi : i < nodes.length)
    (hj : j < nodes.length) : precedes (nodes ++ more) i j ↔ precedes nodes i j := by
  simp only [precedes, freqAt, List.getElem?_append_left hi, List.getElem?_append_left hj]

theorem enqueue_cons (nodes : List Node) (i j : Nat) (js : List Nat) [Decidable (precedes nodes i j)] :
    enqueue nodes i (j :: js) =
      if precedes nodes i j then i :: j :: js else j :: enqueue nodes i js := by
  rw [enqueue]
  congr

theorem enqueue_perm (nodes : List Node) (i : Nat) (q : List Nat) :
    (enqueue nodes i q).Perm (i :: q) := by
  induction q with
  | nil => exact List.Perm.refl _
  | cons j js ih =>
    rw [enqueue]
    split_ifs
    · exact List.Perm.refl _
    · exact (ih.cons j).trans (List.Perm.swap ..)

theorem enqueue_sorted {nodes : List Node} {i : Nat} {q : List Nat}
    (hq : q.Pairwise (precedes nodes)) (hi : i ∉ q) : (enqueue nodes i q).Pairwise (precedes nodes) := by
  induction q with
  | nil => simp [enqueue]
  | cons j js ih =>
    rw [List.pairwise_cons] at hq
    rw [List.mem_cons, not_or] at hi
    rw [enqueue]
    split_ifs with h
    · refine List.pairwise_cons.2 ⟨fun k hk => ?_, List.pairwise_cons.2 hq⟩
      rcases List.mem_cons.1 hk with rfl | hk
      · exact h
      · exact precedes_trans h (hq.1 k hk)
    · refine List.pairwise_cons.2 ⟨fun k hk => ?_, ih hq.2 hi.2⟩
      rcases List.mem_cons.1 ((enqueue_perm nodes i js).mem_iff.1 hk) with rfl | hk
      · exact (precedes_total hi.1).resolve_left h
      · exact hq.1 k hk

/-- The first of a sorted queue is the one that precedes every other. -/
theorem sorted_head {nodes : List Node} {x : Nat} {q p : List Nat}
    (hs : (x :: q).Pairwise (precedes nodes)) (hp : (x :: q).Perm p) {m : Nat} (hm : m ∈ p)
    (hmin : ∀ j ∈ p, j ≠ m → precedes nodes m j) : m = x := by
  by_contra hne
  have h1 := hmin x (hp.mem_iff.1 (List.mem_cons_self ..)) (Ne.symm hne)
  have h2 := (List.pairwise_cons.1 hs).1 m ((List.mem_cons.1 (hp.mem_iff.2 hm)).resolve_left hne)
  exact precedes_asymm h1 h2

/-- The whole loop of R163, on a sorted queue. -/
theorem mergeLoop_ref {ls : List (Byte × Nat)} {n k : Nat} {w : Work} {q : List Nat} (hw : PqOk w)
    (hf : Forest ls w) (h1 : 1 ≤ w.pq.length) (hn : w.pq.length ≤ n) (hk : w.pq.length ≤ k + 1)
    (hcap : w.nodes.length + w.pq.length ≤ 512)
    (hs : q.Pairwise (precedes w.nodes)) (hp : q.Perm w.pq) :
    ∃ r, (refMerges k w.nodes q).2 = some r ∧
      mergeLoop n w = .ok ((w.setNodes (refMerges k w.nodes q).1).setPq [r]) := by
  induction n generalizing w q k with
  | zero => omega
  | succ n ih =>
    rw [mergeLoop]
    by_cases h2 : 1 < pqSize w
    · rw [if_pos h2]
      rw [pqSize] at h2
      obtain ⟨f, a, b, p, hstep, hlen, hok, hfor, ha, hb, hab, hkab, hmin, hfv, hmem⟩ :=
        mergeStep_eq hw hf h2 (by omega)
      rw [hstep]
      simp only [ok_bind]
      obtain ⟨x, y, q', rfl⟩ : ∃ x y q', q = x :: y :: q' := by
        have := hp.length_eq
        match q, this with
        | [], h => simp only [List.length_nil] at h; omega
        | [x], h => simp only [List.length_singleton] at h; omega
        | x :: y :: q', _ => exact ⟨x, y, q', rfl⟩
      have nodup : w.pq.Nodup := hw.asc.imp fun h => h.ne
      have hax : a = x := sorted_head hs hp ha fun j hj hja => by
        by_cases hjb : j = b
        · subst hjb; exact precedes_iff.2 hkab
        · exact precedes_trans (precedes_iff.2 hkab) (precedes_iff.2 (hmin j hj hja hjb))
      subst hax
      have hp' : (y :: q').Perm (w.pq.erase a) :=
        (hp.trans (List.perm_cons_erase ha)).cons_inv
      have hby : b = y := sorted_head (List.pairwise_cons.1 hs).2 hp'
        ((List.mem_erase_of_ne hab.symm).2 hb) fun j hj hjb => by
          have := nodup.mem_erase_iff.1 hj
          exact precedes_iff.2 (hmin j this.2 this.1 hjb)
      subst hby
      cases k with
      | zero => omega
      | succ k =>
        rw [refMerges, freqAt_eq, freqAt_eq, ← hfv]
        have hq' : ∀ j ∈ q', j ∈ w.pq ∧ j ≠ a ∧ j ≠ b := by
          have hnd := hp.nodup_iff.2 nodup
          simp only [List.nodup_cons, List.mem_cons, not_or] at hnd
          intro j hj
          exact ⟨hp.mem_iff.1 (by simp [hj]), fun h => hnd.1.2 (h ▸ hj), fun h => hnd.2.1 (h ▸ hj)⟩
        have hnew : w.nodes.length ∉ q' := fun h => absurd (hw.alloc _ (hq' _ h).1) (by simp)
        have hsort : q'.Pairwise (precedes (w.nodes ++ [.internal f a b])) := by
          have h3 := (List.pairwise_cons.1 (List.pairwise_cons.1 hs).2).2
          refine h3.imp_of_mem fun {i j} hi hj h => ?_
          exact (precedes_append (hw.alloc _ (hq' i hi).1) (hw.alloc _ (hq' j hj).1)).2 h
        refine ih hok hfor ?_ ?_ ?_ ?_ (enqueue_sorted hsort hnew) ?_
        · rw [Work.setPq_pq]; omega
        · rw [Work.setPq_pq]; omega
        · rw [Work.setPq_pq]; omega
        · simp only [Work.setPq_pq, Work.setPq_nodes, Work.setNodes_nodes, List.length_append,
            List.length_singleton]
          omega
        · rw [Work.setPq_pq]
          refine (List.perm_ext_iff_of_nodup ?_ (hok.asc.imp fun h => h.ne)).2 fun j => ?_
          · rw [(enqueue_perm _ _ _).nodup_iff, List.nodup_cons]
            have hnd := hp.nodup_iff.2 nodup
            simp only [List.nodup_cons] at hnd
            exact ⟨hnew, hnd.2.2⟩
          · rw [(enqueue_perm _ _ _).mem_iff, List.mem_cons]
            refine Iff.trans ?_ (hmem j).symm
            constructor
            · rintro (h | h)
              · exact .inl h
              · exact .inr (hq' j h)
            · rintro (h | ⟨h4, h5, h6⟩)
              · exact .inl h
              · have := hp.mem_iff.2 h4
                simp only [List.mem_cons] at this
                exact .inr ((this.resolve_left h5).resolve_left h6)
    · rw [if_neg h2]
      have hl : w.pq.length = 1 := by rw [pqSize] at h2; omega
      obtain ⟨r, hr⟩ := List.length_eq_one_iff.1 hl
      rw [hr, List.perm_singleton] at hp
      subst hp
      have : refMerges k w.nodes [r] = (w.nodes, some r) := by cases k <;> rfl
      refine ⟨r, by rw [this], ?_⟩
      rw [this, ← hr]
      rfl

theorem refLeaves_eq (t : Table Word32) : refLeaves t = (counted t).map leafNode := by
  rw [refLeaves, counted_eq, allSymbols, List.filter_map, List.map_map, List.map_map]
  induction List.range 256 with
  | nil => rfl
  | cons s l ih =>
    rw [List.filterMap_cons, ih]
    by_cases h : tget t (BitVec.ofNat 8 s) = 0
    · rw [List.filter_cons_of_neg (by simp [h])]
      simp [h]
    · rw [List.filter_cons_of_pos (by simpa using h), if_neg h]
      rfl

theorem foldl_enqueue {nodes : List Node} (n : Nat) :
    ((List.range n).foldl (fun q i => enqueue nodes i q) []).Perm (List.range n) ∧
    ((List.range n).foldl (fun q i => enqueue nodes i q) []).Pairwise (precedes nodes) := by
  induction n with
  | zero => exact ⟨List.Perm.refl _, List.Pairwise.nil⟩
  | succ n ih =>
    rw [List.range_succ, List.foldl_append, List.foldl_cons, List.foldl_nil]
    refine ⟨(enqueue_perm _ _ _).trans ?_, enqueue_sorted ih.2 fun h => ?_⟩
    · exact (ih.1.cons n).trans (List.perm_append_singleton n _).symm
    · simpa using ih.1.mem_iff.1 h

/-- The whole build leaves the tree of the reference (R162 to R166). -/
theorem buildTree_ref (w : Work) :
    buildTree w = .ok (((w.setNodes (refTree w.freq).1).setPq
      (if (refLeaves w.freq).length = 1 then [0] else [])).setRoot (refTree w.freq).2) := by
  rw [buildTree, buildTreeLeaves_eq]
  simp only [ok_bind, Work.setRoot_nodes, Work.setPq_nodes, Work.setNodes_nodes, List.length_map]
  rw [refTree, refLeaves_eq, List.length_map]
  have hcl := counted_length w.freq
  by_cases h2 : 2 ≤ (counted w.freq).length
  · rw [if_pos h2, if_neg (by omega), buildTreeMerges]
    generalize hq : (List.range (counted w.freq).length).foldl
      (fun q i => enqueue ((counted w.freq).map leafNode) i q) [] = q
    have hqf := foldl_enqueue (nodes := (counted w.freq).map leafNode) (counted w.freq).length
    rw [hq] at hqf
    set v := ((w.setNodes ((counted w.freq).map leafNode)).setPq
      (List.range (counted w.freq).length)).setRoot (leavesRoot (counted w.freq).length w.root) with hv
    have hvok : PqOk v := ⟨by rw [hv]; exact List.pairwise_lt_range, by rw [hv]; simp, by
      rw [hv]; simpa using hcl⟩
    obtain ⟨r, hr, hloop⟩ := mergeLoop_ref (ls := countedLeaves w.freq) (n := pqSize v)
      (k := (counted w.freq).length - 1) (w := v) (q := q) hvok
      (Forest.leaves v (counted w.freq) rfl rfl) (by simp [hv]; omega) (by rw [pqSize])
      (by simp [hv]; omega) (by simp [hv]; omega) hqf.2 hqf.1
    rw [hloop]
    have hn : v.nodes = (counted w.freq).map leafNode := rfl
    rw [hn] at hr hloop ⊢
    obtain ⟨more, r', hl', hlen', hok', -⟩ := mergeLoop_eq (ls := countedLeaves w.freq)
      (n := pqSize v) (w := v) hvok (Forest.leaves v (counted w.freq) rfl rfl)
      (by simp [hv]; omega) (by rw [pqSize]) (by simp [hv]; omega)
    rw [hloop] at hl'
    have hok2 : PqOk ((v.setNodes (refMerges ((counted w.freq).length - 1)
        ((counted w.freq).map leafNode) q).1).setPq [r]) := by
      rw [Except.ok.inj hl']
      exact hok'
    obtain ⟨m, x, hm⟩ := pqExtractMin_completes (w := (v.setNodes (refMerges
      ((counted w.freq).length - 1) ((counted w.freq).map leafNode) q).1).setPq [r]) (by simp) hok2.alloc
    obtain ⟨hmem, -, -, hx⟩ := pqExtractMin_eq_ok hm
    rw [Work.setPq_pq, List.mem_singleton] at hmem
    subst hmem
    simp only [ok_bind, hm, pure, Except.pure, hx, hr]
    simp only [hv, Work.setPq_pq, List.erase_cons_head]
    rfl
  · rw [if_neg h2]
    by_cases h0 : (counted w.freq).length = 0
    · have hnil := List.length_eq_zero_iff.1 h0
      simp [hnil, leavesRoot, refMerges]
    · have h1 : (counted w.freq).length = 1 := by omega
      simp [h1, leavesRoot, refMerges, List.range_succ, enqueue]

theorem isBuilt_of_buildTree {w v : Work} (h : buildTree w = .ok v) : isBuilt v := by
  rw [buildTree_ref] at h
  cases h
  exact ⟨rfl, rfl⟩

/-- What the working state holds after a build, as trees. -/
theorem isBuilt_tree {w : Work} (h : isBuilt w) :
    (w.root = none ↔ counted w.freq = []) ∧ ∀ r, w.root = some r →
      r = 2 * (counted w.freq).length - 2 ∧ w.nodes.length = 2 * (counted w.freq).length - 1 ∧
      ∃ t, IsTree w.nodes r t ∧ t.leaves.Perm (countedLeaves w.freq) := by
  obtain ⟨more, root, hb, hlen, hroot, htree⟩ := buildTree_eq w
  rw [buildTree_ref] at hb
  have hb' := Except.ok.inj hb
  have h1 : (refTree w.freq).2 = root := congrArg Work.root hb'
  have h2 : (refTree w.freq).1 = (counted w.freq).map leafNode ++ more := congrArg Work.nodes hb'
  rw [h.2, h1]
  refine ⟨hroot, fun r hr => ?_⟩
  obtain ⟨h3, t, ht, hl⟩ := htree r hr
  have hc : (counted w.freq).length ≠ 0 := by
    intro h0
    have := hroot.2 (List.length_eq_zero_iff.1 h0)
    rw [this] at hr
    cases hr
  refine ⟨h3, ?_, t, ?_, hl⟩
  · rw [h.1, h2, List.length_append, List.length_map, hlen]
    omega
  · rw [h.1, h2]
    exact ht

end Sys2Proof.Machine
end

