-- ==== Sys2Proof/Laws/RefCodes.lean ====
section
/-! SUPPORT. The machine's code table is the one that Safety.lean's `isCodeOf` describes, and the reference
tree's shape: what the merges keep, and the paths to its leaves. -/

namespace Sys2Proof.Machine

theorem refLeaves_length (t : Table Word32) : (refLeaves t).length = (counted t).length := by
  rw [refLeaves_eq, List.length_map]

theorem freqAt_append {nodes more : List Node} {i : Nat} (hi : i < nodes.length) :
    freqAt (nodes ++ more) i = freqAt nodes i := by
  simp only [freqAt, List.getElem?_append_left hi]

theorem freqAt_new {nodes : List Node} {f l r : Nat} :
    freqAt (nodes ++ [.internal f l r]) nodes.length = f := by
  simp [freqAt]

theorem freqAt_above {nodes : List Node} {i : Nat} (hi : nodes.length ≤ i) : freqAt nodes i = 0 := by
  simp [freqAt, List.getElem?_eq_none hi]

theorem refMerges_length (k : Nat) (nodes : List Node) (q : List Nat) (h : k + 1 = q.length) :
    (refMerges k nodes q).1.length = nodes.length + k := by
  induction k generalizing nodes q with
  | zero => rfl
  | succ k ih =>
    match q, h with
    | a :: b :: q, h =>
      rw [refMerges, ih _ _ (by rw [(enqueue_perm _ _ _).length_eq]; simpa using h)]
      simp; omega

/-- The frequencies of the queued nodes add up to `T`, no node has more, and each internal node has smaller
children whose sum it is: every merge keeps this. -/
theorem refMerges_inv {T : Nat} (k : Nat) (nodes : List Node) (q : List Nat) (h : k + 1 = q.length)
    (h1 : (q.map (freqAt nodes)).sum = T) (h2 : ∀ i ∈ q, i < nodes.length)
    (h3 : ∀ i, freqAt nodes i ≤ T)
    (h4 : ∀ i f l r : Nat, nodes[i]? = some (.internal f l r) →
      l < i ∧ r < i ∧ f = freqAt nodes l + freqAt nodes r) :
    (∀ i, freqAt (refMerges k nodes q).1 i ≤ T) ∧
    (∀ i f l r : Nat, (refMerges k nodes q).1[i]? = some (.internal f l r) →
      l < i ∧ r < i ∧ f = freqAt (refMerges k nodes q).1 l + freqAt (refMerges k nodes q).1 r) ∧
    (∃ more, (refMerges k nodes q).1 = nodes ++ more ∧ ∀ m ∈ more, ∃ f l r, m = .internal f l r) ∧
    ∃ r, (refMerges k nodes q).2 = some r ∧ freqAt (refMerges k nodes q).1 r = T := by
  induction k generalizing nodes q with
  | zero =>
    obtain ⟨r, rfl⟩ := List.length_eq_one_iff.1 h.symm
    exact ⟨h3, h4, ⟨[], by simp [refMerges], by simp⟩, ⟨r, rfl, by simpa [refMerges] using h1⟩⟩
  | succ k ih =>
    match q, h with
    | a :: b :: q, h =>
      rw [refMerges]
      have hq : ∀ i ∈ q, i < nodes.length := fun i hi => h2 i (by simp [hi])
      have hs : freqAt nodes a + (freqAt nodes b + (q.map (freqAt nodes)).sum) = T := by simpa using h1
      have key := ih
        (nodes ++ [.internal (freqAt nodes a + freqAt nodes b) a b])
        (enqueue (nodes ++ [.internal (freqAt nodes a + freqAt nodes b) a b]) nodes.length q)
        (by rw [(enqueue_perm _ _ _).length_eq]; simpa using h)
        (by
          rw [((enqueue_perm _ _ _).map _).sum_eq, List.map_cons, List.sum_cons, freqAt_new,
            List.map_congr_left (g := freqAt nodes) fun i hi => freqAt_append (hq i hi), Nat.add_assoc]
          exact hs)
        (fun i hi => by
          rcases List.mem_cons.1 ((enqueue_perm _ _ _).mem_iff.1 hi) with rfl | hi
          · simp
          · have := hq i hi
            simp; omega)
        (fun i => by
          rcases Nat.lt_trichotomy i nodes.length with hi | rfl | hi
          · rw [freqAt_append hi]; exact h3 i
          · rw [freqAt_new]; omega
          · rw [freqAt_above (by simp; omega)]; omega)
        (fun i f l r hi => by
          rcases Nat.lt_trichotomy i nodes.length with hlt | rfl | hlt
          · rw [List.getElem?_append_left hlt] at hi
            obtain ⟨b1, b2, b3⟩ := h4 i f l r hi
            rw [freqAt_append (by omega), freqAt_append (by omega)]
            exact ⟨b1, b2, b3⟩
          · simp at hi
            obtain ⟨rfl, rfl, rfl⟩ := hi
            have ha := h2 a (by simp)
            have hb := h2 b (by simp)
            exact ⟨ha, hb, by rw [freqAt_append ha, freqAt_append hb]⟩
          · rw [List.getElem?_eq_none (by simp; omega)] at hi
            cases hi)
      obtain ⟨a1, a2, ⟨more, a3, a4⟩, a5⟩ := key
      refine ⟨a1, a2, ⟨_ :: more, by rw [a3, List.append_assoc]; rfl, ?_⟩, a5⟩
      intro m hm
      rcases List.mem_cons.1 hm with rfl | hm
      · exact ⟨_, _, _, rfl⟩
      · exact a4 m hm

theorem counted_sum (t : Table Word32) : ((counted t).map fun e => e.2.toNat).sum =
    ((List.range 256).map fun s => (tget t (BitVec.ofNat 8 s)).toNat).sum := by
  rw [counted_eq, List.map_map, allSymbols, List.filter_map, List.map_map]
  induction List.range 256 with
  | nil => rfl
  | cons s l ih =>
    rw [List.map_cons, List.sum_cons, ← ih]
    by_cases h : tget t (BitVec.ofNat 8 s) = 0
    · rw [List.filter_cons_of_neg (by simp [h])]; simp [h]
    · rw [List.filter_cons_of_pos (by simpa using h)]; simp [Function.comp_def]

/-- A path to a leaf of the arena is a path of the tree. -/
theorem follow_mem_paths {nodes : List Node} {r i f : Nat} {t : Tree} {s : Byte} {p : Bits}
    (ht : IsTree nodes r t) (hi : nodes[i]? = some (.leaf s f)) (h : follow nodes r p = some i) :
    (s, p) ∈ t.paths [] := by
  induction ht generalizing p with
  | leaf hj =>
    cases p with
    | nil => simp [follow] at h; subst h; rw [hi] at hj; cases hj; simp [Tree.paths]
    | cons b p => simp [follow, hj] at h
  | @node j l k tl tr hj _ _ _ _ ihl ihr =>
    cases p with
    | nil => simp [follow] at h; subst h; rw [hi] at hj; cases hj
    | cons b p =>
      simp only [follow, hj] at h
      rw [Tree.paths, List.nil_append, List.nil_append, List.mem_append, Tree.paths_append tl,
        Tree.paths_append tr]
      cases b
      · left; exact List.mem_map.2 ⟨(s, p), ihl (by simpa using h), rfl⟩
      · right; exact List.mem_map.2 ⟨(s, p), ihr (by simpa using h), rfl⟩

/-- A path of the tree leads to a leaf of its symbol in the arena. -/
theorem follow_of_paths {nodes : List Node} {r : Nat} {t : Tree} (ht : IsTree nodes r t) {s : Byte}
    {p : Bits} (h : (s, p) ∈ t.paths []) : ∃ i, follow nodes r p = some i ∧ isLeafOf nodes i s := by
  induction ht generalizing p with
  | @leaf j _ f hj =>
    simp [Tree.paths] at h
    obtain ⟨rfl, rfl⟩ := h
    exact ⟨j, rfl, f, hj⟩
  | node hj _ _ _ _ ihl ihr =>
    rcases Tree.paths_head_node h with ⟨d, hd, he⟩ | ⟨d, hd, he⟩ <;> cases he
    · obtain ⟨i, h3, h4⟩ := ihl hd
      exact ⟨i, by simp [follow, hj, h3], h4⟩
    · obtain ⟨i, h3, h4⟩ := ihr hd
      exact ⟨i, by simp [follow, hj, h3], h4⟩

theorem Tree.path_ne_nil {tl tr : Tree} {e : Byte × Bits} (h : e ∈ (Tree.node tl tr).paths []) :
    e.2 ≠ [] := by
  rcases Tree.paths_head_node h with ⟨d, -, rfl⟩ | ⟨d, -, rfl⟩ <;> simp

/-- The codes of R180 and R182, in the arena and in the tree. -/
theorem isCodeOf_iff {nodes : List Node} {r : Nat} {t : Tree} (ht : IsTree nodes r t) {s : Byte}
    {p : Bits} : isCodeOf nodes (some r) s p ↔ (s, p) ∈ t.codes := by
  cases ht with
  | @leaf _ s' f hr =>
    simp only [isCodeOf, Option.some.injEq, exists_eq_left', Tree.codes, List.mem_singleton, Prod.mk.injEq]
    constructor
    · rintro (⟨⟨f', h⟩, rfl⟩ | ⟨hp, i, h, -⟩)
      · rw [hr] at h; cases h; exact ⟨rfl, rfl⟩
      · cases p with
        | nil => exact absurd rfl hp
        | cons b p => simp [follow, hr] at h
    · rintro ⟨rfl, rfl⟩
      exact .inl ⟨⟨f, hr⟩, rfl⟩
  | @node _ l k tl tr hr h1 h2 h3 h4 =>
    simp only [isCodeOf, Option.some.injEq, exists_eq_left', Tree.codes]
    constructor
    · rintro (⟨⟨f', h⟩, -⟩ | ⟨-, i, h, f, hi⟩)
      · rw [hr] at h; cases h
      · exact follow_mem_paths (.node hr h1 h2 h3 h4) hi h
    · intro h
      exact .inr ⟨Tree.path_ne_nil h, follow_of_paths (.node hr h1 h2 h3 h4) h⟩

/-- A frequency table has one code table. -/
theorem isCodeTable.unique {freq : Table Word32} {c d : Table (Option Bits)} (hc : isCodeTable freq c)
    (hd : isCodeTable freq d) : c = d := by
  refine Table.ext fun b => Option.ext fun p => ?_
  rw [hc b p, hd b p]

/-- The table of a built tree is its code table. -/
theorem CodesOk.isCodeTable {w : Work} {t : Option Tree} (h : CodesOk w t) (hb : isBuilt w) :
    isCodeTable w.freq w.code := by
  intro sym p
  rw [h.tget_iff, ← hb.1, ← hb.2]
  cases t with
  | none =>
    rw [h.root.1]
    simp [isCodeOf]
  | some u =>
    obtain ⟨r, h1, h2, -⟩ := h.root
    rw [h1, isCodeOf_iff h2]
    simp

/-- R180 on a built tree. -/
theorem generateCodes_built {w : Work} (hb : isBuilt w) :
    ∃ c t, generateCodes w = .ok (w.setCode c) ∧ CodesOk (w.setCode c) t ∧ Machine.isCodeTable w.freq c := by
  obtain ⟨h0, h1⟩ := isBuilt_tree hb
  suffices h : ∃ c t, generateCodes w = .ok (w.setCode c) ∧ CodesOk (w.setCode c) t by
    obtain ⟨c, t, h2, h3⟩ := h
    exact ⟨c, t, h2, h3, h3.isCodeTable hb⟩
  cases hr : w.root with
  | none =>
    exact ⟨_, none, generateCodes_empty hr, ⟨⟨hr, h0.1 hr⟩, by simp [setCodes]⟩⟩
  | some r =>
    obtain ⟨-, -, t, ht, hl⟩ := h1 r hr
    have hlen : t.leaves.length ≤ 256 := by
      rw [hl.length_eq, countedLeaves_length]; exact counted_length _
    exact ⟨_, some t, generateCodes_eq hr ht hlen, ⟨⟨r, hr, ht, hl⟩, rfl⟩⟩

/-- A symbol has a code exactly when its count is not zero, and every code has length 1 to 255 (R184). -/
theorem isCodeTable.coded_iff {freq : Table Word32} {c : Table (Option Bits)}
    (hc : Machine.isCodeTable freq c) : (∀ b, tget c b = none ↔ tget freq b = 0) ∧
      ∀ b p, tget c b = some p → 1 ≤ p.length ∧ p.length ≤ 255 := by
  obtain ⟨d, t, -, h2, h3⟩ := generateCodes_built
    (w := { Work.reset with freq := freq, nodes := (refTree freq).1, root := (refTree freq).2 }) ⟨rfl, rfl⟩
  cases hc.unique h3
  refine ⟨fun b => ?_, fun b p hp => ?_⟩
  · have := h2.coded_iff (b := b)
    rw [← not_iff_not, ← ne_eq, ← ne_eq, Option.ne_none_iff_exists']
    exact this
  · obtain ⟨u, rfl, h4⟩ := h2.tget_iff.1 hp
    obtain ⟨r, -, -, h5⟩ := h2.root
    exact Tree.codes_length (by rw [h5.length_eq, countedLeaves_length]; exact counted_length _) _ h4

end Sys2Proof.Machine
end

