-- ==== Sys2Proof/Laws/Ends.lean ====
section
/-! SUPPORT. The ends of a command (48_control.md R354, R355) as Safety.lean's `endState`, the checks of
R65 and R66 that raise, and what DECODE reads. -/

namespace Sys2Proof.Machine

theorem Header.misc_eq (h : Header) : h.misc = refMisc h := by
  apply BitVec.eq_of_toNat_eq
  have a1 := h.checksum.isLt
  have a2 := h.entryCount.isLt
  have a3 := h.paddingBits.isLt
  have a4 := h.reserved.isLt
  have e1 : ∀ x y i : Nat, x < 2 ^ i → x ||| (y <<< i) = x + 2 ^ i * y := fun x y i hx => by
    rw [Nat.or_comm, ← Nat.shiftLeft_add_eq_or_of_lt hx, Nat.shiftLeft_eq]; ring
  rw [Header.misc, refMisc]
  simp only [BitVec.toNat_or, BitVec.toNat_shiftLeft, BitVec.zeroExtend_eq_setWidth,
    BitVec.toNat_setWidth, BitVec.toNat_ofNat]
  rw [Nat.mod_eq_of_lt (a := h.checksum.toNat) (by omega),
    Nat.mod_eq_of_lt (a := h.entryCount.toNat) (by omega),
    Nat.mod_eq_of_lt (a := h.paddingBits.toNat) (by omega),
    Nat.mod_eq_of_lt (a := h.reserved.toNat) (by omega),
    Nat.mod_eq_of_lt (a := h.entryCount.toNat <<< 32) (by rw [Nat.shiftLeft_eq]; omega),
    Nat.mod_eq_of_lt (a := h.paddingBits.toNat <<< 48) (by rw [Nat.shiftLeft_eq]; omega),
    Nat.mod_eq_of_lt (a := h.reserved.toNat <<< 56) (by rw [Nat.shiftLeft_eq]; omega),
    e1 _ _ 32 (by omega), e1 _ _ 48 (by omega), e1 _ _ 56 (by omega), Nat.mod_eq_of_lt (by omega)]

section EndState
variable (s : State) (r : Regs) (w : Work) (m : Memory) (h : Header) (status len crc : Word64)

@[simp] theorem endState_par : (endState s r w m).par = s.par := rfl
@[simp] theorem endState_phase : (endState s r w m).phase = .idle := rfl
@[simp] theorem endState_stuck : (endState s r w m).stuck = s.stuck := rfl
@[simp] theorem endState_regs : (endState s r w m).regs = r := rfl
@[simp] theorem endState_latch : (endState s r w m).latch = s.latch := rfl
@[simp] theorem endState_work : (endState s r w m).work = w := rfl
@[simp] theorem endState_mem : (endState s r w m).mem = m := rfl
@[simp] theorem endState_ret : (endState s r w m).ret = s.ret := rfl
@[simp] theorem endState_inbox : (endState s r w m).inbox = s.inbox := rfl
@[simp] theorem endState_observed : (endState s r w m).observed = s.observed := rfl
@[simp] theorem endState_busyLeft : (endState s r w m).busyLeft = 0 := rfl
@[simp] theorem endState_draws : (endState s r w m).draws = s.draws := rfl
@[simp] theorem endState_src : (endState s r w m).src = s.src := rfl
@[simp] theorem endState_srclen : (endState s r w m).srclen = s.srclen := rfl
@[simp] theorem endState_dst : (endState s r w m).dst = s.dst := rfl
@[simp] theorem endState_cap : (endState s r w m).cap = s.cap := rfl
@[simp] theorem blankRegs_status : (blankRegs r status).status = status := rfl
@[simp] theorem blankRegs_srcAddr : (blankRegs r status).srcAddr = r.srcAddr := rfl
@[simp] theorem blankRegs_srcLen : (blankRegs r status).srcLen = r.srcLen := rfl
@[simp] theorem blankRegs_dstAddr : (blankRegs r status).dstAddr = r.dstAddr := rfl
@[simp] theorem blankRegs_dstCap : (blankRegs r status).dstCap = r.dstCap := rfl
@[simp] theorem blankRegs_resultLen : (blankRegs r status).resultLen = 0 := rfl
@[simp] theorem blankRegs_hdrOrig : (blankRegs r status).hdrOrig = 0 := rfl
@[simp] theorem blankRegs_hdrComp : (blankRegs r status).hdrComp = 0 := rfl
@[simp] theorem blankRegs_hdrMisc : (blankRegs r status).hdrMisc = 0 := rfl
@[simp] theorem blankRegs_crcCalc : (blankRegs r status).crcCalc = 0 := rfl
@[simp] theorem reportRegs_status : (reportRegs r h status len crc).status = status := rfl
@[simp] theorem reportRegs_srcAddr : (reportRegs r h status len crc).srcAddr = r.srcAddr := rfl
@[simp] theorem reportRegs_srcLen : (reportRegs r h status len crc).srcLen = r.srcLen := rfl
@[simp] theorem reportRegs_dstAddr : (reportRegs r h status len crc).dstAddr = r.dstAddr := rfl
@[simp] theorem reportRegs_dstCap : (reportRegs r h status len crc).dstCap = r.dstCap := rfl
@[simp] theorem reportRegs_resultLen : (reportRegs r h status len crc).resultLen = len := rfl
@[simp] theorem reportRegs_hdrOrig : (reportRegs r h status len crc).hdrOrig = h.originalSize := rfl
@[simp] theorem reportRegs_hdrComp : (reportRegs r h status len crc).hdrComp = h.compressedSize := rfl
@[simp] theorem reportRegs_hdrMisc : (reportRegs r h status len crc).hdrMisc = refMisc h := rfl
@[simp] theorem reportRegs_crcCalc : (reportRegs r h status len crc).crcCalc = crc := rfl

end EndState

/-- A successful end that reports a header (R36 (a), (c)). -/
theorem complete_report (len : Nat) (s : State) (h : Header) (c : Word64) (r : Regs)
    (hr : s.regs = { setHeaderRegs h r with crcCalc := c }) :
    complete len s = endState s (reportRegs r h 0x2 (BitVec.ofNat 64 len) c) s.work s.mem := by
  rw [complete, endCommand, endState, reportRegs, ← h.misc_eq, State.setRegs_regs, hr]
  rfl

/-- An error of DECODE after the header was read (R313). -/
theorem raiseEnd_report {k : ErrKind} {d : Byte} {s : State} {h : Header} {r : Regs}
    (hb : beforeHeader ⟨k, d⟩ = false) (hk : k ≠ .checksumMismatch) (hr : s.regs = setHeaderRegs h r) :
    raiseEnd clearDecode ⟨k, d⟩ s =
      endState s (reportRegs r h (statusError ⟨k, d⟩) 0 0) s.work s.mem := by
  simp only [raiseEnd, endCommand, endState, reportRegs, ← h.misc_eq, clearDecode, hb, hk, hr, if_false]
  rfl

/-- CHECKSUM_MISMATCH keeps the CRC32 of the output (R312, R313). -/
theorem raiseEnd_mismatch {d : Byte} {s : State} {h : Header} {r : Regs} {c : Word64}
    (hr : s.regs = { setHeaderRegs h r with crcCalc := c }) :
    raiseEnd clearDecode ⟨.checksumMismatch, d⟩ s =
      endState s (reportRegs r h (statusError ⟨.checksumMismatch, d⟩) 0 c) s.work s.mem := by
  simp only [raiseEnd, endCommand, endState, reportRegs, ← h.misc_eq, clearDecode, hr]
  rfl

/-- An error of DECODE before the header was read (R36 (d)). -/
theorem raiseEnd_blank {k : ErrKind} {d : Byte} {s : State} (hb : beforeHeader ⟨k, d⟩ = true) :
    raiseEnd clearDecode ⟨k, d⟩ s =
      endState s (blankRegs s.regs (statusError ⟨k, d⟩)) s.work s.mem := by
  have hk : k ≠ .checksumMismatch := by rintro rfl; simp [beforeHeader] at hb
  simp only [raiseEnd, endCommand, endState, blankRegs, clearDecode, hb, hk, if_true, if_false]
  rfl

/-- An error of ENCODE (R271). -/
theorem raiseEnd_encode (e : Err) (s : State) :
    raiseEnd clearEncode e s = endState s (blankRegs s.regs (statusError e)) s.work s.mem := rfl

theorem coded_iff {code : Table (Option Bits)} {bs : List Byte} :
    coded code bs ↔ ∀ b ∈ bs, ∃ c, tget code b = some c := by
  simp only [coded, ← Option.ne_none_iff_exists']

/-- The three checks of R65 and R66 that raise. -/
theorem checks_raise {s : State} {d : Byte}
    (h : ((2 ^ s.par.addrW ≤ s.src ∨ 2 ^ s.par.addrW < s.src + s.srclen) ∧ d = 1) ∨
      ((s.src < 2 ^ s.par.addrW ∧ s.src + s.srclen ≤ 2 ^ s.par.addrW ∧
        (2 ^ s.par.addrW ≤ s.dst ∨ 2 ^ s.par.addrW < s.dst + s.cap)) ∧ d = 2) ∨
      ((s.src < 2 ^ s.par.addrW ∧ s.src + s.srclen ≤ 2 ^ s.par.addrW ∧ s.dst < 2 ^ s.par.addrW ∧
        s.dst + s.cap ≤ 2 ^ s.par.addrW ∧ 0 < s.srclen ∧ 0 < s.cap ∧ s.src < s.dst + s.cap ∧
        s.dst < s.src + s.srclen) ∧ d = 3))
    {f : Except Halt State} :
    (rangeCheck s >>= fun _ => overlapCheck s >>= fun _ => f) = .error (.raised ⟨.param, d⟩ s) := by
  rcases h with ⟨h, rfl⟩ | ⟨⟨h1, h2, h⟩, rfl⟩ | ⟨⟨h1, h2, h3, h4, h5⟩, rfl⟩
  · rw [rangeCheck, if_pos h]; rfl
  · rw [rangeCheck, if_neg (by omega), if_pos h]; rfl
  · rw [(rangeCheck_eq_ok).2 ⟨h1, h2, h3, h4⟩, ok_bind, overlapCheck, if_pos h5]; rfl

/-- The counts of a message's bytes give each of them a code (R181). -/
theorem coded_of_counts {freq : Table Word32} {code : Table (Option Bits)} {bs : List Byte}
    (hc : Counts freq bs) (ht : isCodeTable freq code) : coded code bs := by
  intro b hb h0
  rw [ht.coded_iff.1] at h0
  have h1 := hc b
  rw [h0] at h1
  exact absurd h1 (Nat.ne_of_lt (List.count_pos_iff.2 hb))

/-- Two tables that count the same bytes are equal. -/
theorem Counts.unique {t u : Table Word32} {bs : List Byte} (ht : Counts t bs) (hu : Counts u bs) :
    t = u := Table.ext fun b => BitVec.eq_of_toNat_eq ((ht b).trans (hu b).symm)

/-! ### Reading the header (R96, R97) and the extent (R307) -/

/-- A field of the bytes read from an address is the value of the field's own bytes. -/
theorem field_readRange (m : Memory) (a k o n : Nat) (h : o + n ≤ k) :
    field (m.readRange a k) o n = leValue (m.readRange (a + o) n) := by
  have hk : k = o + (n + (k - o - n)) := by omega
  rw [hk, field, Memory.readRange_append, Memory.readRange_append, List.drop_left' (by simp),
    List.take_left' (by simp)]

/-- R63 as a sum. -/
theorem leValue_readRange (m : Memory) (a n : Nat) :
    leValue (m.readRange a n) = ((List.range n).map fun i => (m.read (a + i)).toNat * 2 ^ (8 * i)).sum := by
  induction n generalizing a with
  | zero => rfl
  | succ n ih =>
    rw [Memory.readRange, leValue, ih, List.range_succ_eq_map, List.map_cons, List.sum_cons,
      List.map_map, ← List.sum_map_mul_left]
    congr 1
    · simp
    · congr 1
      refine List.map_congr_left fun i _ => ?_
      simp only [Function.comp]
      rw [show a + 1 + i = a + (i + 1) by omega, show 8 * (i + 1) = 8 * i + 8 by ring, pow_add]
      ring

theorem leValue_readRange_lt (m : Memory) (a n : Nat) : leValue (m.readRange a n) < 256 ^ n := by
  have := leValue_lt (m.readRange a n)
  rwa [Memory.readRange_length] at this

theorem checkPayloadExtent_eq (k cs pad : Nat) (s : State) : checkPayloadExtent k cs pad s =
    if s.srclen < 30 + 5 * k + cs then throwErr .format 9 s
    else if 30 + 5 * k + cs < s.srclen then throwErr .format 10 s
    else if cs = 0 ∧ pad ≠ 0 then throwErr .format 11 s
    else .ok (8 * cs - pad) := rfl

/-- A tree of two or more symbols has an internal node as its root (R163). -/
theorem isBuilt_node {w : Work} (hb : isBuilt w) (h2 : 2 ≤ (refLeaves w.freq).length) :
    ∃ r tl tr, w.root = some r ∧ IsTree w.nodes r (.node tl tr) ∧
      (Tree.node tl tr).leaves.Perm (countedLeaves w.freq) := by
  obtain ⟨h0, h1⟩ := isBuilt_tree hb
  rw [refLeaves_length] at h2
  cases hr : w.root with
  | none => rw [h0.1 hr] at h2; simp at h2
  | some r =>
    obtain ⟨-, -, t, ht, hl⟩ := h1 r hr
    cases t with
    | leaf a b =>
      have := hl.length_eq
      simp [Tree.leaves] at this
      omega
    | node tl tr => exact ⟨r, tl, tr, rfl, ht, hl⟩

end Sys2Proof.Machine
end

