-- ==== Sys2Proof/Laws/DecodeEnds.lean ====
section
/-! SUPPORT. DECODE on a container that R301 to R307 accept, as one equation. -/

namespace Sys2Proof.Machine

/-- What DECODE latches first (R352). -/
def State.setVerify (s : State) (b : Bool) : State := s.setLatch { s.latch with verify := b }

section SetVerify
variable (s : State) (b : Bool)

@[simp] theorem State.setVerify_par : (s.setVerify b).par = s.par := rfl
@[simp] theorem State.setVerify_mem : (s.setVerify b).mem = s.mem := rfl
@[simp] theorem State.setVerify_regs : (s.setVerify b).regs = s.regs := rfl
@[simp] theorem State.setVerify_work : (s.setVerify b).work = s.work := rfl
@[simp] theorem State.setVerify_src : (s.setVerify b).src = s.src := rfl
@[simp] theorem State.setVerify_srclen : (s.setVerify b).srclen = s.srclen := rfl
@[simp] theorem State.setVerify_dst : (s.setVerify b).dst = s.dst := rfl
@[simp] theorem State.setVerify_cap : (s.setVerify b).cap = s.cap := rfl
@[simp] theorem State.setVerify_verify : (s.setVerify b).latch.verify = b := rfl

@[simp] theorem sourceHeader_setVerify : sourceHeader (s.setVerify b) = sourceHeader s := by
  rw [sourceHeader, sourceHeader, State.setVerify_mem, State.setVerify_src]

@[simp] theorem sourceEntries_setVerify : sourceEntries (s.setVerify b) = sourceEntries s := by
  rw [sourceEntries, sourceEntries, sourceHeader_setVerify, State.setVerify_mem, State.setVerify_src]

@[simp] theorem sourcePayload_setVerify : sourcePayload (s.setVerify b) = sourcePayload s := by
  rw [sourcePayload, sourcePayload, sourceHeader_setVerify, State.setVerify_src]

@[simp] theorem sourceL_setVerify : sourceL (s.setVerify b) = sourceL s := by
  rw [sourceL, sourceL, sourceHeader_setVerify]

theorem buffersOk_setVerify : buffersOk (s.setVerify b) ↔ buffersOk s := Iff.rfl

theorem containerOk_setVerify : containerOk (s.setVerify b) ↔ containerOk s := by
  simp only [containerOk, sourceHeader_setVerify, sourceEntries_setVerify, State.setVerify_par,
    State.setVerify_srclen]

end SetVerify

section Container
variable {s : State} {skip : Bool}

/-- The counted symbols of a table are its entries. -/
theorem IsTableOf.perm {t : Table Word32} {es : List (Byte × Word32)} (h : IsTableOf t es)
    (hok : tableOk es) : (counted t).Perm es := by
  refine (List.perm_ext_iff_of_nodup (List.Nodup.of_map _ (counted_syms_nodup t))
    (List.Nodup.of_map _ hok.2)).2 ?_
  rintro ⟨b, f⟩
  rw [mem_counted]
  constructor
  · rintro ⟨h1, h2⟩
    by_cases hb : b ∈ es.map Prod.fst
    · obtain ⟨e, he, rfl⟩ := List.mem_map.1 hb
      rw [h.1 e he] at h1
      subst h1
      exact he
    · exact absurd ((h.2 b hb).symm.trans h1) (Ne.symm h2)
  · intro he
    exact ⟨h.1 _ he, hok.1 _ he⟩

/-- The payload lies in the source buffer. -/
theorem payload_extent (hc : containerOk s) :
    s.src ≤ sourcePayload s ∧ sourcePayload s + (sourceL s + 7) / 8 ≤ s.src + s.srclen := by
  obtain ⟨-, -, -, -, -, h, -⟩ := hc
  rw [sourceL, sourcePayload]
  constructor <;> omega

/-- The payload and the output share no byte. -/
theorem payload_disjoint (hb : buffersOk s) (hc : containerOk s) {n : Nat} (hn : n ≤ s.cap) :
    ∀ x, sourcePayload s ≤ x → x < sourcePayload s + (sourceL s + 7) / 8 → x < s.dst ∨ s.dst + n ≤ x := by
  intro x h1 h2
  obtain ⟨h3, h4⟩ := payload_extent hc
  obtain ⟨-, -, -, -, h5⟩ := hb
  omega

/-- R300 from the tree on: the checks of R308 and R309, the output, the verification, the end. -/
theorem decode_parsed (hb : buffersOk s) (hc : containerOk s) (hsrc : Reachable s.par s.src s.srclen) :
    ∃ t v, IsTableOf t (sourceEntries s) ∧ isBuilt v ∧ v.freq = t ∧
      exec (.decode skip) s = outcome clearDecode (
        if v.root = none ∧ (sourceHeader s).originalSize.toNat ≠ 0 then
          throwErr .format 12 (decodedAt (s.setVerify (!skip)) v)
        else if s.cap < (sourceHeader s).originalSize.toNat then
          throwErr .resource 1 (decodedAt (s.setVerify (!skip)) v)
        else emitOutput (sourcePayload s) (sourceL s) (sourceHeader s).originalSize.toNat
            (decodedAt (s.setVerify (!skip)) v)
          >>= fun p => verifyOutput p.1 (sourceHeader s).checksum
            (sourceHeader s).originalSize.toNat p.2 >>= fun u =>
              .ok (complete (sourceHeader s).originalSize.toNat u)) := by
  obtain ⟨t, seen, v, h1, h2, h3⟩ := decodeCommand_parsed ((buffersOk_setVerify s (!skip)).2 hb)
    ((containerOk_setVerify s (!skip)).2 hc) hsrc
  rw [sourceHeader_setVerify, sourcePayload_setVerify, sourceL_setVerify, State.setVerify_cap] at h3
  rw [sourceEntries_setVerify] at h1
  refine ⟨t, v, h1, isBuilt_of_buildTree h2, ?_, ?_⟩
  · rw [buildTree_ref] at h2
    cases h2
    rfl
  · rw [← h3]
    rfl

section DecodedAt
variable (s : State) (v : Work)

@[simp] theorem decodedAt_regs : (decodedAt s v).regs = setHeaderRegs (sourceHeader s) s.regs := by
  rw [decodedAt, State.setWork_regs, State.setRegs_regs]

@[simp] theorem decodedAt_work : (decodedAt s v).work = v := by rw [decodedAt, State.setWork_work]

@[simp] theorem decodedAt_mem : (decodedAt s v).mem = s.mem := by
  rw [decodedAt, State.setWork_mem, State.setRegs_mem]

@[simp] theorem decodedAt_par : (decodedAt s v).par = s.par := by
  rw [decodedAt, State.setWork_par, State.setRegs_par]

@[simp] theorem decodedAt_latch : (decodedAt s v).latch = s.latch := by
  rw [decodedAt, State.setWork_latch, State.setRegs_latch]

@[simp] theorem decodedAt_dst : (decodedAt s v).dst = s.dst := by rw [State.dst, decodedAt_latch, State.dst]

/-- An end state reads the latch, the parameters, the host's fields and the counters of its base. -/
theorem endState_decodedAt (b : Bool) (r : Regs) (w : Work) (m : Memory) :
    endState (decodedAt (s.setVerify b) v) r w m =
      { endState s r w m with latch := { s.latch with verify := b } } := by
  rw [decodedAt]
  generalize setHeaderRegs _ _ = h
  rfl

/-- The end of DECODE with these registers, working state and memory. -/
abbrev decodeEnd (s : State) (skip : Bool) (r : Regs) (w : Work) (m : Memory) : State :=
  { endState s r w m with latch := { s.latch with verify := !skip } }

/-- The state of a DECODE that has written output. -/
theorem outputAt_end (skip : Bool) (u w w' : Work) (r r' : Regs) (m : Memory) :
    endState (((((decodedAt (s.setVerify (!skip)) v).setWork w).setMem m).setWork w').setRegs r) r' u m =
      decodeEnd s skip r' u m := by
  rw [decodedAt]
  generalize setHeaderRegs _ _ = h
  rfl

/-- R312 passes, or is not asked for: the successful end. -/
theorem verify_complete (skip : Bool) (w : Work) (m : Memory) (out : List Byte) (orig : Nat)
    (hv : skip = true ∨ refCrc32 out = (sourceHeader s).checksum) :
    ∃ w', outcome clearDecode (verifyOutput out (sourceHeader s).checksum orig
        (((decodedAt (s.setVerify (!skip)) v).setWork w).setMem m) >>= fun u =>
          .ok (complete orig u)) =
      .next (decodeEnd s skip (reportRegs s.regs (sourceHeader s) 0x2 (BitVec.ofNat 64 orig)
        (if skip then 0 else (refCrc32 out).zeroExtend 64)) w' m) := by
  have hl : (((decodedAt (s.setVerify (!skip)) v).setWork w).setMem m).latch.verify = !skip := by
    rw [State.setMem_latch, State.setWork_latch, decodedAt_latch, State.setVerify_verify]
  have hr : (((decodedAt (s.setVerify (!skip)) v).setWork w).setMem m).regs =
      setHeaderRegs (sourceHeader s) s.regs := by
    rw [State.setMem_regs, State.setWork_regs, decodedAt_regs, sourceHeader_setVerify,
      State.setVerify_regs]
  have hw : (((decodedAt (s.setVerify (!skip)) v).setWork w).setMem m).work = w := by
    rw [State.setMem_work, State.setWork_work]
  rw [verifyOutput_eq, hl, hr, hw]
  cases skip with
  | true =>
    refine ⟨w, ?_⟩
    rw [if_neg (by simp), ok_bind, outcome_ok, complete_report _ _ (sourceHeader s) 0 s.regs
      (by rw [State.setRegs_regs])]
    rw [State.setRegs_work, State.setMem_work, State.setWork_work, State.setRegs_mem, State.setMem_mem]
    have := outputAt_end s v true w w w { setHeaderRegs (sourceHeader s) s.regs with crcCalc := 0 }
      (reportRegs s.regs (sourceHeader s) 0x2 (BitVec.ofNat 64 orig) 0) m
    rw [← if_pos (c := true = true) (e := (refCrc32 out).zeroExtend 64) (t := (0 : Word64)) rfl] at this
    exact congrArg _ this
  | false =>
    refine ⟨crcRun out (crcInit w), ?_⟩
    have hc : refCrc32 out = (sourceHeader s).checksum := by simpa using hv
    rw [if_pos (by simp)]
    simp only [if_pos hc, ok_bind, outcome_ok]
    rw [complete_report _ _ (sourceHeader s) ((refCrc32 out).zeroExtend 64) s.regs
      (by rw [State.setRegs_regs])]
    rw [State.setRegs_work, State.setWork_work, State.setRegs_mem, State.setWork_mem, State.setMem_mem]
    generalize crcRun out (crcInit w) = w'
    generalize (refCrc32 out).zeroExtend 64 = c
    exact congrArg _ (outputAt_end s v false w' w w' { setHeaderRegs (sourceHeader s) s.regs with crcCalc := c }
      (reportRegs s.regs (sourceHeader s) 0x2 (BitVec.ofNat 64 orig) c) m)

/-- An error after the table and before the output (R308, R309). -/
theorem raise_decodedAt (skip : Bool) {k : ErrKind} {d : Byte} (hb : beforeHeader ⟨k, d⟩ = false)
    (hk : k ≠ .checksumMismatch) :
    outcome clearDecode (throwErr k d (decodedAt (s.setVerify (!skip)) v)) =
      .next (decodeEnd s skip (reportRegs s.regs (sourceHeader s) (statusError ⟨k, d⟩) 0 0) v s.mem) := by
  have hr : (decodedAt (s.setVerify (!skip)) v).regs = setHeaderRegs (sourceHeader s) s.regs := by
    rw [decodedAt_regs, sourceHeader_setVerify, State.setVerify_regs]
  rw [throwErr, outcome_raised, raiseEnd_report hb hk hr, endState_decodedAt, decodedAt_work, decodedAt_mem,
    State.setVerify_mem]

/-- CORRUPT_STREAM, with what it leaves of DST (R311, R313). -/
theorem corrupt_at (skip : Bool) (w : Work) (m : Memory) (d : Byte) (orig : Nat) (hm : m.wf)
    (f : List Byte × State → Except Halt State) :
    ∃ m' n, outcome clearDecode (throwCorrupt .corruptStream d orig
        (((decodedAt (s.setVerify (!skip)) v).setWork w).setMem m) >>= f) =
      .next { decodeEnd s skip (reportRegs s.regs (sourceHeader s) (statusError ⟨.corruptStream, d⟩) 0 0) w m'
        with draws := n } ∧ sameOutside m m' s.dst orig := by
  have hr : (scramble (((decodedAt (s.setVerify (!skip)) v).setWork w).setMem m) s.dst orig).regs =
      setHeaderRegs (sourceHeader s) s.regs := by
    rw [scramble_regs, State.setMem_regs, State.setWork_regs, decodedAt_regs, sourceHeader_setVerify,
      State.setVerify_regs]
  have hd : (((decodedAt (s.setVerify (!skip)) v).setWork w).setMem m).dst = s.dst := by
    rw [State.dst, State.setMem_latch, State.setWork_latch, decodedAt_latch]
    rfl
  refine ⟨(scramble (((decodedAt (s.setVerify (!skip)) v).setWork w).setMem m) s.dst orig).mem,
    (scramble (((decodedAt (s.setVerify (!skip)) v).setWork w).setMem m) s.dst orig).draws, ?_, ?_⟩
  · rw [throwCorrupt, throwErr, hd, error_bind, outcome_raised, raiseEnd_report rfl (by decide) hr,
      scramble_work, State.setMem_work, State.setWork_work]
    rw [decodedAt]
    generalize setHeaderRegs _ _ = h
    generalize reportRegs _ _ _ _ _ = r
    rfl
  · intro x hx
    rw [scramble_read _ _ (by rw [State.setMem_mem]; exact hm) hx, State.setMem_mem]

/-- A walk's state, as the other lemmas of this section have it. -/
theorem walkAt_decodedAt (b : Bool) (base len p n e : Nat) (m : Memory) :
    walkAt (decodedAt (s.setVerify b) v) base len m p n e =
      ((decodedAt (s.setVerify b) v).setWork ((v.setUp ⟨base, p, len⟩).setWk ⟨n, e⟩)).setMem m := by
  rw [walkAt, decodedAt]
  generalize setHeaderRegs _ _ = h
  rfl

/-- CHECKSUM_MISMATCH (R312, R313). -/
theorem mismatch_at (w : Work) (m : Memory) (out : List Byte) (orig : Nat) (hm : m.wf)
    (hv : refCrc32 out ≠ (sourceHeader s).checksum) :
    ∃ w' m' n, outcome clearDecode (verifyOutput out (sourceHeader s).checksum orig
        (((decodedAt (s.setVerify true) v).setWork w).setMem m) >>= fun u => .ok (complete orig u)) =
      .next { decodeEnd s false (reportRegs s.regs (sourceHeader s) 0x136 0
        ((refCrc32 out).zeroExtend 64)) w' m' with draws := n } ∧ sameOutside m m' s.dst orig := by
  have hl : (((decodedAt (s.setVerify true) v).setWork w).setMem m).latch.verify = true := by
    rw [State.setMem_latch, State.setWork_latch, decodedAt_latch, State.setVerify_verify]
  have hr : (((decodedAt (s.setVerify true) v).setWork w).setMem m).regs =
      setHeaderRegs (sourceHeader s) s.regs := by
    rw [State.setMem_regs, State.setWork_regs, decodedAt_regs, sourceHeader_setVerify,
      State.setVerify_regs]
  have hw : (((decodedAt (s.setVerify true) v).setWork w).setMem m).work = w := by
    rw [State.setMem_work, State.setWork_work]
  have hd : (((decodedAt (s.setVerify true) v).setWork w).setMem m).dst = s.dst := by
    rw [State.dst, State.setMem_latch, State.setWork_latch, decodedAt_latch]
    rfl
  rw [verifyOutput_eq, hl, hr, hw, if_pos rfl]
  simp only [if_neg hv]
  generalize crcRun out (crcInit w) = w'
  generalize (refCrc32 out).zeroExtend 64 = c
  generalize hu : ((((decodedAt (s.setVerify true) v).setWork w).setMem m).setWork w').setRegs
    { setHeaderRegs (sourceHeader s) s.regs with crcCalc := c } = u
  have hur : u.regs = { setHeaderRegs (sourceHeader s) s.regs with crcCalc := c } := by
    rw [← hu, State.setRegs_regs]
  have hum : u.mem = m := by rw [← hu, State.setRegs_mem, State.setWork_mem, State.setMem_mem]
  have hud : u.dst = s.dst := by
    rw [← hd, ← hu, State.dst, State.setRegs_latch, State.setWork_latch, State.dst]
  have hue : ∀ r w m n, { endState u r w m with draws := n } =
      { decodeEnd s false r w m with draws := n } := by
    intro r w m n
    have := outputAt_end s v false w w' w { setHeaderRegs (sourceHeader s) s.regs with crcCalc := c } r m
    clear hv hr hl hw hd hur hum hud
    subst hu
    rw [decodedAt]
    generalize setHeaderRegs _ _ = h
    generalize setHeaderRegs _ _ = h'
    rfl
  refine ⟨u.work, (scramble u s.dst orig).mem, (scramble u s.dst orig).draws, ?_, ?_⟩
  · rw [throwCorrupt, throwErr, hud, error_bind, outcome_raised,
      raiseEnd_mismatch (h := sourceHeader s) (r := s.regs) (c := c) (by rw [scramble_regs, hur]), scramble_work,
      ← hue]
    rfl
  · intro x hx
    rw [scramble_read _ _ (by rw [hum]; exact hm) hx, hum]

end DecodedAt

/-- DECODE of an accepted container of two or more symbols whose output fits is the walk on their tree, whose
paths are the codes (R300, R311). -/
theorem decode_walks {freq : Table Word32} {code : Table (Option Bits)} {skip : Bool} {s : State}
    (hb : buffersOk s) (hsrc : Reachable s.par s.src s.srclen) (hc : containerOk s)
    (ht : IsTableOf freq (sourceEntries s)) (h2 : 2 ≤ (sourceEntries s).length)
    (hct : isCodeTable freq code) (hcap : (sourceHeader s).originalSize.toNat ≤ s.cap) :
    ∃ v r tl tr, exec (.decode skip) s = outcome clearDecode (
        walk (sourcePayload s) (sourceL s) (sourceHeader s).originalSize.toNat
          (decodedAt (s.setVerify (!skip)) v)
        >>= fun p => verifyOutput p.1 (sourceHeader s).checksum
          (sourceHeader s).originalSize.toNat p.2 >>= fun u =>
            .ok (complete (sourceHeader s).originalSize.toNat u)) ∧
      v.root = some r ∧ IsTree v.nodes r (.node tl tr) ∧
      (∀ b c, tget code b = some c ↔ (b, c) ∈ (Tree.node tl tr).paths []) ∧
      Reachable s.par (sourcePayload s) ((sourceL s + 7) / 8) := by
  obtain ⟨t, v, p1, p2, p3, p4⟩ := decode_parsed (skip := skip) hb hc hsrc
  have hok : tableOk (sourceEntries s) := hc.2.2.2.2.2.2.1
  obtain rfl := p1.unique ht
  obtain ⟨r, tl, tr, hr, htree, -⟩ := isBuilt_node p2
    (by rw [p3, refLeaves_length, (p1.perm hok).length_eq]; exact h2)
  have he : emitOutput (sourcePayload s) (sourceL s) (sourceHeader s).originalSize.toNat
      (decodedAt (s.setVerify (!skip)) v) = walk (sourcePayload s) (sourceL s)
        (sourceHeader s).originalSize.toNat (decodedAt (s.setVerify (!skip)) v) := by
    rw [emitOutput, decodedAt_work, hr]
    cases htree with
    | node h => simp only [h]
  rw [if_neg (by rw [hr]; simp), if_neg (by omega), he] at p4
  refine ⟨v, r, tl, tr, p4, hr, htree, fun b c => ?_, ?_⟩
  · rw [hct b c, ← p3, ← p2.1, ← p2.2, hr, isCodeOf_iff htree]
    rfl
  · obtain ⟨x1, x2⟩ := payload_extent hc
    exact hsrc.sub x1 x2

/-- DECODE of an accepted container with an empty table and no output goes on to the verification (R308). -/
theorem decode_empty {skip : Bool} {s : State} (hb : buffersOk s) (hsrc : Reachable s.par s.src s.srclen)
    (hc : containerOk s) (he : sourceEntries s = []) (ho : (sourceHeader s).originalSize.toNat = 0) :
    ∃ v, exec (.decode skip) s = outcome clearDecode (
      verifyOutput [] (sourceHeader s).checksum (sourceHeader s).originalSize.toNat
        (((decodedAt (s.setVerify (!skip)) v).setWork v).setMem s.mem) >>= fun u =>
          .ok (complete (sourceHeader s).originalSize.toNat u)) := by
  obtain ⟨t, v, p1, p2, p3, p4⟩ := decode_parsed (skip := skip) hb hc hsrc
  have hl := p1.perm hc.2.2.2.2.2.2.1
  have hr := (isBuilt_tree p2).1.2 (List.length_eq_zero_iff.1 (by rw [p3, hl.length_eq, he]; rfl))
  rw [if_neg (by rw [ho]; simp), if_neg (by rw [ho]; exact Nat.not_lt_zero _), emitOutput, decodedAt_work,
    hr, ok_bind] at p4
  refine ⟨v, p4.trans ?_⟩
  rw [show ((decodedAt (s.setVerify (!skip)) v).setWork v).setMem s.mem =
    decodedAt (s.setVerify (!skip)) v by
      nth_rewrite 2 [← decodedAt_work (s.setVerify (!skip)) v]
      rw [State.setWork_self, ← State.setVerify_mem s (!skip), ← decodedAt_mem (s.setVerify (!skip)) v,
        State.setMem_self]]

/-- DECODE of an accepted container with one symbol fills the output with it (R310). -/
theorem decode_fills {skip : Bool} {s : State} {e : Byte × Word32} (hb : buffersOk s)
    (hsrc : Reachable s.par s.src s.srclen) (hc : containerOk s) (he : sourceEntries s = [e])
    (hcap : (sourceHeader s).originalSize.toNat ≤ s.cap) :
    ∃ v, exec (.decode skip) s = outcome clearDecode (
      fillLoop e.1 (sourceHeader s).originalSize.toNat
        ((decodedAt (s.setVerify (!skip)) v).setWork (v.setWk ⟨v.wk.node, 0⟩)) >>= fun p =>
        verifyOutput p.1 (sourceHeader s).checksum (sourceHeader s).originalSize.toNat p.2 >>= fun u =>
          .ok (complete (sourceHeader s).originalSize.toNat u)) := by
  obtain ⟨t, v, p1, p2, p3, p4⟩ := decode_parsed (skip := skip) hb hc hsrc
  have hl := p1.perm hc.2.2.2.2.2.2.1
  have hroot := isBuilt_tree p2
  rw [he] at hl
  have hcn := List.perm_singleton.1 hl
  rw [p3] at hroot
  obtain ⟨r, hr⟩ := Option.ne_none_iff_exists'.1 (show v.root ≠ none by rw [ne_eq, hroot.1, hcn]; simp)
  obtain ⟨-, -, tr, htr, hlv⟩ := hroot.2 r hr
  rw [countedLeaves, hcn] at hlv
  have hlv' := List.perm_singleton.1 hlv
  cases tr with
  | node tl tr =>
    have := congrArg List.length hlv'
    have h1 := Tree.leaves_length_pos tl
    have h2 := Tree.leaves_length_pos tr
    rw [Tree.leaves, List.length_append, List.length_singleton] at this
    omega
  | leaf x w =>
    cases htr with
    | leaf hn =>
      simp only [Tree.leaves, List.cons.injEq, Prod.mk.injEq, and_true] at hlv'
      rw [if_neg (by rw [hr]; simp), if_neg (by omega), emitOutput, decodedAt_work, hr] at p4
      simp only [hn] at p4
      rw [hlv'.1] at p4
      refine ⟨v, p4.trans ?_⟩
      rw [State.setWk, decodedAt_work]

end Container

/-! ### A container read back (R95 to R108) -/

/-- The stored entries are the entries whose bytes are stored. -/
theorem storedEntries_eq {m : Memory} {a : Nat} {es : List (Byte × Word32)}
    (h : m.readRange a (5 * es.length) = es.flatMap fun e => e.1 :: leBytes 4 e.2.toNat) :
    storedEntries m a es.length = es := by
  induction es generalizing a with
  | nil => rfl
  | cons e es ih =>
    rw [List.length_cons, Nat.mul_add_one, Nat.add_comm, Memory.readRange_append, List.flatMap_cons] at h
    obtain ⟨h1, h2⟩ := List.append_inj h (by simp)
    rw [List.length_cons, storedEntries, ih h2]
    have h3 : m.readRange a 5 = m.read a :: m.readRange (a + 1) 4 := rfl
    rw [h3, List.cons.injEq] at h1
    rw [h1.1, h1.2, leValue_leBytes_word e.2 4 (by decide)]

/-- The stream of a stored payload is its bit string (R107). -/
theorem streamBits_eq {m : Memory} {base : Nat} {bits : Bits}
    (h : m.readRange base ((bits.length + 7) / 8) = refPayload bits) :
    streamBits m base 0 bits.length = bits := by
  have hk : ∀ k n, k + n = bits.length → streamBits m base k n = bits.drop k := by
    intro k n hkn
    induction n generalizing k with
    | zero => rw [List.drop_eq_nil_of_le (by omega)]; rfl
    | succ n ih =>
      rw [streamBits, ih (k + 1) (by omega), List.drop_eq_getElem_cons (by omega : k < bits.length)]
      congr 1
      have h1 := congrArg (fun l => l[k / 8]?) h
      simp only [Memory.readRange_getElem?] at h1
      rw [if_pos (by omega), refPayload, List.getElem?_map, List.getElem?_range (by omega)] at h1
      rw [Option.some.inj h1]
      have h2 := refPayloadByte_bit bits k
      rw [streamBit] at h2
      rw [h2, List.getD_eq_getElem?_getD, List.getElem?_eq_getElem (by omega), Option.getD_some]
  exact hk 0 _ (by simp)

/-- A source that holds a container reads back as its header, its table and its bit string. -/
theorem container_read {u : State} {h : Header} {freq : Table Word32} {bits : Bits}
    (hb : sourceBytes u = refContainer h freq bits) (hk : h.entryCount.toNat = (counted freq).length)
    (hl : 8 * h.compressedSize.toNat - h.paddingBits.toNat = bits.length) :
    sourceHeader u = h ∧ sourceEntries u = counted freq ∧ sourceStream u = bits ∧
      u.srclen = 30 + 5 * (counted freq).length + (bits.length + 7) / 8 := by
  have hlen : u.srclen = 30 + 5 * (counted freq).length + (bits.length + 7) / 8 := by
    have := congrArg List.length hb
    simp only [sourceBytes, refContainer, List.length_append, refTable_length, refPayload_length,
      Memory.readRange_length, Header.toBytes_length] at this
    exact this
  rw [sourceBytes, hlen, Memory.readRange_append, Memory.readRange_append, refContainer] at hb
  obtain ⟨hb, h3⟩ := List.append_inj hb (by simp [refTable_length])
  obtain ⟨h1, h2⟩ := List.append_inj hb (by simp)
  have hh : sourceHeader u = h := by rw [sourceHeader, h1, Header.ofBytes_toBytes]
  refine ⟨hh, ?_, ?_, hlen⟩
  · rw [sourceEntries, hh, hk]
    exact storedEntries_eq h2
  · rw [sourceStream, sourcePayload, sourceL, hh, hl, hk]
    rw [← Nat.add_assoc] at h3
    exact streamBits_eq h3

end Sys2Proof.Machine
end

