-- ==== Sys2Proof/Laws/PerInstr.lean ====
section
/-! SUPPORT. One lemma for each instruction, for the statements made for all instructions: R93 refuses the
command word of a well-formed instruction exactly when the instruction is illegal_command; an internal
operation has no word (30_encoding.md R93, R94, R113). -/

namespace Sys2Proof.Laws.Encoded

/-- The instruction's command word, if it has one, is illegal by R93 exactly for illegal_command. -/
def Statement (i : Instr) : Prop :=
  i.wf = true → ∀ w, encodeWord i = some w →
    ((cmdBadOpcode w || cmdBadReserved w) = true ↔ ∃ v, i = .illegalCommand v)

theorem nop : Statement .nop := by
  intro _ w h
  cases h
  simp
  decide

theorem encode : Statement .encode := by
  intro _ w h
  cases h
  simp
  decide

theorem decode (skipVerify : Bool) : Statement (.decode skipVerify) := by
  intro _ w h
  cases h
  cases skipVerify <;> simp <;> decide

theorem illegalCommand (v : Word64) : Statement (.illegalCommand v) := by
  intro hw w h
  cases h
  refine ⟨fun _ => ⟨v, rfl⟩, fun _ => ?_⟩
  by_contra hc
  have := Machine.legal_words (Bool.eq_false_iff.2 hc)
  rcases this with h | h | h | h <;> simp [Instr.wf, h] at hw

theorem pqClear : Statement .pqClear := fun _ _ h => by cases h

theorem pqInsert (i : Nat) : Statement (.pqInsert i) := fun _ _ h => by cases h

theorem pqExtractMin : Statement .pqExtractMin := fun _ _ h => by cases h

theorem pqIsEmpty : Statement .pqIsEmpty := fun _ _ h => by cases h

theorem pqSize : Statement .pqSize := fun _ _ h => by cases h

theorem buildTreeLeaves : Statement .buildTreeLeaves := fun _ _ h => by cases h

theorem buildTreeMerges : Statement .buildTreeMerges := fun _ _ h => by cases h

theorem treeRebuild : Statement .treeRebuild := fun _ _ h => by cases h

theorem generateCodes : Statement .generateCodes := fun _ _ h => by cases h

theorem codeLookup (sym : Byte) : Statement (.codeLookup sym) := fun _ _ h => by cases h

theorem pkInit (base : Nat) : Statement (.pkInit base) := fun _ _ h => by cases h

theorem pkEmit (v : Byte) : Statement (.pkEmit v) := fun _ _ h => by cases h

theorem pkWriteBit (b : Bool) : Statement (.pkWriteBit b) := fun _ _ h => by cases h

theorem pkWriteBits (bits : BitsOperand) : Statement (.pkWriteBits bits) := fun _ _ h => by cases h

theorem pkFlush : Statement .pkFlush := fun _ _ h => by cases h

theorem upInit (base len : Nat) : Statement (.upInit base len) := fun _ _ h => by cases h

theorem upReadBit : Statement .upReadBit := fun _ _ h => by cases h

theorem upConsumed : Statement .upConsumed := fun _ _ h => by cases h

theorem crcInit : Statement .crcInit := fun _ _ h => by cases h

theorem crcUpdate (b : Byte) : Statement (.crcUpdate b) := fun _ _ h => by cases h

theorem crcFinal : Statement .crcFinal := fun _ _ h => by cases h

theorem freqCount (src srclen : Word64) : Statement (.freqCount src srclen) := fun _ _ h => by cases h

theorem writeContainer (cs : Word64) (crc : Word32) (k : BitVec 16) (pad : Byte) : Statement (.writeContainer cs crc k pad) :=
  fun _ _ h => by cases h

theorem readHeader : Statement .readHeader := fun _ _ h => by cases h

theorem parseTable (k : BitVec 16) : Statement (.parseTable k) := fun _ _ h => by cases h

theorem checkPayloadExtent (k : BitVec 16) (cs : Word64) (pad : Byte) : Statement (.checkPayloadExtent k cs pad) :=
  fun _ _ h => by cases h

theorem walk (base len : Nat) (orig : Word64) : Statement (.walk base len orig) := fun _ _ h => by cases h

end Sys2Proof.Laws.Encoded
end

