-- ==== Sys2Proof/Laws/Stuck.lean ====
section
/-! SUPPORT. Where an operation of the core is stuck (20_memory.md R67): at the first byte it accesses that
exists and is not plain memory, with what it did before. -/

namespace Sys2Proof.Machine

/-! ### The packer (43_bit_packer.md) -/

theorem pkEmit_stuck {s : State} {v : Byte} (h : noBacking s.par (s.work.pk.base + s.work.pk.out)) :
    pkEmit v s = .error (.stuck (s.work.pk.base + s.work.pk.out) s) := by
  rw [pkEmit, storeByte_stuck h]
  rfl

theorem pkFlush_stuck {s : State} (hc : 0 < s.work.pk.cnt)
    (h : noBacking s.par (s.work.pk.base + s.work.pk.out)) :
    pkFlush s = .error (.stuck (s.work.pk.base + s.work.pk.out)
      (s.setPk { s.work.pk with pad := 8 - s.work.pk.cnt })) := by
  have := pkEmit_stuck (s := s.setPk { s.work.pk with pad := 8 - s.work.pk.cnt })
    (v := s.work.pk.acc <<< (8 - s.work.pk.cnt)) h
  rw [pkFlush, if_pos hc]
  simp only [State.setPk_work, Work.setPk_pk] at this ⊢
  rw [this]
  rfl

/-- The whole bytes before the stuck one are in memory. -/
theorem pkWriteBits_stuck {bits : Bits} {s : State} {p : Bits} {j : Nat} (hp : Holds s p)
    (hj : j < (packBytes p bits).1.length)
    (hr : Reachable s.par (s.work.pk.base + s.work.pk.out) j)
    (hb : noBacking s.par (s.work.pk.base + s.work.pk.out + j)) :
    ∃ x, pkWriteBits bits s = .error (.stuck (s.work.pk.base + s.work.pk.out + j)
      ((s.setMem (s.mem.writeRange (s.work.pk.base + s.work.pk.out)
        ((packBytes p bits).1.take j))).setPk x)) := by
  induction bits generalizing s p j with
  | nil => simp [packBytes] at hj
  | cons b bs ih =>
    have hacc : shiftIn s.work.pk.acc b = byteOf (p ++ [b]) := by rw [hp.acc, byteOf_append]
    rw [packBytes] at hj ⊢
    rw [pkWriteBits, pkWriteBit]
    simp only [hacc, hp.cnt]
    by_cases h : p.length + 1 = 8
    · rw [if_pos h] at hj
      simp only [List.length_cons] at hj
      simp only [if_pos h]
      cases j with
      | zero =>
        rw [Nat.add_zero] at hb ⊢
        rw [pkEmit_stuck hb]
        exact ⟨s.work.pk, rfl⟩
      | succ j =>
        rw [pkEmit_eq (by simpa using hr.head)]
        simp only [ok_bind, pure, Except.pure]
        have hbase : s.work.pk.base + (s.work.pk.out + 1) + j = s.work.pk.base + s.work.pk.out + (j + 1) := by
          omega
        obtain ⟨x, hx⟩ := ih (p := []) (j := j)
          (s := (s.setMem (s.mem.write (s.work.pk.base + s.work.pk.out) (byteOf (p ++ [b])))).setPk
            ⟨s.work.pk.base, 0, 0, s.work.pk.out + 1, s.work.pk.pad⟩)
          ⟨rfl, rfl, by simp⟩ (by omega) hr.tail (by
            simp only [State.setPk_work, Work.setPk_pk, State.setPk_par, State.setMem_par]
            rw [hbase]
            exact hb)
        simp only [State.setPk_work, Work.setPk_pk, hbase] at hx
        refine ⟨x, ?_⟩
        rw [List.take_succ_cons, Memory.writeRange]
        exact hx
    · rw [if_neg h] at hj ⊢
      simp only [if_neg h, ok_bind]
      obtain ⟨x, hx⟩ := ih (p := p ++ [b]) (j := j)
        (s := s.setPk { s.work.pk with acc := byteOf (p ++ [b]), cnt := p.length + 1 })
        ⟨rfl, by simp, by
          have := hp.lt
          simp only [List.length_append, List.length_singleton]
          omega⟩ hj hr hb
      exact ⟨x, hx⟩

/-! ### ENCODE (46_encode.md) -/

/-- R261's loop up to a byte, and on from it. -/
theorem countLoop_add {j n a : Nat} {s : State} :
    countLoop a (j + n) s = (countLoop a j s >>= fun t => countLoop (a + j) n t) := by
  induction j generalizing a s with
  | zero => simp [countLoop]
  | succ j ih =>
    rw [Nat.add_right_comm, countLoop, countLoop]
    cases loadByte s a with
    | error e => rfl
    | ok b =>
      rw [ok_bind, ok_bind]
      cases countByte b s with
      | error e => rfl
      | ok t =>
        rw [ok_bind, ok_bind, ih, show a + 1 + j = a + (j + 1) by omega]

theorem freqCount_stuck {a n j : Nat} {s : State} (hj : j < n) (hr : Reachable s.par a j)
    (hb : noBacking s.par (a + j)) (hfit : ∀ b, (s.mem.readRange a j).count b < 2 ^ 32) :
    ∃ t, freqCount a n s = .error (.stuck (a + j) (s.setWork (s.work.setFreq t))) := by
  obtain ⟨t, ht, -⟩ := freqCount_eq hr hfit
  refine ⟨t, ?_⟩
  obtain ⟨k, rfl⟩ : ∃ k, n = j + (k + 1) := ⟨n - j - 1, by omega⟩
  rw [freqCount] at ht ⊢
  rw [countLoop_add, ht, ok_bind, countLoop, loadByte_stuck (s := s.setWork (s.work.setFreq t)) hb]
  rfl

theorem writeTable_stuck {es : List (Byte × Word32)} {a j : Nat} {s : State} (hj : j < 5 * es.length)
    (hr : Reachable s.par a j) (hb : noBacking s.par (a + j)) :
    writeTable es a s = .error (.stuck (a + j) (s.setMem (s.mem.writeRange a
      ((es.flatMap fun e => e.1 :: leBytes 4 e.2.toNat).take j)))) := by
  induction es generalizing a j s with
  | nil => simp at hj
  | cons e es ih =>
    obtain ⟨sym, f⟩ := e
    rw [List.length_cons] at hj
    have hl : (sym :: leBytes 4 f.toNat).length = 5 := by simp
    rw [writeTable, List.flatMap_cons]
    by_cases h : j < 5
    · rw [storeBytes_stuck (by rw [hl]; exact h) hr hb, List.take_append_of_le_length (by rw [hl]; omega)]
      rfl
    · obtain ⟨k, rfl⟩ : ∃ k, j = 5 + k := ⟨j - 5, by omega⟩
      rw [storeBytes_eq_ok.2 ⟨by rw [hl]; exact hr.sub (le_refl _) (by omega), rfl⟩, ok_bind]
      rw [← Nat.add_assoc] at hb ⊢
      rw [show a + Config.entrySize = a + 5 from rfl, ih (j := k)
        (s := s.setMem (s.mem.writeRange a (sym :: leBytes 4 f.toNat))) (by omega)
        (hr.sub (by omega) (by omega)) hb, List.take_append, hl,
        List.take_of_length_le (l := sym :: leBytes 4 f.toNat) (by rw [hl]; omega), Nat.add_sub_cancel_left,
        Memory.writeRange_append, hl]
      rfl

/-- The payload bytes before the stuck one are in memory. -/
theorem packLoop_stuck {n a j : Nat} {s : State} {p : Bits} (hp : Holds s p) (hm : s.mem.wf)
    (hs : Reachable s.par a n) (hcode : ∀ b ∈ s.mem.readRange a n, ∃ c, tget s.work.code b = some c)
    (hj : j < (packBytes p (messageBits s.work.code (s.mem.readRange a n))).1.length)
    (hr : Reachable s.par (s.work.pk.base + s.work.pk.out) j)
    (hb : noBacking s.par (s.work.pk.base + s.work.pk.out + j))
    (hd : a + n ≤ s.work.pk.base + s.work.pk.out ∨ s.work.pk.base + s.work.pk.out +
      (packBytes p (messageBits s.work.code (s.mem.readRange a n))).1.length ≤ a) :
    ∃ x, packLoop a n s = .error (.stuck (s.work.pk.base + s.work.pk.out + j)
      ((s.setMem (s.mem.writeRange (s.work.pk.base + s.work.pk.out)
        ((packBytes p (messageBits s.work.code (s.mem.readRange a n))).1.take j))).setPk x)) := by
  induction n generalizing a s p j with
  | zero => simp [Memory.readRange, messageBits, packBytes] at hj
  | succ n ih =>
    obtain ⟨c, hc⟩ := hcode (s.mem.read a) (by simp [Memory.readRange])
    rw [Memory.readRange, messageBits_cons hc, packBytes_append] at hj hd ⊢
    simp only [List.length_append] at hj hd ⊢
    rw [packLoop, loadByte_eq_ok.2 ⟨hs.head, rfl⟩, ok_bind]
    simp only [codeLookup, hc]
    by_cases hu : j < (packBytes p c).1.length
    · obtain ⟨x, hx⟩ := pkWriteBits_stuck hp hu hr hb
      rw [hx, List.take_append_of_le_length (by omega)]
      exact ⟨x, rfl⟩
    · obtain ⟨k, rfl⟩ : ∃ k, j = (packBytes p c).1.length + k := ⟨j - (packBytes p c).1.length, by omega⟩
      rw [pkWriteBits_eq hp (hr.sub (le_refl _) (by omega)), ok_bind]
      generalize hu : (packBytes p c).1 = u at *
      generalize hv : (packBytes p c).2 = v at *
      have hvl : v.length < 8 := hv ▸ packBytes_pending hp.lt
      have hrange : (s.mem.writeRange (s.work.pk.base + s.work.pk.out) u).readRange (a + 1) n =
          s.mem.readRange (a + 1) n :=
        Memory.readRange_writeRange_outside hm (by omega)
      set s' := (s.setMem (s.mem.writeRange (s.work.pk.base + s.work.pk.out) u)).setPk
        { s.work.pk with acc := byteOf v, cnt := v.length, out := s.work.pk.out + u.length } with hs'
      have hmem : s'.mem.readRange (a + 1) n = s.mem.readRange (a + 1) n := hrange
      have hcd : s'.work.code = s.work.code := rfl
      have hbase : s'.work.pk.base + s'.work.pk.out = s.work.pk.base + s.work.pk.out + u.length := by
        simp [hs', Nat.add_assoc]
      obtain ⟨x, hx⟩ := ih (p := v) (s := s') (j := k) ⟨rfl, rfl, hvl⟩ (Memory.writeRange_wf hm) hs.tail
        (by
          rw [hmem, hcd]
          exact fun b hb => hcode b (by rw [Memory.readRange]; exact List.mem_cons_of_mem _ hb))
        (by rw [hmem, hcd]; omega)
        (by rw [hbase]; exact hr.sub (by omega) (by omega))
        (by rw [hbase, Nat.add_assoc]; exact hb)
        (by rw [hmem, hcd, hbase]; omega)
      refine ⟨x, ?_⟩
      rw [hx, hmem, hcd, hbase, Nat.add_assoc (s.work.pk.base + s.work.pk.out), List.take_append,
        List.take_of_length_le (l := u) (by omega), Nat.add_sub_cancel_left, Memory.writeRange_append]
      rfl

/-- R270: the container's bytes before the stuck one are in memory. -/
theorem writeContainer_stuck {s : State} {cs : Word64} {crc : Word32} {k : BitVec 16} {pad : Byte} {j : Nat}
    (hm : s.mem.wf) (hb : buffersOk s) (hsrc : Reachable s.par s.src s.srclen)
    (hk : k.toNat = (counted s.work.freq).length)
    (hcode : ∀ b ∈ sourceBytes s, ∃ c, tget s.work.code b = some c)
    (hfit : 30 + 5 * k.toNat + ((messageBits s.work.code (sourceBytes s)).length + 7) / 8 ≤ s.cap)
    (hj : j < 30 + 5 * k.toNat + ((messageBits s.work.code (sourceBytes s)).length + 7) / 8)
    (hr : Reachable s.par s.dst j) (hx : noBacking s.par (s.dst + j)) :
    ∃ w, writeContainer cs crc k pad s = .error (.stuck (s.dst + j) ((s.setMem (s.mem.writeRange s.dst
      ((refContainer (encodeHeader s cs crc k pad) s.work.freq
        (messageBits s.work.code (sourceBytes s))).take j))).setWork w)) := by
  generalize hbits : messageBits s.work.code (sourceBytes s) = bits at *
  generalize hh : encodeHeader s cs crc k pad = h
  have hdis : s.srclen = 0 ∨ s.dst + s.cap ≤ s.src ∨ s.src + s.srclen ≤ s.dst := by
    rcases hb.2.2.2.2 with h | h | h
    · exact .inl h
    · omega
    · exact .inr h
  have hl0 : h.toBytes.length = 30 := by simp
  have hl1 : (refTable s.work.freq).length = 5 * k.toNat := by rw [refTable_length, hk]
  rw [writeContainer, hh, refContainer, ← packed_eq, packed, List.append_assoc]
  dsimp only
  by_cases h0 : j < 30
  · rw [storeBytes_stuck (by rw [hl0]; exact h0) hr hx, List.take_append_of_le_length (by omega)]
    exact ⟨s.work, rfl⟩
  obtain ⟨i, rfl⟩ : ∃ i, j = 30 + i := ⟨j - 30, by omega⟩
  rw [storeBytes_eq_ok.2 ⟨by rw [hl0]; exact hr.sub (le_refl _) (by omega), rfl⟩, ok_bind, List.take_append,
    List.take_of_length_le (by omega), hl0, Nat.add_sub_cancel_left, Memory.writeRange_append, hl0,
    State.setMem_work, State.setMem_dst, show Config.hdrSize = 30 from rfl]
  rw [← Nat.add_assoc] at hx ⊢
  have hr1 : Reachable s.par (s.dst + 30) i := hr.sub (by omega) (by omega)
  generalize hm0 : s.mem.writeRange s.dst h.toBytes = m0
  have hm0wf : m0.wf := hm0 ▸ Memory.writeRange_wf hm
  by_cases h1 : i < 5 * k.toNat
  · rw [writeTable_stuck (s := s.setMem m0) (by rw [← hk]; exact h1) hr1 hx,
      List.take_append_of_le_length (by omega)]
    exact ⟨s.work, rfl⟩
  obtain ⟨q, rfl⟩ : ∃ q, i = 5 * k.toNat + q := ⟨i - 5 * k.toNat, by omega⟩
  rw [writeTable_eq (s := s.setMem m0) (by rw [← hk]; exact hr1.sub (le_refl _) (by omega)), ok_bind,
    show ((counted s.work.freq).flatMap fun e => e.1 :: leBytes 4 e.2.toNat) = refTable s.work.freq from rfl,
    List.take_append, List.take_of_length_le (by omega), hl1, Nat.add_sub_cancel_left,
    Memory.writeRange_append, hl1, State.setMem_setMem, State.setMem_mem, State.setMem_work,
    State.setMem_dst]
  rw [← Nat.add_assoc] at hx ⊢
  have hr2 : Reachable s.par (s.dst + 30 + 5 * k.toNat) q := hr1.sub (by omega) (by omega)
  generalize hm1 : m0.writeRange (s.dst + 30) (refTable s.work.freq) = m1
  have hm1wf : m1.wf := hm1 ▸ Memory.writeRange_wf hm0wf
  have hread : m1.readRange s.src s.srclen = s.mem.readRange s.src s.srclen := by
    rw [← hm1, ← hm0]
    rcases hdis with h0 | h0
    · rw [h0]; rfl
    · rw [Memory.readRange_writeRange_outside (Memory.writeRange_wf hm) (by rw [hl1]; omega),
        Memory.readRange_writeRange_outside hm (by rw [hl0]; omega)]
  set s1 := (s.setMem m1).setWork (pkInit (s.dst + 30 + Config.entrySize * k.toNat) s.work) with hs1
  have hpk : Holds s1 [] := ⟨rfl, rfl, by simp⟩
  have hbase : s1.work.pk.base + s1.work.pk.out = s.dst + 30 + 5 * k.toNat := by
    simp [hs1, pkInit, Config.entrySize]
  have hb1 : messageBits s1.work.code (s1.mem.readRange s.src s.srclen) = bits := by
    rw [show s1.mem = m1 from rfl, hread, ← hbits]; rfl
  have hlen : (packBytes [] bits).1.length + (packTail (packBytes [] bits).2).length =
      (bits.length + 7) / 8 := by
    have := packed_length bits
    rwa [packed, List.length_append] at this
  have hcode1 : ∀ b ∈ s1.mem.readRange s.src s.srclen, ∃ c, tget s1.work.code b = some c := by
    rw [show s1.mem = m1 from rfl, hread]
    exact hcode
  have hdj : s.src + s.srclen ≤ s1.work.pk.base + s1.work.pk.out ∨ s1.work.pk.base + s1.work.pk.out +
      (packBytes [] (messageBits s1.work.code (s1.mem.readRange s.src s.srclen))).1.length ≤ s.src := by
    rw [hb1, hbase]
    rcases hdis with h0 | h0
    · by_cases hq : s.src ≤ s.dst + 30 + 5 * k.toNat
      · exact .inl (by omega)
      · have : bits = [] := by rw [← hbits, sourceBytes, h0]; rfl
        rw [this]
        exact .inr (by simp [packBytes]; omega)
    · omega
  by_cases h2 : q < (packBytes [] bits).1.length
  · obtain ⟨x, hx'⟩ := packLoop_stuck (j := q) hpk hm1wf hsrc hcode1 (by rw [hb1]; exact h2)
      (by rw [hbase]; exact hr2) (by rw [hbase]; exact hx) hdj
    rw [hb1, hbase] at hx'
    rw [show s1.src = s.src from rfl, show s1.srclen = s.srclen from rfl, hx',
      List.take_append_of_le_length (by omega)]
    exact ⟨s1.work.setPk x, rfl⟩
  obtain ⟨u, rfl⟩ : ∃ u, q = (packBytes [] bits).1.length + u := ⟨q - (packBytes [] bits).1.length, by omega⟩
  have hloop := packLoop_eq (s := s1) hpk hm1wf hsrc hcode1
    (by rw [hb1, hbase]; exact hr2.sub (le_refl _) (by omega)) hdj
  rw [hb1, hbase] at hloop
  have hpend := packBytes_pending (p := []) (bits := bits) (by simp)
  have htl : (packTail (packBytes [] bits).2).length = 1 ∧ u = 0 ∧ 0 < (packBytes [] bits).2.length := by
    rw [packTail] at hlen ⊢
    split_ifs at hlen ⊢ with h3
    · rw [List.length_nil] at hlen
      omega
    · rw [List.length_singleton] at hlen
      exact ⟨rfl, by omega, by omega⟩
  obtain ⟨ht1, rfl, ht2⟩ := htl
  rw [show s1.src = s.src from rfl, show s1.srclen = s.srclen from rfl, hloop, ok_bind]
  set s2 := (s1.setMem (s1.mem.writeRange (s.dst + 30 + 5 * k.toNat) (packBytes [] bits).1)).setPk
    { s1.work.pk with
      acc := byteOf (packBytes [] bits).2
      cnt := (packBytes [] bits).2.length
      out := s1.work.pk.out + (packBytes [] bits).1.length } with hs2
  have hbase2 : s2.work.pk.base + s2.work.pk.out =
      s.dst + 30 + 5 * k.toNat + (packBytes [] bits).1.length := by
    have : s2.work.pk.base + s2.work.pk.out =
      s1.work.pk.base + s1.work.pk.out + (packBytes [] bits).1.length := by
      simp [hs2, Nat.add_assoc]
    rw [this, hbase]
  simp only [Nat.add_zero] at hx ⊢
  rw [pkFlush_stuck (s := s2) (by exact ht2) (by rw [hbase2]; exact hx), hbase2,
    List.take_append_of_le_length (le_refl _), List.take_of_length_le (le_refl _)]
  exact ⟨_, rfl⟩

/-- ENCODE with a byte of its container not backed. -/
theorem encodeCommand_stuck {s : State} {freq : Table Word32} {code : Table (Option Bits)} {size j : Nat}
    (hm : s.mem.wf) (hb : buffersOk s) (hsrc : Reachable s.par s.src s.srclen)
    (hf : Counts freq (sourceBytes s)) (hc : isCodeTable freq code)
    (hsize : size = 30 + 5 * (refLeaves freq).length +
      ((messageBits code (sourceBytes s)).length + 7) / 8)
    (hcap : size ≤ s.cap) (hj : j < size) (hr : Reachable s.par s.dst j)
    (hx : noBacking s.par (s.dst + j)) :
    ∃ c w, encodeCommand s = .error (.stuck (s.dst + j)
        ((s.setMem (s.mem.writeRange s.dst c)).setWork w)) ∧ c.length ≤ j := by
  have hcnt : ∀ b, (sourceBytes s).count b < 2 ^ 32 := fun b => by
    rw [← hf b]
    exact (tget freq b).isLt
  obtain ⟨t, v, u, tree, a1, a2, a3, a4, a5, a6⟩ := encodeCommand_sized hb hsrc hcnt
  cases a1.unique hf
  have hct : isCodeTable freq u.code := by
    have hbt : isBuilt u := by
      obtain ⟨c, hc⟩ := generateCodes_ok a3
      have := isBuilt_of_buildTree a2
      subst hc
      exact this
    have := a4.isCodeTable hbt
    rwa [a5] at this
  cases hc.unique hct
  rw [refLeaves_length] at hsize
  subst hsize
  have hcl := counted_length freq
  have hk : (BitVec.ofNat 16 (counted freq).length).toNat = (counted freq).length := by
    rw [BitVec.toNat_ofNat, Nat.mod_eq_of_lt (by omega)]
  have e2 := (crcRun_code (sourceBytes s) (crcInit u)).1
  have e3 := ((crcRun_code (sourceBytes s) (crcInit u)).2).trans a5
  rw [a6, if_neg (by omega)]
  set s' := s.setWork (crcRun (sourceBytes s) (crcInit u)) with hs'
  obtain ⟨w, hw⟩ := writeContainer_stuck (s := s') (j := j)
    (cs := BitVec.ofNat 64 (((messageBits u.code (sourceBytes s)).length + 7) / 8))
    (crc := refCrc32 (sourceBytes s)) (k := BitVec.ofNat 16 (counted freq).length)
    (pad := BitVec.ofNat 8 ((8 - (messageBits u.code (sourceBytes s)).length % 8) % 8))
    hm hb hsrc (by rw [hk, show s'.work.freq = freq from e3])
    (coded_iff.1 (by rw [show s'.work.code = u.code from e2]; exact coded_of_counts hf hct))
    (by rw [hk, show s'.work.code = u.code from e2]; exact hcap)
    (by rw [hk, show s'.work.code = u.code from e2]; exact hj) hr hx
  exact ⟨_, w, hw, by rw [List.length_take]; omega⟩

/-! ### DECODE (47_decode.md) -/

theorem parseEntry_stuck {a j : Nat} {s : State} (hj : j < 5) (hr : Reachable s.par a j)
    (hb : noBacking s.par (a + j)) : parseEntry a s = .error (.stuck (a + j) s) := by
  rw [parseEntry]
  cases j with
  | zero => rw [Nat.add_zero] at hb ⊢; rw [loadByte_stuck hb]; rfl
  | succ j =>
    rw [loadByte_eq_ok.2 ⟨hr.head, rfl⟩, ok_bind]
    rw [show a + (j + 1) = a + 1 + j by omega] at hb ⊢
    rw [loadBytes_stuck (by omega) hr.tail hb]
    rfl

/-- R306's loop up to an entry, and on from it. -/
theorem parseLoop_add {i k a : Nat} {s : State} :
    parseLoop a (i + k) s = (parseLoop a i s >>= fun t => parseLoop (a + 5 * i) k t) := by
  induction i generalizing a s with
  | zero => simp [parseLoop]
  | succ i ih =>
    rw [Nat.add_right_comm, parseLoop, parseLoop]
    cases parseEntry a s with
    | error e => rfl
    | ok t =>
      rw [ok_bind, ok_bind, ih, show a + Config.entrySize + 5 * i = a + 5 * (i + 1) by
        rw [show Config.entrySize = 5 from rfl]; omega]

theorem parseTable_stuck {k j : Nat} {s : State} (hk : k ≤ 256) (hl : 30 + 5 * k ≤ s.srclen)
    (hj : j < 5 * k) (hr : Reachable s.par (s.src + 30) j) (hb : noBacking s.par (s.src + 30 + j))
    (hok : tableOk (storedEntries s.mem (s.src + 30) (j / 5))) :
    ∃ w, parseTable k s = .error (.stuck (s.src + 30 + j) (s.setWork w)) := by
  rw [parseTable, if_neg (by rw [show Config.alphabet = 256 from rfl]; omega),
    if_neg (by rw [show Config.hdrSize = 30 from rfl, show Config.entrySize = 5 from rfl]; omega)]
  obtain ⟨i, rfl⟩ : ∃ i, k = j / 5 + (i + 1) := ⟨k - j / 5 - 1, by omega⟩
  rw [show Config.hdrSize = 30 from rfl, parseLoop_add, parseLoop_eq (s := s.setWork
    ((s.work.setFreq (Vector.replicate 256 0)).setSeen (Vector.replicate 256 false)))
    (hr.sub (le_refl _) (by omega)) hok (by simp [tget_replicate]), ok_bind, parseLoop]
  have hx : s.src + 30 + j = s.src + 30 + 5 * (j / 5) + j % 5 := by omega
  rw [hx] at hb ⊢
  have h := fun w => parseEntry_stuck (s := s.setWork w) (a := s.src + 30 + 5 * (j / 5)) (j := j % 5)
    (by omega) (hr.sub (by omega) (by omega)) hb
  rw [State.setWork_setWork, h]
  exact ⟨_, rfl⟩

section Walk
variable {s : State} {base len orig : Nat} {m : Memory} {pos i emit r n : Nat}

/-- Reading a code whose symbol's byte is not backed. -/
theorem walkLoop_code_stuck {u : Tree} {c : Bits} {sym : Byte}
    (hu : IsTree s.work.nodes i u) (hc : (sym, c) ∈ u.paths []) (hc0 : c ≠ [])
    (hstream : streamBits m base pos c.length = c) (hpos : pos + c.length ≤ len)
    (hacc : Reachable s.par base ((pos + c.length + 7) / 8)) (hdst : noBacking s.par (s.dst + emit))
    (hemit : emit < orig) :
    ∃ q j, walkLoop orig (c.length + n) (walkAt s base len m pos i emit) =
      .error (.stuck (s.dst + emit) (walkAt s base len m q j emit)) := by
  induction c generalizing i u pos with
  | nil => exact absurd rfl hc0
  | cons b c ih =>
    rw [List.length_cons] at hpos hacc
    rw [List.length_cons, streamBits, List.cons.injEq] at hstream
    cases hu with
    | leaf h => simp [Tree.paths] at hc
    | node h hl hr htl htr =>
      rename_i l r' tl tr
      have hbit := walkAt_read (s := s) (base := base) (len := len) (m := m) (pos := pos) (i := i)
        (emit := emit) (hacc _ (by omega) (by omega)) (by omega)
      rw [hstream.1] at hbit
      rw [List.length_cons, Nat.add_right_comm, walkLoop,
        if_pos (show (walkAt s base len m pos i emit).work.wk.emit < orig from hemit), hbit, ok_bind]
      simp only []
      obtain ⟨ch, hch, hsub⟩ : ∃ ch : Tree, IsTree s.work.nodes (if b then r' else l) ch ∧
          (sym, c) ∈ ch.paths [] := by
        rcases Tree.paths_head_node hc with ⟨d, hd, he⟩ | ⟨d, hd, he⟩
        · simp only [Prod.mk.injEq, List.cons.injEq] at he
          obtain ⟨rfl, rfl, rfl⟩ := he
          exact ⟨tl, htl, hd⟩
        · simp only [Prod.mk.injEq, List.cons.injEq] at he
          obtain ⟨rfl, rfl, rfl⟩ := he
          exact ⟨tr, htr, hd⟩
      have hnode : (walkAt s base len m (pos + 1) i emit).work.nodes[
          (walkAt s base len m (pos + 1) i emit).work.wk.node]? =
          some (.internal (tl.freq + tr.freq) l r') := h
      rw [walkBit, hnode]
      simp only []
      cases hch with
      | leaf hleaf =>
        have hleaf' : (walkAt s base len m (pos + 1) i emit).work.nodes[if b then r' else l]? = some _ := hleaf
        rw [hleaf']
        simp only [emitSymbol]
        rw [show (walkAt s base len m (pos + 1) i emit).dst +
          (walkAt s base len m (pos + 1) i emit).work.wk.emit = s.dst + emit from rfl,
          storeByte_stuck (s := walkAt s base len m (pos + 1) i emit) hdst]
        exact ⟨pos + 1, i, rfl⟩
      | node h2 hl2 hr2 htl2 htr2 =>
        have h2' : (walkAt s base len m (pos + 1) i emit).work.nodes[if b then r' else l]? = some _ := h2
        rw [h2']
        simp only [ok_bind]
        have hc1 : c ≠ [] := by
          rintro rfl
          rcases Tree.paths_head_node hsub with ⟨d, hd, he⟩ | ⟨d, hd, he⟩ <;> simp at he
        obtain ⟨q, j, hq⟩ := ih (i := if b then r' else l) (.node h2 hl2 hr2 htl2 htr2) hsub hc1
          (pos := pos + 1) hstream.2 (by omega)
          (by rw [show pos + 1 + c.length = pos + (c.length + 1) by omega]; exact hacc)
        refine ⟨q, j, ?_⟩
        rw [show ((walkAt s base len m (pos + 1) i emit).setWk
          { (walkAt s base len m (pos + 1) i emit).work.wk with node := if b then r' else l }) =
            walkAt s base len m (pos + 1) (if b then r' else l) emit from rfl, hq]
        rfl

/-- R311 with its first payload byte not backed. -/
theorem walk_stuck_source (hroot : s.work.root = some r) (hlen : 0 < len) (horig : 0 < orig)
    (hb : noBacking s.par base) : ∃ w, walk base len orig s = .error (.stuck base (s.setWork w)) := by
  obtain ⟨k, rfl⟩ : ∃ k, len = k + 1 := ⟨len - 1, by omega⟩
  refine ⟨(walkAt s base (k + 1) s.mem 0 r 0).work, ?_⟩
  rw [walk_start hroot, walkLoop,
    if_pos (show (walkAt s base (k + 1) s.mem 0 r 0).work.wk.emit < orig from horig), upReadBit,
    if_neg (show ¬ (walkAt s base (k + 1) s.mem 0 r 0).work.up.pos =
      (walkAt s base (k + 1) s.mem 0 r 0).work.up.len from by show ¬ 0 = k + 1; omega)]
  rw [show (walkAt s base (k + 1) s.mem 0 r 0).work.up.base +
    (walkAt s base (k + 1) s.mem 0 r 0).work.up.pos / 8 = base from by show base + 0 / 8 = base; simp,
    loadByte_stuck (s := walkAt s base (k + 1) s.mem 0 r 0) hb]
  rfl

/-- R311 with its first output byte not backed. -/
theorem walk_stuck_dest {tl tr : Tree} {b : Byte} {p rest : Bits} (hroot : s.work.root = some r)
    (ht : IsTree s.work.nodes r (.node tl tr)) (hp : (b, p) ∈ (Tree.node tl tr).paths [])
    (hs : streamBits s.mem base 0 len = p ++ rest) (horig : 0 < orig)
    (hacc : Reachable s.par base ((p.length + 7) / 8)) (hb : noBacking s.par s.dst) :
    ∃ w, walk base len orig s = .error (.stuck s.dst (s.setWork w)) := by
  have hl := congrArg List.length hs
  rw [streamBits_length, List.length_append] at hl
  have hpre : streamBits s.mem base 0 p.length = p := by
    rw [hl, streamBits_append] at hs
    exact (List.append_inj hs (by simp)).1
  obtain ⟨q, j, hq⟩ := walkLoop_code_stuck (s := s) (base := base) (len := len) (m := s.mem) (pos := 0)
    (emit := 0) (n := rest.length) ht hp (Tree.path_ne_nil hp) hpre (by omega)
    (by rw [Nat.zero_add]; exact hacc) hb horig
  refine ⟨(walkAt s base len s.mem q j 0).work, ?_⟩
  rw [walk_start hroot]
  nth_rewrite 1 [hl]
  rw [hq]
  rfl

end Walk

end Sys2Proof.Machine
end

