-- ==== Sys2Proof/Tests/Slice0.lean ====
section
/-! SUPPORT. Tests on fixed values, whose expected results are the spec's (95_test_vectors.md, the id of a
vector or the rule is named at each), and for each statement with hypotheses a witness that meets them. -/

namespace Sys2Proof.Tests

open Sys2Proof.Machine

/-! ## Small states -/

/-- An instance as in 95_test_vectors.md section 3: the first 64 KiB are plain memory. -/
def par : Params := ⟨0x46465548, 63, 0x10000000, [⟨0, 0x10000⟩]⟩

/-- A command on these buffers, issued, with the core to move next. -/
def issued (p : Params) (m : Memory) (src srclen dst cap w : Word64) : State :=
  ({ State.reset with
      par := p, mem := m
      regs := { Regs.reset with srcAddr := src, srcLen := srclen, dstAddr := dst, dstCap := cap } }
    : State).withFetchWord 64 w.toNat

/-- A command on the bytes `bs` at 0x1000, with its destination at 0x4000. -/
def onBytes (bs : List Byte) (cap w : Word64) : State :=
  issued par (Memory.writeRange [] 0x1000 bs) 0x1000 (BitVec.ofNat 64 bs.length) 0x4000 cap w

/-- A state with this working state and this memory. -/
def working (w : Work) (m : Memory) : State := { State.reset with par := par, work := w, mem := m }

/-- A state with these nodes and this queue. -/
def queue (nodes : List Node) (pq : List Nat) : State :=
  working { Work.reset with nodes := nodes, pq := pq } []

/-- A frequency table with these counts. -/
def freqs (es : List (Byte × Word32)) : Table Word32 :=
  es.foldl (fun t e => tset t e.1 e.2) (Vector.replicate 256 0)

/-- A state with this frequency table. -/
def counts (es : List (Byte × Word32)) : State := working { Work.reset with freq := freqs es } []

/-- The working state with the tree of this frequency table. -/
def treeOf (t : Table Word32) : Work :=
  match buildTree { Work.reset with freq := t } with
  | .ok w => w
  | .error _ => Work.reset

/-- The codes that the machine generates for this frequency table. -/
def codesOf (t : Table Word32) : Table (Option Bits) :=
  match generateCodes (treeOf t) with
  | .ok w => w.code
  | .error _ => Vector.replicate 256 none

/-- A part of the next state. -/
def got {α : Type} (f : State → α) : Host.Outcome State Fault Refusal → Option α
  | .next s => some (f s)
  | _ => none

/-- The fault of an outcome. -/
def fault? : Host.Outcome State Fault Refusal → Option Fault
  | .fault f => some f
  | _ => none

/-- "aaabbc". -/
def aaabbc : List Byte := [0x61, 0x61, 0x61, 0x62, 0x62, 0x63]

/-- a3 b2 c1. -/
def abcCounts : List (Byte × Word32) := [(0x61, 3), (0x62, 2), (0x63, 1)]

/-- The first 30 bytes of V-ENC-1. -/
def header1 : List Byte :=
  [0x48, 0x55, 0x46, 0x46, 0x01, 0x00, 0x06, 0, 0, 0, 0, 0, 0, 0, 0x02, 0, 0, 0, 0, 0, 0, 0,
    0x4E, 0x95, 0x81, 0x9D, 0x03, 0x00, 0x07, 0x00]

/-- The table of V-ENC-1. -/
def table1 : List Byte := [0x61, 3, 0, 0, 0, 0x62, 2, 0, 0, 0, 0x63, 1, 0, 0, 0]

/-- V-ENC-1: the container of "aaabbc". -/
def vEnc1 : List Byte := header1 ++ table1 ++ [0x1F, 0x00]

/-- V-ENC-2: the container of the empty input. -/
def vEnc2 : List Byte := [0x48, 0x55, 0x46, 0x46, 0x01, 0x00] ++ List.replicate 24 0

/-- V-ENC-4: the container of "A". -/
def vEnc4 : List Byte :=
  [0x48, 0x55, 0x46, 0x46, 0x01, 0x00, 0x01, 0, 0, 0, 0, 0, 0, 0, 0x01, 0, 0, 0, 0, 0, 0, 0,
    0x8B, 0x9E, 0xD9, 0xD3, 0x01, 0x00, 0x07, 0x00, 0x41, 1, 0, 0, 0, 0x00]

/-! ## WellFormed: an ill-formed term for each check -/

theorem test_wf_pq_insert : (Instr.pqInsert 510).wf = true ∧ (Instr.pqInsert 511).wf = false := by decide
theorem test_wf_write_bits_value : (Instr.pkWriteBits (.value 3 2)).wf = true ∧
    (Instr.pkWriteBits (.value 4 2)).wf = false ∧ (Instr.pkWriteBits (.value 0 0)).wf = false ∧
    (Instr.pkWriteBits (.value 0 256)).wf = false := by decide
theorem test_wf_write_bits_code : (Instr.pkWriteBits (.code [true])).wf = true ∧
    (Instr.pkWriteBits (.code [])).wf = false ∧
    (Instr.pkWriteBits (.code (List.replicate 256 true))).wf = false := by decide +kernel
theorem test_wf_freq_count : (Instr.freqCount 0xFFFFFFFFFFFFFFFF 1).wf = true ∧
    (Instr.freqCount 0xFFFFFFFFFFFFFFFF 2).wf = false := by decide
theorem test_wf_write_container : (Instr.writeContainer 2 0 256 7).wf = true ∧
    (Instr.writeContainer 2 0 257 7).wf = false ∧ (Instr.writeContainer 2 0 3 8).wf = false ∧
    (Instr.writeContainer 0xFFFFFFFFFFFFFFFF 0 3 0).wf = false := by decide
theorem test_wf_check_payload_extent : (Instr.checkPayloadExtent 256 2 7).wf = true ∧
    (Instr.checkPayloadExtent 257 2 7).wf = false ∧ (Instr.checkPayloadExtent 3 2 8).wf = false := by
  decide
theorem test_wf_illegal_command : (Instr.illegalCommand 3).wf = true ∧
    (Instr.illegalCommand 0).wf = false ∧ (Instr.illegalCommand 1).wf = false ∧
    (Instr.illegalCommand 2).wf = false ∧ (Instr.illegalCommand 0x102).wf = false := by decide

/-! ## Decode: command words written out from R92 as reserved bits, SKIP_VERIFY, OPCODE -/

theorem test_decode_nop : decodeWord (0#55 ++ 0b0#1 ++ 0b00000000#8) = .nop := by decide
theorem test_decode_encode : decodeWord (0#55 ++ 0b0#1 ++ 0b00000001#8) = .encode := by decide
theorem test_decode_decode : decodeWord (0#55 ++ 0b0#1 ++ 0b00000010#8) = .decode false := by decide
theorem test_decode_skip_verify : decodeWord (0#55 ++ 0b1#1 ++ 0b00000010#8) = .decode true := by decide
/-- R93: a reserved opcode, SKIP_VERIFY on NOP, the lowest and the highest reserved bit. -/
theorem test_decode_illegal : decodeWord (0#55 ++ 0b0#1 ++ 0b00000011#8) = .illegalCommand 0x3 ∧
    decodeWord (0#55 ++ 0b1#1 ++ 0b00000000#8) = .illegalCommand 0x100 ∧
    decodeWord (1#55 ++ 0b0#1 ++ 0b00000010#8) = .illegalCommand 0x202 ∧
    decodeWord (0b1#1 ++ 0#54 ++ 0b0#1 ++ 0b00000001#8) = .illegalCommand 0x8000000000000001 := by decide
/-- R90, R63: 8 bytes, the least significant first; fewer are no command word. -/
theorem test_decode_bytes : decode [0x02, 0x01, 0, 0, 0, 0, 0, 0, 0xEE] = .ok (.decode true, [0xEE]) ∧
    decode [0x02, 0x01, 0, 0, 0, 0, 0] = .error .truncated := by decide
/-- R113: the four command words, read from the table's numbering; an internal row has none. -/
theorem test_table_words : decodeTableWord 64 0x0 = some .nop ∧ decodeTableWord 64 0x1 = some .encode ∧
    decodeTableWord 64 0x102 = some (.decode true) ∧ decodeTableWord 0 0 = none := by decide

/-! ## The priority queue (V-PQ) -/

def leavesABC : List Node := [.leaf 0x61 3, .leaf 0x62 2, .leaf 0x63 1]

/-- V-PQ-1. -/
theorem test_pq_clear_is_empty :
    got (·.ret) (runAll [.pqClear, .pqIsEmpty] (queue leavesABC [0, 1])) = some (.flag true) := by decide
theorem test_pq_clear_size :
    got (·.ret) (runAll [.pqClear, .pqSize] (queue leavesABC [0, 1])) = some (.count 0) := by decide
/-- R142. -/
theorem test_pq_insert : got (·.work.pq) (exec (.pqInsert 1) (queue leavesABC [0, 2])) = some [0, 1, 2] ∧
    fault? (exec (.pqInsert 2) (queue leavesABC [0, 2])) = some (.pqOperand 2) := by decide
/-- V-PQ-2, V-PQ-3. -/
theorem test_pq_extract_min : drain 3 (queue leavesABC [0, 1, 2]) = [2, 1, 0] ∧
    drain 1 (queue (leavesABC ++ [.internal 3 2 1]) [0, 3]) = [0] := by decide
/-- V-PQ-4, V-PQ-5: a leaf before a later internal node, an earlier internal node before a later one. -/
theorem test_pq_extract_ties :
    drain 2 (queue [.leaf 0 1, .leaf 1 1, .leaf 2 2, .leaf 3 3, .leaf 4 5, .leaf 5 8, .internal 2 0 1]
      [2, 3, 4, 5, 6]) = [2, 6] ∧
    drain 1 (queue [.leaf 0 1, .leaf 1 1, .leaf 2 1, .leaf 3 1, .internal 2 0 1, .internal 2 2 3]
      [4, 5]) = [4] := by decide
/-- V-PQ-6. -/
theorem test_pq_size_full :
    got (·.ret) (exec .pqSize (queue [] (List.range 256))) = some (.count 256) := by decide +kernel

/-! ## The tree (V-TREE) -/

/-- V-TREE-1, the leaves. -/
theorem test_build_leaves :
    got (fun t => (t.work.nodes, t.work.pq)) (exec .buildTreeLeaves (counts abcCounts)) =
      some (leavesABC, [0, 1, 2]) := by decide +kernel
/-- V-TREE-6, V-TREE-7. -/
theorem test_build_leaves_root :
    got (·.work.root) (exec .buildTreeLeaves (counts [(0x41, 1000)])) = some (some 0) ∧
    got (·.work.root) (exec .buildTreeLeaves (counts [])) = some none := by decide +kernel
/-- V-TREE-1, the merges. -/
theorem test_build_merges : got (fun t => (t.work.nodes.drop 3, t.work.root))
    (exec .buildTreeMerges (queue leavesABC [0, 1, 2])) =
      some ([.internal 3 2 1, .internal 6 0 3], some 4) := by decide +kernel
/-- V-TREE-3. -/
theorem test_tree_rebuild : got (fun t => (t.work.nodes.drop 5, t.work.root))
    (exec .treeRebuild (counts [(0x61, 5), (0x62, 2), (0x63, 1), (0x64, 1), (0x72, 2)])) =
      some ([.internal 2 2 3, .internal 4 1 4, .internal 6 5 6, .internal 11 0 7], some 8) := by
  decide +kernel
/-- V-TREE-4: the lower count goes left. -/
theorem test_tree_rebuild_left : got (fun t => (t.work.nodes.drop 2, t.work.root))
    (exec .treeRebuild (counts [(0x61, 2), (0x62, 1)])) = some ([.internal 3 1 0], some 2) := by
  decide +kernel

/-! ## The codes (V-CODE) -/

/-- V-CODE-1. -/
theorem test_generate_codes :
    got (fun t => (tget t.work.code 0x61, tget t.work.code 0x62, tget t.work.code 0x63,
        tget t.work.code 0x64))
      (exec .generateCodes (working { Work.reset with
        nodes := leavesABC ++ [.internal 3 2 1, .internal 6 0 3], root := some 4 } [])) =
      some (some [false], some [true, true], some [true, false], none) := by decide +kernel
/-- V-CODE-6. -/
theorem test_generate_codes_single :
    got (fun t => tget t.work.code 0x41) (exec .generateCodes (working { Work.reset with
      nodes := [.leaf 0x41 1000], root := some 0 } [])) = some (some [false]) := by decide +kernel

def coded1 : State := working { Work.reset with code := tset (Vector.replicate 256 none) 0x61 (some [true]) } []

/-- R181. -/
theorem test_code_lookup : got (·.ret) (exec (.codeLookup 0x61) coded1) = some (.code [true]) ∧
    fault? (exec (.codeLookup 0x62) coded1) = some (.absentSymbol 0x62) := by decide +kernel

/-! ## The packer (V-PK); payload byte 0 at 0x2000 -/

/-- The bits of a code string written as 0 and 1. -/
def bits (ns : List Nat) : Bits := ns.map (· == 1)

/-- The bytes that pk_init, these codes and pk_flush leave, with PK_OUT and PK_PAD. -/
def pack (codes : List Bits) (n : Nat) : Option (List Byte × Nat × Nat) :=
  got (fun t => (t.mem.readRange 0x2000 n, t.work.pk.out, t.work.pk.pad))
    (runAll (.pkInit 0x2000 :: codes.map (fun c => .pkWriteBits (.code c)) ++ [.pkFlush])
      (working Work.reset []))

theorem test_pk_init : got (·.work.pk) (exec (.pkInit 0x2000) (working { Work.reset with
    pk := ⟨1, 2, 3, 4, 5⟩ } [])) = some ⟨0x2000, 0, 0, 0, 0⟩ := by decide
theorem test_pk_emit : got (fun t => (t.mem.read 0x2001, t.work.pk.out)) (exec (.pkEmit 0xAB)
    (working { Work.reset with pk := ⟨0x2000, 0, 0, 1, 0⟩ } [])) = some (0xAB, 2) := by decide
/-- V-PK-3: the eighth bit emits the byte. -/
theorem test_pk_write_bit : got (fun t => (t.mem.read 0x2000, t.work.pk.cnt)) (runAll
    (.pkInit 0x2000 :: (bits [1, 0, 1, 1, 0, 0, 1, 1]).map .pkWriteBit) (working Work.reset [])) =
      some (0xB3, 0) := by decide +kernel
/-- V-PK-7. -/
theorem test_pk_write_bits_value : got (fun t => (t.work.pk.cnt, t.work.pk.acc))
    (exec (.pkWriteBits (.value 0b11 2)) (working { Work.reset with pk := ⟨0x2000, 0, 3, 0, 0⟩ } [])) =
      some (5, 0b00011) := by decide
/-- V-PK-1, V-PK-5. -/
theorem test_pk_write_bits_code :
    pack [bits [0], bits [0], bits [0], bits [1, 1], bits [1, 1], bits [1, 0]] 2 =
      some ([0x1F, 0x00], 2, 7) ∧
    pack [List.replicate 255 true] 32 = some (List.replicate 31 0xFF ++ [0xFE], 32, 1) := by
  decide +kernel
/-- V-PK-2, V-PK-4. -/
theorem test_pk_flush : pack [bits [1]] 1 = some ([0x80], 1, 7) ∧ pack [] 0 = some ([], 0, 0) := by
  decide +kernel

/-! ## The unpacker (V-UP); payload byte 0 at 0x1000 -/

/-- The answers of `n` reads of this payload with this L. -/
def reads (bytes : List Byte) (len n : Nat) : List (Option OpRet) :=
  (List.range n).map fun k => got (·.ret)
    (runAll (.upInit 0x1000 len :: List.replicate (k + 1) .upReadBit)
      (working Work.reset (Memory.writeRange [] 0x1000 bytes)))

/-- V-UP-2: the padding bit 1 is never read. -/
theorem test_up_read_bit : reads [0x1F, 0x01] 9 10 =
    (bits [0, 0, 0, 1, 1, 1, 1, 1, 0]).map (some ∘ .bit) ++ [some .endOfData] := by decide +kernel
/-- V-UP-3, V-UP-4. -/
theorem test_up_read_bit_end : reads [] 0 1 = [some .endOfData] ∧
    reads [0xB3] 8 9 = (bits [1, 0, 1, 1, 0, 0, 1, 1]).map (some ∘ .bit) ++ [some .endOfData] := by
  decide +kernel
/-- R220. -/
theorem test_up_init : got (·.work.up) (exec (.upInit 0x1000 9) (working { Work.reset with
    up := ⟨1, 2, 3⟩ } [])) = some ⟨0x1000, 0, 9⟩ := by decide
/-- V-UP-1. -/
theorem test_up_consumed : got (·.ret) (runAll (.upInit 0x1000 9 :: List.replicate 10 .upReadBit ++
    [.upConsumed]) (working Work.reset (Memory.writeRange [] 0x1000 [0x1F, 0x00]))) =
      some (.count 9) := by decide +kernel

/-! ## The checksum (V-CRC) -/

/-- V-CRC-11: the register after crc_init and one byte. -/
theorem test_crc_update : got (·.work.crcReg) (runAll [.crcInit, .crcUpdate 0x00] (working Work.reset [])) =
    some 0x2DFD1072 := by decide +kernel
/-- V-CRC-12. -/
theorem test_crc_tab : crcTab 0 = 0 ∧ crcTab 1 = 0x77073096 ∧ crcTab 255 = 0x2D02EF8D := by decide +kernel
/-- R241. -/
theorem test_crc_init : got (·.work.crcReg) (exec .crcInit (working Work.reset [])) = some 0xFFFFFFFF := by
  decide
/-- V-CRC-6, V-CRC-1. -/
theorem test_crc_final : got (·.ret) (runAll (.crcInit :: aaabbc.map .crcUpdate ++ [.crcFinal])
      (working Work.reset [])) = some (.crc 0x9D81954E) ∧
    got (·.ret) (runAll [.crcInit, .crcFinal] (working Work.reset [])) = some (.crc 0) := by decide +kernel

/-! ## ENCODE (V-ENC) -/

/-- V-TREE-1's counts, from "aaabbc". -/
theorem test_freq_count : got (fun t => counted t.work.freq)
    (exec (.freqCount 0x1000 6) (working Work.reset (Memory.writeRange [] 0x1000 aaabbc))) =
      some abcCounts := by decide +kernel
/-- V-ENC-1's header registers (R270, R35). -/
theorem test_write_container : got (fun t => (t.regs.hdrOrig, t.regs.hdrComp, t.regs.hdrMisc))
    (exec (.writeContainer 2 0x9D81954E 3 7) { onBytes aaabbc 64 0x1 with
      work := { Work.reset with freq := freqs abcCounts, code := codesOf (freqs abcCounts) } }) =
      some (6, 2, 0x000700039D81954E) := by decide +kernel
/-- V-ENC-16: V-ENC-1 with just enough room. -/
theorem test_encode : got (fun t => (t.regs.status, t.regs.resultLen, t.mem.readRange 0x4000 48))
    (step (onBytes aaabbc 47 0x1)) = some (0x2, 47, vEnc1 ++ [0]) := by decide +kernel
/-- V-ENC-17. -/
theorem test_encode_no_room : got (fun t => (t.regs.status, t.regs.resultLen, t.regs.hdrMisc,
    t.mem.readRange 0x4000 47)) (step (onBytes aaabbc 46 0x1)) =
      some (0x0146, 0, 0, List.replicate 47 0) := by decide +kernel

/-! ## DECODE (V-DEC) -/

/-- S13, V-DEC-24: the fields of V-ENC-1, with a reserved byte. -/
theorem test_read_header : got (fun t => (t.ret, t.regs.hdrMisc))
    (exec .readHeader (onBytes (vEnc1.set 29 0xAB) 6 0x2)) =
      some (.header ⟨0x46465548, 1, 6, 2, 0x9D81954E, 3, 7, 0xAB⟩, 0xAB0700039D81954E) := by decide +kernel
/-- V-DEC-26: the order of the entries does not matter. -/
theorem test_parse_table : got (fun t => counted t.work.freq) (exec (.parseTable 3) (onBytes (header1 ++
    [0x62, 2, 0, 0, 0, 0x61, 3, 0, 0, 0, 0x63, 1, 0, 0, 0, 0x1F, 0x00]) 6 0x2)) =
      some abcCounts := by decide +kernel
/-- V-DEC-9. -/
theorem test_parse_table_twice : got (·.regs.status)
    (exec (.parseTable 3) (onBytes (vEnc1.set 35 0x61) 6 0x2)) = some 0x0816 := by decide +kernel
/-- R108: L = 9 for V-ENC-1. -/
theorem test_check_payload_extent :
    got (·.ret) (exec (.checkPayloadExtent 3 2 7) (onBytes vEnc1 6 0x2)) = some (.count 9) := by decide
/-- V-DEC-10. -/
theorem test_check_payload_short : got (·.regs.status)
    (exec (.checkPayloadExtent 3 2 7) (onBytes (vEnc1.take 46) 6 0x2)) = some 0x0916 := by decide
/-- The walk of V-DEC-1. -/
theorem test_walk : got (fun t => t.mem.readRange 0x4000 6)
    (exec (.walk 0x102D 9 6) { onBytes vEnc1 6 0x2 with work := treeOf (freqs abcCounts) }) =
      some aaabbc := by decide +kernel
/-- The walk of V-DEC-13: two bits left over. -/
theorem test_walk_left_over : got (·.regs.status)
    (exec (.walk 0x102D 9 5) { onBytes vEnc1 6 0x2 with work := treeOf (freqs abcCounts) }) =
      some 0x0326 := by decide +kernel
/-- V-DEC-1. -/
theorem test_decode : got (fun t => (t.regs.status, t.regs.resultLen, t.regs.crcCalc,
    t.mem.readRange 0x4000 7)) (step (onBytes vEnc1 6 0x2)) =
      some (0x2, 6, 0x9D81954E, aaabbc ++ [0]) := by decide +kernel
/-- V-DEC-20, V-DEC-21: a wrong checksum, verified and not. -/
theorem test_decode_checksum : got (fun t => (t.regs.status, t.regs.crcCalc))
      (step (onBytes (vEnc1.set 22 0x4F) 6 0x2)) = some (0x0136, 0x9D81954E) ∧
    got (fun t => (t.regs.status, t.regs.crcCalc, t.mem.readRange 0x4000 6))
      (step (onBytes (vEnc1.set 22 0x4F) 6 0x102)) = some (0x2, 0, aaabbc) := by decide +kernel

/-! ## Control (V-CTL) -/

/-- V-CTL-1. -/
theorem test_nop : got (fun t => (t.regs.status, t.phase)) (step (onBytes [] 0 0x0)) = some (0x2, .idle) := by
  decide
/-- V-CTL-2, V-CTL-4. -/
theorem test_illegal_command : got (·.regs.status) (step (onBytes [] 0 0x03)) = some 0x0176 ∧
    got (·.regs.status) (step (onBytes [] 0 0x100)) = some 0x0276 := by decide
/-- V-CTL-6, V-CTL-8. -/
theorem test_illegal_command_bits : got (·.regs.status) (step (onBytes [] 0 0x100000002)) = some 0x0276 ∧
    got (·.regs.status) (step (onBytes [] 0 0x0203)) = some 0x0176 := by decide

/-! ## A stuck core (R67; item 15 of 93_implementation_defined.md) and the host's accesses -/

/-- ENCODE of one byte at 0x10000, the first that is not backed. -/
def stuck1 : State := issued par [] 0x10000 1 0x4000 64 0x1

/-- The core is stuck, with STATUS BUSY, and no later step of the core follows. -/
theorem test_stuck : got (fun t => (t.stuck, t.regs.status, t.phase)) (step stuck1) =
      some (some 0x10000, 0x1, .busy) ∧
    got (fun t => (t.stuck, t.observed)) (step { stuck1 with stuck := some 0x10000, inbox := [.poll "s"] }) =
      some (some 0x10000, [.reg "s" 0x1]) := by decide +kernel
/-- R450: reset frees it. -/
theorem test_stuck_reset : got (fun t => (t.stuck, t.phase, t.regs.status))
    (step { stuck1 with stuck := some 0x10000, inbox := [.reset] }) = some (none, .idle, 0x0) := by
  decide +kernel
/-- R67: the bytes before the stuck one are stored. -/
theorem test_stuck_partial : got (fun t => (t.stuck, t.mem.readRange 0xFFE0 32))
    (step (issued par (Memory.writeRange [] 0x1000 aaabbc) 0x1000 6 0xFFE0 47 0x1)) =
      some (some 0x10000, vEnc1.take 32) := by decide +kernel

/-! ## Witnesses: states and operands that meet the hypotheses of each statement that has some -/

theorem backed_low {s : State} {a n : Nat} (hp : s.par = par) (h : a + n ≤ 0x10000) :
    backed s.par a n := by
  intro x h1 h2
  rw [hp, accessible_iff]
  have h3 : (2 : Nat) ^ par.addrW = 0x10000000000000000 := by decide
  refine ⟨by omega, ?_⟩
  simp [busOk, par]
  omega

theorem treeOf_built (t : Table Word32) : isBuilt (treeOf t) ∧ (treeOf t).freq = t := by
  rw [treeOf, buildTree_ref]
  exact ⟨⟨rfl, rfl⟩, rfl⟩

theorem codesOf_isCodeTable (t : Table Word32) : isCodeTable t (codesOf t) := by
  obtain ⟨c, -, h, -, hc⟩ := generateCodes_built (treeOf_built t).1
  rw [(treeOf_built t).2] at hc
  have : codesOf t = c := by rw [codesOf, h]; rfl
  rwa [this]

/-- A table that agrees with a function on all its entries. -/
theorem tget_of_entries {t : Table Word32} {f : Byte → Word32}
    (h : (entries t).all (fun e => e.2 == f e.1) = true) (b : Byte) : tget t b = f b := by
  rw [List.all_eq_true] at h
  have : (b, tget t b) ∈ entries t := by
    rw [entries_eq]
    exact List.mem_map.2 ⟨b, mem_allSymbols b, rfl⟩
  simpa using h _ this

theorem abc_leaves : (refLeaves (freqs abcCounts)).length = 3 := by
  rw [refLeaves_length]; decide +kernel

theorem writeRange_wf (a : Nat) (bs : List Byte) : Memory.wf (Memory.writeRange [] a bs) :=
  Memory.writeRange_wf ⟨.nil, by simp⟩

theorem next_of_got {α : Type} {f : State → α} {o : Host.Outcome State Fault Refusal} {x : α}
    (h : got f o = some x) : ∃ t, o = .next t ∧ f t = x := by
  cases o with
  | next t => exact ⟨t, rfl, Option.some.inj h⟩
  | fault _ => cases h
  | refused _ => cases h

theorem witness_ResetState : Reg.crcCalc ≠ .id := by decide

theorem witness_RegisterReads : State.reset.phase = .idle ∧ (onBytes [] 0 0x1).phase = .busy ∧
    Reg.dstCap ∈ [Reg.id, .cmd, .status, .srcAddr, .srcLen, .dstAddr, .dstCap] ∧
    (∃ i, Reg.reserved 19 = .reserved i) ∧
    Reg.crcCalc ∈ [Reg.resultLen, .hdrOrig, .hdrComp, .hdrMisc, .crcCalc] := by decide

theorem witness_RegisterWrites : State.reset.phase = .idle ∧ (onBytes [] 0 0x1).phase = .busy ∧
    Reg.reserved 19 ∉ [Reg.cmd, .srcAddr, .srcLen, .dstAddr, .dstCap] := by decide

/-- Past the window, a half word, and a misaligned word. -/
theorem witness_OnlyAlignedWordsReachRegisters :
    (¬ ∃ k < 32, 8 = 8 ∧ par.regBase + 0x100 = par.regBase + 8 * k) ∧
    (¬ ∃ k < 32, 4 = 8 ∧ par.regBase = par.regBase + 8 * k) ∧
    (¬ ∃ k < 32, 8 = 8 ∧ par.regBase + 4 = par.regBase + 8 * k) := by
  refine ⟨?_, ?_, ?_⟩ <;> rintro ⟨k, h1, h2, h3⟩ <;> omega

theorem witness_ResetInput : State.reset.phase = .idle ∧ (onBytes aaabbc 64 0x1).mem.wf ∧
    (onBytes [] 0 0x0).phase = .busy ∧ decodeWord (onBytes [] 0 0x0).latch.cmd ≠ .encode ∧
    ∀ k, decodeWord (onBytes [] 0 0x0).latch.cmd ≠ .decode k :=
  ⟨rfl, writeRange_wf _ _, rfl, by decide, by decide⟩

theorem witness_MemoryReadsLastWrite : Memory.wf (Memory.writeRange [] 0x1000 aaabbc) := writeRange_wf _ _

/-- The first byte that is not backed is 0x10000; the step that makes the core stuck there. -/
theorem witness_UnbackedByteIsStuck : stuck1.stuck = none ∧
    ∃ t, exec .encode stuck1 = .next t ∧ t.stuck = some 0x10000 := by
  have h : got (·.stuck) (exec .encode stuck1) = some (some 0x10000) := by decide +kernel
  obtain ⟨t, h1, h2⟩ := next_of_got h
  exact ⟨rfl, t, h1, h2⟩

/-- The packer's eighth bit, its whole code, a value and a flush; the unpacker's second byte. -/
theorem witness_UnbackedByteIsStuck_bits (s : State)
    (h : s = working { Work.reset with pk := ⟨0xFFFF, 0x7F, 7, 1, 0⟩, up := ⟨0xFFFF, 8, 9⟩ } []) :
    (noBacking s.par (s.work.pk.base + s.work.pk.out) ∧ s.work.pk.cnt + 1 = 8 ∧ PackerOk s ∧
      (∃ c k, BitsOperand.code [true] = .code c ∧ k = c.length ∧ 8 ≤ s.work.pk.cnt + k) ∧
      (∃ v k, BitsOperand.value 3 2 = .value v k ∧ 8 ≤ s.work.pk.cnt + k) ∧ 0 < s.work.pk.cnt) ∧
    noBacking s.par (s.work.up.base + s.work.up.pos / 8) ∧ s.work.up.pos ≠ s.work.up.len := by
  subst h
  exact ⟨⟨by unfold noBacking; decide, rfl, by unfold PackerOk; decide, ⟨_, _, rfl, rfl, by decide⟩,
    ⟨_, _, rfl, by decide⟩, by decide⟩, by unfold noBacking; decide, by decide⟩

/-- The header's last byte, the source's last byte, and the first entry's last byte, each at 0x10000. -/
theorem witness_UnbackedByteIsStuck_source (s t u v : State) (hs : s = issued par [] 0xFFE3 30 0x4000 0 0x2)
    (ht : t = working Work.reset []) (hu : u = issued par [] 0xFFDE 35 0x4000 0 0x2)
    (hv : v = issued par [] 0xFFFB 6 0x4000 64 0x1) :
    (29 < 30 ∧ backed s.par s.src 29 ∧ noBacking s.par (s.src + 29) ∧ buffersOk s ∧ 30 ≤ s.srclen) ∧
    (1 < (2 : Word64).toNat ∧ backed t.par (0xFFFF : Word64).toNat 1 ∧
      noBacking t.par ((0xFFFF : Word64).toNat + 1) ∧
      ∀ b, (t.mem.readRange (0xFFFF : Word64).toNat 1).count b < 2 ^ 32) ∧
    ((1 : BitVec 16).toNat ≤ 256 ∧ 30 + 5 * (1 : BitVec 16).toNat ≤ u.srclen ∧
      4 < 5 * (1 : BitVec 16).toNat ∧ backed u.par (u.src + 30) 4 ∧ noBacking u.par (u.src + 30 + 4) ∧
      tableOk (storedEntries u.mem (u.src + 30) (4 / 5))) ∧
    (buffersOk v ∧ 5 < v.srclen ∧ backed v.par v.src 5 ∧ noBacking v.par (v.src + 5) ∧
      ∀ b, (v.mem.readRange v.src 5).count b < 2 ^ 32) := by
  subst hs ht hu hv
  refine ⟨⟨by decide, backed_low rfl (by decide), by unfold noBacking; decide, by unfold buffersOk; decide,
    by decide⟩, ⟨by decide, backed_low rfl (by decide), by unfold noBacking; decide, fun b => ?_⟩,
    ⟨by decide, by decide, by decide, backed_low rfl (by decide), by unfold noBacking; decide, by simp [tableOk, storedEntries]⟩,
    by unfold buffersOk; decide, by decide, backed_low rfl (by decide), by unfold noBacking; decide, fun b => ?_⟩ <;>
  · refine lt_of_le_of_lt List.count_le_length ?_
    rw [Memory.readRange_length]
    decide

/-- While BUSY one byte before SRC and one after DST, and the last bytes of SRC and DST; an existing byte that
is not backed, and the first byte that does not exist. -/
theorem witness_HostMemoryAccess (s : State) (h : s = onBytes aaabbc 64 0x1) :
    (0xFFF + 1 ≤ 2 ^ s.par.addrW ∧ ∀ x, 0xFFF ≤ x → x < 0xFFF + 1 →
      (x < s.src ∨ s.src + s.srclen ≤ x) ∧ (x < s.dst ∨ s.dst + s.cap ≤ x)) ∧
    (0x4040 + 1 ≤ 2 ^ s.par.addrW ∧ ∀ x, 0x4040 ≤ x → x < 0x4040 + 1 → x < s.dst ∨ s.dst + s.cap ≤ x) ∧
    (s.phase = .busy ∧ ∃ x, 0x1005 ≤ x ∧ x < 0x1005 + 1 ∧
      ((s.src ≤ x ∧ x < s.src + s.srclen) ∨ (s.dst ≤ x ∧ x < s.dst + s.cap))) ∧
    (s.phase = .busy ∧ ∃ x, 0x403F ≤ x ∧ x < 0x403F + 1 ∧ s.dst ≤ x ∧ x < s.dst + s.cap) ∧
    (backed s.par 0xFFFF 1 ∧ busOk s.par (0xFFFF + 0) ∧ busOk s.par 0x10000 = false ∧
      State.reset.phase = .idle ∧ 0x10000 + 1 ≤ 2 ^ State.reset.par.addrW ∧
      2 ^ State.reset.par.addrW < 2 ^ 64 + 1) := by
  subst h
  have h1 : (onBytes aaabbc 64 0x1).src = 0x1000 ∧ (onBytes aaabbc 64 0x1).srclen = 6 ∧
      (onBytes aaabbc 64 0x1).dst = 0x4000 ∧ (onBytes aaabbc 64 0x1).cap = 64 := ⟨rfl, rfl, rfl, rfl⟩
  obtain ⟨e1, e2, e3, e4⟩ := h1
  rw [e1, e2, e3, e4]
  exact ⟨⟨by decide, fun x _ _ => by omega⟩, ⟨by decide, fun x _ _ => by omega⟩, ⟨rfl, 0x1005, by omega⟩,
    ⟨rfl, 0x403F, by omega⟩, backed_low rfl (by decide), by decide, by decide, rfl, by decide, by decide⟩

theorem witness_DecodeEncodeAgree : (Instr.decode true).wf = true ∧
    encode (.decode true) = some [0x02, 0x01, 0, 0, 0, 0, 0, 0] := by decide

theorem witness_StepRunsDecodedCommand (s : State) (h : s = onBytes vEnc1 6 0x102) :
    (s.phase = .busy ∧ s.busyLeft = 0 ∧ s.stuck = none ∧ decode (leBytes 8 s.latch.cmd.toNat) = .ok (.decode true, [])) ∧
    State.reset.phase = .idle ∧ { s with busyLeft := 1 }.busyLeft ≠ 0 ∧
    { s with stuck := some 0x10000 }.stuck ≠ none := by
  subst h
  decide

/-- 255 queued, and 256. -/
theorem witness_QueueInsert (s t : State)
    (hs : s = queue (List.replicate 256 (.leaf 0 1)) (List.range 255))
    (ht : t = queue (List.replicate 256 (.leaf 0 1)) (List.range 256)) :
    (QueueOk s ∧ s.work.pq.length < 256 ∧ 255 < s.work.nodes.length ∧ 255 ∉ s.work.pq) ∧
    t.work.pq.length = 256 := by
  subst hs ht
  unfold QueueOk
  decide +kernel

theorem witness_QueueExtractMin (s : State) (h : s = queue leavesABC [2]) :
    (QueueOk s ∧ s.work.pq ≠ []) ∧ (queue leavesABC []).work.pq = [] := by
  subst h
  unfold QueueOk
  decide

/-- Two arenas that agree on the queued nodes, and two orders of insertion. -/
theorem witness_ExtractOrderOfContent (s t : State) (hs : s = queue leavesABC [0, 1])
    (ht : t = queue (leavesABC ++ [.leaf 0x64 9]) [0, 1]) :
    (QueueOk s ∧ QueueOk t ∧ (∀ j, j ∈ s.work.pq ↔ j ∈ t.work.pq) ∧
      ∀ j ∈ s.work.pq, freqAt s.work.nodes j = freqAt t.work.nodes j) ∧
    QueueOk (queue leavesABC []) ∧ [0, 1].Perm [1, 0] ∧
    runAll ([0, 1].map .pqInsert) (queue leavesABC []) = .next (queue leavesABC [0, 1]) := by
  subst hs ht
  refine ⟨⟨?_, ?_, fun j => Iff.rfl, by decide⟩, ?_, by decide, rfl⟩ <;> (unfold QueueOk; decide)

theorem witness_BuildMerges (s : State) (h : s = { counts abcCounts with
      work := { Work.reset with freq := freqs abcCounts, nodes := leavesABC, pq := [0, 1, 2] } }) :
    s.work.nodes = refLeaves s.work.freq ∧ s.work.pq = List.range (refLeaves s.work.freq).length ∧
    2 ≤ (refLeaves s.work.freq).length := by
  subst h
  rw [show refLeaves (freqs abcCounts) = leavesABC by rw [refLeaves_eq]; decide +kernel]
  decide

theorem witness_SmallTrees : (∀ b, tget (counts []).work.freq b = 0) ∧
    ∀ b, tget (counts [(0x41, 1000)]).work.freq b ≠ 0 ↔ b = 0x41 := by
  refine ⟨fun b => tget_replicate 0 b, fun b => ?_⟩
  have : tget (counts [(0x41, 1000)]).work.freq b = if b = 0x41 then 1000 else 0 := by
    rw [← tget_replicate (0 : Word32) b]
    exact tget_tset _ _ _ _
  rw [this]
  split <;> simp_all

/-- Of the tree of V-TREE-1, and with one leaf. -/
theorem witness_TreeProperties :
    (isBuilt (treeOf (freqs abcCounts)) ∧ (treeOf (freqs abcCounts)).root = some 4 ∧
      (treeOf (freqs abcCounts)).nodes[4]? = some (.internal 6 0 3) ∧
      2 < (refLeaves (freqs abcCounts)).length) ∧
    isBuilt (treeOf (freqs [(0x41, 1000)])) ∧ (treeOf (freqs [(0x41, 1000)])).root = some 0 := by
  rw [abc_leaves]
  refine ⟨⟨(treeOf_built _).1, ?_⟩, (treeOf_built _).1, ?_⟩ <;> decide +kernel

theorem working_built (t : Table Word32) : isBuilt (working (treeOf t) []).work ∧
    (working (treeOf t) []).work.freq = t := treeOf_built t

theorem working_codes (t : Table Word32) :
    ∃ u, exec .generateCodes (working (treeOf t) []) = .next u ∧ u.work.code = codesOf t := by
  obtain ⟨c, -, h1, -, hc⟩ := generateCodes_built (treeOf_built t).1
  have h2 : codesOf t = c := by rw [codesOf, h1]; rfl
  refine ⟨working ((treeOf t).setCode c) [], ?_, h2.symm⟩
  change workOutcome _ (generateCodes (treeOf t)) = _
  rw [h1]
  rfl

/-- No leaf, one leaf, three. -/
theorem witness_GenerateCodes : isBuilt (working (treeOf (freqs [])) []).work ∧
    isBuilt (working (treeOf (freqs [(0x41, 1000)])) []).work ∧
    isBuilt (working (treeOf (freqs abcCounts)) []).work :=
  ⟨(working_built _).1, (working_built _).1, (working_built _).1⟩

theorem witness_CodesArePrefixFree : isBuilt (working (treeOf (freqs abcCounts)) []).work ∧
    2 ≤ (refLeaves (working (treeOf (freqs abcCounts)) []).work.freq).length ∧
    ∃ t, exec .generateCodes (working (treeOf (freqs abcCounts)) []) = .next t ∧
      tget t.work.code 0x61 = some [false] ∧ tget t.work.code 0x62 = some [true, true] := by
  obtain ⟨t, h1, h2⟩ := working_codes (freqs abcCounts)
  refine ⟨(working_built _).1, ?_, t, h1, ?_⟩
  · rw [(working_built _).2, abc_leaves]; decide
  · rw [h2]; decide +kernel

theorem witness_CodeLookup : tget coded1.work.code 0x61 = some [true] ∧
    tget coded1.work.code 0x62 = none := by decide +kernel

theorem witness_PackerInitEmit (s : State)
    (h : s = working { Work.reset with pk := ⟨0x2000, 0, 0, 0xDFFF, 0⟩ } []) :
    backed s.par (s.work.pk.base + s.work.pk.out) 1 := by
  subst h
  exact backed_low rfl (by decide)

theorem witness_PackerWriteBit (s t : State)
    (hs : s = working { Work.reset with pk := ⟨0x2000, 0x3F, 6, 0, 0⟩ } [])
    (ht : t = working { Work.reset with pk := ⟨0x2000, 0x7F, 7, 0, 0⟩ } []) :
    s.work.pk.cnt + 1 ≠ 8 ∧ t.work.pk.cnt + 1 = 8 ∧ backed t.par (t.work.pk.base + t.work.pk.out) 1 := by
  subst hs ht
  exact ⟨by decide, rfl, backed_low rfl (by decide)⟩

/-- The longest code, and a value. -/
theorem witness_PackerWriteBits (s : State)
    (h : s = working { Work.reset with pk := ⟨0x2000, 0x7F, 7, 0, 0⟩ } []) :
    PackerOk s ∧ s.mem.wf ∧
    (∃ c k, BitsOperand.code (List.replicate 255 true) = .code c ∧ k = c.length ∧
      backed s.par (s.work.pk.base + s.work.pk.out) ((s.work.pk.cnt + k) / 8)) ∧
    ∃ v k, BitsOperand.value 3 2 = .value v k ∧
      backed s.par (s.work.pk.base + s.work.pk.out) ((s.work.pk.cnt + k) / 8) := by
  subst h
  exact ⟨by unfold PackerOk; decide, by decide, ⟨_, 255, rfl, List.length_replicate.symm, backed_low rfl (by decide)⟩,
    _, _, rfl, backed_low rfl (by decide)⟩

theorem witness_PackerFlush (s t : State) (hs : s = working Work.reset [])
    (ht : t = working { Work.reset with pk := ⟨0x2000, 0x7F, 7, 0, 0⟩ } []) :
    s.work.pk.cnt = 0 ∧ 0 < t.work.pk.cnt ∧ t.work.pk.cnt ≤ 7 ∧
    backed t.par (t.work.pk.base + t.work.pk.out) 1 := by
  subst hs ht
  exact ⟨rfl, by decide, by decide, backed_low rfl (by decide)⟩

theorem witness_PackedStream (s : State) (h : s = working Work.reset [(0x1000, 0xEE)]) :
    s.mem.wf ∧
    backed s.par 0x2000 (([bits [0], bits [1, 1], bits [1, 0]].flatten.length + 7) / 8) := by
  subst h
  exact ⟨by decide, backed_low rfl (by decide)⟩

theorem witness_UnpackerSteps (s t : State)
    (hs : s = working { Work.reset with up := ⟨0x1000, 9, 9⟩ } [])
    (ht : t = working { Work.reset with up := ⟨0x1000, 8, 9⟩ } []) :
    s.work.up.pos = s.work.up.len ∧ t.work.up.pos ≠ t.work.up.len ∧
    backed t.par (t.work.up.base + t.work.up.pos / 8) 1 := by
  subst hs ht
  exact ⟨rfl, by decide, backed_low rfl (by decide)⟩

theorem witness_UnpackReadsPacked (s : State) (bs : Bits)
    (hs : s = working Work.reset (Memory.writeRange [] 0x1000 [0x1F, 0x01]))
    (hb : bs = bits [0, 0, 0, 1, 1, 1, 1, 1, 0]) :
    backed s.par 0x1000 ((bs.length + 7) / 8) ∧
    ∀ k (h : k < bs.length), (s.mem.read (0x1000 + k / 8)).getLsbD (7 - k % 8) = bs[k] := by
  subst hs hb
  refine ⟨backed_low rfl (by decide), ?_⟩
  change ∀ k (h : k < 9), _
  decide +kernel

/-! ### ENCODE -/

/-- An instance whose first 8 GiB are plain memory. -/
def bigPar : Params := ⟨0x46465548, 63, 0x1000000000, [⟨0, 0x200000000⟩]⟩

theorem backed_big {s : State} {a n : Nat} (hp : s.par = bigPar) (h : a + n ≤ 0x200000000) :
    backed s.par a n := by
  intro x h1 h2
  rw [hp, accessible_iff]
  have h3 : (2 : Nat) ^ bigPar.addrW = 0x10000000000000000 := by decide
  refine ⟨by omega, ?_⟩
  simp [busOk, bigPar]
  omega

theorem readRange_empty (a n : Nat) : Memory.readRange [] a n = List.replicate n 0 := by
  induction n generalizing a with
  | zero => rfl
  | succ n ih => rw [Memory.readRange, ih]; rfl

/-- ENCODE of 2^32 zeros. -/
def bigEncode : State := issued bigPar [] 0 0x100000000 0x100000000 0x1000 0x1

theorem bigEncode_count (n : Nat) : (bigEncode.mem.readRange 0 n).count 0 = n := by
  rw [show bigEncode.mem = [] from rfl, readRange_empty, List.count_replicate_self]

theorem bigEncode_length : bigEncode.srclen = 0x100000000 ∧ bigEncode.src = 0 := by decide

theorem bigEncode_source : (sourceBytes bigEncode).count 0 = 0x100000000 := by
  rw [sourceBytes, bigEncode_length.1, bigEncode_length.2, bigEncode_count]

/-- A source of 6 bytes, and one with a byte value that occurs 2^32 times. -/
theorem witness_FreqCount (s : State) (h : s = working Work.reset (Memory.writeRange [] 0x1000 aaabbc)) :
    (backed s.par (0x1000 : Word64).toNat (6 : Word64).toNat ∧
      ∀ b, (s.mem.readRange (0x1000 : Word64).toNat (6 : Word64).toNat).count b < 2 ^ 32) ∧
    backed bigEncode.par (0 : Word64).toNat (0x100000000 : Word64).toNat ∧
    ∃ b, 2 ^ 32 ≤ (bigEncode.mem.readRange (0 : Word64).toNat (0x100000000 : Word64).toNat).count b := by
  subst h
  refine ⟨⟨backed_low rfl (by decide), fun b => lt_of_le_of_lt List.count_le_length ?_⟩,
    backed_big rfl (by decide), 0, ?_⟩
  rotate_left
  · rw [show (0x100000000 : Word64).toNat = 0x100000000 from rfl, show (0 : Word64).toNat = 0 from rfl,
      bigEncode_count]
    decide
  rw [Memory.readRange_length]
  decide

/-- ENCODE of "aaabbc" with just enough room. -/
def encode1 : State := onBytes aaabbc 47 0x1

theorem encode1_wf : encode1.mem.wf := writeRange_wf _ _
theorem encode1_buffers : buffersOk encode1 := by unfold buffersOk; decide
theorem encode1_source : backed encode1.par encode1.src encode1.srclen := backed_low rfl (by decide)
theorem encode1_bytes : sourceBytes encode1 = aaabbc := by decide +kernel
theorem encode1_dest : backed encode1.par encode1.dst encode1.cap := backed_low rfl (by decide)

theorem aaabbc_counts : Counts (freqs abcCounts) aaabbc := by
  intro b
  rw [tget_of_entries (f := fun b => BitVec.ofNat 32 (aaabbc.count b)) (by decide +kernel), BitVec.toNat_ofNat]
  exact Nat.mod_eq_of_lt (lt_of_le_of_lt List.count_le_length (by decide))

theorem aaabbc_bits : messageBits (codesOf (freqs abcCounts)) aaabbc = bits [0, 0, 0, 1, 1, 1, 1, 1, 0] := by
  decide +kernel

theorem witness_WriteContainer (s : State) (h : s = { encode1 with
      work := { Work.reset with freq := freqs abcCounts, code := codesOf (freqs abcCounts) } }) :
    s.mem.wf ∧ buffersOk s ∧ backed s.par s.src s.srclen ∧ coded s.work.code (sourceBytes s) ∧
    messageBits s.work.code (sourceBytes s) = bits [0, 0, 0, 1, 1, 1, 1, 1, 0] ∧
    (3 : BitVec 16).toNat = (refLeaves s.work.freq).length ∧
    30 + 5 * (3 : BitVec 16).toNat + ((bits [0, 0, 0, 1, 1, 1, 1, 1, 0]).length + 7) / 8 ≤ s.cap ∧
    backed s.par s.dst
      (30 + 5 * (3 : BitVec 16).toNat + ((bits [0, 0, 0, 1, 1, 1, 1, 1, 0]).length + 7) / 8) := by
  subst h
  refine ⟨encode1_wf, encode1_buffers, encode1_source, ?_, ?_, abc_leaves.symm, by decide, encode1_dest⟩
  · unfold coded; decide +kernel
  · exact (congrArg _ encode1_bytes).trans aaabbc_bits

theorem witness_EncodeWritesContainer : encode1.mem.wf ∧ buffersOk encode1 ∧
    backed encode1.par encode1.src encode1.srclen ∧ (∀ b, (sourceBytes encode1).count b < 2 ^ 32) ∧
    30 + 5 * (refLeaves (freqs abcCounts)).length + (9 + 7) / 8 ≤ encode1.cap ∧
    backed encode1.par encode1.dst (30 + 5 * (refLeaves (freqs abcCounts)).length + (9 + 7) / 8) := by
  refine ⟨encode1_wf, encode1_buffers, encode1_source, fun b => ?_, ?_, ?_⟩
  · rw [encode1_bytes]
    exact lt_of_le_of_lt List.count_le_length (by decide)
  · rw [abc_leaves]; decide
  · rw [abc_leaves]; exact encode1_dest

/-- V-MEM-4 and V-MEM-6, V-MEM-5, V-MEM-1, 2^32 equal bytes, V-ENC-17. -/
theorem witness_EncodeErrors (s1 s1' s2 s3 s5 : State)
    (h1 : s1 = issued par [] 0xFFFFFFFFFFFFFFFF 2 0x4000 64 0x1)
    (h1' : s1' = issued { par with topBit := 31 } [] 0x100000000 0 0x4000 64 0x1)
    (h2 : s2 = issued par [] 0x1000 6 0xFFFFFFFFFFFFFFF0 0x20 0x1)
    (h3 : s3 = issued par [] 0x1000 6 0x1005 64 0x1) (h5 : s5 = onBytes aaabbc 46 0x1) :
    2 ^ s1.par.addrW < s1.src + s1.srclen ∧ 2 ^ s1'.par.addrW ≤ s1'.src ∧
    (s2.src < 2 ^ s2.par.addrW ∧ s2.src + s2.srclen ≤ 2 ^ s2.par.addrW ∧
      (2 ^ s2.par.addrW ≤ s2.dst ∨ 2 ^ s2.par.addrW < s2.dst + s2.cap)) ∧
    (s3.src < 2 ^ s3.par.addrW ∧ s3.src + s3.srclen ≤ 2 ^ s3.par.addrW ∧ s3.dst < 2 ^ s3.par.addrW ∧
      s3.dst + s3.cap ≤ 2 ^ s3.par.addrW ∧ 0 < s3.srclen ∧ 0 < s3.cap ∧ s3.src < s3.dst + s3.cap ∧
      s3.dst < s3.src + s3.srclen) ∧
    (buffersOk bigEncode ∧ backed bigEncode.par bigEncode.src bigEncode.srclen ∧
      ∃ b, 2 ^ 32 ≤ (sourceBytes bigEncode).count b) ∧
    (buffersOk s5 ∧ backed s5.par s5.src s5.srclen ∧ ∃ freq code, Counts freq (sourceBytes s5) ∧
      isCodeTable freq code ∧ s5.cap < 30 + 5 * (refLeaves freq).length +
        ((messageBits code (sourceBytes s5)).length + 7) / 8) := by
  subst h1 h1' h2 h3 h5
  refine ⟨by decide, by decide, by decide, by decide, ⟨by unfold buffersOk; decide, backed_big rfl (by decide), 0,
    by rw [bigEncode_source]; decide⟩, by unfold buffersOk; decide, backed_low rfl (by decide), freqs abcCounts, _, ?_,
    codesOf_isCodeTable _, ?_⟩
  · exact (congrArg _ encode1_bytes).mpr aaabbc_counts
  · rw [abc_leaves, show sourceBytes (onBytes aaabbc 46 0x1) = aaabbc from encode1_bytes, aaabbc_bits]
    decide

/-- V-ENC-19, and V-ENC-4 with just enough room. -/
theorem witness_EncodeSmallInputs (s t : State) (hs : s = onBytes [] 30 0x1)
    (ht : t = onBytes [0x41] 36 0x1) :
    (s.mem.wf ∧ buffersOk s ∧ s.srclen = 0 ∧ 30 ≤ s.cap ∧ backed s.par s.dst 30) ∧
    (t.mem.wf ∧ buffersOk t ∧ backed t.par t.src t.srclen ∧ 0 < t.srclen ∧ t.srclen < 2 ^ 32 ∧
      sourceBytes t = List.replicate t.srclen 0x41 ∧ 35 + (t.srclen + 7) / 8 ≤ t.cap ∧
      backed t.par t.dst (35 + (t.srclen + 7) / 8)) := by
  subst hs ht
  refine ⟨⟨by decide, by unfold buffersOk; decide, rfl, by decide, backed_low rfl (by decide)⟩,
    by decide, by unfold buffersOk; decide, backed_low rfl (by decide), by decide, by decide, by decide,
    by decide, backed_low rfl (by decide)⟩

/-! ### DECODE -/

/-- DECODE of V-ENC-1 with just enough room. -/
def decode1 : State := onBytes vEnc1 6 0x2

theorem onBytes_wf (bs : List Byte) (cap w : Word64) : (onBytes bs cap w).mem.wf := writeRange_wf _ _

theorem onBytes_source {bs : List Byte} {cap w : Word64} (h : bs.length ≤ 0xF000) :
    backed (onBytes bs cap w).par (onBytes bs cap w).src (onBytes bs cap w).srclen := by
  refine backed_low rfl ?_
  change 0x1000 + (BitVec.ofNat 64 bs.length).toNat ≤ _
  rw [BitVec.toNat_ofNat, Nat.mod_eq_of_lt (by omega)]
  omega

theorem onBytes_buffers {bs : List Byte} {cap w : Word64} (h : bs.length ≤ 0x3000) (hc : cap.toNat ≤ 0x1000) :
    buffersOk (onBytes bs cap w) := by
  have h1 : (onBytes bs cap w).srclen = bs.length := by
    change (BitVec.ofNat 64 bs.length).toNat = _
    rw [BitVec.toNat_ofNat, Nat.mod_eq_of_lt (by omega)]
  have h2 : (onBytes bs cap w).cap = cap.toNat ∧ (onBytes bs cap w).src = 0x1000 ∧
      (onBytes bs cap w).dst = 0x4000 ∧ 2 ^ (onBytes bs cap w).par.addrW = 0x10000000000000000 :=
    ⟨rfl, rfl, rfl, (by decide : 2 ^ par.addrW = 0x10000000000000000)⟩
  unfold buffersOk
  rw [h1, h2.1, h2.2.1, h2.2.2.1, h2.2.2.2]
  omega

theorem onBytes_dest {bs : List Byte} {cap w : Word64} {n : Nat} (h : n ≤ 0x1000) :
    backed (onBytes bs cap w).par (onBytes bs cap w).dst n := by
  refine backed_low rfl ?_
  change 0x4000 + n ≤ _
  omega

theorem witness_ReadHeader : backed decode1.par decode1.src 30 := backed_low rfl (by decide)

theorem abc_tableOk : tableOk abcCounts := by simp [tableOk, abcCounts]

/-- The entries of V-ENC-1. -/
theorem entries1 : storedEntries decode1.mem (decode1.src + 30) (3 : BitVec 16).toNat = abcCounts := by
  decide +kernel

/-- V-DEC-1's table; V-DEC-6 to V-DEC-9. -/
theorem witness_ParseTable (s8 s9 : State) (h8 : s8 = onBytes (vEnc1.set 31 0x00) 6 0x2)
    (h9 : s9 = onBytes (vEnc1.set 35 0x61) 6 0x2) :
    ((3 : BitVec 16).toNat ≤ 256 ∧ 30 + 5 * (3 : BitVec 16).toNat ≤ decode1.srclen ∧
      backed decode1.par (decode1.src + 30) (5 * (3 : BitVec 16).toNat) ∧
      tableOk (storedEntries decode1.mem (decode1.src + 30) (3 : BitVec 16).toNat)) ∧
    256 < (257 : BitVec 16).toNat ∧
    ((256 : BitVec 16).toNat ≤ 256 ∧ decode1.srclen < 30 + 5 * (256 : BitVec 16).toNat) ∧
    (30 + 5 * (3 : BitVec 16).toNat ≤ s8.srclen ∧ backed s8.par (s8.src + 30) (5 * (3 : BitVec 16).toNat) ∧
      (storedEntries s8.mem (s8.src + 30) (3 : BitVec 16).toNat)[0]? = some (0x61, 0) ∧
      tableOk ((storedEntries s8.mem (s8.src + 30) (3 : BitVec 16).toNat).take 0)) ∧
    (30 + 5 * (3 : BitVec 16).toNat ≤ s9.srclen ∧ backed s9.par (s9.src + 30) (5 * (3 : BitVec 16).toNat) ∧
      (storedEntries s9.mem (s9.src + 30) (3 : BitVec 16).toNat)[1]? = some (0x61, 2) ∧
      tableOk ((storedEntries s9.mem (s9.src + 30) (3 : BitVec 16).toNat).take 1) ∧
      (0x61 : Byte) ∈ ((storedEntries s9.mem (s9.src + 30) (3 : BitVec 16).toNat).take 1).map Prod.fst) := by
  have e8 : storedEntries s8.mem (s8.src + 30) (3 : BitVec 16).toNat = [(0x61, 0), (0x62, 2), (0x63, 1)] := by
    subst h8; decide +kernel
  have e9 : storedEntries s9.mem (s9.src + 30) (3 : BitVec 16).toNat = [(0x61, 3), (0x61, 2), (0x63, 1)] := by
    subst h9; decide +kernel
  rw [entries1, e8, e9]
  subst h8 h9
  refine ⟨⟨by decide, by decide, backed_low rfl (by decide), ?_⟩, by decide, by decide,
    ⟨by decide, backed_low rfl (by decide), rfl, ?_⟩, by decide, backed_low rfl (by decide), rfl, ?_, ?_⟩
  · exact abc_tableOk
  · simp [tableOk]
  · simp [tableOk]
  · decide

/-- V-DEC-1, V-DEC-10, V-DEC-11, V-DEC-28. -/
theorem witness_CheckPayloadExtent :
    (decode1.srclen = 30 + 5 * (3 : BitVec 16).toNat + (2 : Word64).toNat ∧ ((2 : Word64) = 0 → (7 : Byte) = 0)) ∧
    (onBytes (vEnc1.take 46) 6 0x2).srclen < 30 + 5 * (3 : BitVec 16).toNat + (2 : Word64).toNat ∧
    30 + 5 * (3 : BitVec 16).toNat + (2 : Word64).toNat < (onBytes (vEnc1 ++ [0]) 6 0x2).srclen ∧
    ((onBytes vEnc2 6 0x2).srclen = 30 + 5 * (0 : BitVec 16).toNat + (0 : Word64).toNat ∧
      (0 : Word64) = 0 ∧ (1 : Byte) ≠ 0) := by decide

theorem aaabb_bits : messageBits (codesOf (freqs abcCounts)) [0x61, 0x61, 0x61, 0x62, 0x62] =
    bits [0, 0, 0, 1, 1, 1, 1] := by decide +kernel

theorem code_a : tget (codesOf (freqs abcCounts)) 0x61 = some [false] := by decide +kernel

theorem aaabbc_coded : coded (codesOf (freqs abcCounts)) aaabbc ∧
    coded (codesOf (freqs abcCounts)) [0x61, 0x61, 0x61, 0x62, 0x62] := by
  unfold coded
  decide +kernel

/-- The walk of V-DEC-1, V-DEC-13 and V-DEC-12. -/
theorem witness_WalkEmitsSymbols (s : State) (h : s = { decode1 with work := treeOf (freqs abcCounts) }) :
    (s.mem.wf ∧ isBuilt s.work ∧ 2 ≤ (refLeaves s.work.freq).length ∧
      isCodeTable s.work.freq (codesOf (freqs abcCounts)) ∧ coded (codesOf (freqs abcCounts)) aaabbc ∧
      backed s.par 0x102D ((9 + 7) / 8) ∧ backed s.par s.dst (7 : Word64).toNat ∧
      ∀ x, 0x102D ≤ x → x < 0x102D + (9 + 7) / 8 → x < s.dst ∨ s.dst + (7 : Word64).toNat ≤ x) ∧
    (streamBits s.mem 0x102D 0 9 = messageBits (codesOf (freqs abcCounts)) aaabbc ∧
      aaabbc.length = (6 : Word64).toNat) ∧
    (coded (codesOf (freqs abcCounts)) [0x61, 0x61, 0x61, 0x62, 0x62] ∧
      streamBits s.mem 0x102D 0 9 =
        messageBits (codesOf (freqs abcCounts)) [0x61, 0x61, 0x61, 0x62, 0x62] ++ [true, false] ∧
      [0x61, 0x61, 0x61, 0x62, 0x62].length = (5 : Word64).toNat) ∧
    (streamBits s.mem 0x102D 0 9 = messageBits (codesOf (freqs abcCounts)) aaabbc ++ [] ∧
      tget (codesOf (freqs abcCounts)) 0x61 = some ([] ++ [false]) ∧ aaabbc.length < (7 : Word64).toNat) := by
  have e : streamBits s.mem 0x102D 0 9 = bits [0, 0, 0, 1, 1, 1, 1, 1, 0] := by
    rw [show s.mem = decode1.mem by rw [h]]
    decide +kernel
  have hw : s.work = treeOf (freqs abcCounts) ∧ s.dst = 0x4000 ∧ s.par = par := by rw [h]; exact ⟨rfl, rfl, rfl⟩
  rw [e, hw.1, hw.2.1, (treeOf_built _).2, aaabbc_bits, aaabb_bits, code_a, abc_leaves]
  refine ⟨⟨by rw [h]; exact onBytes_wf _ _ _, (treeOf_built _).1, by decide, codesOf_isCodeTable _,
    aaabbc_coded.1, backed_low hw.2.2 (by decide), backed_low hw.2.2 (by decide), fun x h1 h2 => .inl (by omega)⟩, ⟨rfl, rfl⟩,
    ⟨aaabbc_coded.2, rfl, rfl⟩, rfl, rfl, by decide⟩

/-- The header of V-ENC-1 with this original_size and this checksum. -/
def head1 (orig : Word64) (crc : Word32) : Header := ⟨0x46465548, 1, orig, 2, crc, 3, 7, 0⟩

/-- V-ENC-1 with byte 6 and byte 22 replaced. -/
def vEnc1With (orig crc0 : Byte) : List Byte := (vEnc1.set 6 orig).set 22 crc0

/-- What DECODE reads from V-ENC-1 and its variants: V-DEC-1, V-DEC-13, V-DEC-12, V-DEC-20. -/
theorem reads1 (s : State) (orig crc0 : Byte) (crc : Word32) (cap w : Word64)
    (h : s = onBytes (vEnc1With orig crc0) cap w) (hc : cap.toNat ≤ 0x1000)
    (ho : (orig, crc0, crc) ∈ [(6, 0x4E, 0x9D81954E), (5, 0x4E, 0x9D81954E), (7, 0x4E, 0x9D81954E),
      ((6 : Byte), (0x4F : Byte), (0x9D81954F : Word32))]) :
    s.mem.wf ∧ buffersOk s ∧ backed s.par s.src s.srclen ∧ containerOk s ∧
    sourceHeader s = head1 (orig.zeroExtend 64) crc ∧ sourceEntries s = abcCounts ∧
    sourceStream s = bits [0, 0, 0, 1, 1, 1, 1, 1, 0] := by
  have hm : s.mem = (onBytes (vEnc1With orig crc0) 0 0).mem ∧ s.src = 0x1000 ∧ s.srclen = 47 ∧
      s.par = par := by subst h; exact ⟨rfl, rfl, by simp [onBytes, issued, State.srclen, State.withFetchWord,
        placeCommand, latchCommand, vEnc1With, vEnc1, header1, table1], rfl⟩
  have hh : sourceHeader s = head1 (orig.zeroExtend 64) crc := by
    unfold sourceHeader
    rw [hm.1, hm.2.1]
    simp only [List.mem_cons, Prod.mk.injEq, List.not_mem_nil, or_false] at ho
    rcases ho with ⟨rfl, rfl, rfl⟩ | ⟨rfl, rfl, rfl⟩ | ⟨rfl, rfl, rfl⟩ | ⟨rfl, rfl, rfl⟩ <;> decide +kernel
  have he : sourceEntries s = abcCounts := by
    unfold sourceEntries
    rw [hh, hm.1, hm.2.1]
    change storedEntries _ _ 3 = _
    simp only [List.mem_cons, Prod.mk.injEq, List.not_mem_nil, or_false] at ho
    rcases ho with ⟨rfl, rfl, rfl⟩ | ⟨rfl, rfl, rfl⟩ | ⟨rfl, rfl, rfl⟩ | ⟨rfl, rfl, rfl⟩ <;> decide +kernel
  have hs : sourceStream s = bits [0, 0, 0, 1, 1, 1, 1, 1, 0] := by
    unfold sourceStream sourcePayload sourceL
    rw [hh, hm.1, hm.2.1]
    change streamBits _ 0x102D 0 9 = _
    simp only [List.mem_cons, Prod.mk.injEq, List.not_mem_nil, or_false] at ho
    rcases ho with ⟨rfl, rfl, rfl⟩ | ⟨rfl, rfl, rfl⟩ | ⟨rfl, rfl, rfl⟩ | ⟨rfl, rfl, rfl⟩ <;> decide +kernel
  have hl : (vEnc1With orig crc0).length = 47 := by simp [vEnc1With, vEnc1, header1, table1]
  refine ⟨?_, ?_, ?_, ?_, hh, he, hs⟩
  · subst h; exact onBytes_wf _ _ _
  · subst h; exact onBytes_buffers (by omega) hc
  · subst h; exact onBytes_source (by omega)
  · unfold containerOk
    rw [hh, he, hm.2.2.1, hm.2.2.2]
    exact ⟨by decide, rfl, rfl, by change 7 ≤ 7; decide, by change 3 ≤ 256; decide, rfl, abc_tableOk,
      fun h => absurd h (by change (2 : Word64) ≠ 0; decide)⟩

theorem abc_isTableOf : IsTableOf (freqs abcCounts) abcCounts := by
  have h := tget_of_entries (t := freqs abcCounts)
    (f := fun b => if b = 0x61 then 3 else if b = 0x62 then 2 else if b = 0x63 then 1 else 0) (by decide +kernel)
  refine ⟨fun e he => ?_, fun b hb => ?_⟩
  · rw [h]
    simp only [abcCounts, List.mem_cons, List.not_mem_nil, or_false] at he
    rcases he with rfl | rfl | rfl <;> rfl
  · rw [h]
    simp only [abcCounts, List.map_cons, List.map_nil, List.mem_cons, List.not_mem_nil, or_false, not_or] at hb
    rw [if_neg hb.1, if_neg hb.2.1, if_neg hb.2.2]

theorem witness_DecodeEmitsMessage (s : State) (h : s = onBytes (vEnc1With 6 0x4E) 6 0x2) :
    s.mem.wf ∧ buffersOk s ∧ backed s.par s.src s.srclen ∧ containerOk s ∧
    IsTableOf (freqs abcCounts) (sourceEntries s) ∧ 2 ≤ (sourceEntries s).length ∧
    isCodeTable (freqs abcCounts) (codesOf (freqs abcCounts)) ∧ coded (codesOf (freqs abcCounts)) aaabbc ∧
    sourceStream s = messageBits (codesOf (freqs abcCounts)) aaabbc ∧
    aaabbc.length = (sourceHeader s).originalSize.toNat ∧ aaabbc.length ≤ s.cap ∧
    backed s.par s.dst aaabbc.length ∧ refCrc32 aaabbc = (sourceHeader s).checksum := by
  obtain ⟨h1, h2, h3, h4, h5, h6, h7⟩ := reads1 s 6 0x4E 0x9D81954E 6 0x2 h (by decide) (by simp)
  rw [h5, h6, h7, aaabbc_bits]
  refine ⟨h1, h2, h3, h4, abc_isTableOf, by decide, codesOf_isCodeTable _, aaabbc_coded.1, rfl, rfl, ?_, ?_, ?_⟩
  · subst h; decide
  · subst h; exact onBytes_dest (by decide)
  · change _ = (0x9D81954E : Word32); decide +kernel

/-- V-DEC-13, V-DEC-12, V-DEC-20, each with its own source. -/
theorem witness_DecodeStreamErrors (a b c : State) (ha : a = onBytes (vEnc1With 5 0x4E) 5 0x2)
    (hb : b = onBytes (vEnc1With 7 0x4E) 7 0x2) (hc : c = onBytes (vEnc1With 6 0x4F) 6 0x2) :
    (∀ s ∈ [a, b, c], s.mem.wf ∧ buffersOk s ∧ backed s.par s.src s.srclen ∧ containerOk s ∧
      IsTableOf (freqs abcCounts) (sourceEntries s) ∧ 2 ≤ (sourceEntries s).length ∧
      isCodeTable (freqs abcCounts) (codesOf (freqs abcCounts)) ∧
      (sourceHeader s).originalSize.toNat ≤ s.cap ∧ backed s.par s.dst (sourceHeader s).originalSize.toNat) ∧
    (coded (codesOf (freqs abcCounts)) [0x61, 0x61, 0x61, 0x62, 0x62] ∧
      sourceStream a = messageBits (codesOf (freqs abcCounts)) [0x61, 0x61, 0x61, 0x62, 0x62] ++ [true, false] ∧
      [0x61, 0x61, 0x61, 0x62, 0x62].length = (sourceHeader a).originalSize.toNat) ∧
    (coded (codesOf (freqs abcCounts)) aaabbc ∧
      sourceStream b = messageBits (codesOf (freqs abcCounts)) aaabbc ++ [] ∧
      tget (codesOf (freqs abcCounts)) 0x61 = some ([] ++ [false]) ∧
      aaabbc.length < (sourceHeader b).originalSize.toNat) ∧
    (sourceStream c = messageBits (codesOf (freqs abcCounts)) aaabbc ∧
      aaabbc.length = (sourceHeader c).originalSize.toNat ∧ refCrc32 aaabbc ≠ (sourceHeader c).checksum) := by
  obtain ⟨a1, a2, a3, a4, a5, a6, a7⟩ := reads1 a 5 0x4E 0x9D81954E 5 0x2 ha (by decide) (by simp)
  obtain ⟨b1, b2, b3, b4, b5, b6, b7⟩ := reads1 b 7 0x4E 0x9D81954E 7 0x2 hb (by decide) (by simp)
  obtain ⟨c1, c2, c3, c4, c5, c6, c7⟩ := reads1 c 6 0x4F 0x9D81954F 6 0x2 hc (by decide) (by simp)
  refine ⟨fun s hs => ?_, ?_, ?_, ?_⟩
  · simp only [List.mem_cons, List.not_mem_nil, or_false] at hs
    rcases hs with hs | hs | hs <;> rw [hs]
    · refine ⟨a1, a2, a3, a4, by rw [a6]; exact abc_isTableOf, by rw [a6]; decide, codesOf_isCodeTable _, ?_, ?_⟩ <;>
        rw [a5] <;> subst ha
      · decide
      · exact onBytes_dest (by decide)
    · refine ⟨b1, b2, b3, b4, by rw [b6]; exact abc_isTableOf, by rw [b6]; decide, codesOf_isCodeTable _, ?_, ?_⟩ <;>
        rw [b5] <;> subst hb
      · decide
      · exact onBytes_dest (by decide)
    · refine ⟨c1, c2, c3, c4, by rw [c6]; exact abc_isTableOf, by rw [c6]; decide, codesOf_isCodeTable _, ?_, ?_⟩ <;>
        rw [c5] <;> subst hc
      · decide
      · exact onBytes_dest (by decide)
  · rw [a7, a5, aaabb_bits]; exact ⟨aaabbc_coded.2, rfl, rfl⟩
  · rw [b7, b5, aaabbc_bits, code_a]; exact ⟨aaabbc_coded.1, rfl, rfl, by decide⟩
  · rw [c7, c5, aaabbc_bits]
    exact ⟨rfl, rfl, by change _ ≠ (0x9D81954F : Word32); decide +kernel⟩

/-- The header of V-ENC-2 with this original_size and this checksum. -/
def head2 (orig : Word64) (crc : Word32) : Header := ⟨0x46465548, 1, orig, 0, crc, 0, 0, 0⟩

/-- What DECODE reads from V-ENC-2, V-DEC-29 and V-DEC-30. -/
theorem reads2 (s : State) (orig crc0 : Byte) (cap w : Word64)
    (h : s = onBytes ((vEnc2.set 6 orig).set 22 crc0) cap w) (hc : cap.toNat ≤ 0x1000)
    (ho : (orig, crc0) ∈ [((0 : Byte), (0 : Byte)), (1, 0), (0, 1)]) :
    s.mem.wf ∧ buffersOk s ∧ backed s.par s.src s.srclen ∧ containerOk s ∧
    sourceHeader s = head2 (orig.zeroExtend 64) (crc0.zeroExtend 32) ∧ sourceEntries s = [] := by
  have hm : s.mem = (onBytes ((vEnc2.set 6 orig).set 22 crc0) 0 0).mem ∧ s.src = 0x1000 ∧ s.srclen = 30 ∧
      s.par = par := by
    subst h
    exact ⟨rfl, rfl, by simp [onBytes, issued, State.srclen, State.withFetchWord, placeCommand,
      latchCommand, vEnc2], rfl⟩
  have hh : sourceHeader s = head2 (orig.zeroExtend 64) (crc0.zeroExtend 32) := by
    unfold sourceHeader
    rw [hm.1, hm.2.1]
    simp only [List.mem_cons, Prod.mk.injEq, List.not_mem_nil, or_false] at ho
    rcases ho with ⟨rfl, rfl⟩ | ⟨rfl, rfl⟩ | ⟨rfl, rfl⟩ <;> decide +kernel
  have he : sourceEntries s = [] := by
    unfold sourceEntries
    rw [hh]
    rfl
  have hl : ((vEnc2.set 6 orig).set 22 crc0).length = 30 := by simp [vEnc2]
  refine ⟨?_, ?_, ?_, ?_, hh, he⟩
  · subst h; exact onBytes_wf _ _ _
  · subst h; exact onBytes_buffers (by omega) hc
  · subst h; exact onBytes_source (by omega)
  · unfold containerOk
    rw [hh, he, hm.2.2.1, hm.2.2.2]
    exact ⟨by decide, rfl, rfl, by change 0 ≤ 7; decide, by change 0 ≤ 256; decide, rfl, by simp [tableOk],
      fun _ => rfl⟩

/-- The header of V-ENC-4 with this original_size. -/
def head4 (orig : Word64) : Header := ⟨0x46465548, 1, orig, 1, 0xD3D99E8B, 1, 7, 0⟩

/-- What DECODE reads from V-ENC-4, V-DEC-36, and V-ENC-4 with the original_size of V-DEC-34. -/
theorem reads4 (s : State) (orig : Byte) (cap w : Word64) (h : s = onBytes (vEnc4.set 6 orig) cap w)
    (hc : cap.toNat ≤ 0x1000) (ho : orig ∈ [(0 : Byte), 1, 5]) :
    s.mem.wf ∧ buffersOk s ∧ backed s.par s.src s.srclen ∧ containerOk s ∧
    sourceHeader s = head4 (orig.zeroExtend 64) ∧ sourceEntries s = [(0x41, 1)] := by
  have hm : s.mem = (onBytes (vEnc4.set 6 orig) 0 0).mem ∧ s.src = 0x1000 ∧ s.srclen = 36 ∧ s.par = par := by
    subst h
    exact ⟨rfl, rfl, by simp [onBytes, issued, State.srclen, State.withFetchWord, placeCommand,
      latchCommand, vEnc4], rfl⟩
  have hh : sourceHeader s = head4 (orig.zeroExtend 64) := by
    unfold sourceHeader
    rw [hm.1, hm.2.1]
    simp only [List.mem_cons, List.not_mem_nil, or_false] at ho
    rcases ho with rfl | rfl | rfl <;> decide +kernel
  have he : sourceEntries s = [(0x41, 1)] := by
    unfold sourceEntries
    rw [hh, hm.1, hm.2.1]
    change storedEntries _ _ 1 = _
    simp only [List.mem_cons, List.not_mem_nil, or_false] at ho
    rcases ho with rfl | rfl | rfl <;> decide +kernel
  have hl : (vEnc4.set 6 orig).length = 36 := by simp [vEnc4]
  refine ⟨?_, ?_, ?_, ?_, hh, he⟩
  · subst h; exact onBytes_wf _ _ _
  · subst h; exact onBytes_buffers (by omega) hc
  · subst h; exact onBytes_source (by omega)
  · unfold containerOk
    rw [hh, he, hm.2.2.1, hm.2.2.2]
    exact ⟨by decide, rfl, rfl, by change 7 ≤ 7; decide, by change 1 ≤ 256; decide, rfl, by simp [tableOk],
      fun h => absurd h (by change (1 : Word64) ≠ 0; decide)⟩

/-- V-DEC-30; V-DEC-36, and V-ENC-4 with the original_size of V-DEC-34. -/
theorem witness_DecodeStreamErrors_noWalk (a b c : State)
    (ha : a = onBytes ((vEnc2.set 6 0).set 22 1) 0 0x2) (hb : b = onBytes (vEnc4.set 6 0) 0 0x2)
    (hc : c = onBytes (vEnc4.set 6 5) 5 0x2) :
    (a.mem.wf ∧ buffersOk a ∧ backed a.par a.src a.srclen ∧ containerOk a ∧
      (sourceHeader a).originalSize.toNat ≤ a.cap ∧ backed a.par a.dst (sourceHeader a).originalSize.toNat ∧
      sourceEntries a = [] ∧ ([] : List Byte).length = (sourceHeader a).originalSize.toNat ∧
      refCrc32 [] ≠ (sourceHeader a).checksum) ∧
    (b.mem.wf ∧ buffersOk b ∧ backed b.par b.src b.srclen ∧ containerOk b ∧
      (sourceHeader b).originalSize.toNat ≤ b.cap ∧ backed b.par b.dst (sourceHeader b).originalSize.toNat ∧
      (∃ e, sourceEntries b = [e] ∧ [] = List.replicate ([] : List Byte).length e.1) ∧
      ([] : List Byte).length = (sourceHeader b).originalSize.toNat ∧ refCrc32 [] ≠ (sourceHeader b).checksum) ∧
    (c.mem.wf ∧ buffersOk c ∧ backed c.par c.src c.srclen ∧ containerOk c ∧
      (sourceHeader c).originalSize.toNat ≤ c.cap ∧ backed c.par c.dst (sourceHeader c).originalSize.toNat ∧
      (∃ e, sourceEntries c = [e] ∧ List.replicate 5 0x41 = List.replicate (List.replicate 5 (0x41 : Byte)).length e.1) ∧
      (List.replicate 5 (0x41 : Byte)).length = (sourceHeader c).originalSize.toNat ∧
      refCrc32 (List.replicate 5 0x41) ≠ (sourceHeader c).checksum) := by
  obtain ⟨a1, a2, a3, a4, a5, a6⟩ := reads2 a 0 1 0 0x2 ha (by decide) (by simp)
  obtain ⟨b1, b2, b3, b4, b5, b6⟩ := reads4 b 0 0 0x2 hb (by decide) (by simp)
  obtain ⟨c1, c2, c3, c4, c5, c6⟩ := reads4 c 5 5 0x2 hc (by decide) (by simp)
  rw [a5, a6, b5, b6, c5, c6]
  subst ha hb hc
  exact ⟨⟨a1, a2, a3, a4, Nat.zero_le _, onBytes_dest (by decide), rfl, rfl, by decide +kernel⟩,
    ⟨b1, b2, b3, b4, Nat.zero_le _, onBytes_dest (by decide), ⟨_, rfl, rfl⟩, rfl, by decide +kernel⟩,
    c1, c2, c3, c4, by decide, onBytes_dest (by decide), ⟨_, rfl, rfl⟩, rfl, by decide +kernel⟩

/-- V-DEC-27 with no room, and V-ENC-4 with just enough room. -/
theorem witness_DecodeWithoutWalk (s t : State) (hs : s = onBytes ((vEnc2.set 6 0).set 22 0) 0 0x2)
    (ht : t = onBytes (vEnc4.set 6 1) 1 0x2) :
    (s.mem.wf ∧ buffersOk s ∧ backed s.par s.src s.srclen ∧ containerOk s ∧ sourceEntries s = [] ∧
      ([] : List Byte).length = (sourceHeader s).originalSize.toNat ∧ ([] : List Byte).length ≤ s.cap ∧
      backed s.par s.dst ([] : List Byte).length ∧ refCrc32 [] = (sourceHeader s).checksum) ∧
    (t.mem.wf ∧ buffersOk t ∧ backed t.par t.src t.srclen ∧ containerOk t ∧
      (∃ e, sourceEntries t = [e] ∧ [0x41] = List.replicate [(0x41 : Byte)].length e.1) ∧
      [(0x41 : Byte)].length = (sourceHeader t).originalSize.toNat ∧ [(0x41 : Byte)].length ≤ t.cap ∧
      backed t.par t.dst [(0x41 : Byte)].length ∧ refCrc32 [0x41] = (sourceHeader t).checksum) := by
  obtain ⟨h1, h2, h3, h4, h5, h6⟩ := reads2 s 0 0 0 0x2 hs (by decide) (by simp)
  obtain ⟨g1, g2, g3, g4, g5, g6⟩ := reads4 t 1 1 0x2 ht (by decide) (by simp)
  rw [h5, h6, g5, g6]
  subst hs ht
  exact ⟨⟨h1, h2, h3, h4, rfl, rfl, Nat.zero_le _, onBytes_dest (by decide), by decide +kernel⟩,
    g1, g2, g3, g4, ⟨_, rfl, rfl⟩, rfl, by decide, onBytes_dest (by decide), by decide +kernel⟩

/-- V-DEC-29 and V-DEC-18. -/
theorem witness_DecodeSizeErrors (s t : State) (hs : s = onBytes ((vEnc2.set 6 1).set 22 0) 6 0x2)
    (ht : t = onBytes (vEnc1With 6 0x4E) 5 0x2) :
    (buffersOk s ∧ backed s.par s.src s.srclen ∧ containerOk s ∧ sourceEntries s = [] ∧
      (sourceHeader s).originalSize ≠ 0) ∧
    (buffersOk t ∧ backed t.par t.src t.srclen ∧ containerOk t ∧ sourceEntries t ≠ [] ∧
      t.cap < (sourceHeader t).originalSize.toNat) := by
  obtain ⟨h1, h2, h3, h4, h5, h6⟩ := reads2 s 1 0 6 0x2 hs (by decide) (by simp)
  obtain ⟨a1, a2, a3, a4, a5, a6, a7⟩ := reads1 t 6 0x4E 0x9D81954E 5 0x2 ht (by decide) (by simp)
  refine ⟨⟨h2, h3, h4, h6, by rw [h5]; decide⟩, a2, a3, a4, by rw [a6]; decide, ?_⟩
  rw [a5]
  subst ht
  decide

/-- V-MEM-4, V-MEM-5, V-MEM-1 with DECODE, V-DEC-3; V-DEC-2, V-DEC-4, V-DEC-5. -/
theorem witness_DecodeHeaderErrors (s1 s2 s3 s4 t2 t3 t4 : State)
    (h1 : s1 = issued par [] 0xFFFFFFFFFFFFFFFF 2 0x4000 64 0x2)
    (h2 : s2 = issued par [] 0x1000 6 0xFFFFFFFFFFFFFFF0 0x20 0x2)
    (h3 : s3 = issued par [] 0x1000 6 0x1005 64 0x2) (h4 : s4 = onBytes (vEnc1.take 29) 6 0x2)
    (g2 : t2 = onBytes (vEnc1.set 0 0x00) 6 0x2) (g3 : t3 = onBytes (vEnc1.set 4 0x02) 6 0x2)
    (g4 : t4 = onBytes (vEnc1.set 28 0x08) 6 0x2) :
    2 ^ s1.par.addrW < s1.src + s1.srclen ∧
    (s2.src < 2 ^ s2.par.addrW ∧ s2.src + s2.srclen ≤ 2 ^ s2.par.addrW ∧
      2 ^ s2.par.addrW < s2.dst + s2.cap) ∧
    (s3.src < 2 ^ s3.par.addrW ∧ s3.src + s3.srclen ≤ 2 ^ s3.par.addrW ∧ s3.dst < 2 ^ s3.par.addrW ∧
      s3.dst + s3.cap ≤ 2 ^ s3.par.addrW ∧ 0 < s3.srclen ∧ 0 < s3.cap ∧ s3.src < s3.dst + s3.cap ∧
      s3.dst < s3.src + s3.srclen) ∧
    (buffersOk s4 ∧ s4.srclen < 30) ∧
    (∀ t ∈ [t2, t3, t4], buffersOk t ∧ 30 ≤ t.srclen ∧ backed t.par t.src 30) ∧
    (sourceHeader t2).magic ≠ t2.par.magic ∧
    ((sourceHeader t3).magic = t3.par.magic ∧ (sourceHeader t3).version ≠ 1) ∧
    ((sourceHeader t4).magic = t4.par.magic ∧ (sourceHeader t4).version = 1 ∧
      7 < (sourceHeader t4).paddingBits.toNat) := by
  have e2 : sourceHeader t2 = ⟨0x46465500, 1, 6, 2, 0x9D81954E, 3, 7, 0⟩ := by subst g2; decide +kernel
  have e3 : sourceHeader t3 = ⟨0x46465548, 2, 6, 2, 0x9D81954E, 3, 7, 0⟩ := by subst g3; decide +kernel
  have e4 : sourceHeader t4 = ⟨0x46465548, 1, 6, 2, 0x9D81954E, 3, 8, 0⟩ := by subst g4; decide +kernel
  rw [e2, e3, e4]
  refine ⟨by subst h1; decide, by subst h2; decide, by subst h3; decide, ?_, fun t ht => ?_, ?_, ?_, ?_⟩
  · subst h4
    exact ⟨onBytes_buffers (by decide) (by decide), by decide⟩
  · simp only [List.mem_cons, List.not_mem_nil, or_false] at ht
    rcases ht with ht | ht | ht <;> rw [ht]
    · subst g2
      exact ⟨onBytes_buffers (by decide) (by decide), by decide, backed_low rfl (by decide)⟩
    · subst g3
      exact ⟨onBytes_buffers (by decide) (by decide), by decide, backed_low rfl (by decide)⟩
    · subst g4
      exact ⟨onBytes_buffers (by decide) (by decide), by decide, backed_low rfl (by decide)⟩
  · subst g2; decide
  · subst g3; decide
  · subst g4; decide

/-- V-DEC-6 to V-DEC-11 and V-DEC-28, each with its own source. -/
theorem witness_DecodeTableErrors (s5 s6 s7 s8 s9 s10 s11 : State)
    (h5 : s5 = onBytes ((vEnc1.set 26 1).set 27 1) 6 0x2) (h6 : s6 = onBytes (vEnc1.take 44) 6 0x2)
    (h7 : s7 = onBytes (vEnc1.set 31 0) 6 0x2) (h8 : s8 = onBytes (vEnc1.set 35 0x61) 6 0x2)
    (h9 : s9 = onBytes (vEnc1.take 46) 6 0x2) (h10 : s10 = onBytes (vEnc1 ++ [0]) 6 0x2)
    (h11 : s11 = onBytes (vEnc2.set 28 1) 6 0x2) :
    (∀ s ∈ [s5, s6, s7, s8, s9, s10, s11], buffersOk s ∧ backed s.par s.src s.srclen ∧ 30 ≤ s.srclen ∧
      (sourceHeader s).magic = s.par.magic ∧ (sourceHeader s).version = 1 ∧
      (sourceHeader s).paddingBits.toNat ≤ 7) ∧
    256 < (sourceHeader s5).entryCount.toNat ∧
    ((sourceHeader s6).entryCount.toNat ≤ 256 ∧ s6.srclen < 30 + 5 * (sourceHeader s6).entryCount.toNat) ∧
    ((sourceHeader s7).entryCount.toNat ≤ 256 ∧ 30 + 5 * (sourceHeader s7).entryCount.toNat ≤ s7.srclen ∧
      (sourceEntries s7)[0]? = some (0x61, 0) ∧ tableOk ((sourceEntries s7).take 0)) ∧
    ((sourceHeader s8).entryCount.toNat ≤ 256 ∧ 30 + 5 * (sourceHeader s8).entryCount.toNat ≤ s8.srclen ∧
      (sourceEntries s8)[1]? = some (0x61, 2) ∧ tableOk ((sourceEntries s8).take 1) ∧
      (0x61 : Byte) ∈ ((sourceEntries s8).take 1).map Prod.fst) ∧
    ((sourceHeader s9).entryCount.toNat ≤ 256 ∧ 30 + 5 * (sourceHeader s9).entryCount.toNat ≤ s9.srclen ∧
      tableOk (sourceEntries s9) ∧ s9.srclen <
        30 + 5 * (sourceHeader s9).entryCount.toNat + (sourceHeader s9).compressedSize.toNat) ∧
    ((sourceHeader s10).entryCount.toNat ≤ 256 ∧ 30 + 5 * (sourceHeader s10).entryCount.toNat ≤ s10.srclen ∧
      tableOk (sourceEntries s10) ∧ 30 + 5 * (sourceHeader s10).entryCount.toNat +
        (sourceHeader s10).compressedSize.toNat < s10.srclen) ∧
    ((sourceHeader s11).entryCount.toNat ≤ 256 ∧ 30 + 5 * (sourceHeader s11).entryCount.toNat ≤ s11.srclen ∧
      tableOk (sourceEntries s11) ∧ s11.srclen = 30 + 5 * (sourceHeader s11).entryCount.toNat +
        (sourceHeader s11).compressedSize.toNat ∧ (sourceHeader s11).compressedSize = 0 ∧
      (sourceHeader s11).paddingBits ≠ 0) := by
  have e5 : sourceHeader s5 = ⟨0x46465548, 1, 6, 2, 0x9D81954E, 257, 7, 0⟩ := by subst h5; decide +kernel
  have e6 : sourceHeader s6 = head1 6 0x9D81954E := by subst h6; decide +kernel
  have e7 : sourceHeader s7 = head1 6 0x9D81954E := by subst h7; decide +kernel
  have e8 : sourceHeader s8 = head1 6 0x9D81954E := by subst h8; decide +kernel
  have e9 : sourceHeader s9 = head1 6 0x9D81954E := by subst h9; decide +kernel
  have e10 : sourceHeader s10 = head1 6 0x9D81954E := by subst h10; decide +kernel
  have e11 : sourceHeader s11 = ⟨0x46465548, 1, 0, 0, 0, 0, 1, 0⟩ := by subst h11; decide +kernel
  have t7 : sourceEntries s7 = [(0x61, 0), (0x62, 2), (0x63, 1)] := by
    unfold sourceEntries; rw [e7]; subst h7; decide +kernel
  have t8 : sourceEntries s8 = [(0x61, 3), (0x61, 2), (0x63, 1)] := by
    unfold sourceEntries; rw [e8]; subst h8; decide +kernel
  have t9 : sourceEntries s9 = abcCounts := by unfold sourceEntries; rw [e9]; subst h9; decide +kernel
  have t10 : sourceEntries s10 = abcCounts := by unfold sourceEntries; rw [e10]; subst h10; decide +kernel
  have t11 : sourceEntries s11 = [] := by unfold sourceEntries; rw [e11]; rfl
  have hl : s5.srclen = 47 ∧ s6.srclen = 44 ∧ s7.srclen = 47 ∧ s8.srclen = 47 ∧ s9.srclen = 46 ∧
      s10.srclen = 48 ∧ s11.srclen = 30 := by subst h5 h6 h7 h8 h9 h10 h11; decide
  obtain ⟨l5, l6, l7, l8, l9, l10, l11⟩ := hl
  have hp : s5.par = par ∧ s6.par = par ∧ s7.par = par ∧ s8.par = par ∧ s9.par = par ∧ s10.par = par ∧
      s11.par = par := by subst h5 h6 h7 h8 h9 h10 h11; exact ⟨rfl, rfl, rfl, rfl, rfl, rfl, rfl⟩
  obtain ⟨p5, p6, p7, p8, p9, p10, p11⟩ := hp
  refine ⟨fun s hs => ?_, ?_⟩
  · have hb : buffersOk s ∧ backed s.par s.src s.srclen := by
      simp only [List.mem_cons, List.not_mem_nil, or_false] at hs
      rcases hs with hs | hs | hs | hs | hs | hs | hs <;> rw [hs]
      · subst h5; exact ⟨onBytes_buffers (by decide) (by decide), onBytes_source (by decide)⟩
      · subst h6; exact ⟨onBytes_buffers (by decide) (by decide), onBytes_source (by decide)⟩
      · subst h7; exact ⟨onBytes_buffers (by decide) (by decide), onBytes_source (by decide)⟩
      · subst h8; exact ⟨onBytes_buffers (by decide) (by decide), onBytes_source (by decide)⟩
      · subst h9; exact ⟨onBytes_buffers (by decide) (by decide), onBytes_source (by decide)⟩
      · subst h10; exact ⟨onBytes_buffers (by decide) (by decide), onBytes_source (by decide)⟩
      · subst h11; exact ⟨onBytes_buffers (by decide) (by decide), onBytes_source (by decide)⟩
    refine ⟨hb.1, hb.2, ?_⟩
    clear hb h5 h6 h7 h8 h9 h10 h11
    simp only [List.mem_cons, List.not_mem_nil, or_false] at hs
    rcases hs with hs | hs | hs | hs | hs | hs | hs <;> rw [hs]
    · rw [e5, l5, p5]; decide
    · rw [e6, l6, p6]; decide
    · rw [e7, l7, p7]; decide
    · rw [e8, l8, p8]; decide
    · rw [e9, l9, p9]; decide
    · rw [e10, l10, p10]; decide
    · rw [e11, l11, p11]; decide
  · rw [e5, e6, e7, e8, e9, e10, e11, t7, t8, t9, t10, t11, l6, l7, l8, l9, l10, l11]
    refine ⟨by decide, by decide, ⟨by decide, by decide, rfl, by simp [tableOk]⟩,
      ⟨by decide, by decide, rfl, by simp [tableOk], by decide⟩, ⟨by decide, by decide, abc_tableOk, by decide⟩,
      ⟨by decide, by decide, abc_tableOk, by decide⟩, by decide, by decide, by simp [tableOk], by decide⟩

/-- V-ENC-16 and then V-DEC-1 of what it wrote. -/
theorem witness_RoundTrip (u : State) (h : u = onBytes vEnc1 6 0x2) :
    ∃ t, (encode1.mem.wf ∧ buffersOk encode1 ∧ backed encode1.par encode1.src encode1.srclen ∧
        (∀ b, (sourceBytes encode1).count b < 2 ^ 32) ∧ backed encode1.par encode1.dst encode1.cap ∧
        exec .encode encode1 = .next t ∧ t.regs.status = 0x2) ∧
      (u.mem.wf ∧ buffersOk u ∧ backed u.par u.src u.srclen ∧ u.par.magic = encode1.par.magic ∧
        u.srclen = t.regs.resultLen.toNat ∧
        sourceBytes u = t.mem.readRange encode1.dst t.regs.resultLen.toNat ∧ encode1.srclen ≤ u.cap ∧
        backed u.par u.dst encode1.srclen) := by
  have h0 : got (fun t => (t.regs.status, t.regs.resultLen, t.mem.readRange 0x4000 47)) (exec .encode encode1) =
      some (0x2, 47, vEnc1) := by decide +kernel
  obtain ⟨t, h1, h2⟩ := next_of_got h0
  simp only [Prod.mk.injEq] at h2
  obtain ⟨h2, h3, h4⟩ := h2
  have hs : sourceBytes u = vEnc1 := by subst h; decide +kernel
  refine ⟨t, ⟨encode1_wf, encode1_buffers, encode1_source, fun b => ?_, encode1_dest, h1, h2⟩, ?_⟩
  · rw [encode1_bytes]
    exact lt_of_le_of_lt List.count_le_length (by decide)
  · rw [h3, hs]
    subst h
    exact ⟨onBytes_wf _ _ _, onBytes_buffers (by decide) (by decide), onBytes_source (by decide), rfl, by decide,
      h4.symm, by decide, onBytes_dest (by decide)⟩

/-! ### The destination's first byte without backing -/

/-- V-ENC-1 with its last byte at 0x10000, in write_container and in ENCODE. -/
theorem witness_UnbackedByteIsStuck_encode (s t : State)
    (hs : s = { issued par (Memory.writeRange [] 0x1000 aaabbc) 0x1000 6 0xFFD2 47 0x1 with
      work := { Work.reset with freq := freqs abcCounts, code := codesOf (freqs abcCounts) } })
    (ht : t = issued par (Memory.writeRange [] 0x1000 aaabbc) 0x1000 6 0xFFD2 47 0x1) :
    (s.mem.wf ∧ buffersOk s ∧ backed s.par s.src s.srclen ∧ coded s.work.code (sourceBytes s) ∧
      (3 : BitVec 16).toNat = (refLeaves s.work.freq).length ∧
      (refContainer ⟨s.par.magic, 1, s.latch.srclen, 2, 0x9D81954E, 3, 7, 0⟩ s.work.freq
        (messageBits s.work.code (sourceBytes s))).length = 47 ∧ 47 ≤ s.cap ∧ 46 < 47 ∧
      backed s.par s.dst 46 ∧ noBacking s.par (s.dst + 46)) ∧
    (t.mem.wf ∧ buffersOk t ∧ backed t.par t.src t.srclen ∧ Counts (freqs abcCounts) (sourceBytes t) ∧
      isCodeTable (freqs abcCounts) (codesOf (freqs abcCounts)) ∧
      47 = 30 + 5 * (refLeaves (freqs abcCounts)).length +
        ((messageBits (codesOf (freqs abcCounts)) (sourceBytes t)).length + 7) / 8 ∧
      47 ≤ t.cap ∧ backed t.par t.dst 46 ∧ noBacking t.par (t.dst + 46)) := by
  have hb : sourceBytes s = aaabbc ∧ sourceBytes t = aaabbc := by
    subst hs ht
    exact ⟨encode1_bytes, encode1_bytes⟩
  have hw : s.work.freq = freqs abcCounts ∧ s.work.code = codesOf (freqs abcCounts) := by
    subst hs
    exact ⟨rfl, rfl⟩
  have hl : (refContainer ⟨s.par.magic, 1, s.latch.srclen, 2, 0x9D81954E, 3, 7, 0⟩ (freqs abcCounts)
      (bits [0, 0, 0, 1, 1, 1, 1, 1, 0])).length = 47 := by
    have := abc_leaves
    rw [refLeaves_length] at this
    simp [refContainer, refTable_length, refPayload_length, this, bits]
  rw [hb.1, hb.2, hw.1, hw.2, aaabbc_bits, hl, abc_leaves]
  clear hb hw hl
  subst hs ht
  exact ⟨⟨encode1_wf, by unfold buffersOk; decide, backed_low rfl (by decide), aaabbc_coded.1, rfl, rfl,
    by decide, by decide, backed_low rfl (by decide), by unfold noBacking; decide⟩, encode1_wf,
    by unfold buffersOk; decide, backed_low rfl (by decide), aaabbc_counts, codesOf_isCodeTable _, by decide,
    by decide, backed_low rfl (by decide), by unfold noBacking; decide⟩

/-- The walk of V-DEC-1 with its payload, and with its output, at 0x10000. -/
theorem witness_UnbackedByteIsStuck_walk (s : State)
    (h : s = { decode1 with work := treeOf (freqs abcCounts), latch := { decode1.latch with dst := 0x10000 } }) :
    isBuilt s.work ∧ 2 ≤ (refLeaves s.work.freq).length ∧
    isCodeTable s.work.freq (codesOf (freqs abcCounts)) ∧ 0 < (6 : Word64).toNat ∧
    (0 < 9 ∧ noBacking s.par 0x10000) ∧
    (tget (codesOf (freqs abcCounts)) 0x61 = some [false] ∧
      streamBits s.mem 0x102D 0 9 = [false] ++ bits [0, 0, 1, 1, 1, 1, 1, 0] ∧
      backed s.par 0x102D (([false].length + 7) / 8) ∧ noBacking s.par s.dst) := by
  have e : streamBits s.mem 0x102D 0 9 = bits [0, 0, 0, 1, 1, 1, 1, 1, 0] := by
    rw [show s.mem = decode1.mem by rw [h]]
    decide +kernel
  have hw : s.work = treeOf (freqs abcCounts) ∧ s.dst = 0x10000 ∧ s.par = par := by rw [h]; exact ⟨rfl, rfl, rfl⟩
  rw [e, hw.1, hw.2.1, hw.2.2, (treeOf_built _).2, abc_leaves]
  exact ⟨(treeOf_built _).1, by decide, codesOf_isCodeTable _, by decide, ⟨by decide, by unfold noBacking; decide⟩,
    code_a, rfl, backed_low (s := working Work.reset []) rfl (by decide), by unfold noBacking; decide⟩

/-- DECODE of V-ENC-1 and of V-ENC-4 with the output at 0x10000. -/
theorem witness_UnbackedByteIsStuck_decode (s t d e : State) (hd : d = onBytes (vEnc1With 6 0x4E) 6 0x2)
    (he : e = onBytes (vEnc4.set 6 1) 1 0x2) (hs : s = { d with latch := { d.latch with dst := 0x10000 } })
    (ht : t = { e with latch := { e.latch with dst := 0x10000 } }) :
    (buffersOk s ∧ backed s.par s.src s.srclen ∧ containerOk s ∧
      IsTableOf (freqs abcCounts) (sourceEntries s) ∧
      isCodeTable (freqs abcCounts) (codesOf (freqs abcCounts)) ∧ 0 < (sourceHeader s).originalSize.toNat ∧
      (sourceHeader s).originalSize.toNat ≤ s.cap ∧ noBacking s.par s.dst ∧ 2 ≤ (sourceEntries s).length ∧
      tget (codesOf (freqs abcCounts)) 0x61 = some [false] ∧
      sourceStream s = [false] ++ bits [0, 0, 1, 1, 1, 1, 1, 0]) ∧
    (buffersOk t ∧ backed t.par t.src t.srclen ∧ containerOk t ∧
      IsTableOf (freqs [(0x41, 1)]) (sourceEntries t) ∧
      isCodeTable (freqs [(0x41, 1)]) (codesOf (freqs [(0x41, 1)])) ∧
      0 < (sourceHeader t).originalSize.toNat ∧ (sourceHeader t).originalSize.toNat ≤ t.cap ∧
      noBacking t.par t.dst ∧ (sourceEntries t).length = 1) := by
  obtain ⟨-, -, d3, d4, d5, d6, d7⟩ := reads1 d 6 0x4E 0x9D81954E 6 0x2 hd (by decide) (by simp)
  obtain ⟨-, -, e3, e4, e5, e6⟩ := reads4 e 1 1 0x2 he (by decide) (by simp)
  have hs5 : sourceHeader s = head1 6 0x9D81954E := by rw [hs]; exact d5
  have hs6 : sourceEntries s = abcCounts := by rw [hs]; exact d6
  have hs7 : sourceStream s = bits [0, 0, 0, 1, 1, 1, 1, 1, 0] := by rw [hs]; exact d7
  have ht5 : sourceHeader t = head4 1 := by rw [ht]; exact e5
  have ht6 : sourceEntries t = [(0x41, 1)] := by rw [ht]; exact e6
  have hs4 : containerOk s := by rw [hs]; exact d4
  have ht4 : containerOk t := by rw [ht]; exact e4
  rw [hs5, hs6, hs7, ht5, ht6]
  clear d4 d5 d6 d7 e4 e5 e6 hs5 hs6 hs7 ht5 ht6
  refine ⟨⟨?_, ?_, hs4, abc_isTableOf, codesOf_isCodeTable _, by decide, ?_, ?_, by decide, code_a, rfl⟩,
    ?_, ?_, ht4, ?_, codesOf_isCodeTable _, by decide, ?_, ?_, rfl⟩
  · subst hs hd; unfold buffersOk; decide
  · rw [hs]; exact d3
  · subst hs hd; decide
  · subst hs hd; unfold noBacking; decide
  · subst ht he; unfold buffersOk; decide
  · rw [ht]; exact e3
  · refine ⟨by simp only [List.mem_singleton]; rintro _ rfl; decide +kernel, fun b hb => ?_⟩
    have : tget (freqs [(0x41, 1)]) b = if b = 0x41 then 1 else 0 := by
      rw [← tget_replicate (0 : Word32) b]
      exact tget_tset _ _ _ _
    rw [this, if_neg (by simpa using hb)]
  · subst ht he; decide
  · subst ht he; unfold noBacking; decide

/-! ### Control and the invariants -/

theorem witness_IssueLatchesOperands : State.reset.phase = .idle := rfl

/-- A host that polls, with two host moves left of a command, after it, and with the core stuck. -/
theorem witness_PollReadsUntilIdle (s t u : State)
    (hs : s = { onBytes [] 0 0x0 with inbox := [.poll "s"], busyLeft := 2 })
    (ht : t = { State.reset with inbox := [.poll "s"] })
    (hu : u = { stuck1 with stuck := some 0x10000, inbox := [.poll "s"] }) :
    (StatusOk s ∧ s.inbox = .poll "s" :: [] ∧ s.phase = .busy ∧ s.busyLeft ≠ 0) ∧
    (StatusOk t ∧ t.inbox = .poll "s" :: [] ∧ t.phase = .idle) ∧
    (StatusOk u ∧ u.inbox = .poll "s" :: [] ∧ u.phase = .busy ∧ u.stuck ≠ none) ∧
    ∀ rest, u.inbox ≠ .reset :: rest := by
  subst hs ht hu
  unfold StatusOk
  exact ⟨by decide, by decide, by decide, fun rest h => by cases h⟩

/-- DECODE of V-ENC-1, backed; and buffers that fail R65. -/
theorem witness_EveryCommandEnds (s : State) (h : s = issued par [] 0xFFFFFFFFFFFFFFFF 2 0x4000 64 0x2) :
    (decode1.mem.wf ∧ buffersOk decode1 ∧ backed decode1.par decode1.src decode1.srclen ∧
      backed decode1.par decode1.dst decode1.cap) ∧ s.mem.wf ∧ ¬ buffersOk s := by
  subst h
  refine ⟨⟨onBytes_wf _ _ _, onBytes_buffers (by decide) (by decide), onBytes_source (by decide),
    onBytes_dest (by decide)⟩, by decide, ?_⟩
  unfold buffersOk
  decide

theorem witness_CommandsWriteOnlyDst : decode1.mem.wf ∧ decodeWord 0x2 = .decode false ∧
    ∃ t, exec (decodeWord 0x2) decode1 = .next t := by
  have h : got (·.regs.status) (exec (.decode false) decode1) = some 0x2 := by decide +kernel
  obtain ⟨t, h1, -⟩ := next_of_got h
  exact ⟨onBytes_wf _ _ _, by decide, t, h1⟩

/-- A running NOP: the core's step from a state that meets the invariants. -/
theorem witness_StepKeepsInvariants (s : State) (h : s = onBytes aaabbc 0 0x0) :
    MemOk s ∧ CrcCalcOk s ∧ PackerOk s ∧ QueueOk s ∧ ∃ t, step s = .next t := by
  have h1 : got (·.regs.status) (step (onBytes aaabbc 0 0x0)) = some 0x2 := by decide
  obtain ⟨t, h2, -⟩ := next_of_got h1
  subst h
  refine ⟨⟨onBytes_wf _ _ _, by decide⟩, ?_, ?_, ?_, t, h2⟩
  · unfold CrcCalcOk; decide
  · unfold PackerOk; decide
  · unfold QueueOk; decide

theorem witness_StatusStaysLegal (s : State) (h : s = onBytes [] 0 0x3) :
    StatusOk s ∧ ∃ t, step s = .next t := by
  have h1 : got (·.regs.status) (step (onBytes [] 0 0x3)) = some 0x176 := by decide
  obtain ⟨t, h2, -⟩ := next_of_got h1
  subst h
  exact ⟨by unfold StatusOk; decide, t, h2⟩

end Sys2Proof.Tests
end

/-! SUPPORT. The statements of 10_state.md about STATUS, the register window and reset. -/

namespace Sys2Proof.Machine

/-! ### STATUS, its BUSY bit and PHASE (R22, R25, R67) -/

/-- An idle state that is not stuck, with a listed STATUS word whose BUSY bit is 0. -/
theorem StatusOk.of_idle {s : State} (hp : s.phase = .idle) (hw : s.regs.status ∈ statusWords)
    (hb : statusBusy s.regs.status = false) (hs : s.stuck = none) : StatusOk s :=
  ⟨hw, by simp [hp, hb], fun h => absurd hs h⟩

theorem statusOk_issue (w : Word64) (s : State) : StatusOk (issue w s) :=
  ⟨show statusIssued ∈ statusWords by decide,
    ⟨fun _ => rfl, fun _ => show statusBusy statusIssued = true by decide⟩, fun _ => rfl⟩

theorem statusOk_writeReg {s : State} (h : StatusOk s) (r : Reg) (v : Word64) :
    StatusOk (writeReg r v s) := by
  rw [writeReg]
  split
  · cases r with
    | cmd => exact statusOk_issue v s
    | _ => exact h
  · exact h

theorem statusOk_observeReg {s : State} (h : StatusOk s) (r : Reg) (var : String) :
    StatusOk (observeReg r var s) := by
  obtain ⟨n, hn⟩ := readReg_ok r s
  rw [observeReg]
  simp only [hn]
  exact h

theorem statusOk_resetBlock (s : State) : StatusOk (resetBlock s) :=
  .of_idle rfl (show (0 : Word64) ∈ statusWords by decide)
    (show statusBusy 0 = false by decide) rfl

/-- A host move keeps the invariant of STATUS. -/
theorem statusOk_hostMove {op : HostOp} {rest : List HostOp} {s t : State} (h : StatusOk s)
    (ht : hostMove op rest s = .next t) : StatusOk t := by
  have hi : StatusOk (s.setInbox rest) := h
  cases op with
  | wr r v => cases ht; exact statusOk_writeReg hi r v
  | rd r var => cases ht; exact statusOk_observeReg hi r var
  | busWrite addr width v =>
    simp only [hostMove] at ht
    split at ht <;> cases ht
    exact statusOk_writeReg hi _ v
  | busRead addr width var =>
    simp only [hostMove] at ht
    split at ht <;> cases ht
    exact statusOk_observeReg hi _ var
  | poll var =>
    simp only [hostMove] at ht
    split_ifs at ht <;> cases ht <;> exact h
  | memw addr bytes =>
    simp only [hostMove] at ht
    split_ifs at ht
    cases ht
    exact h
  | memr addr n var =>
    simp only [hostMove] at ht
    split_ifs at ht
    cases ht
    exact h
  | reset => cases ht; exact statusOk_resetBlock s

/-- On its turn the core runs a command and is not stuck. -/
theorem coreTurn_iff {s : State} :
    coreTurn s = true ↔ s.phase = .busy ∧ s.busyLeft = 0 ∧ s.stuck = none := by
  simp [coreTurn, and_assoc]

/-- After the core's turn the command goes on, is stuck, or has ended with a listed word. -/
theorem statusOk_after {s t : State} (h : StatusOk s) (hc : coreTurn s = true) (ha : After s t) :
    StatusOk t := by
  obtain ⟨hbusy, -, hstuck⟩ := coreTurn_iff.1 hc
  rcases ha.ends with ⟨hp, hw⟩ | ⟨hp, hw, hb, hs⟩
  · rw [StatusOk, hw, hp]
    exact ⟨h.1, h.2.1, fun _ => hbusy⟩
  · exact .of_idle hp hw hb (hs.trans hstuck)

/-- Settles O59: `exec_after` says what the core's turn leaves, `statusOk_hostMove` what the host's does. -/
theorem statusStaysLegal : Obligations.StatusStaysLegal := by
  intro s t h ht
  rw [step] at ht
  split_ifs at ht with hc
  · exact statusOk_after h hc (exec_after ht)
  · have hs : StatusOk (s.setBusyLeft (s.busyLeft - 1)) := h
    rw [hostTurn] at ht
    split at ht
    · cases ht; exact hs
    · exact statusOk_hostMove hs ht

/-! ### The register window (R23 to R39) -/

/-- A bus access reaches a register only as an aligned word of the window (R24). -/
theorem busReg_eq_none {p : Params} {addr width : Nat}
    (h : ¬ ∃ k < 32, width = 8 ∧ addr = p.regBase + 8 * k) : busReg p addr width = none := by
  rw [busReg]
  split_ifs with hw
  · obtain ⟨h1, h2, h3⟩ := hw
    refine List.getElem?_eq_none (Nat.le_of_not_lt fun hlt => h ⟨_, hlt, h2, ?_⟩)
    omega
  · rfl

/-- Settles O4, by `busReg_offset` and `busReg_eq_none`. -/
theorem onlyAlignedWordsReachRegisters : Obligations.OnlyAlignedWordsReachRegisters := by
  intro s rest addr width v var
  refine ⟨fun r => ?_, fun h => ?_⟩
  · simp only [hostMove, busReg_offset, and_self]
  · simp only [hostMove, busReg_eq_none h, and_self]

/-- Settles O1, register by register. -/
theorem resetState : Obligations.ResetState := by
  refine ⟨rfl, rfl, fun r hr => ?_⟩
  cases r with
  | id => exact absurd rfl hr
  | _ => rfl

/-- While IDLE a result register reads as the value it holds (R32 to R37). -/
theorem resultReg_idle {s : State} (h : s.phase = .idle) (v : Word64) : resultReg v s = (v, s) := by
  rw [resultReg, h]

/-- While BUSY a result register reads as a free value (R32 to R37). -/
theorem resultReg_busy {s : State} (h : s.phase = .busy) (v : Word64) :
    resultReg v s = (Config.freeWord s.draws, s.addDraws 1) := by
  rw [resultReg, h]

/-- A host read of a register whose value needs no draw records the value. -/
theorem hostMove_rd {r : Reg} {var : String} {rest : List HostOp} {s : State} {v : Word64} {n : Nat}
    (h : readReg r (s.setInbox rest) = (v, (s.setInbox rest).addDraws n)) :
    hostMove (.rd r var) rest s = .next
      { s with inbox := rest, observed := .reg var v :: s.observed, draws := s.draws + n } := by
  simp only [hostMove, observeReg, h]
  rfl

/-- Settles O2: the value of each register, and the free value of a result register while BUSY. -/
theorem registerReads : Obligations.RegisterReads := by
  intro s rest var
  refine ⟨fun r hr => ?_, fun r hr hb => ?_⟩
  · cases r with
    | id => exact ⟨_, hostMove_rd (n := 0) rfl, by simp [idWord_toNat]⟩
    | cmd | status | srcAddr | srcLen | dstAddr | dstCap | reserved =>
      exact ⟨_, hostMove_rd (n := 0) rfl, by simp⟩
    | resultLen | hdrOrig | hdrComp | hdrMisc | crcCalc =>
      have hidle : (s.setInbox rest).phase = .idle := by simpa using hr
      exact ⟨_, hostMove_rd (n := 0) (resultReg_idle hidle _), by simp⟩
  · simp only [List.mem_cons, List.not_mem_nil, or_false] at hr
    rcases hr with rfl | rfl | rfl | rfl | rfl <;>
      exact ⟨_, hostMove_rd (n := 1) (resultReg_busy (s := s.setInbox rest) hb _)⟩

theorem writeReg_idle {s : State} (h : s.phase = .idle) (r : Reg) (v : Word64) :
    writeReg r v s = writeRegIdle r v s := by
  rw [writeReg, h]

/-- A write while BUSY is ignored (R39). -/
theorem writeReg_busy {s : State} (h : s.phase = .busy) (r : Reg) (v : Word64) :
    writeReg r v s = s := by
  rw [writeReg, h]

/-- A write while IDLE of a register that is neither RW nor CMD is ignored (R24, R38). -/
theorem writeRegIdle_readOnly {r : Reg} (h : r ∉ [Reg.cmd, .srcAddr, .srcLen, .dstAddr, .dstCap])
    (v : Word64) (s : State) : writeRegIdle r v s = s := by
  cases r with
  | cmd | srcAddr | srcLen | dstAddr | dstCap => simp at h
  | _ => rfl

/-- Settles O3: while IDLE by the register written, while BUSY by `writeReg_busy`. -/
theorem registerWrites : Obligations.RegisterWrites := by
  intro s rest v
  refine ⟨fun hidle => ?_, fun hbusy r => ?_⟩
  · have hwr : ∀ r, hostMove (.wr r v) rest s = .next (writeRegIdle r v (s.setInbox rest)) :=
      fun r => congrArg Host.Outcome.next (writeReg_idle (s := s.setInbox rest) hidle r v)
    refine ⟨hwr .srcAddr, hwr .srcLen, hwr .dstAddr, hwr .dstCap, fun r hr => ?_⟩
    rw [hwr, writeRegIdle_readOnly hr]
    rfl
  · exact congrArg Host.Outcome.next (writeReg_busy (s := s.setInbox rest) hbusy r v)

/-! ### Reset (R49, R450 to R452) -/

/-- Settles O60: nothing is stored or queued after reset, and the registers are 0. -/
theorem resetMeetsInvariants : Obligations.ResetMeetsInvariants := by
  refine ⟨⟨Memory.wf_nil, by simp [State.reset]⟩, ?_, ?_, ?_, ?_⟩
  · show (0 : Word64).toNat < 2 ^ 32
    decide
  · show 0 ≤ 7 ∧ (0 : Byte).toNat < 2 ^ 0
    decide
  · simp [QueueOk, State.reset, Work.reset]
  · exact .of_idle rfl (show (0 : Word64) ∈ statusWords by decide)
      (show statusBusy 0 = false by decide) rfl

/-- A command that a reset abandons leaves free values in DST only (R451). -/
theorem abandoned_le (s : State) : abandoned s ≤ s.cap := by
  have hdec : abandonedDecode s ≤ s.cap := by
    rw [abandonedDecode]
    split
    · split_ifs
      · exact Nat.min_le_left _ _
      · exact Nat.le_refl _
    · exact Nat.le_refl _
  rw [abandoned]
  split
  · exact Nat.zero_le _
  · split
    · exact Nat.le_refl _
    · exact hdec
    · exact Nat.zero_le _

theorem abandoned_idle {s : State} (h : s.phase = .idle) : abandoned s = 0 := by
  rw [abandoned, h]

/-- A command without a destination leaves no byte with a free value (R451). -/
theorem abandoned_bufferless {s : State} (he : decodeWord s.latch.cmd ≠ .encode)
    (hd : ∀ k, decodeWord s.latch.cmd ≠ .decode k) : abandoned s = 0 := by
  rw [abandoned]
  split
  · rfl
  · split
    · exact absurd ‹_› he
    · exact absurd ‹_› (hd _)
    · rfl

/-- The memory that reset leaves, where no byte of DST gets a free value. -/
theorem scramble_mem_of_none {s : State} {n : Nat} (h : n = 0) (a : Nat) :
    (scramble s a n).mem = s.mem := by
  simp [h, scramble, Memory.scramble]

/-- Settles O5: reset changes memory by the free values of R451 alone, and `abandoned` counts them. -/
theorem resetInput : Obligations.ResetInput := by
  intro s rest
  refine ⟨(scramble s s.dst (abandoned s)).mem, _, rfl, fun hidle => ?_, fun hwf x hx => ?_,
    fun _ he hd => ?_⟩
  · exact scramble_mem_of_none (abandoned_idle hidle) _
  · have hle := abandoned_le s
    exact scramble_read _ _ hwf (hx.imp_right (by omega))
  · exact scramble_mem_of_none (abandoned_bufferless he hd) _

end Sys2Proof.Machine

/-! SUPPORT. The shape of a built tree (41_tree_builder.md R160 to R168): its sums, and the one path to each
leaf. -/

namespace Sys2Proof.Machine

/-! ### The leaves in the arena -/

theorem refLeaves_getElem?_eq_some {freq : Table Word32} {i : Nat} {m : Node} :
    (refLeaves freq)[i]? = some m ↔ ∃ e, (counted freq)[i]? = some e ∧ leafNode e = m := by
  rw [refLeaves_eq, List.getElem?_map, Option.map_eq_some_iff]

/-- Two leaves of one symbol are one leaf: R161 gives each counted symbol one. -/
theorem counted_index_unique {freq : Table Word32} {i j : Nat} {d e : Byte × Word32}
    (hi : (counted freq)[i]? = some d) (hj : (counted freq)[j]? = some e) (h : d.1 = e.1) : i = j := by
  have hi' : ((counted freq).map Prod.fst)[i]? = some d.1 := by rw [List.getElem?_map, hi]; rfl
  have hj' : ((counted freq).map Prod.fst)[j]? = some d.1 := by rw [List.getElem?_map, hj, h]; rfl
  exact (List.getElem?_inj (List.getElem?_eq_some_iff.1 hi').1 (counted_syms_nodup freq)).1
    (hi'.trans hj'.symm)

theorem freqAt_leafNode {es : List (Byte × Word32)} {i : Nat} {e : Byte × Word32}
    (h : es[i]? = some e) : freqAt (es.map leafNode) i = e.2.toNat := by
  simp [freqAt, h, leafNode]

/-- The leaves' frequencies, in the arena's order, are the counts. -/
theorem map_freqAt_refLeaves (freq : Table Word32) :
    (List.range (refLeaves freq).length).map (freqAt (refLeaves freq)) =
      (counted freq).map fun e => e.2.toNat := by
  rw [refLeaves_eq, List.length_map]
  refine List.ext_getElem (by simp) fun i _ h2 => ?_
  rw [List.length_map] at h2
  simp [freqAt_leafNode (List.getElem?_eq_getElem h2)]

/-- FREQ's sum. -/
def freqSum (freq : Table Word32) : Nat :=
  ((List.range 256).map fun s => (tget freq (BitVec.ofNat 8 s)).toNat).sum

theorem freqSum_eq (freq : Table Word32) :
    ((List.range (refLeaves freq).length).map (freqAt (refLeaves freq))).sum = freqSum freq := by
  rw [map_freqAt_refLeaves, counted_sum, freqSum]

/-- R168: no sum of counts is above 256 * (2^32 - 1). -/
theorem freqSum_le (freq : Table Word32) : freqSum freq ≤ 256 * (2 ^ 32 - 1) := by
  have h : ∀ x ∈ (List.range 256).map fun s => (tget freq (BitVec.ofNat 8 s)).toNat,
      x ≤ 2 ^ 32 - 1 := by
    intro x hx
    obtain ⟨s, -, rfl⟩ := List.mem_map.1 hx
    exact Nat.le_sub_one_of_lt (BitVec.isLt _)
  simpa [freqSum] using List.sum_le_card_nsmul _ _ h

theorem freqAt_refLeaves_le (freq : Table Word32) (i : Nat) :
    freqAt (refLeaves freq) i ≤ freqSum freq := by
  by_cases hi : i < (refLeaves freq).length
  · rw [← freqSum_eq]
    exact List.le_sum_of_mem (List.mem_map_of_mem (List.mem_range.2 hi))
  · rw [freqAt_above (Nat.le_of_not_lt hi)]
    exact Nat.zero_le _

/-! ### The whole tree -/

/-- What R162 and R163 leave of a frequency table with a counted symbol. -/
theorem refTree_inv {freq : Table Word32} (hne : counted freq ≠ []) :
    (∀ i, freqAt (refTree freq).1 i ≤ freqSum freq) ∧
    (∀ i f l r : Nat, (refTree freq).1[i]? = some (.internal f l r) →
      l < i ∧ r < i ∧ f = freqAt (refTree freq).1 l + freqAt (refTree freq).1 r) ∧
    (∃ more, (refTree freq).1 = refLeaves freq ++ more ∧ ∀ m ∈ more, ∃ f l r, m = .internal f l r) ∧
    ∃ r, (refTree freq).2 = some r ∧ freqAt (refTree freq).1 r = freqSum freq := by
  have hpos : 0 < (refLeaves freq).length := by
    rw [refLeaves_length]
    exact List.length_pos_iff.2 hne
  obtain ⟨hperm, -⟩ := foldl_enqueue (nodes := refLeaves freq) (refLeaves freq).length
  refine refMerges_inv _ _ _ ?_ ?_ (fun i hi => ?_) (freqAt_refLeaves_le freq) fun i f l r hi => ?_
  · rw [hperm.length_eq, List.length_range]
    omega
  · rw [(hperm.map _).sum_eq, freqSum_eq]
  · exact List.mem_range.1 (hperm.mem_iff.1 hi)
  · obtain ⟨e, -, he⟩ := refLeaves_getElem?_eq_some.1 hi
    cases he

/-- The arena's leaf at an index below n is the counted symbol of that index, and there is no other leaf. -/
theorem refTree_leaf_iff {freq : Table Word32} (hne : counted freq ≠ []) {i : Nat} {s : Byte} :
    isLeafOf (refTree freq).1 i s ↔ ∃ e, (counted freq)[i]? = some e ∧ e.1 = s := by
  obtain ⟨-, -, ⟨more, hmore, hint⟩, -⟩ := refTree_inv hne
  rw [isLeafOf, hmore]
  constructor
  · rintro ⟨f, hf⟩
    by_cases hi : i < (refLeaves freq).length
    · rw [List.getElem?_append_left hi] at hf
      obtain ⟨e, he, hm⟩ := refLeaves_getElem?_eq_some.1 hf
      cases hm
      exact ⟨e, he, rfl⟩
    · rw [List.getElem?_append_right (Nat.le_of_not_lt hi)] at hf
      obtain ⟨f', l, r, hm⟩ := hint _ (List.mem_of_getElem? hf)
      cases hm
  · rintro ⟨e, he, rfl⟩
    have hi : i < (refLeaves freq).length := by
      rw [refLeaves_length]
      exact (List.getElem?_eq_some_iff.1 he).1
    refine ⟨e.2.toNat, ?_⟩
    rw [List.getElem?_append_left hi]
    exact refLeaves_getElem?_eq_some.2 ⟨e, he, rfl⟩

/-- R168 (c), (d): each leaf has one path from the root, of at most n - 1 edges. -/
theorem unique_path_to_leaf {w : Work} {r i : Nat} (hb : isBuilt w) (hr : w.root = some r)
    (hi : i < (counted w.freq).length) :
    ∃ p, follow w.nodes r p = some i ∧ p.length ≤ (counted w.freq).length - 1 ∧
      ∀ q, follow w.nodes r q = some i → q = p := by
  obtain ⟨-, htree⟩ := isBuilt_tree hb
  obtain ⟨-, -, t, ht, hl⟩ := htree r hr
  have hne : counted w.freq ≠ [] := List.ne_nil_of_length_pos (by omega)
  have hleaf : ∀ j s, isLeafOf w.nodes j s ↔ ∃ e, (counted w.freq)[j]? = some e ∧ e.1 = s :=
    fun j s => hb.1 ▸ refTree_leaf_iff hne
  obtain ⟨e, he⟩ : ∃ e, (counted w.freq)[i]? = some e := ⟨_, List.getElem?_eq_getElem hi⟩
  obtain ⟨f, hf⟩ := (hleaf i e.1).2 ⟨e, he, rfl⟩
  have hsyms : (t.paths []).map Prod.fst = t.leaves.map Prod.fst := t.paths_syms []
  have hperm : (t.leaves.map Prod.fst).Perm ((counted w.freq).map Prod.fst) := by
    simpa [countedLeaves, Function.comp_def] using hl.map Prod.fst
  have hnodup : (t.leaves.map Prod.fst).Nodup := hperm.nodup_iff.2 (counted_syms_nodup w.freq)
  -- the symbol's path in the tree
  obtain ⟨⟨s, p⟩, hp, hps⟩ := List.mem_map.1 (hsyms ▸ hperm.mem_iff.2
    (List.mem_map_of_mem (List.mem_of_getElem? he)) : e.1 ∈ (t.paths []).map Prod.fst)
  cases hps
  obtain ⟨j, hj, hjs⟩ := follow_of_paths ht hp
  obtain ⟨d, hd, hds⟩ := (hleaf j e.1).1 hjs
  cases counted_index_unique hd he hds
  refine ⟨p, hj, ?_, fun q hq => ?_⟩
  · have hlen := t.paths_length_le _ hp
    have hdepth := t.depth_lt
    rw [hl.length_eq, countedLeaves_length] at hdepth
    dsimp only at hlen
    omega
  · have hq' := follow_mem_paths ht hf hq
    have hinj := List.inj_on_of_nodup_map (hsyms ▸ hnodup) hq' hp rfl
    exact congrArg Prod.snd hinj

/-- Settles O22: (a), (b) and the bound by `refTree_inv`, the size by `isBuilt_tree`, (c) and (d) by
`unique_path_to_leaf`. -/
theorem treeProperties : Obligations.TreeProperties := by
  intro w r hb hr
  obtain ⟨hroot, htree⟩ := isBuilt_tree hb
  obtain ⟨hrv, hlen, -⟩ := htree r hr
  have hne : counted w.freq ≠ [] := fun h => by simp [hroot.2 h] at hr
  have hpos : 0 < (counted w.freq).length := List.length_pos_iff.2 hne
  obtain ⟨hle, hsum, -, r', hr', hfr⟩ := refTree_inv hne
  rw [← hb.1] at hle hsum hfr
  rw [← hb.2, hr] at hr'
  cases hr'
  rw [refLeaves_length]
  exact ⟨hfr, hsum, hlen, by omega, fun i => (hle i).trans (freqSum_le _), counted_length _,
    fun i hi => unique_path_to_leaf hb hr hi⟩

end Sys2Proof.Machine

/-! SUPPORT. No command reads working state that it has not written (10_state.md R46): two runs that differ in
the working state alone stay alike, and what they have in common grows as the command writes it. -/

namespace Sys2Proof.Machine

/-! ### States alike but for the working state -/

/-- The state without the internal working state and the last internal result, as `hideWork` leaves it. -/
def State.hidden (s : State) : State := (s.setWork Work.reset).setRet .none

/-- The two states differ in the working state and the last internal result only, and the relation holds
of their working states. -/
structure Alike (E : Work → Work → Prop) (s t : State) : Prop where
  hidden : s.hidden = t.hidden
  work : E s.work t.work

/-- Nothing in common: the working states before a command. -/
abbrev AnyWork (_ _ : Work) : Prop := True

section Alike
variable {E F : Work → Work → Prop} {s t : State}

theorem Alike.par (h : Alike E s t) : s.par = t.par := (congrArg State.par h.hidden :)
theorem Alike.regs (h : Alike E s t) : s.regs = t.regs := (congrArg State.regs h.hidden :)
theorem Alike.latch (h : Alike E s t) : s.latch = t.latch := (congrArg State.latch h.hidden :)
theorem Alike.mem (h : Alike E s t) : s.mem = t.mem := (congrArg State.mem h.hidden :)
theorem Alike.src (h : Alike E s t) : s.src = t.src := (congrArg State.src h.hidden :)
theorem Alike.srclen (h : Alike E s t) : s.srclen = t.srclen := (congrArg State.srclen h.hidden :)
theorem Alike.dst (h : Alike E s t) : s.dst = t.dst := (congrArg State.dst h.hidden :)
theorem Alike.cap (h : Alike E s t) : s.cap = t.cap := (congrArg State.cap h.hidden :)

theorem Alike.mono (h : Alike E s t) (hF : ∀ v w, E v w → F v w) : Alike F s t :=
  ⟨h.hidden, hF _ _ h.work⟩

theorem Alike.setWork (h : Alike E s t) {v w : Work} (hF : F v w) :
    Alike F (s.setWork v) (t.setWork w) := ⟨h.hidden, hF⟩

theorem Alike.setMem (h : Alike E s t) (m : Memory) : Alike E (s.setMem m) (t.setMem m) :=
  ⟨congrArg (·.setMem m) h.hidden, h.work⟩

theorem Alike.setRegs (h : Alike E s t) (r : Regs) : Alike E (s.setRegs r) (t.setRegs r) :=
  ⟨congrArg (·.setRegs r) h.hidden, h.work⟩

theorem Alike.setLatch (h : Alike E s t) (l : Latch) : Alike E (s.setLatch l) (t.setLatch l) :=
  ⟨congrArg (·.setLatch l) h.hidden, h.work⟩

theorem Alike.complete (h : Alike E s t) (len : Nat) : Alike E (complete len s) (complete len t) :=
  ⟨congrArg (Machine.complete len) h.hidden, h.work⟩

end Alike

/-- The two operations end alike: with related values, or with the same error, at the same byte without
backing or with the same fault, in states that differ in the working state only. -/
inductive Same {α : Type} (Q : α → α → Prop) : Except Halt α → Except Halt α → Prop
  | ok {a b : α} : Q a b → Same Q (.ok a) (.ok b)
  | raised (e : Err) {s t : State} : s.hidden = t.hidden →
      Same Q (.error (.raised e s)) (.error (.raised e t))
  | stuck (a : Nat) {s t : State} : s.hidden = t.hidden →
      Same Q (.error (.stuck a s)) (.error (.stuck a t))
  | fault (f : Fault) : Same Q (.error (.fault f)) (.error (.fault f))

section Same
variable {α β : Type} {E : Work → Work → Prop} {P : β → β → Prop}

theorem Same.bind {Q : α → α → Prop} {x y : Except Halt α} {f g : α → Except Halt β}
    (h : Same Q x y) (hf : ∀ a b, Q a b → Same P (f a) (g b)) : Same P (x >>= f) (y >>= g) := by
  cases h with
  | ok hq => exact hf _ _ hq
  | raised e h => exact .raised e h
  | stuck a h => exact .stuck a h
  | fault f => exact .fault f

/-- Both runs go on with one value. -/
theorem Same.bindEq {x y : Except Halt α} {f g : α → Except Halt β} (h : Same Eq x y)
    (hf : ∀ a, Same P (f a) (g a)) : Same P (x >>= f) (y >>= g) :=
  h.bind fun a _ hab => hab ▸ hf a

/-- Both runs return one value, and states that are alike. -/
abbrev AlikePair (E : Work → Work → Prop) (p q : α × State) : Prop := p.1 = q.1 ∧ Alike E p.2 q.2

theorem Same.bindPair {x y : Except Halt (α × State)} {f g : α × State → Except Halt β}
    (h : Same (AlikePair E) x y) (hf : ∀ a s t, Alike E s t → Same P (f (a, s)) (g (a, t))) :
    Same P (x >>= f) (y >>= g) := by
  refine h.bind ?_
  rintro ⟨a, s⟩ ⟨b, t⟩ ⟨hab, hst⟩
  cases hab
  exact hf a s t hst

theorem same_throwErr {Q : α → α → Prop} (k : ErrKind) (d : Byte) {s t : State}
    (h : s.hidden = t.hidden) : Same Q (throwErr k d s) (throwErr k d t) := .raised ⟨k, d⟩ h

theorem same_throwCorrupt {Q : α → α → Prop} (k : ErrKind) (d : Byte) (orig : Nat) {s t : State}
    (h : Alike E s t) : Same Q (throwCorrupt k d orig s) (throwCorrupt k d orig t) := by
  rw [throwCorrupt, throwCorrupt, ← h.dst]
  exact same_throwErr k d (congrArg (scramble · s.dst orig) h.hidden)

/-- Commands that end alike have one outcome for the host. -/
theorem Same.hideWork_outcome {x y : Except Halt State} (h : Same (Alike E) x y)
    (clear : Err → Regs → Regs) : hideWork (outcome clear x) = hideWork (outcome clear y) := by
  cases h with
  | ok h => exact congrArg Host.Outcome.next h.hidden
  | raised e h => exact congrArg (fun u => Host.Outcome.next (raiseEnd clear e u)) h
  | stuck a h => exact congrArg (fun u => Host.Outcome.next (u.setStuck (some a))) h
  | fault f => rfl

end Same

/-! ### Memory and the checks, whatever the working states have in common -/

section Common
variable {E : Work → Work → Prop} {s t : State}

theorem same_loadByte (h : Alike E s t) (a : Nat) : Same Eq (loadByte s a) (loadByte t a) := by
  rw [loadByte, loadByte, ← h.par, ← h.mem]
  split_ifs
  · exact .ok rfl
  · exact .stuck a h.hidden
  · exact .fault _

theorem same_storeByte (h : Alike E s t) (a : Nat) (b : Byte) :
    Same (Alike E) (storeByte s a b) (storeByte t a b) := by
  rw [storeByte, storeByte, ← h.par, ← h.mem]
  split_ifs
  · exact .ok (h.setMem _)
  · exact .stuck a h.hidden
  · exact .fault _

theorem same_loadBytes (h : Alike E s t) (a n : Nat) : Same Eq (loadBytes s a n) (loadBytes t a n) := by
  induction n generalizing a with
  | zero => exact .ok rfl
  | succ n ih => exact (same_loadByte h a).bindEq fun b => (ih (a + 1)).bindEq fun bs => .ok rfl

theorem same_storeBytes (h : Alike E s t) (a : Nat) (bs : List Byte) :
    Same (Alike E) (storeBytes s a bs) (storeBytes t a bs) := by
  induction bs generalizing s t a with
  | nil => exact .ok h
  | cons b bs ih => exact (same_storeByte h a b).bind fun _ _ h => ih h (a + 1)

theorem same_rangeCheck (h : Alike E s t) : Same Eq (rangeCheck s) (rangeCheck t) := by
  rw [rangeCheck, rangeCheck, ← h.par, ← h.src, ← h.srclen, ← h.dst, ← h.cap]
  split_ifs
  · exact same_throwErr _ _ h.hidden
  · exact same_throwErr _ _ h.hidden
  · exact .ok rfl

theorem same_overlapCheck (h : Alike E s t) : Same Eq (overlapCheck s) (overlapCheck t) := by
  rw [overlapCheck, overlapCheck, ← h.src, ← h.srclen, ← h.dst, ← h.cap]
  split_ifs
  · exact same_throwErr _ _ h.hidden
  · exact .ok rfl

theorem same_writeTable (h : Alike E s t) (es : List (Byte × Word32)) (a : Nat) :
    Same (Alike E) (writeTable es a s) (writeTable es a t) := by
  induction es generalizing s t a with
  | nil => exact .ok h
  | cons e es ih => exact (same_storeBytes h a _).bind fun _ _ h => ih h _

end Common

/-! ### The tree and the codes: FREQ decides them (R166, R180) -/

/-- One FREQ in both. -/
abbrev FreqEq (v w : Work) : Prop := v.freq = w.freq

/-- One FREQ, and the tree of it (R162 to R165), in both. -/
abbrev BuiltEq (v w : Work) : Prop := v.freq = w.freq ∧ isBuilt v ∧ isBuilt w

/-- One FREQ and one code table in both. -/
abbrev CodesEq (v w : Work) : Prop := v.freq = w.freq ∧ v.code = w.code

section Tree
variable {s t : State}

theorem same_buildTree (h : Alike FreqEq s t) :
    Same (Alike BuiltEq) (onWork buildTree s) (onWork buildTree t) := by
  have hs := buildTree_ref s.work
  have ht := buildTree_ref t.work
  rw [onWork_eq_ok.2 ⟨_, hs, rfl⟩, onWork_eq_ok.2 ⟨_, ht, rfl⟩]
  exact .ok (h.setWork ⟨h.work, isBuilt_of_buildTree hs, isBuilt_of_buildTree ht⟩)

theorem same_generateCodes (h : Alike BuiltEq s t) :
    Same (Alike CodesEq) (onWork generateCodes s) (onWork generateCodes t) := by
  obtain ⟨hf, hbs, hbt⟩ := h.work
  obtain ⟨c, -, hs, -, hc⟩ := generateCodes_built hbs
  obtain ⟨d, -, ht, -, hd⟩ := generateCodes_built hbt
  rw [onWork_eq_ok.2 ⟨_, hs, rfl⟩, onWork_eq_ok.2 ⟨_, ht, rfl⟩]
  rw [← hf] at hd
  exact .ok (h.setWork ⟨hf, hc.unique hd⟩)

end Tree

/-! ### ENCODE -/

/-- One code table and one packer in both. -/
abbrev PackEq (v w : Work) : Prop := v.code = w.code ∧ v.pk = w.pk

/-- One FREQ, one code table and one checksum register in both. -/
abbrev SealedEq (v w : Work) : Prop := CodesEq v w ∧ v.crcReg = w.crcReg

section Encode
variable {s t : State}

theorem same_countByte (h : Alike FreqEq s t) (b : Byte) :
    Same (Alike FreqEq) (countByte b s) (countByte b t) := by
  rw [countByte, countByte, ← h.work]
  split_ifs
  · exact same_throwErr _ _ h.hidden
  · exact .ok (h.setWork rfl)

theorem same_countLoop (h : Alike FreqEq s t) (a n : Nat) :
    Same (Alike FreqEq) (countLoop a n s) (countLoop a n t) := by
  induction n generalizing s t a with
  | zero => exact .ok h
  | succ n ih =>
    exact (same_loadByte h a).bindEq fun b => (same_countByte h b).bind fun _ _ h => ih h (a + 1)

theorem same_freqCount (h : Alike AnyWork s t) (a n : Nat) :
    Same (Alike FreqEq) (freqCount a n s) (freqCount a n t) :=
  same_countLoop (h.setWork (by rfl)) a n

theorem payloadBits_congr {v w : Work} (h : CodesEq v w) : payloadBits v = payloadBits w := by
  simp only [payloadBits, codeLen, h.1, h.2]

theorem entryCount_congr {v w : Work} (h : CodesEq v w) : entryCount v = entryCount w := by
  rw [entryCount, entryCount, h.1]

theorem alike_setPk (h : Alike PackEq s t) (x : Packer) : Alike PackEq (s.setPk x) (t.setPk x) :=
  h.setWork ⟨h.work.1, rfl⟩

/-- R200: what the packer held before does not matter. -/
theorem alike_pkInit (h : Alike CodesEq s t) (base : Nat) :
    Alike PackEq (s.setWork (pkInit base s.work)) (t.setWork (pkInit base t.work)) :=
  h.setWork ⟨h.work.2, rfl⟩

theorem same_pkEmit (h : Alike PackEq s t) (v : Byte) :
    Same (Alike PackEq) (pkEmit v s) (pkEmit v t) := by
  rw [pkEmit, pkEmit, ← h.work.2]
  exact (same_storeByte h _ v).bind fun _ _ h => .ok (h.work.2 ▸ alike_setPk h _)

/-- What ends a byte: the accumulator is empty again. -/
theorem same_clearAcc {x y : Except Halt State} (h : Same (Alike PackEq) x y) :
    Same (Alike PackEq)
      (x >>= fun s => pure (s.setPk { s.work.pk with acc := 0, cnt := 0 }))
      (y >>= fun s => pure (s.setPk { s.work.pk with acc := 0, cnt := 0 })) :=
  h.bind fun _ _ h => .ok (h.work.2 ▸ alike_setPk h _)

theorem same_pkWriteBit (h : Alike PackEq s t) (b : Bool) :
    Same (Alike PackEq) (pkWriteBit b s) (pkWriteBit b t) := by
  rw [pkWriteBit, pkWriteBit, ← h.work.2]
  dsimp only
  split_ifs
  · exact same_clearAcc (same_pkEmit h _)
  · exact .ok (alike_setPk h _)

theorem same_pkWriteBits (h : Alike PackEq s t) (bits : Bits) :
    Same (Alike PackEq) (pkWriteBits bits s) (pkWriteBits bits t) := by
  induction bits generalizing s t with
  | nil => exact .ok h
  | cons b bs ih => exact (same_pkWriteBit h b).bind fun _ _ h => ih h

theorem same_pkFlush (h : Alike PackEq s t) : Same (Alike PackEq) (pkFlush s) (pkFlush t) := by
  rw [pkFlush, pkFlush, ← h.work.2]
  split_ifs
  · exact same_clearAcc (same_pkEmit (alike_setPk h _) _)
  · exact .ok (alike_setPk h _)

theorem codeLookup_congr {v w : Work} (h : v.code = w.code) (b : Byte) :
    codeLookup b v = codeLookup b w := by
  rw [codeLookup, codeLookup, h]

theorem same_packLoop (h : Alike PackEq s t) (a n : Nat) :
    Same (Alike PackEq) (packLoop a n s) (packLoop a n t) := by
  induction n generalizing s t a with
  | zero => exact .ok h
  | succ n ih =>
    refine (same_loadByte h a).bindEq fun b => ?_
    rw [← codeLookup_congr h.work.1]
    cases codeLookup b s.work with
    | error f => exact .fault f
    | ok c => exact (same_pkWriteBits h c).bind fun _ _ h => ih h (a + 1)

theorem encodeHeader_congr {E : Work → Work → Prop} (h : Alike E s t) (cs : Word64) (crc : Word32)
    (k : BitVec 16) (pad : Byte) : encodeHeader s cs crc k pad = encodeHeader t cs crc k pad := by
  rw [encodeHeader, encodeHeader, h.par, h.latch]

theorem same_writeContainer (h : Alike CodesEq s t) (cs : Word64) (crc : Word32) (k : BitVec 16)
    (pad : Byte) :
    Same (Alike PackEq) (writeContainer cs crc k pad s) (writeContainer cs crc k pad t) := by
  rw [writeContainer, writeContainer, ← encodeHeader_congr h, ← h.dst]
  refine (same_storeBytes h _ _).bind fun u v h => ?_
  rw [← h.dst, ← h.work.1]
  refine (same_writeTable h _ _).bind fun u v h => ?_
  rw [← h.dst]
  have hinit := alike_pkInit h (u.dst + Config.hdrSize + Config.entrySize * k.toNat)
  dsimp only
  rw [← hinit.src, ← hinit.srclen]
  refine (same_packLoop hinit _ _).bind fun u v h => (same_pkFlush h).bind fun u v h => ?_
  rw [← h.regs]
  exact .ok ((h.setRegs _).complete _)

theorem same_sourceCrc (h : Alike CodesEq s t) :
    Same (Alike SealedEq) (sourceCrc s) (sourceCrc t) := by
  rw [sourceCrc, sourceCrc, ← h.src, ← h.srclen]
  refine (same_loadBytes h _ _).bindEq fun bs => .ok (h.setWork ?_)
  rw [crcRun_eq, crcRun_eq]
  exact ⟨h.work, rfl⟩

theorem same_encodeCommand (h : Alike AnyWork s t) :
    Same (Alike PackEq) (encodeCommand s) (encodeCommand t) := by
  rw [encodeCommand, encodeCommand, ← h.src, ← h.srclen]
  refine (same_rangeCheck h).bindEq fun _ => (same_overlapCheck h).bindEq fun _ =>
    (same_freqCount h _ _).bind fun _ _ h => (same_buildTree h).bind fun _ _ h =>
    (same_generateCodes h).bind fun u v h => ?_
  dsimp only
  rw [← payloadBits_congr h.work, ← entryCount_congr h.work, ← h.cap]
  split_ifs
  · exact same_throwErr _ _ h.hidden
  · refine (same_sourceCrc h).bind fun x y h => ?_
    rw [crcFinal, crcFinal, ← h.work.2]
    exact same_writeContainer (h.mono fun _ _ h => h.1) _ _ _ _

end Encode

/-! ### DECODE -/

/-- One FREQ and one SEEN in both. -/
abbrev TableEq (v w : Work) : Prop := v.freq = w.freq ∧ v.seen = w.seen

/-- One tree in both. -/
abbrev TreeEq (v w : Work) : Prop := v.nodes = w.nodes ∧ v.root = w.root

/-- One count of emitted symbols in both. -/
abbrev EmitEq (v w : Work) : Prop := v.wk.emit = w.wk.emit

/-- One tree, one walker and one unpacker in both. -/
abbrev WalkEq (v w : Work) : Prop := TreeEq v w ∧ v.wk = w.wk ∧ v.up = w.up

theorem BuiltEq.tree {v w : Work} (h : BuiltEq v w) : TreeEq v w := by
  obtain ⟨hf, hv, hw⟩ := h
  exact ⟨by rw [hv.1, hw.1, hf], by rw [hv.2, hw.2, hf]⟩

section Decode
variable {E : Work → Work → Prop} {s t : State}

theorem same_readHeader (h : Alike E s t) : Same (AlikePair E) (readHeader s) (readHeader t) := by
  rw [readHeader, readHeader, ← h.src, ← h.regs]
  exact (same_loadBytes h _ _).bindEq fun bs => .ok ⟨rfl, h.setRegs _⟩

theorem same_headerCheck (h : Alike E s t) (hd : Header) :
    Same Eq (headerCheck hd s) (headerCheck hd t) := by
  rw [headerCheck, headerCheck, ← h.par]
  split_ifs
  · exact same_throwErr _ _ h.hidden
  · exact same_throwErr _ _ h.hidden
  · exact same_throwErr _ _ h.hidden
  · exact .ok rfl

theorem same_parseEntry (h : Alike TableEq s t) (a : Nat) :
    Same (Alike TableEq) (parseEntry a s) (parseEntry a t) := by
  rw [parseEntry, parseEntry, ← h.work.1, ← h.work.2]
  refine (same_loadByte h a).bindEq fun sym => (same_loadBytes h _ 4).bindEq fun bs => ?_
  dsimp only
  split_ifs
  · exact same_throwErr _ _ h.hidden
  · exact same_throwErr _ _ h.hidden
  · exact .ok (h.setWork ⟨rfl, rfl⟩)

theorem same_parseLoop (h : Alike TableEq s t) (a k : Nat) :
    Same (Alike TableEq) (parseLoop a k s) (parseLoop a k t) := by
  induction k generalizing s t a with
  | zero => exact .ok h
  | succ k ih => exact (same_parseEntry h a).bind fun _ _ h => ih h _

theorem same_parseTable (h : Alike AnyWork s t) (k : Nat) :
    Same (Alike TableEq) (parseTable k s) (parseTable k t) := by
  rw [parseTable, parseTable, ← h.src, ← h.srclen]
  split_ifs
  · exact same_throwErr _ _ h.hidden
  · exact same_throwErr _ _ h.hidden
  · exact same_parseLoop (h.setWork (by exact ⟨rfl, rfl⟩)) _ k

theorem same_checkPayloadExtent (h : Alike E s t) (k cs pad : Nat) :
    Same Eq (checkPayloadExtent k cs pad s) (checkPayloadExtent k cs pad t) := by
  rw [checkPayloadExtent, checkPayloadExtent, ← h.srclen]
  split_ifs
  · exact same_throwErr _ _ h.hidden
  · exact same_throwErr _ _ h.hidden
  · exact same_throwErr _ _ h.hidden
  · exact .ok rfl

/-- Emitting a symbol keeps what the working states have in common, WK_EMIT among it. -/
theorem same_emitSymbol (h : Alike E s t) (sym : Byte) (hemit : ∀ v w, E v w → EmitEq v w)
    (hset : ∀ v w, E v w → E (v.setWk { v.wk with emit := v.wk.emit + 1 })
      (w.setWk { w.wk with emit := w.wk.emit + 1 })) :
    Same (Alike E) (emitSymbol sym s) (emitSymbol sym t) := by
  rw [emitSymbol, emitSymbol, ← h.dst, ← hemit _ _ h.work]
  exact (same_storeByte h _ sym).bind fun _ _ h => .ok (h.setWork (hset _ _ h.work))

theorem same_fillLoop (h : Alike EmitEq s t) (sym : Byte) (n : Nat) :
    Same (AlikePair EmitEq) (fillLoop sym n s) (fillLoop sym n t) := by
  induction n generalizing s t with
  | zero => exact .ok ⟨rfl, h⟩
  | succ n ih =>
    exact (same_emitSymbol h sym (fun _ _ h => h) fun _ _ h => congrArg (· + 1) h).bind fun _ _ h =>
      (ih h).bindPair fun rest _ _ h => .ok ⟨rfl, h⟩

theorem alike_setWk (h : Alike WalkEq s t) (x : Walker) : Alike WalkEq (s.setWk x) (t.setWk x) :=
  h.setWork ⟨h.work.1, rfl, h.work.2.2⟩

theorem same_walkBit (h : Alike WalkEq s t) (b : Bool) :
    Same (AlikePair WalkEq) (walkBit b s) (walkBit b t) := by
  obtain ⟨⟨hnodes, -⟩, hwk, -⟩ := h.work
  rw [walkBit, walkBit, ← hnodes, ← hwk]
  cases s.work.nodes[s.work.wk.node]? with
  | none => exact .fault _
  | some n =>
    cases n with
    | leaf => exact .fault _
    | internal f l r =>
      dsimp only
      cases s.work.nodes[if b then r else l]? with
      | none => exact .fault _
      | some m =>
        cases m with
        | internal => exact .ok ⟨rfl, alike_setWk h _⟩
        | leaf sym f =>
          refine (same_emitSymbol h sym (fun _ _ h => congrArg Walker.emit h.2.1) fun v w h =>
            ⟨h.1, by rw [Work.setWk_wk, Work.setWk_wk, h.2.1], h.2.2⟩).bind fun u v h => ?_
          obtain ⟨⟨-, hroot⟩, hwk, -⟩ := h.work
          rw [← hroot, ← hwk]
          cases u.work.root with
          | none => exact .fault _
          | some r => exact .ok ⟨rfl, alike_setWk h _⟩

theorem same_upReadBit (h : Alike WalkEq s t) :
    Same (AlikePair WalkEq) (upReadBit s) (upReadBit t) := by
  obtain ⟨htree, hwk, hup⟩ := h.work
  rw [upReadBit, upReadBit, ← hup]
  split_ifs
  · exact .ok ⟨rfl, h⟩
  · exact (same_loadByte h _).bindEq fun v => .ok ⟨rfl, h.setWork ⟨htree, hwk, rfl⟩⟩

theorem same_walkLoop (h : Alike WalkEq s t) (orig n : Nat) :
    Same (AlikePair WalkEq) (walkLoop orig n s) (walkLoop orig n t) := by
  induction n generalizing s t with
  | zero =>
    rw [walkLoop, walkLoop, ← h.work.2.1]
    split_ifs
    · exact same_throwCorrupt _ _ _ h
    · exact .ok ⟨rfl, h⟩
  | succ n ih =>
    rw [walkLoop, walkLoop, ← h.work.2.1]
    split_ifs
    · refine (same_upReadBit h).bindPair fun b u v h => ?_
      cases b with
      | none => exact same_throwCorrupt _ _ _ h
      | some b =>
        exact (same_walkBit h b).bindPair fun out _ _ h => (ih h).bindPair fun rest _ _ h =>
          .ok ⟨rfl, h⟩
    · exact .ok ⟨rfl, h⟩

theorem same_walk (h : Alike TreeEq s t) (base len orig : Nat) :
    Same (AlikePair WalkEq) (walk base len orig s) (walk base len orig t) := by
  rw [walk, walk, ← h.work.2]
  cases s.work.root with
  | none => exact .fault _
  | some r =>
    refine (same_walkLoop (h.setWork (by exact ⟨h.work, rfl, rfl⟩)) orig len).bindPair fun out u v h => ?_
    dsimp only
    rw [upConsumed, upConsumed, ← h.work.2.2]
    split_ifs
    · exact same_throwCorrupt _ _ _ h
    · exact .ok ⟨rfl, h⟩

/-- Whatever the states have in common after an operation is more than nothing. -/
theorem Same.any {α : Type} {x y : Except Halt (α × State)} (h : Same (AlikePair E) x y) :
    Same (AlikePair AnyWork) x y := by
  cases h with
  | ok h => exact .ok ⟨h.1, h.2.mono fun _ _ _ => trivial⟩
  | raised e h => exact .raised e h
  | stuck a h => exact .stuck a h
  | fault f => exact .fault f

theorem same_emitOutput (h : Alike TreeEq s t) (base len orig : Nat) :
    Same (AlikePair AnyWork) (emitOutput base len orig s) (emitOutput base len orig t) := by
  obtain ⟨hnodes, hroot⟩ := h.work
  rw [emitOutput, emitOutput, ← hnodes, ← hroot]
  cases s.work.root with
  | none => exact .ok ⟨rfl, h.mono fun _ _ _ => trivial⟩
  | some r =>
    dsimp only
    cases s.work.nodes[r]? with
    | none => exact .fault _
    | some n =>
      cases n with
      | leaf sym f => exact (same_fillLoop (h.setWork (by rfl)) sym orig).any
      | internal => exact (same_walk h base len orig).any

theorem same_verifyOutput (h : Alike AnyWork s t) (out : List Byte) (checksum : Word32) (orig : Nat) :
    Same (Alike AnyWork) (verifyOutput out checksum orig s) (verifyOutput out checksum orig t) := by
  rw [verifyOutput_eq, verifyOutput_eq, ← h.latch, ← h.regs]
  dsimp only
  have hcrc := (h.setWork (F := AnyWork) (v := crcRun out (crcInit s.work))
    (w := crcRun out (crcInit t.work)) trivial).setRegs
      { s.regs with crcCalc := (refCrc32 out).zeroExtend 64 }
  split_ifs
  · exact .ok hcrc
  · exact same_throwCorrupt _ _ _ hcrc
  · exact .ok (h.setRegs _)

theorem same_decodeContainer (h : Alike AnyWork s t) :
    Same (Alike AnyWork) (decodeContainer s) (decodeContainer t) := by
  refine (same_readHeader h).bindPair fun hd u v h => (same_headerCheck h hd).bindEq fun _ =>
    (same_parseTable h _).bind fun _ _ h => (same_checkPayloadExtent h _ _ _).bindEq fun len =>
    (same_buildTree (h.mono fun _ _ h => h.1)).bind fun u v h => ?_
  dsimp only
  rw [← h.work.tree.2, ← h.cap, ← h.src]
  split_ifs
  · exact same_throwErr _ _ h.hidden
  · exact same_throwErr _ _ h.hidden
  · exact (same_emitOutput (h.mono fun _ _ h => h.tree) _ _ _).bindPair fun out _ _ h =>
      (same_verifyOutput h out _ _).bind fun _ _ h => .ok (h.complete _)

theorem same_decodeCommand (h : Alike AnyWork s t) :
    Same (Alike AnyWork) (decodeCommand s) (decodeCommand t) := by
  rw [decodeCommand, decodeCommand, ← h.srclen]
  refine (same_rangeCheck h).bindEq fun _ => (same_overlapCheck h).bindEq fun _ => ?_
  split_ifs
  · exact same_throwErr _ _ h.hidden
  · exact same_decodeContainer h

end Decode

/-! ### The commands -/

/-- A command word is NOP, ENCODE, DECODE, or illegal (R91, R93). -/
theorem decodeWord_cases (c : Word64) : decodeWord c = .illegalCommand c ∨ decodeWord c = .nop ∨
    decodeWord c = .encode ∨ ∃ k, decodeWord c = .decode k := by
  rw [decodeWord]
  split_ifs <;> simp

/-- Two states that differ in the working state only have one outcome of every command for the host. -/
theorem hideWork_exec_congr {s t : State} (h : Alike AnyWork s t) (c : Word64) :
    hideWork (exec (decodeWord c) s) = hideWork (exec (decodeWord c) t) := by
  rcases decodeWord_cases c with hc | hc | hc | ⟨k, hc⟩ <;> rw [hc]
  · exact congrArg (fun u => Host.Outcome.next (raiseEnd clearNothing ⟨.illegalCmd, illegalDetail c⟩ u))
      h.hidden
  · exact congrArg (fun u => Host.Outcome.next (endCommand statusComplete u)) h.hidden
  · exact (same_encodeCommand h).hideWork_outcome clearEncode
  · have hl := h.setLatch { s.latch with verify := !k }
    rw [exec, exec, execDecode, execDecode, ← h.latch]
    exact (same_decodeCommand hl).hideWork_outcome clearDecode

/-- Settles O57: the two states of the statement have no working state in common, and all else. -/
theorem workingStateInvisible : Obligations.WorkingStateInvisible :=
  fun _ c _ _ => hideWork_exec_congr (by exact ⟨rfl, trivial⟩) c

end Sys2Proof.Machine

/-! SUPPORT. The statements of 20_memory.md: what a host move can do, memory as the host sees it, and the
invariants that every step keeps. -/

namespace Sys2Proof.Machine

/-! ### The host's moves (60_exceptions.md R416) -/

/-- What a host move can do: a register access, a memory access, or the reset. `q` is what the inbox then
holds. -/
inductive HostMoved (op : HostOp) (s : State) : State → Prop
  | write (r : Reg) (v : Word64) (q : List HostOp) : HostMoved op s (writeReg r v (s.setInbox q))
  | read (r : Reg) (var : String) (q : List HostOp) : HostMoved op s (observeReg r var (s.setInbox q))
  | store (m : Memory) (q : List HostOp) : HostMoved op s ((s.setMem m).setInbox q)
  | load (o : Observation) (n : Nat) (q : List HostOp) :
      HostMoved op s (((s.observe o).addDraws n).setInbox q)
  | reset (q : List HostOp) : op = .reset → HostMoved op s ((resetBlock s).setInbox q)

theorem hostMove_moved {op : HostOp} {rest : List HostOp} {s t : State}
    (h : hostMove op rest s = .next t) : HostMoved op s t := by
  cases op with
  | wr r v => cases h; exact .write r v rest
  | rd r var => cases h; exact .read r var rest
  | busWrite addr width v =>
    simp only [hostMove] at h
    split at h <;> cases h
    exact .write _ v rest
  | busRead addr width var =>
    simp only [hostMove] at h
    split at h <;> cases h
    exact .read _ var rest
  | poll var =>
    simp only [hostMove] at h
    split_ifs at h <;> cases h
    · exact .read .status var s.inbox
    · exact .read .status var rest
  | memw addr bytes =>
    simp only [hostMove] at h
    split_ifs at h
    cases h
    exact .store _ rest
  | memr addr n var =>
    simp only [hostMove] at h
    split_ifs at h
    cases h
    exact .load _ _ rest
  | reset => cases h; exact .reset rest rfl

theorem writeReg_par (r : Reg) (v : Word64) (s : State) : (writeReg r v s).par = s.par := by
  rw [writeReg]
  split
  · cases r <;> rfl
  · rfl

/-- A host read of a register changes only what the host has observed and the draws. -/
theorem observeReg_eq (r : Reg) (var : String) (s : State) :
    ∃ n o, observeReg r var s = (s.addDraws n).observe o := by
  obtain ⟨n, hn⟩ := readReg_ok r s
  exact ⟨n, .reg var (readReg r s).1, congrArg (·.observe (.reg var (readReg r s).1)) hn⟩

/-- No host move changes the parameters (R7). -/
theorem HostMoved.par {op : HostOp} {s t : State} (h : HostMoved op s t) : t.par = s.par := by
  cases h with
  | write r v q => exact writeReg_par r v _
  | read r var q =>
    obtain ⟨n, o, he⟩ := observeReg_eq r var (s.setInbox q)
    rw [he]
    rfl
  | store => rfl
  | load => rfl
  | reset => rfl

/-- No step changes the parameters (R7). -/
theorem step_par {s t : State} (h : step s = .next t) : t.par = s.par := by
  rw [step] at h
  split_ifs at h
  · exact (exec_after h).par
  · rw [hostTurn] at h
    split at h
    · cases h; rfl
    · exact (hostMove_moved h).par

/-- Settles O58: the parameters by `step_par`, the invariants together by `step_ok`. -/
theorem stepKeepsInvariants : Obligations.StepKeepsInvariants := by
  intro s t h
  refine ⟨step_par h, fun hmem hcrc hpk hpq => ?_⟩
  obtain ⟨hmem', hcrc', hpk', hpq'⟩ := step_ok ⟨hmem, hcrc, hpk, hpq⟩ h
  exact ⟨hmem', hcrc', hpk', hpq'⟩

/-! ### Memory (R60, R67) -/

/-- Settles O6, by the laws of one write and of a run of writes. -/
theorem memoryReadsLastWrite : Obligations.MemoryReadsLastWrite := fun _ h =>
  ⟨fun _ _ => ⟨Memory.write_wf h, Memory.read_write h⟩,
    fun _ _ => ⟨Memory.writeRange_wf h, Memory.readRange_writeRange h,
      fun _ hx => Memory.read_writeRange_outside h hx⟩⟩

/-! ### The host's accesses to memory (R71, R72) -/

theorem allExist_iff {p : Params} {a n : Nat} :
    allExist p a n = true ↔ n = 0 ∨ a + n ≤ 2 ^ p.addrW := decide_eq_true_iff

/-- A host write races the core when the block is BUSY and a byte of it lies in SRC or in DST. -/
theorem writeRaces_iff {s : State} {a n : Nat} : writeRaces s a n = true ↔ s.phase = .busy ∧
    ∃ x, a ≤ x ∧ x < a + n ∧
      ((s.src ≤ x ∧ x < s.src + s.srclen) ∨ (s.dst ≤ x ∧ x < s.dst + s.cap)) := by
  simp only [writeRaces, Bool.and_eq_true, beq_iff_eq, Bool.or_eq_true, rangesMeet_iff, and_or_left,
    exists_or]

/-- A host read races the core when the block is BUSY and a byte of it lies in DST. -/
theorem readRaces_iff {s : State} {a n : Nat} : readRaces s a n = true ↔ s.phase = .busy ∧
    ∃ x, a ≤ x ∧ x < a + n ∧ s.dst ≤ x ∧ x < s.dst + s.cap := by
  simp only [readRaces, Bool.and_eq_true, beq_iff_eq, rangesMeet_iff]

theorem not_writeRaces_of_idle {s : State} (h : s.phase = .idle) (a n : Nat) :
    ¬ writeRaces s a n = true := by
  simp [writeRaces_iff, h]

theorem not_readRaces_of_idle {s : State} (h : s.phase = .idle) (a n : Nat) :
    ¬ readRaces s a n = true := by
  simp [readRaces_iff, h]

section HostAccess
variable {s : State} {rest : List HostOp} {a n : Nat} {bs : List Byte} {var : String}

theorem hostMove_memw_stores (hr : ¬ writeRaces s a bs.length = true)
    (he : allExist s.par a bs.length = true) : hostMove (.memw a bs) rest s =
      .next { s with inbox := rest, mem := s.mem.writeRange a bs } := by
  rw [hostMove, if_neg hr, if_pos he]
  rfl

theorem hostMove_memr_records (hr : ¬ readRaces s a n = true) (he : allExist s.par a n = true) :
    hostMove (.memr a n var) rest s = .next { s with
      inbox := rest
      observed := .mem var (hostBytes s.par s.mem a n s.draws) :: s.observed
      draws := s.draws + unbackedCount s.par a n } := by
  rw [hostMove, if_neg hr, if_pos he]
  rfl

theorem hostMove_memw_race (hr : writeRaces s a bs.length = true) :
    hostMove (.memw a bs) rest s = .refused (.hostRace a bs.length) := by
  rw [hostMove, if_pos hr]

theorem hostMove_memr_race (hr : readRaces s a n = true) :
    hostMove (.memr a n var) rest s = .refused (.hostRace a n) := by
  rw [hostMove, if_pos hr]

theorem hostMove_memw_missing (hr : ¬ writeRaces s a bs.length = true)
    (he : ¬ allExist s.par a bs.length = true) :
    hostMove (.memw a bs) rest s = .refused (.hostMemory a bs.length) := by
  rw [hostMove, if_neg hr, if_neg he]

theorem hostMove_memr_missing (hr : ¬ readRaces s a n = true) (he : ¬ allExist s.par a n = true) :
    hostMove (.memr a n var) rest s = .refused (.hostMemory a n) := by
  rw [hostMove, if_neg hr, if_neg he]

end HostAccess

/-- Settles O8: each clause by the two questions a host access meets, whether it races the core and whether
its bytes exist. -/
theorem hostMemoryAccess : Obligations.HostMemoryAccess := by
  intro s rest a n bs var
  refine ⟨fun he hfree => ?_, fun he hfree => ?_, fun hb hmeet => ?_, fun hb hmeet => ?_,
    fun hidle he hbs => ?_, fun hidle he hn => ?_⟩
  · refine hostMove_memw_stores (fun hr => ?_) (allExist_iff.2 (.inr he))
    obtain ⟨hbusy, x, h1, h2, h3⟩ := writeRaces_iff.1 hr
    rcases hfree with hidle | hfree
    · simp [hidle] at hbusy
    · have := hfree x h1 h2
      omega
  · refine ⟨_, _, hostMove_memr_records (fun hr => ?_) (allExist_iff.2 (.inr he)), hostBytes_length,
      fun k hk hok => hostBytes_get hk hok, fun hr => ?_⟩
    · obtain ⟨hbusy, x, h1, h2, h3⟩ := readRaces_iff.1 hr
      rcases hfree with hidle | hfree
      · simp [hidle] at hbusy
      · have := hfree x h1 h2
        omega
    · obtain ⟨hbytes, hcount⟩ := hostBytes_backed (m := s.mem) (d := s.draws) (backed_iff.1 hr)
      exact ⟨hbytes, by rw [hcount, Nat.add_zero]⟩
  · exact hostMove_memw_race (writeRaces_iff.2 ⟨hb, hmeet⟩)
  · exact hostMove_memr_race (readRaces_iff.2 ⟨hb, hmeet⟩)
  · refine hostMove_memw_missing (not_writeRaces_of_idle hidle _ _) (allExist_iff.not.2 ?_)
    have := List.length_pos_iff.2 hbs
    omega
  · refine hostMove_memr_missing (not_readRaces_of_idle hidle _ _) (allExist_iff.not.2 ?_)
    omega

end Sys2Proof.Machine

/-! SUPPORT. What a command writes (20_memory.md R61, R68): nothing before its checks have passed, and then
bytes of its destination only. -/

namespace Sys2Proof.Machine

/-! ### States that an operation of a command leaves -/

/-- From `s` to `t` no byte outside the first `n` of the destination has changed. -/
structure WritesIn (n : Nat) (s t : State) : Prop where
  latch : t.latch = s.latch
  par : t.par = s.par
  wf : s.mem.wf → t.mem.wf
  outside : s.mem.wf → sameOutside s.mem t.mem s.dst n

/-- `Q` holds of the state in which an operation stops its command. -/
abbrev StopsIn (Q : State → Prop) : Halt → Prop
  | .raised _ t => Q t
  | .stuck _ t => Q t
  | .fault _ => True

/-- An operation changes no byte outside the first `n` of the destination of `s`, however it ends. -/
abbrev WritesPost (n : Nat) (s : State) (x : Except Halt State) : Prop :=
  Post (WritesIn n s) (StopsIn (WritesIn n s)) x

/-- The same of an operation with a second result. -/
abbrev WritesPost2 {α : Type} (n : Nat) (s : State) (x : Except Halt (α × State)) : Prop :=
  Post (fun p => WritesIn n s p.2) (StopsIn (WritesIn n s)) x

theorem StopsIn.mono {P Q : State → Prop} (h : ∀ t, P t → Q t) (x : Halt) (hx : StopsIn P x) :
    StopsIn Q x := by
  cases x with
  | raised e t => exact h t hx
  | stuck a t => exact h t hx
  | fault f => trivial

section WritesIn
variable {n k : Nat} {s t u : State}

theorem WritesIn.refl : WritesIn n s s := ⟨rfl, rfl, id, fun _ _ _ => rfl⟩

/-- The working state before does not matter. -/
theorem WritesIn.of_setWork {w : Work} (h : WritesIn n (s.setWork w) t) : WritesIn n s t :=
  ⟨h.latch, h.par, h.wf, h.outside⟩

theorem WritesIn.dst (h : WritesIn n s t) : t.dst = s.dst := congrArg (·.dst.toNat) h.latch
theorem WritesIn.cap (h : WritesIn n s t) : t.cap = s.cap := congrArg (·.cap.toNat) h.latch

/-- An update that leaves the latch, the parameters and memory. -/
theorem WritesIn.of_eq (h : WritesIn n s t) (hl : u.latch = t.latch) (hp : u.par = t.par)
    (hm : u.mem = t.mem) : WritesIn n s u :=
  ⟨hl.trans h.latch, hp.trans h.par, hm ▸ h.wf, hm ▸ h.outside⟩

theorem WritesIn.mono (h : WritesIn n s t) (hn : n ≤ k) : WritesIn k s t :=
  ⟨h.latch, h.par, h.wf, fun hm x hx => h.outside hm x (hx.imp_right (by omega))⟩

/-- One byte of the destination. -/
theorem WritesIn.write (h : WritesIn n s t) {i : Nat} (hi : i < n) (b : Byte) :
    WritesIn n s (t.setMem (t.mem.write (s.dst + i) b)) := by
  refine ⟨h.latch, h.par, fun hm => Memory.write_wf (h.wf hm), fun hm x hx => ?_⟩
  rw [State.setMem_mem, Memory.read_write_other (h.wf hm) (by omega)]
  exact h.outside hm x hx

/-- Bytes from the destination's first on. -/
theorem WritesIn.writeRange {bs : List Byte} (hn : bs.length ≤ n) :
    WritesIn n s (s.setMem (s.mem.writeRange s.dst bs)) :=
  ⟨rfl, rfl, Memory.writeRange_wf, fun hm _ hx =>
    Memory.read_writeRange_outside hm (hx.imp_right (by omega))⟩

/-- Free values in the destination (R313). -/
theorem WritesIn.scramble (h : WritesIn n s t) : WritesIn n s (Machine.scramble t t.dst n) := by
  refine ⟨h.latch, h.par, fun hm => scramble_wf _ _ (h.wf hm), fun hm x hx => ?_⟩
  rw [scramble_read _ _ (h.wf hm) (by rw [h.dst]; exact hx)]
  exact h.outside hm x hx

/-- A load changes nothing. -/
theorem writes_loadByte {α : Type} {Q : α → Prop} {a : Nat} {f : Byte → Except Halt α}
    (h : WritesIn n s t) (hf : ∀ b, Post Q (StopsIn (WritesIn n s)) (f b)) :
    Post Q (StopsIn (WritesIn n s)) (loadByte t a >>= f) :=
  (loadByte_post fun _ => h).bind fun b _ => hf b

theorem writes_loadBytes {α : Type} {Q : α → Prop} {a k : Nat} {f : List Byte → Except Halt α}
    (h : WritesIn n s t) (hf : ∀ bs, Post Q (StopsIn (WritesIn n s)) (f bs)) :
    Post Q (StopsIn (WritesIn n s)) (loadBytes t a k >>= f) :=
  (loadBytes_post fun _ _ => h).bind fun bs _ => hf bs

/-- An operation of the working state writes no byte of memory. -/
theorem writes_onWork {f : Work → Except Fault Work} (h : WritesIn n s t) :
    WritesPost n s (onWork f t) := by
  refine onWork_post.mono ?_ fun _ hx => hx
  rintro u ⟨w, -, rfl⟩
  exact h.of_eq rfl rfl rfl

end WritesIn

/-! ### The end of a command -/

/-- A command has changed no byte, or its buffers passed R65 and R66 and it has changed bytes of the first `n`
of its destination only, which are in it. -/
def DstOnly (n : Nat) (s t : State) : Prop :=
  WritesIn 0 s t ∨ buffersOk s ∧ n ≤ s.cap ∧ WritesIn n s t

section DstOnly
variable {n : Nat} {s t u : State}

theorem DstOnly.outside (h : DstOnly n s t) (hm : s.mem.wf) : sameOutside s.mem t.mem s.dst n := by
  rcases h with h | ⟨-, -, h⟩
  · exact (h.mono (Nat.zero_le n)).outside hm
  · exact h.outside hm

theorem DstOnly.outside_cap (h : DstOnly n s t) (hm : s.mem.wf) :
    sameOutside s.mem t.mem s.dst s.cap := by
  rcases h with h | ⟨-, hn, h⟩
  · exact (h.mono (Nat.zero_le _)).outside hm
  · exact (h.mono hn).outside hm

/-- The source keeps its bytes, since it shares none with the destination (R66). -/
theorem DstOnly.source (h : DstOnly n s t) (hm : s.mem.wf) :
    t.mem.readRange s.src s.srclen = s.mem.readRange s.src s.srclen := by
  rcases h with h | ⟨⟨-, -, -, -, hdis⟩, hn, h⟩
  · exact Memory.readRange_congr fun x _ _ => h.outside hm x (by omega)
  · exact Memory.readRange_congr fun x h1 h2 => h.outside hm x (by omega)

theorem DstOnly.of_eq (h : DstOnly n s t) (hl : u.latch = t.latch) (hp : u.par = t.par)
    (hm : u.mem = t.mem) : DstOnly n s u :=
  h.imp (·.of_eq hl hp hm) fun ⟨hb, hn, h⟩ => ⟨hb, hn, h.of_eq hl hp hm⟩

/-- What a command's outcome has written is what the command had written when it ended or stopped. -/
theorem dstOnly_outcome {x : Except Halt State} {clear : Err → Regs → Regs}
    (hx : Post (DstOnly n s) (StopsIn (DstOnly n s)) x) (h : outcome clear x = .next t) :
    DstOnly n s t := by
  rcases hx.outcome h with h | ⟨e, u, hu, rfl⟩ | ⟨a, u, hu, rfl⟩
  · exact h
  · exact hu.of_eq rfl rfl rfl
  · exact hu.of_eq rfl rfl rfl

/-- The checks of R65 and R66, before which a command writes nothing. -/
theorem dstOnly_checks {f : Except Halt State}
    (hf : buffersOk s → Post (DstOnly n s) (StopsIn (DstOnly n s)) f) :
    Post (DstOnly n s) (StopsIn (DstOnly n s))
      (rangeCheck s >>= fun _ => overlapCheck s >>= fun _ => f) := by
  have hstop : ∀ x, (∃ d, x = .raised ⟨.param, d⟩ s) → StopsIn (DstOnly n s) x := by
    rintro _ ⟨d, rfl⟩
    exact .inl .refl
  refine (rangeCheck_post.mono (fun _ h => h) hstop).bind fun _ hr =>
    (overlapCheck_post.mono (fun _ h => h) hstop).bind fun _ ho => hf ?_
  obtain ⟨h1, h2, h3, h4⟩ := rangeCheck_eq_ok.1 hr
  exact ⟨h1, h2, h3, h4, overlapCheck_eq_ok.1 ho⟩

end DstOnly

/-! ### ENCODE -/

/-- The counting pass writes no byte, and it completes only where every source byte is plain memory and no
count is above 2^32 - 1. -/
theorem countLoop_post {n a : Nat} {s t : State} (h : WritesIn 0 s t) :
    Post (fun _ => Reachable t.par a n ∧
        ∀ b, (tget t.work.freq b).toNat + (t.mem.readRange a n).count b < 2 ^ 32)
      (StopsIn (WritesIn 0 s)) (countLoop a n t) := by
  induction n generalizing a t with
  | zero => exact ⟨Reachable.zero, fun b => by simpa [Memory.readRange] using (tget t.work.freq b).isLt⟩
  | succ n ih =>
    rw [countLoop]
    refine (loadByte_post fun _ => h).bind fun c ⟨hacc, hc⟩ => ?_
    rw [countByte]
    split_ifs with hfull
    · exact h
    · refine (ih (a := a + 1) (h.of_eq (u := t.setWork (t.work.setFreq
        (tset t.work.freq c (tget t.work.freq c + 1)))) rfl rfl rfl)).mono ?_ fun _ hx => hx
      rintro - ⟨hr, hfit⟩
      refine ⟨?_, fun b => ?_⟩
      · intro x h1 h2
        rcases Nat.eq_or_lt_of_le h1 with rfl | h1
        · exact hacc
        · exact hr x h1 (by omega)
      · have := hfit b
        simp only [State.setWork_work, Work.setFreq_freq, State.setWork_mem, tget_tset] at this
        rw [Memory.readRange, List.count_cons, ← hc]
        by_cases hb : b = c
        · subst hb
          rw [if_pos rfl, toNat_add_one hfull] at this
          simp only [beq_self_eq_true, if_true]
          omega
        · rw [if_neg hb] at this
          simpa [Ne.symm hb] using this

theorem freqCount_post (a n : Nat) (s : State) :
    Post (fun _ => Reachable s.par a n ∧ ∀ b, (s.mem.readRange a n).count b < 2 ^ 32)
      (StopsIn (WritesIn 0 s)) (freqCount a n s) := by
  refine (countLoop_post (a := a) (n := n) (WritesIn.refl.of_eq (s := s)
    (u := s.setWork (s.work.setFreq (Vector.replicate 256 0))) rfl rfl rfl)).mono ?_ fun _ hx => hx
  rintro - ⟨hr, hfit⟩
  exact ⟨hr, fun b => (Nat.le_add_left _ _).trans_lt (hfit b)⟩

/-- Existing bytes that are not all plain memory have a first that is not. -/
theorem exists_first_unbacked {p : Params} {a n : Nat} (he : a + n ≤ 2 ^ p.addrW)
    (h : ¬ Reachable p a n) : ∃ j < n, Reachable p a j ∧ noBacking p (a + j) := by
  induction n with
  | zero => exact absurd Reachable.zero h
  | succ n ih =>
    by_cases hn : Reachable p a n
    · refine ⟨n, by omega, hn, by omega, ?_⟩
      by_contra hb
      refine h fun x h1 h2 => ?_
      by_cases hx : x = a + n
      · exact hx ▸ accessible_iff.2 ⟨by omega, by simpa using hb⟩
      · exact hn x h1 (by omega)
    · obtain ⟨j, hj, hr, hb⟩ := ih (by omega) hn
      exact ⟨j, by omega, hr, hb⟩

theorem refContainer_length (h : Header) (freq : Table Word32) (bits : Bits) :
    (refContainer h freq bits).length =
      30 + 5 * (counted freq).length + (bits.length + 7) / 8 := by
  simp only [refContainer, List.length_append, refTable_length, refPayload_length,
    Header.toBytes_length]

/-- write_container stores the container, or as much of it as lies before a byte without backing. -/
theorem writes_writeContainer {s : State} {cs : Word64} {crc : Word32} {k : BitVec 16} {pad : Byte}
    (hm : s.mem.wf) (hb : buffersOk s) (hsrc : Reachable s.par s.src s.srclen)
    (hk : k.toNat = (counted s.work.freq).length)
    (hcode : ∀ b ∈ sourceBytes s, ∃ c, tget s.work.code b = some c)
    (hfit : 30 + 5 * k.toNat + ((messageBits s.work.code (sourceBytes s)).length + 7) / 8 ≤ s.cap) :
    WritesPost s.cap s (writeContainer cs crc k pad s) := by
  have hlen := refContainer_length (encodeHeader s cs crc k pad) s.work.freq
    (messageBits s.work.code (sourceBytes s))
  rw [← hk] at hlen
  by_cases hdst : Reachable s.par s.dst
      (30 + 5 * k.toNat + ((messageBits s.work.code (sourceBytes s)).length + 7) / 8)
  · obtain ⟨pk, hw, -⟩ := writeContainer_eq (cs := cs) (crc := crc) (pad := pad) hm hb hsrc hk hcode
      hfit hdst
    rw [hw]
    generalize refContainer _ _ _ = c at hlen ⊢
    exact (WritesIn.writeRange (bs := c) (hlen.trans_le hfit)).of_eq rfl rfl rfl
  · obtain ⟨-, -, -, hend, -⟩ := id hb
    obtain ⟨j, hj, hr, hx⟩ := exists_first_unbacked (by omega) hdst
    obtain ⟨w, hw⟩ := writeContainer_stuck (cs := cs) (crc := crc) (pad := pad) hm hb hsrc hk hcode
      hfit hj hr hx
    rw [hw]
    refine (WritesIn.writeRange ?_).of_eq rfl rfl rfl
    rw [List.length_take]
    omega

/-- After the build and generate_codes of a message's counts every byte of it has a code (R181). -/
theorem CodesOk.coded_of_counts {w : Work} {t : Option Tree} {bs : List Byte} (h : CodesOk w t)
    (hc : Counts w.freq bs) : ∀ b ∈ bs, ∃ c, tget w.code b = some c := by
  intro b hb
  refine h.coded_iff.2 fun h0 => ?_
  have := hc b
  rw [h0] at this
  exact absurd this (List.count_pos_iff.2 hb).ne

/-- ENCODE of a message whose counts fit writes no byte before its capacity check, and then the container. -/
theorem writes_encodeCommand {s : State} (hm : s.mem.wf) (hb : buffersOk s)
    (hsrc : Reachable s.par s.src s.srclen) (hfit : ∀ b, (sourceBytes s).count b < 2 ^ 32) :
    WritesPost s.cap s (encodeCommand s) := by
  obtain ⟨t, v, u, tree, hc, -, -, hok, rfl, henc⟩ := encodeCommand_sized hb hsrc hfit
  rw [henc]
  split_ifs with hcap
  · exact WritesIn.refl.of_eq (u := s.setWork u) rfl rfl rfl
  · have hk : (BitVec.ofNat 16 (counted u.freq).length).toNat = (counted u.freq).length := by
      have := counted_length u.freq
      rw [BitVec.toNat_ofNat, Nat.mod_eq_of_lt (by omega)]
    obtain ⟨hcode, hfreq⟩ := crcRun_code (sourceBytes s) (crcInit u)
    change _ = u.code at hcode
    change _ = u.freq at hfreq
    generalize crcRun (sourceBytes s) (crcInit u) = w at hcode hfreq ⊢
    refine (writes_writeContainer (s := s.setWork w) hm hb hsrc ?_ ?_ ?_).mono
      (fun _ h => h.of_setWork) (StopsIn.mono fun _ h => h.of_setWork)
    · rw [State.setWork_work, hfreq, hk]
    · rw [State.setWork_work, hcode]
      exact hok.coded_of_counts hc
    · rw [State.setWork_work, hcode, hk]
      exact Nat.le_of_not_lt hcap

theorem dstOnly_encodeCommand {s : State} (hm : s.mem.wf) :
    Post (DstOnly s.cap s) (StopsIn (DstOnly s.cap s)) (encodeCommand s) := by
  by_cases hgood : buffersOk s ∧ Reachable s.par s.src s.srclen ∧
      ∀ b, (sourceBytes s).count b < 2 ^ 32
  · obtain ⟨hb, hsrc, hfit⟩ := hgood
    exact (writes_encodeCommand hm hb hsrc hfit).mono (fun _ h => .inr ⟨hb, le_rfl, h⟩)
      (StopsIn.mono fun _ h => .inr ⟨hb, le_rfl, h⟩)
  · refine dstOnly_checks fun hb => ?_
    refine ((freqCount_post s.src s.srclen s).mono (fun _ h => h)
      (StopsIn.mono fun _ h => .inl h)).bind fun _ h => ?_
    exact absurd ⟨hb, h⟩ hgood

/-! ### DECODE -/

/-- read_header answers the header at the source (R302). -/
theorem writes_readHeader (s : State) :
    Post (fun p => p.1 = sourceHeader s ∧ WritesIn 0 s p.2) (StopsIn (WritesIn 0 s))
      (readHeader s) := by
  refine (loadBytes_post fun _ _ => WritesIn.refl).bind fun bs hbs => ?_
  have hh : Header.ofBytes bs = sourceHeader s := congrArg Header.ofBytes hbs.2
  dsimp only
  rw [hh]
  generalize sourceHeader s = h
  exact ⟨rfl, WritesIn.refl.of_eq rfl rfl rfl⟩

section Decode
variable {n orig : Nat} {s t : State}

theorem writes_headerCheck (hd : Header) (h : WritesIn n s t) :
    Post (fun _ => True) (StopsIn (WritesIn n s)) (headerCheck hd t) := by
  rw [headerCheck]
  split_ifs
  · exact h
  · exact h
  · exact h
  · trivial

theorem writes_parseEntry (a : Nat) (h : WritesIn n s t) : WritesPost n s (parseEntry a t) := by
  refine writes_loadByte h fun sym => writes_loadBytes h fun bs => ?_
  dsimp only
  split_ifs
  · exact h
  · exact h
  · exact h.of_eq rfl rfl rfl

theorem writes_parseLoop (k a : Nat) (h : WritesIn n s t) : WritesPost n s (parseLoop a k t) := by
  induction k generalizing a t with
  | zero => exact h
  | succ k ih => exact (writes_parseEntry a h).bind fun _ h => ih _ h

theorem writes_parseTable (k : Nat) (h : WritesIn n s t) : WritesPost n s (parseTable k t) := by
  rw [parseTable]
  split_ifs
  · exact h
  · exact h
  · exact writes_parseLoop k _ (h.of_eq rfl rfl rfl)

theorem writes_checkPayloadExtent (k cs pad : Nat) (h : WritesIn n s t) :
    Post (fun _ => True) (StopsIn (WritesIn n s)) (checkPayloadExtent k cs pad t) := by
  rw [checkPayloadExtent]
  split_ifs
  · exact h
  · exact h
  · exact h
  · trivial

/-- A symbol before the last goes to a byte of the output (R310, R311). -/
theorem writes_emitSymbol (sym : Byte) (h : WritesIn orig s t) (he : t.work.wk.emit < orig) :
    Post (fun u => WritesIn orig s u ∧ u.work.wk.emit = t.work.wk.emit + 1)
      (StopsIn (WritesIn orig s)) (emitSymbol sym t) := by
  refine (storeByte_post fun _ => h).bind fun u ⟨_, hu⟩ => ?_
  subst hu
  rw [h.dst]
  exact ⟨(h.write he sym).of_eq rfl rfl rfl, rfl⟩

theorem writes_fillLoop (sym : Byte) (k : Nat) (h : WritesIn orig s t)
    (hk : t.work.wk.emit + k ≤ orig) : WritesPost2 orig s (fillLoop sym k t) := by
  induction k generalizing t with
  | zero => exact h
  | succ k ih =>
    refine (writes_emitSymbol sym h (by omega)).bind fun u ⟨hu, hemit⟩ => ?_
    exact (ih hu (by omega)).bind fun _ hp => hp

theorem writes_throwCorrupt {α : Type} {Q : α → Prop} (k : ErrKind) (d : Byte)
    (h : WritesIn orig s t) :
    Post Q (StopsIn (WritesIn orig s)) (throwCorrupt (α := α) k d orig t) := h.scramble

theorem writes_walkBit (b : Bool) (h : WritesIn orig s t) (he : t.work.wk.emit < orig) :
    WritesPost2 orig s (walkBit b t) := by
  rw [walkBit]
  split
  · trivial
  · trivial
  · dsimp only
    split
    · trivial
    · exact h.of_eq rfl rfl rfl
    · refine (writes_emitSymbol _ h he).bind fun u ⟨hu, _⟩ => ?_
      split
      · trivial
      · exact hu.of_eq rfl rfl rfl

theorem writes_upReadBit (h : WritesIn n s t) :
    Post (fun p => WritesIn n s p.2 ∧ p.2.work.wk.emit = t.work.wk.emit) (StopsIn (WritesIn n s))
      (upReadBit t) := by
  rw [upReadBit]
  split_ifs
  · exact ⟨h, rfl⟩
  · exact writes_loadByte h fun v => ⟨h.of_eq rfl rfl rfl, rfl⟩

/-- The walk writes a byte only while fewer than `orig` are written (R311). -/
theorem writes_walkLoop (k : Nat) (h : WritesIn orig s t) :
    WritesPost2 orig s (walkLoop orig k t) := by
  induction k generalizing t with
  | zero =>
    rw [walkLoop]
    split_ifs
    · exact writes_throwCorrupt _ _ h
    · exact h
  | succ k ih =>
    rw [walkLoop]
    split_ifs with he
    · refine (writes_upReadBit h).bind fun ⟨b, u⟩ ⟨hu, hemit⟩ => ?_
      cases b with
      | none => exact writes_throwCorrupt _ _ hu
      | some b =>
        exact (writes_walkBit b hu (hemit ▸ he)).bind fun _ hp => (ih hp).bind fun _ hq => hq
    · exact h

theorem writes_walk (base len : Nat) (h : WritesIn orig s t) :
    WritesPost2 orig s (walk base len orig t) := by
  rw [walk]
  split
  · trivial
  · rename_i r _
    have hstart : WritesIn orig s (t.setWork ((upInit base len t.work).setWk ⟨r, 0⟩)) :=
      h.of_eq rfl rfl rfl
    refine (writes_walkLoop len hstart).bind fun p hp => ?_
    dsimp only
    split_ifs
    · exact writes_throwCorrupt _ _ hp
    · exact hp

theorem writes_emitOutput (base len : Nat) (h : WritesIn orig s t) :
    WritesPost2 orig s (emitOutput base len orig t) := by
  rw [emitOutput]
  split
  · exact h
  · split
    · trivial
    · exact writes_fillLoop _ orig (h.of_eq rfl rfl rfl) (Nat.zero_add orig).le
    · exact writes_walk base len h

theorem writes_verifyOutput (out : List Byte) (crc : Word32) (h : WritesIn orig s t) :
    WritesPost orig s (verifyOutput out crc orig t) := by
  rw [verifyOutput_eq]
  dsimp only
  split_ifs
  · exact h.of_eq rfl rfl rfl
  · exact writes_throwCorrupt (α := State) _ _ (h.of_eq rfl rfl rfl)
  · exact h.of_eq rfl rfl rfl

end Decode

/-- DECODE writes nothing before R309 has passed, and then bytes of its output only. -/
theorem dstOnly_decodeContainer {s : State} (hb : buffersOk s) :
    Post (DstOnly (sourceHeader s).originalSize.toNat s)
      (StopsIn (DstOnly (sourceHeader s).originalSize.toNat s)) (decodeContainer s) := by
  have hread := writes_readHeader s
  generalize sourceHeader s = h at hread ⊢
  have hstop : ∀ x, StopsIn (WritesIn 0 s) x → StopsIn (DstOnly h.originalSize.toNat s) x :=
    StopsIn.mono fun _ h => .inl h
  refine (hread.mono (fun _ h => h) hstop).bind fun ⟨hd, t⟩ ⟨hh, ht⟩ => ?_
  dsimp only at hh ht
  subst hh
  refine ((writes_headerCheck _ ht).mono (fun _ h => h) hstop).bind fun _ _ => ?_
  refine ((writes_parseTable _ ht).mono (fun _ h => h) hstop).bind fun u hu => ?_
  refine ((writes_checkPayloadExtent _ _ _ hu).mono (fun _ h => h) hstop).bind fun len _ => ?_
  refine ((writes_onWork hu).mono (fun _ h => h) hstop).bind fun v hv => ?_
  dsimp only
  split_ifs with hempty hcap
  · exact .inl hv
  · exact .inl hv
  · have hfits : hd.originalSize.toNat ≤ s.cap := hv.cap ▸ Nat.le_of_not_lt hcap
    refine Post.mono ?_ (fun _ h => .inr ⟨hb, hfits, h⟩) (StopsIn.mono fun _ h => .inr ⟨hb, hfits, h⟩)
    exact (writes_emitOutput _ len (hv.mono (Nat.zero_le _))).bind fun p hp =>
      (writes_verifyOutput p.1 _ hp).bind fun _ hw => hw.of_eq rfl rfl rfl

theorem dstOnly_decodeCommand (s : State) :
    Post (DstOnly (sourceHeader s).originalSize.toNat s)
      (StopsIn (DstOnly (sourceHeader s).originalSize.toNat s)) (decodeCommand s) := by
  refine dstOnly_checks fun hb => ?_
  split_ifs
  · exact .inl .refl
  · exact dstOnly_decodeContainer hb

/-- Settles O56: NOP and an illegal word write nothing, ENCODE by `dstOnly_encodeCommand`, DECODE by
`dstOnly_decodeCommand`. -/
theorem commandsWriteOnlyDst : Obligations.CommandsWriteOnlyDst := by
  intro s t w hm ht
  rcases decodeWord_cases w with hw | hw | hw | ⟨k, hw⟩ <;> rw [hw] at ht ⊢
  · cases ht
    exact ⟨fun _ _ => rfl, rfl, fun _ _ _ => rfl⟩
  · cases ht
    exact ⟨fun _ _ => rfl, rfl, fun _ _ _ => rfl⟩
  · have h := dstOnly_outcome (dstOnly_encodeCommand hm) ht
    exact ⟨h.outside hm, h.source hm, fun ⟨_, hk⟩ => by cases hk⟩
  · have h := dstOnly_outcome (dstOnly_decodeCommand (s.setVerify (!k))) ht
    exact ⟨h.outside_cap hm, h.source hm, fun _ => sourceHeader_setVerify s (!k) ▸ h.outside hm⟩

end Sys2Proof.Machine

/-! SUPPORT. The core stuck at a byte that is not plain memory (20_memory.md R67): each instruction's outcome
where Laws/Stuck.lean says that its operation is stuck, and what the host's moves then leave. -/

namespace Sys2Proof.Machine

/-- An instruction makes the core stuck only at a byte that exists and is not plain memory, and leaves PHASE
and STATUS. -/
theorem exec_stuck {i : Instr} {s t : State} {a : Nat} (hs : s.stuck = none)
    (h : exec i s = .next t) (ha : t.stuck = some a) :
    noBacking s.par a ∧ t.phase = s.phase ∧ t.regs.status = s.regs.status := by
  rcases (exec_after h).stuck with hst | ⟨b, hb, hrest⟩
  · rw [hst, hs] at ha
    cases ha
  · rw [ha] at hb
    cases hb
    exact hrest

section Operations
variable {s : State}

/-! ### The packer and the unpacker -/

section Packer
variable (h : noBacking s.par (s.work.pk.base + s.work.pk.out))
include h

theorem exec_pkEmit_stuck (v : Byte) : exec (.pkEmit v) s =
    .next (stuckState s s.work s.mem (s.work.pk.base + s.work.pk.out)) :=
  congrArg (outcome clearEncode) (pkEmit_stuck h)

/-- The eighth bit's byte. -/
theorem exec_pkWriteBit_stuck (b : Bool) (hc : s.work.pk.cnt + 1 = 8) :
    exec (.pkWriteBit b) s =
      .next (stuckState s s.work s.mem (s.work.pk.base + s.work.pk.out)) := by
  have hbit : pkWriteBit b s = .error (.stuck (s.work.pk.base + s.work.pk.out) s) := by
    rw [pkWriteBit]
    simp only [hc, if_true]
    rw [pkEmit_stuck h]
    rfl
  exact congrArg (outcome clearEncode) hbit

/-- The first byte that the bits fill. -/
theorem exec_pkWriteBits_stuck {bits : BitsOperand} (hok : PackerOk s)
    (hlen : 8 ≤ s.work.pk.cnt + (bitsOf bits).length) : ∃ w, exec (.pkWriteBits bits) s =
      .next (stuckState s w s.mem (s.work.pk.base + s.work.pk.out)) := by
  obtain ⟨p, hp⟩ := hok.holds
  have hcount := packBytes_count (bits := bitsOf bits) hp.lt
  have hpend := packBytes_pending (bits := bitsOf bits) hp.lt
  rw [hp.cnt] at hlen
  obtain ⟨x, hx⟩ := pkWriteBits_stuck (bits := bitsOf bits) (j := 0) hp (by omega) Reachable.zero h
  exact ⟨s.work.setPk x, congrArg (outcome clearEncode) hx⟩

theorem exec_pkFlush_stuck (hc : 0 < s.work.pk.cnt) : ∃ w, exec .pkFlush s =
    .next (stuckState s w s.mem (s.work.pk.base + s.work.pk.out)) :=
  ⟨_, congrArg (outcome clearEncode) (pkFlush_stuck hc h)⟩

end Packer

theorem exec_upReadBit_stuck (h : noBacking s.par (s.work.up.base + s.work.up.pos / 8))
    (hpos : s.work.up.pos ≠ s.work.up.len) : exec .upReadBit s =
      .next (stuckState s s.work s.mem (s.work.up.base + s.work.up.pos / 8)) := by
  have hbit : upReadBit s = .error (.stuck (s.work.up.base + s.work.up.pos / 8) s) := by
    rw [upReadBit, if_neg hpos, loadByte_stuck h]
    rfl
  rw [exec, execUpReadBit, hbit]
  rfl

/-! ### The header and the table (R302, R306) -/

section Source
variable {j : Nat}

theorem readHeader_stuck (hj : j < 30) (hr : Reachable s.par s.src j)
    (hb : noBacking s.par (s.src + j)) : readHeader s = .error (.stuck (s.src + j) s) := by
  rw [readHeader, loadBytes_stuck hj hr hb]
  rfl

theorem exec_readHeader_stuck (hj : j < 30) (hr : Reachable s.par s.src j)
    (hb : noBacking s.par (s.src + j)) :
    exec .readHeader s = .next (stuckState s s.work s.mem (s.src + j)) := by
  rw [exec, execReadHeader, readHeader_stuck hj hr hb]
  rfl

theorem exec_decode_stuck_header (skip : Bool) (hj : j < 30) (hr : Reachable s.par s.src j)
    (hb : noBacking s.par (s.src + j)) (hok : buffersOk s) (hlen : 30 ≤ s.srclen) :
    exec (.decode skip) s = .next { stuckState s s.work s.mem (s.src + j) with
      latch := { s.latch with verify := !skip } } := by
  have hcmd : decodeCommand (s.setVerify (!skip)) =
      .error (.stuck (s.src + j) (s.setVerify (!skip))) := by
    obtain ⟨hrange, hover⟩ := checks_ok ((buffersOk_setVerify s (!skip)).2 hok)
    rw [decodeCommand, hrange, ok_bind, hover, ok_bind, State.setVerify_srclen,
      if_neg (Nat.not_lt.2 hlen), decodeContainer, readHeader_stuck (s := s.setVerify (!skip)) hj hr hb]
    rfl
  exact congrArg (outcome clearDecode) hcmd

theorem exec_freqCount_stuck {src srclen : Word64} (hj : j < srclen.toNat)
    (hr : Reachable s.par src.toNat j) (hb : noBacking s.par (src.toNat + j))
    (hfit : ∀ b, (s.mem.readRange src.toNat j).count b < 2 ^ 32) :
    ∃ w, exec (.freqCount src srclen) s = .next (stuckState s w s.mem (src.toNat + j)) := by
  obtain ⟨t, ht⟩ := freqCount_stuck hj hr hb hfit
  exact ⟨s.work.setFreq t, congrArg (outcome clearEncode) ht⟩

theorem exec_parseTable_stuck {k : BitVec 16} (hk : k.toNat ≤ 256)
    (hlen : 30 + 5 * k.toNat ≤ s.srclen) (hj : j < 5 * k.toNat)
    (hr : Reachable s.par (s.src + 30) j) (hb : noBacking s.par (s.src + 30 + j))
    (hok : tableOk (storedEntries s.mem (s.src + 30) (j / 5))) :
    ∃ w, exec (.parseTable k) s = .next (stuckState s w s.mem (s.src + 30 + j)) := by
  obtain ⟨w, hw⟩ := parseTable_stuck hk hlen hj hr hb hok
  exact ⟨w, congrArg (outcome clearDecode) hw⟩

/-! ### ENCODE (R260, R270) -/

theorem exec_encode_stuck_source (hok : buffersOk s) (hj : j < s.srclen)
    (hr : Reachable s.par s.src j) (hb : noBacking s.par (s.src + j))
    (hfit : ∀ b, (s.mem.readRange s.src j).count b < 2 ^ 32) :
    ∃ w, exec .encode s = .next (stuckState s w s.mem (s.src + j)) := by
  obtain ⟨t, ht⟩ := freqCount_stuck hj hr hb hfit
  have hcmd : encodeCommand s = .error (.stuck (s.src + j) (s.setWork (s.work.setFreq t))) := by
    obtain ⟨hrange, hover⟩ := checks_ok hok
    rw [encodeCommand, hrange, ok_bind, hover, ok_bind, ht]
    rfl
  exact ⟨_, congrArg (outcome clearEncode) hcmd⟩

theorem exec_encode_stuck_dest {freq : Table Word32} {code : Table (Option Bits)} {size : Nat}
    (hm : s.mem.wf) (hok : buffersOk s) (hsrc : Reachable s.par s.src s.srclen)
    (hf : Counts freq (sourceBytes s)) (hc : isCodeTable freq code)
    (hsize : size = 30 + 5 * (refLeaves freq).length +
      ((messageBits code (sourceBytes s)).length + 7) / 8)
    (hcap : size ≤ s.cap) (hj : j < size) (hr : Reachable s.par s.dst j)
    (hb : noBacking s.par (s.dst + j)) :
    ∃ w m, exec .encode s = .next (stuckState s w m (s.dst + j)) ∧ sameOutside s.mem m s.dst j := by
  obtain ⟨c, w, hw, hlen⟩ := encodeCommand_stuck hm hok hsrc hf hc hsize hcap hj hr hb
  exact ⟨w, _, congrArg (outcome clearEncode) hw, (WritesIn.writeRange hlen).outside hm⟩

theorem exec_writeContainer_stuck {cs : Word64} {crc : Word32} {k : BitVec 16} {pad : Byte}
    {h : Header} {c : List Byte} (hm : s.mem.wf) (hok : buffersOk s)
    (hsrc : Reachable s.par s.src s.srclen) (hcode : coded s.work.code (sourceBytes s))
    (hk : k.toNat = (refLeaves s.work.freq).length) (hh : h = encodeHeader s cs crc k pad)
    (hc : c = refContainer h s.work.freq (messageBits s.work.code (sourceBytes s)))
    (hcap : c.length ≤ s.cap) (hj : j < c.length) (hr : Reachable s.par s.dst j)
    (hb : noBacking s.par (s.dst + j)) : ∃ w, exec (.writeContainer cs crc k pad) s =
      .next (stuckState s w (s.mem.writeRange s.dst (c.take j)) (s.dst + j)) := by
  rw [refLeaves_length] at hk
  have hlen := congrArg List.length hc
  rw [refContainer_length, ← hk] at hlen
  obtain ⟨w, hw⟩ := writeContainer_stuck (cs := cs) (crc := crc) (pad := pad) hm hok hsrc hk
    (coded_iff.1 hcode) (hlen ▸ hcap) (hlen ▸ hj) hr hb
  rw [← hh, ← hc] at hw
  exact ⟨w, congrArg (outcome clearEncode) hw⟩

end Source

/-! ### The walk and DECODE's output (R310, R311) -/

section Output
variable {base len : Nat} {orig : Word64} {code : Table (Option Bits)} {b : Byte} {p rest : Bits}

theorem exec_walk_stuck_source (hbuilt : isBuilt s.work) (h2 : 2 ≤ (refLeaves s.work.freq).length)
    (horig : 0 < orig.toNat) (hlen : 0 < len) (hb : noBacking s.par base) :
    ∃ w, exec (.walk base len orig) s = .next (stuckState s w s.mem base) := by
  obtain ⟨r, tl, tr, hroot, -, -⟩ := isBuilt_node hbuilt h2
  obtain ⟨w, hw⟩ := walk_stuck_source hroot hlen horig hb
  refine ⟨w, ?_⟩
  rw [exec, execWalk, hw]
  rfl

theorem exec_walk_stuck_dest (hbuilt : isBuilt s.work) (h2 : 2 ≤ (refLeaves s.work.freq).length)
    (hc : isCodeTable s.work.freq code) (horig : 0 < orig.toNat) (hp : tget code b = some p)
    (hs : streamBits s.mem base 0 len = p ++ rest)
    (hacc : Reachable s.par base ((p.length + 7) / 8)) (hb : noBacking s.par s.dst) :
    ∃ w, exec (.walk base len orig) s = .next (stuckState s w s.mem s.dst) := by
  obtain ⟨r, tl, tr, hroot, htree, -⟩ := isBuilt_node hbuilt h2
  have hpath : (b, p) ∈ (Tree.node tl tr).paths [] := by
    have := (hc b p).1 hp
    rwa [← hbuilt.1, ← hbuilt.2, hroot, isCodeOf_iff htree] at this
  obtain ⟨w, hw⟩ := walk_stuck_dest hroot htree hpath hs horig hacc hb
  refine ⟨w, ?_⟩
  rw [exec, execWalk, hw]
  rfl

/-- DECODE stuck at `a` after it has reported the header (R302). -/
abbrev decodeStuck (s : State) (skip : Bool) (w : Work) (a : Nat) : State :=
  { stuckState s w s.mem a with
    regs := { s.regs with
      hdrOrig := (sourceHeader s).originalSize
      hdrComp := (sourceHeader s).compressedSize
      hdrMisc := refMisc (sourceHeader s) }
    latch := { s.latch with verify := !skip } }

theorem outcome_stuck_decodedAt (skip : Bool) (v w : Work) (a : Nat) :
    outcome clearDecode (.error (.stuck a ((decodedAt (s.setVerify (!skip)) v).setWork w))) =
      .next (decodeStuck s skip w a) := by
  rw [decodeStuck, decodedAt, sourceHeader_setVerify, ← Header.misc_eq]
  generalize sourceHeader s = h
  rfl

/-- R310 with its first output byte not backed. -/
theorem fillLoop_stuck {sym : Byte} {n : Nat} (hn : 0 < n)
    (hb : noBacking s.par (s.dst + s.work.wk.emit)) :
    fillLoop sym n s = .error (.stuck (s.dst + s.work.wk.emit) s) := by
  cases n with
  | zero => exact absurd hn (lt_irrefl 0)
  | succ n =>
    rw [fillLoop, emitSymbol, storeByte_stuck hb]
    rfl

/-- DECODE of one or more symbols with its first output byte not backed. -/
theorem exec_decode_stuck_dest {freq : Table Word32} (skip : Bool) (hok : buffersOk s)
    (hsrc : Reachable s.par s.src s.srclen) (hcont : containerOk s)
    (hf : IsTableOf freq (sourceEntries s)) (hc : isCodeTable freq code)
    (horig : 0 < (sourceHeader s).originalSize.toNat)
    (hcap : (sourceHeader s).originalSize.toNat ≤ s.cap) (hb : noBacking s.par s.dst)
    (hout : (sourceEntries s).length = 1 ∨
      2 ≤ (sourceEntries s).length ∧ tget code b = some p ∧ sourceStream s = p ++ rest) :
    ∃ w, exec (.decode skip) s = .next (decodeStuck s skip w s.dst) := by
  rcases hout with h1 | ⟨h2, hp, hs⟩
  · obtain ⟨e, he⟩ := List.length_eq_one_iff.1 h1
    obtain ⟨v, hv⟩ := decode_fills (skip := skip) hok hsrc hcont he hcap
    have hfill := fillLoop_stuck (sym := e.1) horig
      (s := (decodedAt (s.setVerify (!skip)) v).setWork (v.setWk ⟨v.wk.node, 0⟩)) (by simpa using hb)
    simp only [State.setWork_dst, decodedAt_dst, State.setVerify_dst, State.setWork_work,
      Work.setWk_wk, Nat.add_zero] at hfill
    exact ⟨_, by rw [hv, hfill, error_bind, outcome_stuck_decodedAt]⟩
  · obtain ⟨v, r, tl, tr, hv, hroot, htree, hcodes, hacc⟩ :=
      decode_walks (skip := skip) hok hsrc hcont hf h2 hc hcap
    have hlen : p.length ≤ sourceL s := by
      have := congrArg List.length hs
      rw [sourceStream, streamBits_length, List.length_append] at this
      omega
    obtain ⟨w, hw⟩ := walk_stuck_dest (s := decodedAt (s.setVerify (!skip)) v)
      (base := sourcePayload s) (len := sourceL s) (by rwa [decodedAt_work])
      (by rwa [decodedAt_work]) ((hcodes b p).1 hp) (by rwa [decodedAt_mem]) horig
      (by rw [decodedAt_par]; exact hacc.sub le_rfl (by omega))
      (by rw [decodedAt_par, decodedAt_dst]; exact hb)
    rw [decodedAt_dst, State.setVerify_dst] at hw
    exact ⟨w, by rw [hv, hw, error_bind, outcome_stuck_decodedAt]⟩

end Output

end Operations

/-! ### A stuck core and the host -/

/-- While BUSY no host move but the reset changes PHASE, STATUS or where the core is stuck. -/
theorem HostMoved.busy {op : HostOp} {s t : State} (h : HostMoved op s t) (hb : s.phase = .busy)
    (hop : op ≠ .reset) : t.phase = .busy ∧ t.stuck = s.stuck ∧ t.regs.status = s.regs.status := by
  cases h with
  | write r v q =>
    rw [writeReg_busy (s := s.setInbox q) hb]
    exact ⟨hb, rfl, rfl⟩
  | read r var q =>
    obtain ⟨n, o, he⟩ := observeReg_eq r var (s.setInbox q)
    rw [he]
    exact ⟨hb, rfl, rfl⟩
  | store => exact ⟨hb, rfl, rfl⟩
  | load => exact ⟨hb, rfl, rfl⟩
  | reset q hr => exact absurd hr hop

/-- A stuck core makes no step: only the host moves (R67). -/
theorem step_stuck {s : State} (h : s.stuck ≠ none) : step s = hostTurn s := by
  rw [step, if_neg fun hc => h (coreTurn_iff.1 hc).2.2]

theorem stuck_stays {s t : State} (hb : s.phase = .busy) (hs : s.stuck ≠ none)
    (hin : ∀ rest, s.inbox ≠ .reset :: rest) (h : step s = .next t) :
    t.phase = .busy ∧ t.stuck = s.stuck ∧ t.regs.status = s.regs.status := by
  rw [step_stuck hs, hostTurn] at h
  split at h
  · cases h
    exact ⟨hb, rfl, rfl⟩
  · rename_i op rest hop
    exact (hostMove_moved h).busy hb fun hr => hin rest (hr ▸ hop)

/-- Settles O7: clause by clause, each instruction's outcome by the lemma that says where it is stuck, and what
a stuck core then does by `stuck_stays`. -/
theorem unbackedByteIsStuck : Obligations.UnbackedByteIsStuck := by
  refine ⟨fun _ _ _ _ => exec_stuck, ?_, ?_, ?_, fun _ _ _ _ => exec_freqCount_stuck,
    fun _ _ _ => exec_parseTable_stuck, fun _ _ _ _ _ _ _ _ => exec_writeContainer_stuck,
    fun _ _ => exec_encode_stuck_source, fun _ _ _ _ _ => exec_encode_stuck_dest,
    fun _ _ _ _ _ _ _ _ hbuilt h2 hc horig =>
      ⟨exec_walk_stuck_source hbuilt h2 horig, exec_walk_stuck_dest hbuilt h2 hc horig⟩,
    fun _ skip _ _ _ _ _ => exec_decode_stuck_dest skip, fun _ _ => stuck_stays⟩
  · rintro s _ rfl h
    refine ⟨exec_pkEmit_stuck h, fun b hc => ⟨_, exec_pkWriteBit_stuck h b hc⟩,
      fun bits c v k hok hbits hlen => exec_pkWriteBits_stuck h hok ?_, exec_pkFlush_stuck h⟩
    rcases hbits with ⟨rfl, rfl⟩ | rfl
    · exact hlen
    · rwa [bitsOf, msbFirst_length]
  · rintro s _ rfl h hpos
    exact exec_upReadBit_stuck h hpos
  · intro s j hj hr hb
    exact ⟨exec_readHeader_stuck hj hr hb,
      fun skip hok hlen => exec_decode_stuck_header skip hj hr hb hok hlen⟩

end Sys2Proof.Machine

/-! SUPPORT. The statements of 30_encoding.md: the command words, the header as a decoder reads it, the packed
stream, and POLL. -/

namespace Sys2Proof.Machine

/-! ### The command words (R90 to R94, R113, R353) -/

/-- The decoder reads a word from its 8 little-endian bytes, and leaves the bytes that follow (R90). -/
theorem decode_leBytes (w : Word64) (rest : List Byte) :
    decode (leBytes 8 w.toNat ++ rest) = .ok (decodeWord w, rest) :=
  congrArg (fun v => Except.ok (decodeWord v, rest)) (leValue_leBytes_word w 8 (by norm_num))

/-- R94: the commands, and no internal operation, have a command word. -/
theorem encode_isSome_iff {i : Instr} : (encode i).isSome = true ↔
    i = .nop ∨ i = .encode ∨ (∃ k, i = .decode k) ∨ ∃ w, i = .illegalCommand w := by
  rw [encode, Option.isSome_map]
  cases i <;> simp [encodeWord]

/-- The instruction of an illegal word is well-formed exactly when R93 refuses the word. -/
theorem illegalCommand_wf_iff {w : Word64} : (Instr.illegalCommand w).wf = true ↔
    (cmdBadOpcode w || cmdBadReserved w) = true := by
  refine ⟨fun hw => (Laws.Encoded.illegalCommand w hw w rfl).2 ⟨w, rfl⟩, fun hbad => ?_⟩
  rw [Instr.wf, decide_eq_true_eq]
  refine ⟨?_, ?_, ?_, ?_⟩ <;> rintro rfl <;> exact absurd hbad (by decide)

/-- Dispatch of an instruction's command word gives the instruction back. -/
theorem decodeWord_encodeWord {i : Instr} {w : Word64} (hwf : i.wf = true) (h : encodeWord i = some w) :
    decodeWord w = i := by
  have hcmd : (encode i).isSome = true := by rw [encode, h]; rfl
  rcases encode_isSome_iff.1 hcmd with rfl | rfl | ⟨k, rfl⟩ | ⟨v, rfl⟩ <;> cases h
  · decide
  · decide
  · cases k <;> decide
  · exact decodeWord_bad (illegalCommand_wf_iff.1 hwf)

/-- Settles O10: the commands by `encode_isSome_iff`, their bytes by `decode_leBytes` and
`decodeWord_encodeWord`. -/
theorem decodeEncodeAgree : Obligations.DecodeEncodeAgree := by
  intro i hwf
  refine ⟨encode_isSome_iff, fun bs rest h => ?_⟩
  obtain ⟨w, hw, rfl⟩ := Option.map_eq_some_iff.1 h
  exact ⟨leBytes_length 8 _, by rw [decode_leBytes, decodeWord_encodeWord hwf hw]⟩

/-- Settles O11: a word that R93 refuses is its own operand, and the others are the four of `legal_words`. -/
theorem encodeDecodeAgree : Obligations.EncodeDecodeAgree := by
  intro w
  rw [← and_assoc]
  refine ⟨?_, by simpa using decode_leBytes w []⟩
  cases hbad : cmdBadOpcode w || cmdBadReserved w with
  | true => rw [decodeWord_bad hbad]; exact ⟨illegalCommand_wf_iff.2 hbad, rfl⟩
  | false => rcases legal_words hbad with rfl | rfl | rfl | rfl <;> decide

/-- A word is dispatched to illegal_command exactly when R93 refuses it. -/
theorem decodeWord_illegal_iff {w : Word64} : (∃ v, decodeWord w = .illegalCommand v) ↔
    (cmdBadOpcode w || cmdBadReserved w) = true := by
  rw [decodeWord]
  split_ifs with hbad <;> simp [hbad]

/-- Settles O12: R93's two checks, as numbers. -/
theorem illegalWordsExactly : Obligations.IllegalWordsExactly := by
  intro w
  rw [decodeWord_illegal_iff, Bool.or_eq_true, cmdBadOpcode_iff, cmdBadReserved_iff]

/-- Settles O9, word by word. -/
theorem commandWords : Obligations.CommandWords := by
  refine ⟨?_, ?_, ?_, ?_, ?_, ?_, ?_, ?_, ?_⟩ <;> rfl

/-! ### The header (R96, R97, R302) -/

/-- R97: a field of the 30 bytes at an address, whose register holds it whole, is the sum of its bytes. -/
theorem toNat_headerField (m : Memory) (a o n : Nat) {k : Nat} (ho : o + n ≤ 30) (hk : 256 ^ n ≤ 2 ^ k) :
    (BitVec.ofNat k (field (m.readRange a 30) o n)).toNat =
      ((List.range n).map fun i => (m.read (a + (o + i))).toNat * 2 ^ (8 * i)).sum := by
  rw [field_readRange m a 30 o n ho, BitVec.toNat_ofNat,
    Nat.mod_eq_of_lt ((leValue_readRange_lt m (a + o) n).trans_le hk), leValue_readRange]
  simp only [Nat.add_assoc]

/-- R97 writes the fields of two and of four bytes out. -/
theorem sum_two_bytes (y : Nat → Nat) :
    ((List.range 2).map fun i => y i * 2 ^ (8 * i)).sum = y 0 + 2 ^ 8 * y 1 := by
  simp only [List.sum_range_succ, List.range_zero, List.map_nil, List.sum_nil]
  ring

theorem sum_four_bytes (y : Nat → Nat) : ((List.range 4).map fun i => y i * 2 ^ (8 * i)).sum =
    y 0 + 2 ^ 8 * y 1 + 2 ^ 16 * y 2 + 2 ^ 24 * y 3 := by
  simp only [List.sum_range_succ, List.range_zero, List.map_nil, List.sum_nil]
  ring

/-- read_header as an instruction: the header is its result and sets the header registers (R302). -/
theorem exec_readHeader_eq {s : State} (hr : Reachable s.par s.src 30) :
    exec .readHeader s = .next { s with
      ret := .header (sourceHeader s)
      regs := { s.regs with
        hdrOrig := (sourceHeader s).originalSize
        hdrComp := (sourceHeader s).compressedSize
        hdrMisc := refMisc (sourceHeader s) } } := by
  rw [← Header.misc_eq, exec, execReadHeader, readHeader_eq hr, ← sourceHeader]
  generalize sourceHeader s = h
  rfl

/-- Settles O40: the outcome by `exec_readHeader_eq`, each field's bytes by `toNat_headerField`.
(`readHeader` is the model's operation.) -/
theorem readHeader_assembles_fields : Obligations.ReadHeader := by
  intro s hr
  refine ⟨sourceHeader s, exec_readHeader_eq hr, fun x hx => ?_⟩
  have hfield : ∀ o n k, o + n ≤ 30 → 256 ^ n ≤ 2 ^ k →
      (BitVec.ofNat k (field (s.mem.readRange s.src 30) o n)).toNat =
        ((List.range n).map fun i => x (o + i) * 2 ^ (8 * i)).sum := by
    intro o n k ho hk
    simp only [hx, toNat_headerField s.mem s.src o n ho hk]
  simp only [sourceHeader, Header.ofBytes]
  refine ⟨?_, ?_, ?_, ?_, ?_, ?_, ?_, ?_⟩
  · rw [hfield 0 4 32 (by norm_num) (by norm_num), sum_four_bytes]
  · rw [hfield 4 2 16 (by norm_num) (by norm_num), sum_two_bytes]
  · exact hfield 6 8 64 (by norm_num) (by norm_num)
  · exact hfield 14 8 64 (by norm_num) (by norm_num)
  · exact hfield 22 4 32 (by norm_num) (by norm_num)
  · rw [hfield 26 2 16 (by norm_num) (by norm_num), sum_two_bytes]
  · simpa using hfield 28 1 8 (by norm_num) (by norm_num)
  · simpa using hfield 29 1 8 (by norm_num) (by norm_num)

/-! ### The packed stream (R107, R200 to R205) -/

/-- Code strings one after the other are written as one bit string (R203). -/
theorem pkWriteBits_append (bs cs : Bits) (s : State) :
    pkWriteBits (bs ++ cs) s = pkWriteBits bs s >>= pkWriteBits cs := by
  induction bs generalizing s with
  | nil => rfl
  | cons b bs ih =>
    rw [List.cons_append, pkWriteBits, pkWriteBits]
    cases pkWriteBit b s with
    | error => rfl
    | ok t => exact ih t

theorem runAll_cons {i : Instr} {is : List Instr} {s t : State} (h : exec i s = .next t) :
    runAll (i :: is) s = runAll is t := by
  rw [runAll, h]

/-- pk_write_bits of each code string leaves what one pk_write_bits of all their bits leaves. -/
theorem runAll_writeCodes {codes : List Bits} {is : List Instr} {s t : State}
    (h : pkWriteBits codes.flatten s = .ok t) :
    runAll (codes.map (fun c => .pkWriteBits (.code c)) ++ is) s = runAll is t := by
  induction codes generalizing s with
  | nil => cases h; rfl
  | cons c codes ih =>
    rw [List.flatten_cons, pkWriteBits_append] at h
    obtain ⟨u, hc, hu⟩ := bind_eq_ok.1 h
    have hexec : exec (.pkWriteBits (.code c)) s = .next u := congrArg (outcome clearEncode) hc
    exact (runAll_cons hexec).trans (ih hu)

/-- From an empty packer on, the bits of the last, incomplete byte are pending (R206). -/
theorem length_pending_mod (bits : Bits) : (packBytes [] bits).2.length = bits.length % 8 := by
  have hcount := packBytes_count (p := []) (bits := bits) (by simp)
  have hpend := packBytes_pending (p := []) (bits := bits) (by simp)
  rw [List.length_nil] at hcount
  omega

/-- The bits from a fresh packer on, and the flush, as one store of the packed bytes (R205). -/
theorem packStream_eq {s : State} {base : Nat} {bits : Bits}
    (hr : Reachable s.par base (packed bits).length) :
    ∃ t, pkWriteBits bits (s.setWork (pkInit base s.work)) = .ok t ∧
      pkFlush t = .ok ((s.setMem (s.mem.writeRange base (packed bits))).setPk
        ⟨base, 0, 0, (bits.length + 7) / 8, (8 - bits.length % 8) % 8⟩) := by
  have hlen := packed_length bits
  have hpend := packBytes_pending (p := []) (bits := bits) (by simp)
  rw [packed, List.length_append] at hlen hr
  have hfresh : Holds (s.setWork (pkInit base s.work)) [] := ⟨rfl, rfl, by simp⟩
  have hpk : (s.setWork (pkInit base s.work)).work.pk = ⟨base, 0, 0, 0, 0⟩ := rfl
  have hwrite := pkWriteBits_eq (bits := bits) hfresh
    (hr.sub (by rw [hpk, Nat.add_zero]) (by rw [hpk]; simp))
  simp only [hpk, Nat.add_zero, Nat.zero_add] at hwrite
  refine ⟨_, hwrite, ?_⟩
  rw [pkFlush_eq (p := (packBytes [] bits).2) (by exact ⟨rfl, rfl, hpend⟩)
    (by exact hr.sub (by simp) (by simp [Nat.add_assoc]))]
  simp only [← length_pending_mod, ← hlen, packed, Memory.writeRange_append]
  rfl

/-- Settles O30: the run is one store of the packed bytes (`packStream_eq`), whose bits are the strings'
(`packed_bit`). -/
theorem packedStream : Obligations.PackedStream := by
  intro s base codes hwf hr
  have hlen := packed_length codes.flatten
  rw [← hlen] at hr ⊢
  obtain ⟨t, hwrite, hflush⟩ := packStream_eq hr
  refine ⟨s.mem.writeRange base (packed codes.flatten), ?_, fun k hk => ?_, fun x hx => ?_⟩
  · have hexec := congrArg (outcome clearEncode) hflush
    rw [hlen]
    exact (runAll_writeCodes hwrite).trans (runAll_cons hexec)
  · have hbyte : k / 8 < (packed codes.flatten).length := by omega
    rw [Memory.read_writeRange hwf, dif_pos (by omega)]
    exact packed_bit _ k (by simp [hbyte])
  · exact Memory.read_writeRange_outside hwf hx

/-! ### POLL (R112, R462) -/

/-- At the host's turn the host makes the move that is next in its list. -/
theorem hostTurn_of_inbox {s : State} {op : HostOp} {rest : List HostOp} (hin : s.inbox = op :: rest) :
    hostTurn s = hostMove op rest (s.setBusyLeft (s.busyLeft - 1)) := by
  simp only [hostTurn, State.setBusyLeft_inbox, hin]

/-- POLL records STATUS, and is over when BUSY reads 0 (R112). -/
theorem hostMove_poll (var : String) (rest : List HostOp) (s : State) :
    hostMove (.poll var) rest s = .next { s with
      observed := .reg var s.regs.status :: s.observed
      inbox := if statusBusy s.regs.status then s.inbox else rest } := by
  rw [hostMove]
  cases statusBusy s.regs.status <;> rfl

/-- One step with POLL next, whenever the core's turn has not come: a stuck core's never does (R67). -/
theorem step_poll {s : State} {var : String} {rest : List HostOp} (hc : ¬ coreTurn s = true)
    (hin : s.inbox = .poll var :: rest) :
    step s = .next { s with
      busyLeft := s.busyLeft - 1
      observed := .reg var s.regs.status :: s.observed
      inbox := if statusBusy s.regs.status then s.inbox else rest } := by
  rw [step, if_neg hc, hostTurn_of_inbox hin, hostMove_poll]
  rfl

/-- Settles O54: it is the host's turn in each case (`coreTurn_iff`), and `StatusOk` says that BUSY is PHASE. -/
theorem pollReadsUntilIdle : Obligations.PollReadsUntilIdle := by
  intro s rest var ⟨_, hbusy, _⟩ hin
  refine ⟨fun hp hleft => ?_, fun hp => ?_⟩
  · have hturn : ¬ coreTurn s = true := fun hc => by
      obtain ⟨-, h0, hs⟩ := coreTurn_iff.1 hc
      exact hleft.elim (absurd h0) (absurd hs)
    rw [step_poll hturn hin, if_pos (hbusy.2 hp)]
  · have hturn : ¬ coreTurn s = true := fun hc => by simp [coreTurn_iff, hp] at hc
    rw [step_poll hturn hin, if_neg fun hb => by simp [hbusy, hp] at hb]

end Sys2Proof.Machine

/-! ## The priority queue (R140 to R146) -/

namespace Sys2Proof.Machine

/-- R142's operand is admitted while fewer than 256 are queued. -/
theorem pqInsert_completes {i : Nat} {w : Work} (hcap : w.pq.length < 256) (hi : i < w.nodes.length)
    (hnew : i ∉ w.pq) : pqInsert i w = .ok (w.setPq (insertAsc i w.pq)) :=
  pqInsert_eq_ok.2 ⟨hcap.ne, hi, hnew, rfl⟩

/-- A full queue is PQ_OVERFLOW whatever the operand (R142, R146). -/
theorem pqInsert_full {w : Work} (hfull : w.pq.length = 256) (i : Nat) :
    pqInsert i w = .error .pqOverflow := by
  rw [pqInsert, if_pos hfull]

/-- An empty queue is PQ_EMPTY (R143, R146). -/
theorem pqExtractMin_empty {w : Work} (hempty : w.pq = []) : pqExtractMin w = .error .pqEmpty := by
  rw [pqExtractMin, hempty]

theorem QueueOk.pqOk {s : State} (h : QueueOk s) : PqOk s.work :=
  WorkQueueOk.pqOk h

theorem exec_pqInsert (i : Nat) (s : State) : exec (.pqInsert i) s = workOutcome s (pqInsert i s.work) :=
  rfl

/-- The index extracted is the result, and the working state is the one without it. -/
theorem exec_pqExtractMin_ok {s : State} {m : Nat} {v : Work} (h : pqExtractMin s.work = .ok (m, v)) :
    exec .pqExtractMin s = .next ((s.setWork v).setRet (.node m)) := by
  show execPqExtractMin s = _
  rw [execPqExtractMin, h]

theorem exec_pqExtractMin_error {s : State} {f : Fault} (h : pqExtractMin s.work = .error f) :
    exec .pqExtractMin s = .fault f := by
  show execPqExtractMin s = _
  rw [execPqExtractMin, h]

/-- Settles O15: the index goes into the ascending list, and a full queue is refused before the operand is
looked at. -/
theorem queueInsert : Obligations.QueueInsert := by
  intro s i
  rw [exec_pqInsert]
  refine ⟨fun _ hcap hi hnew => ⟨insertAsc i s.work.pq, ?_, fun _ => mem_insertAsc,
    insertAsc_length hnew⟩, fun hfull => ?_⟩
  · rw [pqInsert_completes hcap hi hnew]
    rfl
  · rw [pqInsert_full hfull, workOutcome_error]

/-- Settles O16: `pqExtractMin_completes` finds the index, `pqExtractMin_eq_ok` says that it is the least, and
no index is queued twice. -/
theorem queueExtractMin : Obligations.QueueExtractMin := by
  intro s
  refine ⟨fun hq hne => ?_, fun hempty => exec_pqExtractMin_error (pqExtractMin_empty hempty)⟩
  have hok : PqOk s.work := hq.pqOk
  obtain ⟨m, v, hmv⟩ := pqExtractMin_completes hne hok.alloc
  have hlen := pqExtractMin_length hmv
  have hexec := exec_pqExtractMin_ok hmv
  obtain ⟨hm, -, hleast, rfl⟩ := pqExtractMin_eq_ok hmv
  have hnodup : s.work.pq.Nodup := hok.asc.imp fun h => h.ne
  exact ⟨m, s.work.pq.erase m, hm, fun j hj hjm => precedes_iff.2 (hleast j hj hjm),
    fun j => hnodup.mem_erase_iff.trans and_comm, hlen, hexec⟩

theorem exec_pqClear (s : State) :
    exec .pqClear s = .next { s with work := { s.work with pq := [] } } := rfl

theorem exec_pqSize (s : State) : exec .pqSize s = .next { s with ret := .count s.work.pq.length } := rfl

theorem pqIsEmpty_eq (w : Work) : pqIsEmpty w = decide (w.pq.length = 0) := by
  rw [pqIsEmpty]
  cases w.pq <;> rfl

/-- Settles O14: the size after the clear is the empty queue's. -/
theorem queueClearEmptySize : Obligations.QueueClearEmptySize := by
  intro s
  refine ⟨exec_pqClear s, ?_, exec_pqSize s, ?_⟩
  · rw [← pqIsEmpty_eq]
    rfl
  · rw [runAll_cons (exec_pqClear s), runAll_cons (exec_pqSize _)]
    rfl

end Sys2Proof.Machine

/-! ## The tree builder (R162 to R166) -/

namespace Sys2Proof.Machine

/-! ### The reference tree of few leaves -/

/-- R161's leaves of no counted symbol. -/
theorem refLeaves_eq_nil {freq : Table Word32} (h : ∀ b, tget freq b = 0) : refLeaves freq = [] := by
  have hnone : counted freq = [] := List.eq_nil_iff_forall_not_mem.2 fun e he =>
    counted_ne_zero he (counted_tget he ▸ h e.1)
  rw [refLeaves_eq, hnone, List.map_nil]

/-- R161's leaves of one counted symbol. -/
theorem refLeaves_eq_singleton {freq : Table Word32} {v : Byte} (h : ∀ b, tget freq b ≠ 0 ↔ b = v) :
    refLeaves freq = [.leaf v (tget freq v).toNat] := by
  have hmem : ∀ e, e ∈ counted freq ↔ e ∈ [(v, tget freq v)] := by
    rintro ⟨b, f⟩
    rw [mem_counted, List.mem_singleton, Prod.mk.injEq]
    constructor
    · rintro ⟨rfl, hb⟩
      obtain rfl := (h b).1 hb
      exact ⟨rfl, rfl⟩
    · rintro ⟨rfl, rfl⟩
      exact ⟨rfl, (h b).2 rfl⟩
  have hone : counted freq = [(v, tget freq v)] := List.perm_singleton.1
    ((List.perm_ext_iff_of_nodup (counted_syms_nodup freq).of_map (List.nodup_singleton _)).2 hmem)
  rw [refLeaves_eq, hone, List.map_singleton, leafNode]

theorem refTree_of_refLeaves_nil {freq : Table Word32} (h : refLeaves freq = []) :
    refTree freq = ([], none) := by
  rw [refTree, h]
  rfl

theorem refTree_of_refLeaves_singleton {freq : Table Word32} {n : Node} (h : refLeaves freq = [n]) :
    refTree freq = ([n], some 0) := by
  rw [refTree, h]
  rfl

/-! ### The two parts of the build -/

/-- What R162 leaves, in the reference's leaves. -/
theorem buildTreeLeaves_ref (w : Work) :
    buildTreeLeaves w = .ok (((w.setNodes (refLeaves w.freq)).setPq
      (List.range (refLeaves w.freq).length)).setRoot (leavesRoot (refLeaves w.freq).length w.root)) := by
  rw [refLeaves_length, refLeaves_eq, buildTreeLeaves_eq]

/-- R162 with two leaves or more keeps a state that it has left: ROOT is not yet written. -/
theorem buildTreeLeaves_of_leaves {w : Work} (hnodes : w.nodes = refLeaves w.freq)
    (hpq : w.pq = List.range (refLeaves w.freq).length) (h2 : 2 ≤ (refLeaves w.freq).length) :
    buildTreeLeaves w = .ok w := by
  have hroot : leavesRoot (refLeaves w.freq).length w.root = w.root := by
    rw [leavesRoot, if_neg (by omega), if_neg (by omega)]
  rw [buildTreeLeaves_ref, hroot, ← hpq, ← hnodes]
  rfl

/-- The build goes on to the merges with two leaves or more, and ends at the leaves otherwise. -/
theorem buildTree_of_leaves {w v : Work} (h : buildTreeLeaves w = .ok v) :
    buildTree w = if 2 ≤ v.nodes.length then buildTreeMerges v else .ok v := by
  rw [buildTree, h, ok_bind]

/-! ### The operations -/

theorem exec_buildTreeLeaves (s : State) :
    exec .buildTreeLeaves s = workOutcome s (buildTreeLeaves s.work) := rfl

theorem exec_buildTreeMerges (s : State) :
    exec .buildTreeMerges s = workOutcome s (buildTreeMerges s.work) := rfl

theorem exec_treeRebuild (s : State) : exec .treeRebuild s = workOutcome s (buildTree s.work) := rfl

theorem workOutcome_setWork (s : State) (w : Work) (r : Except Fault Work) :
    workOutcome (s.setWork w) r = workOutcome s r := by
  cases r <;> rfl

theorem runAll_singleton (i : Instr) (s : State) : runAll [i] s = exec i s := by
  rw [runAll]
  cases exec i s <;> rfl

/-- tree_rebuild is its parts run one after the other: the merges only where R162 goes on to R163. -/
theorem runAll_build {s : State} {v : Work} (h : buildTreeLeaves s.work = .ok v) :
    runAll (if 2 ≤ v.nodes.length then [.buildTreeLeaves, .buildTreeMerges] else [.buildTreeLeaves]) s =
      exec .treeRebuild s := by
  have hleaves : exec .buildTreeLeaves s = .next (s.setWork v) := by
    rw [exec_buildTreeLeaves, h, workOutcome_ok]
  rw [exec_treeRebuild, buildTree_of_leaves h]
  split_ifs
  · rw [runAll_cons hleaves, runAll_singleton, exec_buildTreeMerges, workOutcome_setWork,
      State.setWork_work]
  · rw [runAll_singleton, hleaves, workOutcome_ok]

/-- Settles O18: the scan of R162 completes from every state (`buildTreeLeaves_ref`). -/
theorem buildLeaves : Obligations.BuildLeaves := by
  intro s
  rw [exec_buildTreeLeaves, buildTreeLeaves_ref]
  rfl

/-- Settles O19: the state is one that R162 keeps, so the merges from it are the whole build's. -/
theorem buildMerges : Obligations.BuildMerges := by
  intro s hnodes hpq h2
  have hbuild := buildTree_of_leaves (buildTreeLeaves_of_leaves hnodes hpq h2)
  rw [if_pos (hnodes ▸ h2), buildTree_ref, if_neg (by omega)] at hbuild
  rw [exec_buildTreeMerges, ← hbuild]
  rfl

/-- Settles O20: the tree by `buildTree_ref`, the two parts by `runAll_build`. -/
theorem rebuildIsTheBuild : Obligations.RebuildIsTheBuild := by
  intro s
  refine ⟨?_, runAll_build (buildTreeLeaves_ref s.work)⟩
  rw [exec_treeRebuild, buildTree_ref]
  rfl

/-- Settles O21: the reference tree of no leaf and of one, which O20 says is what tree_rebuild leaves. -/
theorem smallTrees : Obligations.SmallTrees := by
  intro s
  have htree := (rebuildIsTheBuild s).1
  constructor
  · intro hnone
    rw [refTree_of_refLeaves_nil (refLeaves_eq_nil hnone)] at htree
    exact ⟨_, htree⟩
  · intro v hone
    rw [refTree_of_refLeaves_singleton (refLeaves_eq_singleton hone)] at htree
    exact ⟨_, htree⟩

end Sys2Proof.Machine

/-! ## Code generation (R180 to R183) -/

namespace Sys2Proof.Machine

theorem exec_generateCodes (s : State) :
    exec .generateCodes s = workOutcome s (generateCodes s.work) := rfl

/-- Settles O23: after a build `generateCodes_built` gives the table, and CODE is all that it replaces. -/
theorem generateCodes_gives_paths : Obligations.GenerateCodes := by
  intro s hbuilt
  obtain ⟨c, -, hgen, -, htable⟩ := generateCodes_built hbuilt
  refine ⟨c, ?_, htable⟩
  rw [exec_generateCodes, hgen, workOutcome_ok]
  rfl

/-! ### The lookup -/

theorem codeLookup_some {w : Work} {sym : Byte} {c : Bits} (h : tget w.code sym = some c) :
    codeLookup sym w = .ok c := by
  rw [codeLookup, h]

/-- A symbol without a code is UNREACHABLE (R181). -/
theorem codeLookup_none {w : Work} {sym : Byte} (h : tget w.code sym = none) :
    codeLookup sym w = .error (.absentSymbol sym) := by
  rw [codeLookup, h]

/-- The code looked up is the result, and nothing else changes. -/
theorem exec_codeLookup_ok {s : State} {sym : Byte} {c : Bits} (h : codeLookup sym s.work = .ok c) :
    exec (.codeLookup sym) s = .next (s.setRet (.code c)) := by
  show execCodeLookup sym s = _
  rw [execCodeLookup, h]

theorem exec_codeLookup_error {s : State} {sym : Byte} {f : Fault}
    (h : codeLookup sym s.work = .error f) : exec (.codeLookup sym) s = .fault f := by
  show execCodeLookup sym s = _
  rw [execCodeLookup, h]

/-- Settles O25: the two branches of R181 (`codeLookup_some`, `codeLookup_none`). -/
theorem codeLookup_returns_code : Obligations.CodeLookup := by
  intro s sym
  constructor
  · intro c hcode
    exact exec_codeLookup_ok (codeLookup_some hcode)
  · intro hnone
    exact exec_codeLookup_error (codeLookup_none hnone)

end Sys2Proof.Machine

/-! ## The bit packer (R200 to R204) -/

namespace Sys2Proof.Machine

/-! ### The accumulator's byte as a number -/

/-- R202's shift, as the spec's arithmetic. -/
theorem shiftIn_eq_ofNat (acc : Byte) (b : Bool) :
    shiftIn acc b = BitVec.ofNat 8 (2 * acc.toNat + b.toNat) := by
  refine BitVec.eq_of_getLsbD_eq fun j hj => ?_
  rw [shiftIn_getLsbD, ← Nat.bit_val, BitVec.getLsbD_ofNat]
  cases j with
  | zero => simp
  | succ j => simp [Nat.testBit_bit_succ, hj, BitVec.testBit_toNat]

/-- R204's padding on the right, as the spec's arithmetic. -/
theorem shiftLeft_eq_ofNat (acc : Byte) (n : Nat) :
    acc <<< n = BitVec.ofNat 8 (acc.toNat * 2 ^ n) :=
  BitVec.eq_of_toNat_eq (by rw [BitVec.toNat_shiftLeft, BitVec.toNat_ofNat, Nat.shiftLeft_eq])

/-- The bits of a value are those of the indices from the highest down (R203). -/
theorem msbFirst_eq_map (v n : Nat) : msbFirst v n = (List.range n).reverse.map v.testBit := by
  induction n with
  | zero => rfl
  | succ n ih => simp [msbFirst, ih, List.range_succ]

/-! ### pk_init and pk_emit -/

theorem exec_pkInit (base : Nat) (s : State) : exec (.pkInit base) s =
    .next { s with work := { s.work with pk := ⟨base, 0, 0, 0, 0⟩ } } := rfl

theorem exec_pkEmit {s : State} (v : Byte)
    (h : accessible s.par (s.work.pk.base + s.work.pk.out)) : exec (.pkEmit v) s = .next { s with
      mem := s.mem.write (s.work.pk.base + s.work.pk.out) v
      work := { s.work with pk := { s.work.pk with out := s.work.pk.out + 1 } } } :=
  congrArg (outcome clearEncode) (pkEmit_eq h)

/-- Settles O26: a byte that is backed is stored (`pkEmit_eq`). -/
theorem packerInitEmit : Obligations.PackerInitEmit :=
  ⟨fun s base => exec_pkInit base s, fun _ v hb => exec_pkEmit v (Reachable.head hb)⟩

/-! ### pk_write_bit -/

section WriteBit
variable {s : State} (b : Bool)

/-- Short of eight bits the bit is shifted in. -/
theorem pkWriteBit_shifts (hc : s.work.pk.cnt + 1 ≠ 8) :
    pkWriteBit b s = .ok (s.setPk
      { s.work.pk with acc := shiftIn s.work.pk.acc b, cnt := s.work.pk.cnt + 1 }) :=
  if_neg hc

/-- The eighth bit is the byte's: it is emitted, and the outcome is the emission's. -/
theorem pkWriteBit_eighth (hc : s.work.pk.cnt + 1 = 8) :
    pkWriteBit b s = (pkEmit (shiftIn s.work.pk.acc b) s >>= fun t =>
      .ok (t.setPk { t.work.pk with acc := 0, cnt := 0 })) :=
  if_pos hc

theorem pkWriteBit_emits (hc : s.work.pk.cnt + 1 = 8)
    (h : accessible s.par (s.work.pk.base + s.work.pk.out)) :
    pkWriteBit b s = .ok ((s.setMem (s.mem.write (s.work.pk.base + s.work.pk.out)
      (shiftIn s.work.pk.acc b))).setPk
        ⟨s.work.pk.base, 0, 0, s.work.pk.out + 1, s.work.pk.pad⟩) := by
  rw [pkWriteBit_eighth b hc, pkEmit_eq h, ok_bind]
  rfl

theorem pkWriteBit_stuck (hc : s.work.pk.cnt + 1 = 8)
    (h : noBacking s.par (s.work.pk.base + s.work.pk.out)) :
    pkWriteBit b s = .error (.stuck (s.work.pk.base + s.work.pk.out) s) := by
  rw [pkWriteBit_eighth b hc, pkEmit_stuck h, error_bind]

/-- The eighth bit's byte does not exist (R60). -/
theorem pkWriteBit_fault (hc : s.work.pk.cnt + 1 = 8)
    (h : ¬ s.work.pk.base + s.work.pk.out < 2 ^ s.par.addrW) :
    pkWriteBit b s = .error (.fault (.noSuchAddress (s.work.pk.base + s.work.pk.out))) := by
  rw [pkWriteBit_eighth b hc, pkEmit, storeByte, if_neg h, error_bind, error_bind]

end WriteBit

/-- How pk_write_bit ends: it completes, or the eighth bit's byte is not backed or does not exist. -/
theorem pkWriteBit_cases (b : Bool) (s : State) :
    (∃ t, pkWriteBit b s = .ok t) ∨
    (s.work.pk.cnt + 1 = 8 ∧ noBacking s.par (s.work.pk.base + s.work.pk.out)) ∨
    ∃ f, pkWriteBit b s = .error (.fault f) := by
  by_cases hc : s.work.pk.cnt + 1 = 8
  · by_cases ha : s.work.pk.base + s.work.pk.out < 2 ^ s.par.addrW
    · cases hb : busOk s.par (s.work.pk.base + s.work.pk.out) with
      | true => exact .inl ⟨_, pkWriteBit_emits b hc (accessible_iff.2 ⟨ha, hb⟩)⟩
      | false => exact .inr (.inl ⟨hc, ha, hb⟩)
    · exact .inr (.inr ⟨_, pkWriteBit_fault b hc ha⟩)
  · exact .inl ⟨_, pkWriteBit_shifts b hc⟩

/-- Settles O27: the two branches of R202, with the byte as `shiftIn_eq_ofNat` gives it. -/
theorem packerWriteBit : Obligations.PackerWriteBit := by
  intro s b
  rw [← shiftIn_eq_ofNat]
  refine ⟨fun hc => ?_, fun hc hb => ?_⟩
  · exact congrArg (outcome clearEncode) (pkWriteBit_shifts b hc)
  · exact congrArg (outcome clearEncode) (pkWriteBit_emits b hc (Reachable.head hb))

/-! ### pk_flush -/

section Flush
variable {s : State}

theorem pkFlush_empty (hc : s.work.pk.cnt = 0) :
    pkFlush s = .ok (s.setPk { s.work.pk with pad := 0 }) :=
  if_neg (by omega)

theorem pkFlush_emits (hc : 0 < s.work.pk.cnt)
    (h : accessible s.par (s.work.pk.base + s.work.pk.out)) :
    pkFlush s = .ok ((s.setMem (s.mem.write (s.work.pk.base + s.work.pk.out)
      (s.work.pk.acc <<< (8 - s.work.pk.cnt)))).setPk
        ⟨s.work.pk.base, 0, 0, s.work.pk.out + 1, 8 - s.work.pk.cnt⟩) := by
  rw [pkFlush, if_pos hc]
  dsimp only
  rw [pkEmit_eq (by exact h), ok_bind]
  rfl

end Flush

/-- Settles O29: the two branches of R204, with the byte as `shiftLeft_eq_ofNat` gives it. -/
theorem packerFlush : Obligations.PackerFlush := by
  intro s
  rw [← shiftLeft_eq_ofNat]
  refine ⟨fun hc => ?_, fun hc _ hb => ?_⟩
  · exact congrArg (outcome clearEncode) (pkFlush_empty hc)
  · exact congrArg (outcome clearEncode) (pkFlush_emits hc (Reachable.head hb))

/-! ### pk_write_bits -/

/-- A packer that is stuck at its eighth bit's byte stays so: each further bit tries the same byte again. -/
theorem runAll_pkWriteBit_stuck {s : State} (hc : s.work.pk.cnt + 1 = 8)
    (h : noBacking s.par (s.work.pk.base + s.work.pk.out))
    (hs : s.stuck = some (s.work.pk.base + s.work.pk.out)) (bits : Bits) :
    runAll (bits.map .pkWriteBit) s = .next s := by
  induction bits with
  | nil => rfl
  | cons b bits ih =>
    have hstay : exec (.pkWriteBit b) s = .next s := by
      rw [exec_pkWriteBit_stuck h b hc, stuckState, ← hs]
    exact (runAll_cons hstay).trans ih

/-- pk_write_bits is pk_write_bit of each bit (R203), whatever the bytes it fills: where one is not backed,
the bits that follow leave the packer stuck there (`runAll_pkWriteBit_stuck`). -/
theorem runAll_pkWriteBit (bits : Bits) (s : State) :
    runAll (bits.map .pkWriteBit) s = outcome clearEncode (pkWriteBits bits s) := by
  induction bits generalizing s with
  | nil => rfl
  | cons b bits ih =>
    rw [List.map_cons, pkWriteBits]
    rcases pkWriteBit_cases b s with ⟨t, ht⟩ | ⟨hc, hb⟩ | ⟨f, hf⟩
    · have hexec : exec (.pkWriteBit b) s = .next t := congrArg (outcome clearEncode) ht
      rw [runAll_cons hexec, ht, ok_bind, ih]
    · rw [runAll_cons (exec_pkWriteBit_stuck hb b hc), pkWriteBit_stuck b hc hb, error_bind]
      exact runAll_pkWriteBit_stuck (s := stuckState s s.work s.mem _) hc hb rfl bits
    · have hexec : exec (.pkWriteBit b) s = .fault f := congrArg (outcome clearEncode) hf
      rw [runAll, hexec, hf, error_bind, outcome_fault]

/-- How many bytes the bits fill, and how many bits are then pending (R202, R206). -/
theorem packBytes_lengths {p : Bits} (hp : p.length < 8) (bits : Bits) :
    (packBytes p bits).1.length = (p.length + bits.length) / 8 ∧
      (packBytes p bits).2.length = (p.length + bits.length) % 8 := by
  have hcount := packBytes_count (bits := bits) hp
  have hpend := packBytes_pending (bits := bits) hp
  omega

/-- Where the bytes that the bits fill are backed, they are what pk_write_bits writes. -/
theorem exec_pkWriteBits {s : State} {bits : BitsOperand} {k : Nat} (hok : PackerOk s)
    (hk : (bitsOf bits).length = k)
    (hr : Reachable s.par (s.work.pk.base + s.work.pk.out) ((s.work.pk.cnt + k) / 8)) :
    ∃ acc bs, bs.length = (s.work.pk.cnt + k) / 8 ∧ exec (.pkWriteBits bits) s = .next { s with
      mem := s.mem.writeRange (s.work.pk.base + s.work.pk.out) bs
      work := { s.work with pk := ⟨s.work.pk.base, acc, (s.work.pk.cnt + k) % 8,
        s.work.pk.out + (s.work.pk.cnt + k) / 8, s.work.pk.pad⟩ } } := by
  obtain ⟨p, hp⟩ := hok.holds
  obtain ⟨hbytes, hpend⟩ := packBytes_lengths hp.lt (bitsOf bits)
  rw [← hp.cnt, hk] at hbytes hpend
  have hwrite := pkWriteBits_eq (bits := bitsOf bits) hp (hbytes ▸ hr)
  rw [hbytes, hpend] at hwrite
  exact ⟨_, _, hbytes, congrArg (outcome clearEncode) hwrite⟩

/-- Settles O28: bit by bit by `runAll_pkWriteBit`, and all the bits at once by `exec_pkWriteBits`. -/
theorem packerWriteBits : Obligations.PackerWriteBits := by
  refine ⟨fun s v n => ?_, fun s c => (runAll_pkWriteBit c s).symm,
    fun s bits c v k hok hwf hbits hr => ?_⟩
  · have hbits : (msbFirst v n).map Instr.pkWriteBit =
        (List.range n).reverse.map fun j => .pkWriteBit (v.testBit j) := by
      rw [msbFirst_eq_map, List.map_map]
      rfl
    rw [← hbits, runAll_pkWriteBit]
    rfl
  · have hk : (bitsOf bits).length = k := by
      rcases hbits with ⟨rfl, rfl⟩ | rfl
      · rfl
      · exact msbFirst_length v k
    obtain ⟨acc, bs, hlen, hexec⟩ := exec_pkWriteBits hok hk hr
    exact ⟨acc, _, hexec, fun x hx => Memory.read_writeRange_outside hwf (hlen ▸ hx)⟩

end Sys2Proof.Machine

/-! ## The bit unpacker (R220 to R223) -/

namespace Sys2Proof.Machine

theorem exec_upInit (base len : Nat) (s : State) : exec (.upInit base len) s =
    .next { s with work := { s.work with up := ⟨base, 0, len⟩ } } := rfl

theorem exec_upConsumed (s : State) :
    exec .upConsumed s = .next { s with ret := .count s.work.up.pos } := rfl

/-- A bit read, or END, is the operation's result. -/
theorem exec_upReadBit_of_ok {s t : State} {b : Option Bool} (h : upReadBit s = .ok (b, t)) :
    exec .upReadBit s = .next (t.setRet (b.elim .endOfData .bit)) := by
  show execUpReadBit s = _
  rw [execUpReadBit, h, ok_bind]
  cases b <;> rfl

/-- At L the answer is END and the position is kept (R222). -/
theorem exec_upReadBit_end {s : State} (hpos : s.work.up.pos = s.work.up.len) :
    exec .upReadBit s = .next { s with ret := .endOfData } :=
  exec_upReadBit_of_ok (upReadBit_end hpos)

/-- Short of L the answer is the bit at the position, which goes on by 1 (R221). -/
theorem exec_upReadBit_bit {s : State} (hpos : s.work.up.pos ≠ s.work.up.len)
    (h : accessible s.par (s.work.up.base + s.work.up.pos / 8)) :
    exec .upReadBit s = .next { s with
      work := { s.work with up := { s.work.up with pos := s.work.up.pos + 1 } }
      ret := .bit ((s.mem.read (s.work.up.base + s.work.up.pos / 8)).getLsbD
        (7 - s.work.up.pos % 8)) } :=
  exec_upReadBit_of_ok (upReadBit_eq hpos h)

/-- Settles O31: the three operations, up_read_bit by whether the position is L. -/
theorem unpackerSteps : Obligations.UnpackerSteps := fun s =>
  ⟨fun base len => exec_upInit base len s, exec_upConsumed s, exec_upReadBit_end,
    fun hpos hb => exec_upReadBit_bit hpos (Reachable.head hb)⟩

/-! ### Reading a payload back -/

theorem runAll_snoc {is : List Instr} {s t : State} (i : Instr) (h : runAll is s = .next t) :
    runAll (is ++ [i]) s = exec i t := by
  induction is generalizing s with
  | nil =>
    obtain rfl : s = t := Host.Outcome.next.inj h
    exact runAll_singleton i s
  | cons j is ih =>
    cases hj : exec j s with
    | next u => exact (runAll_cons hj).trans (ih ((runAll_cons hj).symm.trans h))
    | _ => simp [runAll, hj] at h

/-- up_init and then `k` reads, one after the other. -/
def runReads (base len k : Nat) (s : State) : Host.Outcome State Fault Refusal :=
  runAll (.upInit base len :: List.replicate k .upReadBit) s

theorem runReads_succ {base len k : Nat} {s t : State} (h : runReads base len k s = .next t) :
    runReads base len (k + 1) s = exec .upReadBit t := by
  rw [runReads, List.replicate_succ', ← List.cons_append]
  exact runAll_snoc .upReadBit h

section Reads
variable {s : State} {base len : Nat} (hb : backed s.par base ((len + 7) / 8))
include hb

/-- After `k` reads short of L the next one reads bit `k` of the payload (R107, R221). -/
theorem runReads_bit {k : Nat} {r : OpRet} (hk : k < len) (h : runReads base len k s =
      .next { s with work := { s.work with up := ⟨base, k, len⟩ }, ret := r }) :
    runReads base len (k + 1) s = .next { s with
      work := { s.work with up := ⟨base, k + 1, len⟩ }
      ret := .bit ((s.mem.read (base + k / 8)).getLsbD (7 - k % 8)) } :=
  (runReads_succ h).trans
    (exec_upReadBit_bit (ne_of_lt hk) (hb (base + k / 8) (by omega) (by omega)))

/-- As long as no read passes L, the position counts the reads. -/
theorem runReads_pos {k : Nat} (hk : k ≤ len) : ∃ r, runReads base len k s =
    .next { s with work := { s.work with up := ⟨base, k, len⟩ }, ret := r } := by
  induction k with
  | zero => exact ⟨s.ret, runAll_singleton (.upInit base len) s⟩
  | succ k ih =>
    obtain ⟨r, hr⟩ := ih (by omega)
    exact ⟨_, runReads_bit hb hk hr⟩

end Reads

/-- Settles O32: the position counts the reads (`runReads_pos`), so the next one reads the bit of that index
and, past the last, END. -/
theorem unpackReadsPacked : Obligations.UnpackReadsPacked := by
  intro s base bits hb hbits
  constructor
  · intro k hk
    obtain ⟨r, hr⟩ := runReads_pos hb hk.le
    rw [← hbits k hk]
    exact runReads_bit hb hk hr
  · obtain ⟨r, hr⟩ := runReads_pos hb le_rfl
    exact (runReads_succ hr).trans (exec_upReadBit_end rfl)

end Sys2Proof.Machine

/-! ## The checksum (R241 to R244) -/

namespace Sys2Proof.Machine

/-- The index of CRC_TAB (R243), as a word of 32 bits. -/
theorem zeroExtend_lowByte (x : Word32) : (x.extractLsb' 0 8).zeroExtend 32 = x &&& 0xFF := by
  have hmask : x.toNat &&& 0xFF = x.toNat % 256 := Nat.and_two_pow_sub_one_eq_mod x.toNat 8
  have hfits : x.toNat % 256 < 2 ^ 32 := by omega
  exact BitVec.eq_of_toNat_eq (by simpa [hmask] using hfits)

/-- R243 with CRC_TAB's entry as R242's eight steps. -/
theorem crcNext_table (c : Word32) (b : Byte) :
    crcNext c b = (c >>> 8) ^^^ refCrcByte ((c ^^^ b.zeroExtend 32) &&& 0xFF) := by
  rw [crcNext, crcTab, zeroExtend_lowByte, refCrcByte_eq]

theorem exec_crcInit (s : State) : exec .crcInit s =
    .next { s with work := { s.work with crcReg := 0xFFFFFFFF } } := rfl

theorem exec_crcUpdate (b : Byte) (s : State) : exec (.crcUpdate b) s =
    .next { s with work := { s.work with crcReg := crcNext s.work.crcReg b } } := rfl

theorem exec_crcFinal (s : State) : exec .crcFinal s =
    .next { s with ret := .crc (s.work.crcReg ^^^ 0xFFFFFFFF) } := rfl

/-- Settles O33: one equation for each operation, crc_update's in the form of `crcNext_table`. -/
theorem crcSteps : Obligations.CrcSteps := by
  refine fun s b => ⟨exec_crcInit s, ?_, exec_crcFinal s⟩
  rw [exec_crcUpdate, crcNext_table]

end Sys2Proof.Machine

/-! ## ENCODE (R260 to R275) -/

namespace Sys2Proof.Machine

theorem exec_freqCount (src srclen : Word64) (s : State) : exec (.freqCount src srclen) s =
    outcome clearEncode (freqCount src.toNat srclen.toNat s) := rfl

theorem exec_writeContainer (cs : Word64) (crc : Word32) (k : BitVec 16) (pad : Byte) (s : State) :
    exec (.writeContainer cs crc k pad) s = outcome clearEncode (writeContainer cs crc k pad s) := rfl

theorem exec_encode (s : State) : exec .encode s = outcome clearEncode (encodeCommand s) := rfl

/-! ### freq_count (R261, R262) -/

/-- FREQ starts at zero, so a byte value that occurs 2^32 times fills its count. -/
theorem freqCount_overflow {a n : Nat} {s : State} (hr : Reachable s.par a n)
    (hover : ∃ b, 2 ^ 32 ≤ (s.mem.readRange a n).count b) :
    ∃ t, freqCount a n s = .error (.raised ⟨.countOverflow, 1⟩ (s.setWork (s.work.setFreq t))) := by
  obtain ⟨b, hb⟩ := hover
  exact countLoop_overflow (s := s.setWork (s.work.setFreq (Vector.replicate 256 0))) hr
    ⟨b, hb.trans (Nat.le_add_left _ _)⟩

/-- Settles O35: the counts fit (`freqCount_eq`), or one of them raises (`freqCount_overflow`). -/
theorem freqCount_counts_bytes : Obligations.FreqCount := by
  intro s src srclen hb
  rw [exec_freqCount]
  constructor
  · intro hfit
    obtain ⟨t, ht, hcounts⟩ := freqCount_eq hb hfit
    exact ⟨t, congrArg (outcome clearEncode) ht, hcounts⟩
  · intro hover
    obtain ⟨t, ht⟩ := freqCount_overflow hb hover
    exact ⟨t, congrArg (outcome clearEncode) ht⟩

/-! ### write_container (R270) -/

/-- The successful end of ENCODE, which reports the header written. -/
theorem outcome_complete_report (s : State) (m : Memory) (w : Work) (h : Header) (len : Nat) (c : Word64) :
    outcome clearEncode (.ok (complete len (((s.setMem m).setWork w).setRegs
      { setHeaderRegs h s.regs with crcCalc := c }))) =
      .next (endState s (reportRegs s.regs h 0x2 (BitVec.ofNat 64 len) c) w m) := by
  rw [outcome_ok, complete_report len _ h c s.regs rfl]
  rfl

/-- Settles O36: `writeContainer_eq` says what is stored and what the packer is left with. -/
theorem writeContainer_writes_container : Obligations.WriteContainer := by
  rintro s cs crc k pad _ hm hb hsrc hcoded rfl hk hcap hdst
  rw [refLeaves_length] at hk
  obtain ⟨⟨base, acc, cnt, out, pkPad⟩, hw, rfl, rfl, rfl, rfl, rfl⟩ :=
    writeContainer_eq (cs := cs) (crc := crc) (pad := pad) hm hb hsrc hk (coded_iff.1 hcoded) hcap hdst
  rw [exec_writeContainer, hw]
  exact outcome_complete_report ..

/-! ### The command (R260, R263 to R270) -/

/-- The build and generate_codes leave the code table of FREQ. -/
theorem CodesOk.isCodeTable_of_build {w v u : Work} {t : Option Tree} (hok : CodesOk u t)
    (hv : buildTree w = .ok v) (hu : generateCodes v = .ok u) : Machine.isCodeTable u.freq u.code := by
  obtain ⟨c, rfl⟩ := generateCodes_ok hu
  have hbuilt := isBuilt_of_buildTree hv
  exact hok.isCodeTable hbuilt

/-- R264: the bits of a message, from its counts and the lengths of the codes. -/
theorem Counts.messageBits_length {freq : Table Word32} {bs : List Byte} (hf : Counts freq bs)
    (code : Table (Option Bits)) : (messageBits code bs).length =
      ((List.range 256).map fun x => (tget freq (BitVec.ofNat 8 x)).toNat *
        ((tget code (BitVec.ofNat 8 x)).getD []).length).sum := by
  have hlen : ∀ b, codeLen (Work.reset.setCode code) b = ((tget code b).getD []).length := by
    intro b
    rw [codeLen, Work.setCode_code]
    cases tget code b <;> rfl
  have h := messageBits_length_eq (Work.reset.setCode code) bs
  rw [Work.setCode_code] at h
  rw [h, allSymbols, List.map_map]
  exact congrArg List.sum (List.map_congr_left fun x _ => by rw [Function.comp_apply, hlen, hf])

/-- Settles O37: `encodeCommand_eq` gives the counts, the codes and the container. -/
theorem encodeWritesContainer : Obligations.EncodeWritesContainer := by
  intro s hm hb hsrc hfit
  obtain ⟨_, v, u, tree, hcounts, hv, hu, hok, rfl, hend⟩ := encodeCommand_eq hm hb hsrc hfit
  have htable := hok.isCodeTable_of_build hv hu
  refine ⟨u.freq, u.code, _, hcounts, htable, coded_of_counts hcounts htable, rfl,
    hcounts.messageBits_length u.code, ?_⟩
  intro k size h hk hsize hh hcap hdst
  rw [refLeaves_length] at hk
  subst hk
  obtain ⟨w, hw, -⟩ := hend _ size rfl hsize hcap hdst h hh
  refine ⟨(refContainer_length h u.freq _).trans hsize.symm, w, ?_⟩
  rw [exec_encode, hw]
  exact outcome_complete_report ..

/-! ### The errors (R271) -/

/-- An error that leaves the memory and the registers alone ends ENCODE as R271 says. -/
theorem exec_encode_raised {s : State} {e : Err} {w : Work}
    (h : encodeCommand s = .error (.raised e (s.setWork w))) :
    exec .encode s = .next (endState s (blankRegs s.regs (statusError e)) w s.mem) :=
  congrArg (outcome clearEncode) h

/-- A byte value that occurs 2^32 times ends ENCODE in its counting pass (R262). -/
theorem encodeCommand_overflow {s : State} (hb : buffersOk s) (hsrc : Reachable s.par s.src s.srclen)
    (hover : ∃ b, 2 ^ 32 ≤ (sourceBytes s).count b) :
    ∃ w, encodeCommand s = .error (.raised ⟨.countOverflow, 1⟩ (s.setWork w)) := by
  obtain ⟨t, ht⟩ := freqCount_overflow hsrc hover
  obtain ⟨hrange, hoverlap⟩ := checks_ok hb
  refine ⟨s.work.setFreq t, ?_⟩
  rw [encodeCommand, hrange, ok_bind, hoverlap, ok_bind, ht]
  rfl

/-- A container longer than the capacity ends ENCODE before its first byte is written (R268). -/
theorem encodeCommand_resource {s : State} {freq : Table Word32} {code : Table (Option Bits)}
    (hb : buffersOk s) (hsrc : Reachable s.par s.src s.srclen) (hf : Counts freq (sourceBytes s))
    (hc : isCodeTable freq code) (hcap : s.cap < 30 + 5 * (refLeaves freq).length +
      ((messageBits code (sourceBytes s)).length + 7) / 8) :
    ∃ w, encodeCommand s = .error (.raised ⟨.resource, 1⟩ (s.setWork w)) := by
  obtain ⟨_, v, u, tree, hcounts, hv, hu, hok, rfl, hcmd⟩ :=
    encodeCommand_sized hb hsrc fun b => hf b ▸ (tget freq b).isLt
  obtain rfl := hf.unique hcounts
  obtain rfl := hc.unique (hok.isCodeTable_of_build hv hu)
  rw [refLeaves_length] at hcap
  rw [if_pos hcap] at hcmd
  exact ⟨u, hcmd⟩

/-- Settles O38: the checks of R65 and R66 by `checks_raise`, then the counting pass and the capacity. -/
theorem encodeErrors : Obligations.EncodeErrors := by
  rintro s _ (⟨h, rfl⟩ | ⟨h, rfl⟩ | ⟨h, rfl⟩ | ⟨⟨hb, hsrc, hover⟩, rfl⟩ |
    ⟨⟨hb, hsrc, freq, code, hf, hc, hcap⟩, rfl⟩)
  · exact ⟨_, exec_encode_raised (e := ⟨.param, 1⟩) (w := s.work) (checks_raise (.inl ⟨h, rfl⟩))⟩
  · exact ⟨_, exec_encode_raised (e := ⟨.param, 2⟩) (w := s.work)
      (checks_raise (.inr (.inl ⟨h, rfl⟩)))⟩
  · exact ⟨_, exec_encode_raised (e := ⟨.param, 3⟩) (w := s.work)
      (checks_raise (.inr (.inr ⟨h, rfl⟩)))⟩
  · obtain ⟨w, hw⟩ := encodeCommand_overflow hb hsrc hover
    exact ⟨w, exec_encode_raised hw⟩
  · obtain ⟨w, hw⟩ := encodeCommand_resource hb hsrc hf hc hcap
    exact ⟨w, exec_encode_raised hw⟩

/-! ### The empty input and one byte value (R274, R275) -/

theorem Counts.eq_zero_of_nil {freq : Table Word32} (hf : Counts freq []) (b : Byte) :
    tget freq b = 0 :=
  BitVec.eq_of_toNat_eq (hf b)

theorem refTable_eq_nil {freq : Table Word32} (h : refLeaves freq = []) : refTable freq = [] := by
  rw [← List.length_eq_zero_iff, refTable_length, ← refLeaves_length, h]
  rfl

/-- The header of an empty message (R274). -/
theorem toBytes_emptyHeader (magic : Word32) : (Header.mk magic 1 0 0 0 0 0 0).toBytes =
    leBytes 4 magic.toNat ++ [1, 0] ++ List.replicate 24 0 := by
  simp only [Header.toBytes, List.append_assoc]
  rfl

section OneValue
variable {freq : Table Word32} {v : Byte} {n : Nat}

theorem Counts.ne_zero_iff_of_replicate (hf : Counts freq (List.replicate n v)) (hn : 0 < n) (b : Byte) :
    tget freq b ≠ 0 ↔ b = v := by
  have hcount := hf b
  rw [List.count_replicate] at hcount
  have hzero : tget freq b = 0 ↔ (tget freq b).toNat = 0 := by
    rw [BitVec.toNat_eq]
    rfl
  rw [ne_eq, hzero, hcount]
  split_ifs with h
  · exact iff_of_true hn.ne' (beq_iff_eq.1 h).symm
  · exact iff_of_false (fun h0 => h0 rfl) fun hb => h (beq_iff_eq.2 hb.symm)

/-- The table of one counted symbol is its entry (R106). -/
theorem refTable_eq_entry (hone : ∀ b, tget freq b ≠ 0 ↔ b = v) :
    refTable freq = v :: leBytes 4 (tget freq v).toNat := by
  have hlen : (counted freq).length = 1 := by
    rw [← refLeaves_length, refLeaves_eq_singleton hone, List.length_singleton]
  obtain ⟨⟨b, f⟩, he⟩ := List.length_eq_one_iff.1 hlen
  obtain ⟨rfl, hne⟩ := mem_counted.1 (he ▸ List.mem_singleton_self (b, f))
  obtain rfl := (hone b).1 hne
  rw [refTable, he]
  exact List.append_nil _

/-- The code of a bare leaf is "0" (R182). -/
theorem isCodeTable.tget_of_leaf {code : Table (Option Bits)} {f : Nat}
    (hc : Machine.isCodeTable freq code) (h : refLeaves freq = [.leaf v f]) :
    tget code v = some [false] := by
  rw [hc, refTree_of_refLeaves_singleton h]
  exact ⟨0, rfl, .inl ⟨⟨f, rfl⟩, rfl⟩⟩

theorem messageBits_replicate {code : Table (Option Bits)} (h : tget code v = some [false]) (n : Nat) :
    messageBits code (List.replicate n v) = List.replicate n false := by
  induction n with
  | zero => rfl
  | succ n ih => rw [List.replicate_succ, messageBits_cons h, ih, List.replicate_succ, List.singleton_append]

theorem refPayloadByte_zeros (n j : Nat) : refPayloadByte (List.replicate n false) j = 0 := by
  have hbit : ∀ i, (List.replicate n false).getD i false = false := fun i => by
    rw [List.getD_eq_getElem?_getD, List.getElem?_getD_replicate_default_eq]
  simp only [refPayloadByte, hbit]
  rfl

/-- Zeros are packed into zeros, the padding included (R107). -/
theorem refPayload_zeros (n : Nat) :
    refPayload (List.replicate n false) = List.replicate ((n + 7) / 8) 0 := by
  refine List.eq_replicate_iff.2 ⟨by rw [refPayload_length, List.length_replicate], fun b hb => ?_⟩
  obtain ⟨j, -, rfl⟩ := List.mem_map.1 hb
  exact refPayloadByte_zeros n j

end OneValue

/-- Settles O39: what `encodeWritesContainer` gives, with no leaf and no bit, or with one leaf, whose code is
"0". -/
theorem encodeSmallInputs : Obligations.EncodeSmallInputs := by
  constructor
  · intro s hm hb hlen hcap hdst
    have hnil : sourceBytes s = [] := by
      rw [sourceBytes, hlen]
      rfl
    have hzero : s.latch.srclen = 0 := BitVec.eq_of_toNat_eq hlen
    obtain ⟨freq, code, bits, hcounts, -, -, hbits, -, hend⟩ := encodeWritesContainer s hm hb
      (hlen ▸ Reachable.zero) (by simp [hnil])
    rw [hnil] at hcounts hbits hend
    obtain rfl : bits = [] := hbits
    have hleaves := refLeaves_eq_nil hcounts.eq_zero_of_nil
    rw [hleaves, hzero] at hend
    obtain ⟨-, w, hw⟩ := hend 0 30 ⟨s.par.magic, 1, 0, 0, 0, 0, 0, 0⟩ rfl rfl rfl hcap hdst
    rw [refContainer, refTable_eq_nil hleaves, toBytes_emptyHeader, List.append_nil] at hw
    exact ⟨w, hw⟩
  · intro s v hm hb hsrc hpos hlt hbytes hcap hdst
    obtain ⟨freq, code, bits, hcounts, htable, -, hbits, -, hend⟩ := encodeWritesContainer s hm hb hsrc
      fun b => (List.count_le_length.trans_eq (by simp [sourceBytes])).trans_lt hlt
    have hone := Counts.ne_zero_iff_of_replicate (hbytes ▸ hcounts) hpos
    have hleaves := refLeaves_eq_singleton hone
    have hfreq : (tget freq v).toNat = s.srclen := by
      rw [hcounts v, hbytes, List.count_replicate_self]
    rw [hbytes, messageBits_replicate (htable.tget_of_leaf hleaves)] at hbits
    subst hbits
    rw [hleaves, List.length_replicate] at hend
    obtain ⟨-, w, hw⟩ := hend 1 (35 + (s.srclen + 7) / 8) _ rfl rfl rfl hcap hdst
    rw [refContainer, refTable_eq_entry hone, hfreq, refPayload_zeros] at hw
    exact ⟨w, _, rfl, hw⟩

end Sys2Proof.Machine

/-! ## DECODE (R300 to R313) -/

namespace Sys2Proof.Machine

/-! ### How an error ends (R313, R355) -/

theorem throwErr_bind {α β : Type} (k : ErrKind) (d : Byte) (s : State) (f : α → Except Halt β) :
    (throwErr k d s >>= f) = throwErr k d s := rfl

/-- An error of DECODE's operations other than a mismatch, once the header was read: the header registers
stay. -/
theorem outcome_throwErr_decode {k : ErrKind} {d : Byte} (hb : beforeHeader ⟨k, d⟩ = false)
    (hk : k ≠ .checksumMismatch) (s : State) :
    outcome clearDecode (throwErr k d s) = .next (endState s
      { s.regs with status := statusError ⟨k, d⟩, resultLen := 0, crcCalc := 0 } s.work s.mem) := by
  simp only [throwErr, outcome_raised, raiseEnd, endCommand, endState, clearDecode, hb, hk]
  rfl

/-! ### parse_table (R306) -/

section ParseTable
variable {s : State} {k : Nat}

theorem parseTable_tooMany (hk : 256 < k) : ∃ w, parseTable k s = throwErr .format 5 (s.setWork w) :=
  ⟨s.work, if_pos hk⟩

theorem parseTable_truncated (hk : k ≤ 256) (hl : s.srclen < 30 + 5 * k) :
    ∃ w, parseTable k s = throwErr .format 6 (s.setWork w) :=
  ⟨s.work, (if_neg (Nat.not_lt.2 hk)).trans (if_pos hl)⟩

section Entry
variable {j : Nat} {e : Byte × Word32} (hk : k ≤ 256) (hl : 30 + 5 * k ≤ s.srclen)
  (hr : Reachable s.par (s.src + 30) (5 * k)) (hj : (storedEntries s.mem (s.src + 30) k)[j]? = some e)
  (hok : tableOk ((storedEntries s.mem (s.src + 30) k).take j))
include hk hl hr hj hok

/-- The loop starts with no symbol seen, so the first entry that fails raises. -/
theorem parseTable_badEntry
    (hbad : e.2 = 0 ∨ e.1 ∈ ((storedEntries s.mem (s.src + 30) k).take j).map Prod.fst) :
    ∃ w, parseTable k s = throwErr .format (if e.2 = 0 then 7 else 8) (s.setWork w) := by
  obtain ⟨w, hw⟩ := parseLoop_bad (s := s.setWork ((s.work.setFreq (Vector.replicate 256 0)).setSeen
    (Vector.replicate 256 false))) hr j e hj hok (by simp [tget_replicate])
    (hbad.imp_right .inl)
  exact ⟨w, (if_neg (Nat.not_lt.2 hk)).trans ((if_neg (Nat.not_lt.2 hl)).trans hw)⟩

theorem parseTable_zeroFrequency (h0 : e.2 = 0) :
    ∃ w, parseTable k s = throwErr .format 7 (s.setWork w) := by
  simpa only [if_pos h0] using parseTable_badEntry hk hl hr hj hok (.inl h0)

theorem parseTable_repeatedSymbol (h0 : e.2 ≠ 0)
    (hmem : e.1 ∈ ((storedEntries s.mem (s.src + 30) k).take j).map Prod.fst) :
    ∃ w, parseTable k s = throwErr .format 8 (s.setWork w) := by
  simpa only [if_neg h0] using parseTable_badEntry hk hl hr hj hok (.inr hmem)

end Entry

theorem exec_parseTable_raised {k : BitVec 16} {d : Byte} (hb : beforeHeader ⟨.format, d⟩ = false)
    (h : ∃ w, parseTable k.toNat s = throwErr .format d (s.setWork w)) :
    ∃ w, exec (.parseTable k) s = .next (endState s
      { s.regs with status := statusError ⟨.format, d⟩, resultLen := 0, crcCalc := 0 } w s.mem) := by
  obtain ⟨w, hw⟩ := h
  have hend := outcome_throwErr_decode hb (by decide) (s.setWork w)
  exact ⟨w, (congrArg (outcome clearDecode) hw).trans hend⟩

end ParseTable

/-- Settles O41: `parseTable_eq` fills FREQ, and each error is a lemma of its own (`parseTable_tooMany` to
`parseTable_repeatedSymbol`). -/
theorem parseTable_fills_freq : Obligations.ParseTable := by
  intro s k
  constructor
  · intro hk hl hr hok
    obtain ⟨t, seen, ht, htab⟩ := parseTable_eq hk hl hr hok
    exact ⟨t, seen, congrArg (outcome clearDecode) ht, htab⟩
  · rintro _ (⟨hk, rfl⟩ | ⟨⟨hk, hl⟩, rfl⟩ | ⟨hk, hl, hr, j, e, hj, hok, ⟨h0, rfl⟩ | ⟨h0, hmem, rfl⟩⟩)
    · exact exec_parseTable_raised rfl (parseTable_tooMany hk)
    · exact exec_parseTable_raised rfl (parseTable_truncated hk hl)
    · exact exec_parseTable_raised rfl (parseTable_zeroFrequency hk hl hr hj hok h0)
    · exact exec_parseTable_raised rfl (parseTable_repeatedSymbol hk hl hr hj hok h0 hmem)

/-! ### check_payload_extent (R307) -/

section Extent
variable {s : State} {k : BitVec 16} {cs : Word64} {pad : Byte}

theorem checkPayloadExtent_truncated (h : s.srclen < 30 + 5 * k.toNat + cs.toNat) :
    checkPayloadExtent k.toNat cs.toNat pad.toNat s = throwErr .format 9 s := if_pos h

theorem checkPayloadExtent_trailing (h : 30 + 5 * k.toNat + cs.toNat < s.srclen) :
    checkPayloadExtent k.toNat cs.toNat pad.toNat s = throwErr .format 10 s :=
  (if_neg h.not_gt).trans (if_pos h)

theorem checkPayloadExtent_padding (h : s.srclen = 30 + 5 * k.toNat + cs.toNat) (hcs : cs = 0)
    (hpad : pad ≠ 0) : checkPayloadExtent k.toNat cs.toNat pad.toNat s = throwErr .format 11 s := by
  rw [checkPayloadExtent_eq, if_neg h.not_lt, if_neg h.not_gt,
    if_pos ⟨congrArg BitVec.toNat hcs, fun h0 => hpad (BitVec.eq_of_toNat_eq h0)⟩]

theorem checkPayloadExtent_fits (h : s.srclen = 30 + 5 * k.toNat + cs.toNat) (hpad : cs = 0 → pad = 0) :
    checkPayloadExtent k.toNat cs.toNat pad.toNat s = .ok (8 * cs.toNat - pad.toNat) := by
  have hnone : ¬ (cs.toNat = 0 ∧ pad.toNat ≠ 0) := fun ⟨hc, hp⟩ =>
    hp (congrArg BitVec.toNat (hpad (BitVec.eq_of_toNat_eq hc)))
  rw [checkPayloadExtent_eq, if_neg h.not_lt, if_neg h.not_gt, if_neg hnone]

theorem exec_checkPayloadExtent (k : BitVec 16) (cs : Word64) (pad : Byte) (s : State) :
    exec (.checkPayloadExtent k cs pad) s = outcome clearDecode
      (checkPayloadExtent k.toNat cs.toNat pad.toNat s >>= fun len => .ok (s.setRet (.count len))) := rfl

theorem exec_checkPayloadExtent_raised {d : Byte} (hb : beforeHeader ⟨.format, d⟩ = false)
    (h : checkPayloadExtent k.toNat cs.toNat pad.toNat s = throwErr .format d s) :
    exec (.checkPayloadExtent k cs pad) s = .next (endState s
      { s.regs with status := statusError ⟨.format, d⟩, resultLen := 0, crcCalc := 0 } s.work s.mem) := by
  rw [exec_checkPayloadExtent, h, throwErr_bind, outcome_throwErr_decode hb (by decide)]

end Extent

/-- Settles O42: the source ends at the extent, or short of it, or past it. -/
theorem checkPayloadExtent_answers : Obligations.CheckPayloadExtent := by
  rintro s k cs pad _ rfl
  constructor
  · intro hlen hpad
    rw [exec_checkPayloadExtent, checkPayloadExtent_fits hlen hpad]
    rfl
  · rintro _ (⟨h, rfl⟩ | ⟨h, rfl⟩ | ⟨⟨h, hcs, hpad⟩, rfl⟩)
    · exact exec_checkPayloadExtent_raised rfl (checkPayloadExtent_truncated h)
    · exact exec_checkPayloadExtent_raised rfl (checkPayloadExtent_trailing h)
    · exact exec_checkPayloadExtent_raised rfl (checkPayloadExtent_padding h hcs hpad)

/-! ### walk (R311) -/

/-- What R311 asks of the state in which a walk of `orig` symbols begins: a root `r` whose paths are the codes,
and backed buffers that do not meet. -/
structure Walkable (code : Table (Option Bits)) (base len orig r : Nat) (s : State) : Prop where
  wf : s.mem.wf
  root : s.work.root = some r
  tree : ∃ tl tr, IsTree s.work.nodes r (.node tl tr) ∧
    ∀ b p, tget code b = some p ↔ (b, p) ∈ (Tree.node tl tr).paths []
  source : Reachable s.par base ((len + 7) / 8)
  dest : Reachable s.par s.dst orig
  apart : ∀ x, base ≤ x → x < base + (len + 7) / 8 → x < s.dst ∨ s.dst + orig ≤ x

/-- The code table of a built tree of two symbols or more lists the paths of the tree. -/
theorem isBuilt_paths {w : Work} {code : Table (Option Bits)} (hb : isBuilt w)
    (h2 : 2 ≤ (refLeaves w.freq).length) (hc : isCodeTable w.freq code) :
    ∃ r, w.root = some r ∧ ∃ tl tr, IsTree w.nodes r (.node tl tr) ∧
      ∀ b p, tget code b = some p ↔ (b, p) ∈ (Tree.node tl tr).paths [] := by
  obtain ⟨r, tl, tr, hroot, htree, -⟩ := isBuilt_node hb h2
  refine ⟨r, hroot, tl, tr, htree, fun b p => ?_⟩
  rw [hc b p, ← hb.1, ← hb.2, hroot, isCodeOf_iff htree]
  rfl

/-- The symbols of a coded message stand at the paths of their codes. -/
theorem coded_paths {code : Table (Option Bits)} {out : List Byte} {u : Tree}
    (hcodes : ∀ b p, tget code b = some p ↔ (b, p) ∈ u.paths []) (h : coded code out) :
    ∀ b ∈ out, ∃ c, tget code b = some c ∧ (b, c) ∈ u.paths [] := fun b hb => by
  obtain ⟨c, hc⟩ := coded_iff.1 h b hb
  exact ⟨c, hc, (hcodes b c).1 hc⟩

section Walkable
variable {s : State} {code : Table (Option Bits)} {base len orig r : Nat} {out : List Byte}

theorem Walkable.emits (h : Walkable code base len orig r s) (hcoded : coded code out)
    (hs : streamBits s.mem base 0 len = messageBits code out) (hlen : out.length = orig) :
    walk base len orig s =
      .ok (out, walkAt s base len (s.mem.writeRange s.dst out) len r orig) := by
  obtain ⟨tl, tr, htree, hcodes⟩ := h.tree
  exact walk_message h.root htree h.wf (coded_paths hcodes hcoded) hs h.source h.dest h.apart hlen

/-- Bits left over raise CORRUPT_STREAM(3), bits missing CORRUPT_STREAM(1), with part of the output written. -/
theorem Walkable.corrupts {status : Word64} (h : Walkable code base len orig r s)
    (hcoded : coded code out)
    (hbad : (∃ rest, rest ≠ [] ∧ streamBits s.mem base 0 len = messageBits code out ++ rest ∧
        out.length = orig) ∧ status = 0x326 ∨
      (∃ p c sym, c ≠ [] ∧ streamBits s.mem base 0 len = messageBits code out ++ p ∧
        tget code sym = some (p ++ c) ∧ out.length < orig) ∧ status = 0x126) :
    ∃ d pos node n, out.length ≤ orig ∧ status = statusError ⟨.corruptStream, d⟩ ∧
      walk base len orig s = throwCorrupt .corruptStream d orig
        (walkAt s base len (s.mem.writeRange s.dst out) pos node n) := by
  obtain ⟨tl, tr, htree, hcodes⟩ := h.tree
  have hpaths := coded_paths hcodes hcoded
  rcases hbad with ⟨⟨rest, hrest, hs, hlen⟩, rfl⟩ | ⟨⟨p, c, sym, hc0, hs, hp, hlt⟩, rfl⟩
  · exact ⟨3, _, _, _, hlen.le, rfl,
      walk_trailing h.root htree h.wf hpaths hs hrest h.source h.dest h.apart hlen⟩
  · obtain ⟨j, hj⟩ := walk_short h.root htree h.wf hpaths hs ((hcodes sym _).1 hp) hc0 h.source h.dest
      h.apart hlt
    exact ⟨1, _, _, _, hlt.le, rfl, hj⟩

theorem exec_walk (base len : Nat) (orig : Word64) (s : State) : exec (.walk base len orig) s =
    outcome clearDecode (walk base len orig.toNat s >>= fun p => .ok p.2) := rfl

/-- CORRUPT_STREAM of walk: each byte it may have written holds a free value (R313). -/
theorem exec_walk_corrupt {pos node n : Nat} {orig : Word64} {d : Byte} (hm : s.mem.wf)
    (hlen : out.length ≤ orig.toNat)
    (h : walk base len orig.toNat s = throwCorrupt .corruptStream d orig.toNat
      (walkAt s base len (s.mem.writeRange s.dst out) pos node n)) :
    ∃ w m n, exec (.walk base len orig) s = .next { endState s
        { s.regs with status := statusError ⟨.corruptStream, d⟩, resultLen := 0, crcCalc := 0 } w m with
        draws := n } ∧ sameOutside s.mem m s.dst orig.toNat := by
  have hend := outcome_throwErr_decode (k := .corruptStream) (d := d) rfl (by decide)
    (scramble (walkAt s base len (s.mem.writeRange s.dst out) pos node n) s.dst orig.toNat)
  rw [exec_walk, h]
  refine ⟨_, _, _, hend, fun x hx => ?_⟩
  exact (scramble_read _ _ (Memory.writeRange_wf hm) hx).trans
    (Memory.read_writeRange_outside hm (by omega))

end Walkable

/-- Settles O43: the built tree makes the state `Walkable`, and `Walkable.emits` and `Walkable.corrupts` say how
the walk ends. -/
theorem walkEmitsSymbols : Obligations.WalkEmitsSymbols := by
  intro s base len orig code out hm hbuilt h2 hct hcoded hacc hdst hdis
  obtain ⟨r, hroot, htree⟩ := isBuilt_paths hbuilt h2 hct
  have hwalk : Walkable code base len orig.toNat r s := ⟨hm, hroot, htree, hacc, hdst, hdis⟩
  refine ⟨fun hs hlen => ⟨r, ?_⟩, fun status hbad => ?_⟩
  · rw [exec_walk, hwalk.emits hcoded hs hlen]
    rfl
  · obtain ⟨d, pos, node, n, hlen, rfl, hw⟩ := hwalk.corrupts hcoded hbad
    exact exec_walk_corrupt hm hlen hw

/-! ### The command up to its tree (R300 to R307) -/

theorem exec_decode (skip : Bool) (s : State) :
    exec (.decode skip) s = outcome clearDecode (decodeCommand (s.setVerify (!skip))) := rfl

section BeforeHeader
variable {s : State} {skip : Bool}

/-- A command that ends before it reads the header reports none (R36 (d)). -/
theorem exec_decode_blank {k : ErrKind} {d : Byte} (hb : beforeHeader ⟨k, d⟩ = true)
    (h : decodeCommand (s.setVerify (!skip)) = throwErr k d (s.setVerify (!skip))) :
    exec (.decode skip) s =
      .next (decodeEnd s skip (blankRegs s.regs (statusError ⟨k, d⟩)) s.work s.mem) := by
  rw [exec_decode, h, throwErr, outcome_raised, raiseEnd_blank hb]
  rfl

/-- R301. -/
theorem decodeCommand_short (hb : buffersOk s) (hlen : s.srclen < 30) :
    decodeCommand s = throwErr .format 1 s := by
  obtain ⟨hrange, hover⟩ := checks_ok hb
  rw [decodeCommand, hrange, ok_bind, hover, ok_bind]
  exact if_pos hlen

end BeforeHeader

section HeaderCheck
variable {s : State} {h : Header}

theorem headerCheck_magic (hmag : h.magic ≠ s.par.magic) : headerCheck h s = throwErr .format 2 s :=
  if_pos hmag

theorem headerCheck_version (hmag : h.magic = s.par.magic) (hver : h.version ≠ 1) :
    headerCheck h s = throwErr .format 3 s :=
  (if_neg (not_not.2 hmag)).trans (if_pos hver)

theorem headerCheck_padding (hmag : h.magic = s.par.magic) (hver : h.version = 1)
    (hpad : 7 < h.paddingBits.toNat) : headerCheck h s = throwErr .format 4 s :=
  (if_neg (not_not.2 hmag)).trans ((if_neg (not_not.2 hver)).trans (if_pos hpad))

theorem headerCheck_passes (hmag : h.magic = s.par.magic) (hver : h.version = 1)
    (hpad : h.paddingBits.toNat ≤ 7) : headerCheck h s = .ok () :=
  (if_neg (not_not.2 hmag)).trans ((if_neg (not_not.2 hver)).trans (if_neg (Nat.not_lt.2 hpad)))

end HeaderCheck

section Parsing
variable {s : State} {skip : Bool}

/-- R300 from the header on: the checks run in the state that reports the header; `rest` is what they let
through. -/
theorem exec_decode_read (skip : Bool) (hb : buffersOk s) (hlen : 30 ≤ s.srclen)
    (hr : Reachable s.par s.src 30) : ∃ rest : Nat → State → Except Halt State,
    exec (.decode skip) s = outcome clearDecode (
      headerCheck (sourceHeader s) (decodedAt (s.setVerify (!skip)) s.work) >>= fun _ =>
      parseTable (sourceHeader s).entryCount.toNat (decodedAt (s.setVerify (!skip)) s.work) >>= fun u =>
      checkPayloadExtent (sourceHeader s).entryCount.toNat (sourceHeader s).compressedSize.toNat
        (sourceHeader s).paddingBits.toNat u >>= fun len => rest len u) := by
  obtain ⟨hrange, hover⟩ := checks_ok ((buffersOk_setVerify s (!skip)).2 hb)
  have hread := readHeader_eq (s := s.setVerify (!skip)) hr
  rw [← sourceHeader, sourceHeader_setVerify] at hread
  have hat : decodedAt (s.setVerify (!skip)) s.work =
      (s.setVerify (!skip)).setRegs (setHeaderRegs (sourceHeader s) (s.setVerify (!skip)).regs) := by
    rw [decodedAt, sourceHeader_setVerify]
    rfl
  rw [exec_decode, decodeCommand, hrange, ok_bind, hover, ok_bind, State.setVerify_srclen,
    if_neg (Nat.not_lt.2 hlen), decodeContainer, hread, ok_bind, hat]
  exact ⟨_, rfl⟩

/-! What parse_table meets in the state that reports the header is the source's. -/

theorem decodedAt_setWork (s : State) (v w : Work) : (decodedAt s v).setWork w = decodedAt s w := by
  rw [decodedAt, State.setWork_setWork, decodedAt]

theorem src_decodedAt (s : State) (b : Bool) (v : Work) : (decodedAt (s.setVerify b) v).src = s.src := by
  rw [State.src, decodedAt_latch]
  rfl

theorem srclen_decodedAt (s : State) (b : Bool) (v : Work) :
    (decodedAt (s.setVerify b) v).srclen = s.srclen := by
  rw [State.srclen, decodedAt_latch]
  rfl

theorem storedEntries_decodedAt (s : State) (b : Bool) (v : Work) :
    storedEntries (decodedAt (s.setVerify b) v).mem ((decodedAt (s.setVerify b) v).src + 30)
      (sourceHeader s).entryCount.toNat = sourceEntries s := by
  rw [decodedAt_mem, src_decodedAt, State.setVerify_mem, sourceEntries]

theorem reachable_table_decodedAt {k : Nat} (hsrc : Reachable s.par s.src s.srclen)
    (hl : 30 + 5 * k ≤ s.srclen) (b : Bool) (v : Work) : Reachable (decodedAt (s.setVerify b) v).par
      ((decodedAt (s.setVerify b) v).src + 30) (5 * k) := by
  rw [decodedAt_par, src_decodedAt]
  exact hsrc.sub (by omega) (by omega)

variable (hb : buffersOk s) (hlen : 30 ≤ s.srclen)
include hb hlen

/-- R303 to R305: a header that is refused. -/
theorem exec_decode_headerCheck {d : Byte} (hd : beforeHeader ⟨.format, d⟩ = false)
    (hr : Reachable s.par s.src 30)
    (h : headerCheck (sourceHeader s) (decodedAt (s.setVerify (!skip)) s.work) =
      throwErr .format d (decodedAt (s.setVerify (!skip)) s.work)) :
    exec (.decode skip) s = .next (decodeEnd s skip
      (reportRegs s.regs (sourceHeader s) (statusError ⟨.format, d⟩) 0 0) s.work s.mem) := by
  obtain ⟨rest, he⟩ := exec_decode_read skip hb hlen hr
  rw [he, h, throwErr_bind, raise_decodedAt _ _ _ hd (by decide)]

variable (hsrc : Reachable s.par s.src s.srclen) (hmag : (sourceHeader s).magic = s.par.magic)
  (hver : (sourceHeader s).version = 1) (hpad : (sourceHeader s).paddingBits.toNat ≤ 7)
include hsrc hmag hver hpad

/-- R306: a table that is refused. -/
theorem exec_decode_parseTable {d : Byte} (hd : beforeHeader ⟨.format, d⟩ = false)
    (h : ∃ w, parseTable (sourceHeader s).entryCount.toNat (decodedAt (s.setVerify (!skip)) s.work) =
      throwErr .format d ((decodedAt (s.setVerify (!skip)) s.work).setWork w)) :
    ∃ w, exec (.decode skip) s = .next (decodeEnd s skip
      (reportRegs s.regs (sourceHeader s) (statusError ⟨.format, d⟩) 0 0) w s.mem) := by
  obtain ⟨rest, he⟩ := exec_decode_read skip hb hlen (hsrc.sub le_rfl (by omega))
  obtain ⟨w, hw⟩ := h
  refine ⟨w, ?_⟩
  rw [he, headerCheck_passes (by rwa [decodedAt_par]) hver hpad, ok_bind, hw, throwErr_bind,
    decodedAt_setWork, raise_decodedAt _ _ _ hd (by decide)]

/-- R307: a payload extent that is refused. -/
theorem exec_decode_extent {d : Byte} (hd : beforeHeader ⟨.format, d⟩ = false)
    (hk : (sourceHeader s).entryCount.toNat ≤ 256)
    (hl : 30 + 5 * (sourceHeader s).entryCount.toNat ≤ s.srclen) (hok : tableOk (sourceEntries s))
    (h : ∀ u : State, u.srclen = s.srclen → checkPayloadExtent (sourceHeader s).entryCount.toNat
      (sourceHeader s).compressedSize.toNat (sourceHeader s).paddingBits.toNat u = throwErr .format d u) :
    ∃ w, exec (.decode skip) s = .next (decodeEnd s skip
      (reportRegs s.regs (sourceHeader s) (statusError ⟨.format, d⟩) 0 0) w s.mem) := by
  obtain ⟨rest, he⟩ := exec_decode_read skip hb hlen (hsrc.sub le_rfl (by omega))
  obtain ⟨t, seen, ht, -⟩ := parseTable_eq (s := decodedAt (s.setVerify (!skip)) s.work) hk
    (by rwa [srclen_decodedAt]) (reachable_table_decodedAt hsrc hl _ _) (by rwa [storedEntries_decodedAt])
  rw [decodedAt_setWork] at ht
  rw [he, headerCheck_passes (by rwa [decodedAt_par]) hver hpad, ok_bind, ht, ok_bind,
    h _ (srclen_decodedAt ..), throwErr_bind]
  exact ⟨_, raise_decodedAt _ _ _ hd (by decide)⟩

end Parsing

/-- Settles O46: the checks before the header is read by `checks_raise` and R301, those of its fields by
`headerCheck`'s three errors. -/
theorem decodeHeaderErrors : Obligations.DecodeHeaderErrors := by
  intro s skip status
  constructor
  · rintro (⟨h, rfl⟩ | ⟨h, rfl⟩ | ⟨h, rfl⟩ | ⟨⟨hb, hlen⟩, rfl⟩)
    · exact exec_decode_blank rfl (checks_raise (s := s.setVerify (!skip)) (.inl ⟨h, rfl⟩))
    · exact exec_decode_blank rfl (checks_raise (s := s.setVerify (!skip)) (.inr (.inl ⟨h, rfl⟩)))
    · exact exec_decode_blank rfl (checks_raise (s := s.setVerify (!skip)) (.inr (.inr ⟨h, rfl⟩)))
    · exact exec_decode_blank rfl (decodeCommand_short ((buffersOk_setVerify s (!skip)).2 hb) hlen)
  · intro hb hlen hr h
    have hpar : (decodedAt (s.setVerify (!skip)) s.work).par = s.par := decodedAt_par ..
    rw [← hpar] at h
    rcases h with ⟨hmag, rfl⟩ | ⟨⟨hmag, hver⟩, rfl⟩ | ⟨⟨hmag, hver, hpad⟩, rfl⟩
    · exact exec_decode_headerCheck hb hlen rfl hr (headerCheck_magic hmag)
    · exact exec_decode_headerCheck hb hlen rfl hr (headerCheck_version hmag hver)
    · exact exec_decode_headerCheck hb hlen rfl hr (headerCheck_padding hmag hver hpad)

/-- Settles O47: parse_table's and check_payload_extent's errors, in the state that reports the header. -/
theorem decodeTableErrors : Obligations.DecodeTableErrors := by
  rintro s skip _ _ hb hsrc hlen hmag hver hpad rfl h
  rw [← storedEntries_decodedAt s (!skip) s.work] at h
  rcases h with ⟨hk, rfl⟩ | ⟨⟨hk, hl⟩, rfl⟩ |
    ⟨hk, hl, j, e, hj, hok, ⟨h0, rfl⟩ | ⟨h0, hmem, rfl⟩⟩ |
    ⟨hk, hl, hok, ⟨h, rfl⟩ | ⟨h, rfl⟩ | ⟨⟨h, hcs, hp⟩, rfl⟩⟩
  · exact exec_decode_parseTable hb hlen hsrc hmag hver hpad rfl (parseTable_tooMany hk)
  · exact exec_decode_parseTable hb hlen hsrc hmag hver hpad rfl
      (parseTable_truncated hk (by rwa [srclen_decodedAt]))
  · exact exec_decode_parseTable hb hlen hsrc hmag hver hpad rfl
      (parseTable_zeroFrequency hk (by rwa [srclen_decodedAt])
        (reachable_table_decodedAt hsrc hl _ _) hj hok h0)
  · exact exec_decode_parseTable hb hlen hsrc hmag hver hpad rfl
      (parseTable_repeatedSymbol hk (by rwa [srclen_decodedAt])
        (reachable_table_decodedAt hsrc hl _ _) hj hok h0 hmem)
  all_goals rw [storedEntries_decodedAt] at hok
  · exact exec_decode_extent hb hlen hsrc hmag hver hpad rfl hk hl hok
      fun u hu => checkPayloadExtent_truncated (hu ▸ h)
  · exact exec_decode_extent hb hlen hsrc hmag hver hpad rfl hk hl hok
      fun u hu => checkPayloadExtent_trailing (hu ▸ h)
  · exact exec_decode_extent hb hlen hsrc hmag hver hpad rfl hk hl hok
      fun u hu => checkPayloadExtent_padding (hu.trans h) hcs hp

/-! ### The size of the output (R308, R309) -/

/-- The tree of an accepted table is empty exactly when the table is. -/
theorem root_eq_none_iff {v : Work} {es : List (Byte × Word32)} (hv : isBuilt v)
    (ht : IsTableOf v.freq es) (hok : tableOk es) : v.root = none ↔ es = [] := by
  rw [(isBuilt_tree hv).1, ← List.length_eq_zero_iff, (ht.perm hok).length_eq, List.length_eq_zero_iff]

/-- Settles O48: the two checks after the tree, on the tree of the source's table. -/
theorem decodeSizeErrors : Obligations.DecodeSizeErrors := by
  intro s skip status hb hsrc hc h
  obtain ⟨_, v, ht, hv, rfl, he⟩ := decode_parsed (skip := skip) hb hc hsrc
  obtain ⟨-, -, -, -, -, -, hok, -⟩ := hc
  have hroot := root_eq_none_iff hv ht hok
  refine ⟨v, ?_⟩
  rcases h with ⟨⟨hnil, horig⟩, rfl⟩ | ⟨⟨hne, hcap⟩, rfl⟩
  · rw [he, if_pos ⟨hroot.2 hnil, fun h0 => horig (BitVec.eq_of_toNat_eq h0)⟩,
      raise_decodedAt _ _ _ rfl (by decide)]
    rfl
  · rw [he, if_neg fun h => hne (hroot.1 h.1), if_pos hcap, raise_decodedAt _ _ _ rfl (by decide)]
    rfl

/-! ### The output and its verification (R310 to R313) -/

/-- DECODE has written these bytes at `dst` and goes on to their verification (R312). -/
def Emits (skip : Bool) (s : State) (out : List Byte) : Prop :=
  ∃ v w, exec (.decode skip) s = outcome clearDecode (
    verifyOutput out (sourceHeader s).checksum (sourceHeader s).originalSize.toNat
      (((decodedAt (s.setVerify (!skip)) v).setWork w).setMem (s.mem.writeRange s.dst out)) >>= fun u =>
        .ok (complete (sourceHeader s).originalSize.toNat u))

/-- R310 from the first symbol on. -/
theorem fillLoop_first {s : State} {sym : Byte} {n node : Nat} {w : Work}
    (hr : Reachable s.par s.dst n) : fillLoop sym n (s.setWork (w.setWk ⟨node, 0⟩)) =
      .ok (List.replicate n sym, (s.setWork (w.setWk ⟨node, n⟩)).setMem
        (s.mem.writeRange s.dst (List.replicate n sym))) := by
  have hfill := fillLoop_eq (sym := sym) (n := n) (s := s.setWork (w.setWk ⟨node, 0⟩)) hr
  simp only [State.setWork_dst, State.setWork_work, Work.setWk_wk, Nat.add_zero, Nat.zero_add,
    State.setWork_mem] at hfill
  exact hfill

section Emits
variable {s : State} {skip : Bool} {out : List Byte}

theorem Emits.completes (h : Emits skip s out)
    (hv : skip = true ∨ refCrc32 out = (sourceHeader s).checksum) :
    ∃ w, exec (.decode skip) s = .next (decodeEnd s skip
      (reportRegs s.regs (sourceHeader s) 0x2 (sourceHeader s).originalSize
        (if skip then 0 else (refCrc32 out).zeroExtend 64)) w (s.mem.writeRange s.dst out)) := by
  obtain ⟨v, w, he⟩ := h
  obtain ⟨w', hw⟩ := verify_complete s v skip w (s.mem.writeRange s.dst out) out
    (sourceHeader s).originalSize.toNat hv
  refine ⟨w', ?_⟩
  rw [he, hw, BitVec.ofNat_toNat, BitVec.setWidth_eq]

theorem Emits.mismatches (h : Emits false s out) (hm : s.mem.wf)
    (hlen : out.length = (sourceHeader s).originalSize.toNat)
    (hv : refCrc32 out ≠ (sourceHeader s).checksum) :
    ∃ w m n, exec (.decode false) s = .next { decodeEnd s false
        (reportRegs s.regs (sourceHeader s) 0x136 0 ((refCrc32 out).zeroExtend 64)) w m with draws := n } ∧
      sameOutside s.mem m s.dst (sourceHeader s).originalSize.toNat := by
  obtain ⟨v, w, he⟩ := h
  obtain ⟨w', m, n, hend, hsame⟩ := mismatch_at s v w (s.mem.writeRange s.dst out) out
    (sourceHeader s).originalSize.toNat (Memory.writeRange_wf hm) hv
  refine ⟨w', m, n, he.trans hend, fun x hx => ?_⟩
  rw [hsame x hx, Memory.read_writeRange_outside hm (by rwa [hlen])]

variable (hb : buffersOk s) (hsrc : Reachable s.par s.src s.srclen) (hc : containerOk s)
include hb hsrc hc

/-- R308: nothing is emitted from the empty tree. -/
theorem emits_empty (he : sourceEntries s = []) (ho : (sourceHeader s).originalSize.toNat = 0) :
    Emits skip s [] := by
  obtain ⟨v, hv⟩ := decode_empty (skip := skip) hb hsrc hc he ho
  exact ⟨v, v, hv⟩

variable (hcap : (sourceHeader s).originalSize.toNat ≤ s.cap)
  (hdst : Reachable s.par s.dst (sourceHeader s).originalSize.toNat)
include hcap hdst

/-- R310: the single leaf's symbol. -/
theorem emits_fill {e : Byte × Word32} (he : sourceEntries s = [e]) :
    Emits skip s (List.replicate (sourceHeader s).originalSize.toNat e.1) := by
  obtain ⟨v, hv⟩ := decode_fills (skip := skip) hb hsrc hc he hcap
  rw [fillLoop_first (by rwa [decodedAt_par, decodedAt_dst]), ok_bind, decodedAt_mem, decodedAt_dst,
    State.setVerify_mem, State.setVerify_dst] at hv
  dsimp only at hv
  exact ⟨v, _, hv⟩

section Walked
variable {freq : Table Word32} {code : Table (Option Bits)} (hm : s.mem.wf)
  (ht : IsTableOf freq (sourceEntries s)) (h2 : 2 ≤ (sourceEntries s).length)
  (hct : isCodeTable freq code) (hcoded : coded code out)
include hm ht h2 hct

/-- R311: DECODE walks the tree of the source's table. -/
theorem decode_walkable (skip : Bool) : ∃ v r, Walkable code (sourcePayload s) (sourceL s)
      (sourceHeader s).originalSize.toNat r (decodedAt (s.setVerify (!skip)) v) ∧
    exec (.decode skip) s = outcome clearDecode (
      walk (sourcePayload s) (sourceL s) (sourceHeader s).originalSize.toNat
        (decodedAt (s.setVerify (!skip)) v)
      >>= fun p => verifyOutput p.1 (sourceHeader s).checksum
        (sourceHeader s).originalSize.toNat p.2 >>= fun u =>
          .ok (complete (sourceHeader s).originalSize.toNat u)) := by
  obtain ⟨v, r, tl, tr, he, hroot, htree, hcodes, hacc⟩ :=
    decode_walks (skip := skip) hb hsrc hc ht h2 hct hcap
  refine ⟨v, r, ⟨?_, ?_, ⟨tl, tr, ?_, hcodes⟩, ?_, ?_, ?_⟩, he⟩
  · rwa [decodedAt_mem]
  · rwa [decodedAt_work]
  · rwa [decodedAt_work]
  · rwa [decodedAt_par]
  · rwa [decodedAt_par, decodedAt_dst]
  · rw [decodedAt_dst]
    exact payload_disjoint hb hc hcap

include hcoded

/-- R311: the symbols whose codes are the stream. -/
theorem emits_walk (hs : sourceStream s = messageBits code out)
    (hlen : out.length = (sourceHeader s).originalSize.toNat) : Emits skip s out := by
  obtain ⟨v, r, hwalk, he⟩ := decode_walkable hb hsrc hc hcap hdst hm ht h2 hct skip
  rw [hwalk.emits hcoded (by rwa [decodedAt_mem]) hlen, ok_bind, walkAt_decodedAt, decodedAt_mem,
    decodedAt_dst] at he
  exact ⟨v, _, he⟩

/-- R311, R313: bits left over, or missing. -/
theorem exec_decode_corrupt {status : Word64}
    (hbad : (∃ rest, rest ≠ [] ∧ sourceStream s = messageBits code out ++ rest ∧
        out.length = (sourceHeader s).originalSize.toNat) ∧ status = 0x326 ∨
      (∃ p c sym, c ≠ [] ∧ sourceStream s = messageBits code out ++ p ∧
        tget code sym = some (p ++ c) ∧ out.length < (sourceHeader s).originalSize.toNat) ∧
          status = 0x126) :
    ∃ w m n, exec (.decode skip) s = .next { decodeEnd s skip
        (reportRegs s.regs (sourceHeader s) status 0 0) w m with draws := n } ∧
      sameOutside s.mem m s.dst (sourceHeader s).originalSize.toNat := by
  obtain ⟨v, r, hwalk, he⟩ := decode_walkable hb hsrc hc hcap hdst hm ht h2 hct skip
  obtain ⟨d, pos, node, n, hlen, rfl, hw⟩ := hwalk.corrupts hcoded (by rwa [decodedAt_mem])
  rw [hw, walkAt_decodedAt, decodedAt_mem, decodedAt_dst] at he
  obtain ⟨m, n, hend, hsame⟩ := corrupt_at s v skip _ (s.mem.writeRange s.dst out) d
    (sourceHeader s).originalSize.toNat (Memory.writeRange_wf hm) _
  refine ⟨_, m, n, he.trans hend, fun x hx => ?_⟩
  rw [hsame x hx, Memory.read_writeRange_outside hm (by omega)]

end Walked
end Emits

/-- Settles O44: the walk emits the message (`emits_walk`), and R312 passes. -/
theorem decodeEmitsMessage : Obligations.DecodeEmitsMessage := by
  intro s skip freq code out hm hb hsrc hc ht h2 hct hcoded hs hlen hcap hdst hv
  rw [hlen] at hcap hdst
  exact (emits_walk hb hsrc hc hcap hdst hm ht h2 hct hcoded hs hlen).completes hv

/-- R308, R310: an empty table gives no byte, a table of one symbol that symbol. -/
theorem emits_withoutWalk {s : State} {skip : Bool} {out : List Byte} (hb : buffersOk s)
    (hsrc : Reachable s.par s.src s.srclen) (hc : containerOk s)
    (hcap : (sourceHeader s).originalSize.toNat ≤ s.cap)
    (hdst : Reachable s.par s.dst (sourceHeader s).originalSize.toNat)
    (hlen : out.length = (sourceHeader s).originalSize.toNat)
    (h : sourceEntries s = [] ∧ out = [] ∨
      ∃ e, sourceEntries s = [e] ∧ out = List.replicate out.length e.1) : Emits skip s out := by
  rcases h with ⟨he, rfl⟩ | ⟨e, he, hout⟩
  · exact emits_empty hb hsrc hc he hlen.symm
  · rw [hout, hlen]
    exact emits_fill hb hsrc hc hcap hdst he

/-- Settles O45: the fill and the empty table emit (`emits_withoutWalk`), and R312 passes. -/
theorem decodeWithoutWalk : Obligations.DecodeWithoutWalk := by
  intro s skip out hm hb hsrc hc h hlen hcap hdst hv
  rw [hlen] at hcap hdst
  exact (emits_withoutWalk hb hsrc hc hcap hdst hlen h).completes hv

/-- Settles O49: CORRUPT_STREAM by `exec_decode_corrupt`; a mismatch follows the output on each path. -/
theorem decodeStreamErrors : Obligations.DecodeStreamErrors := by
  rintro s skip freq code out status crc hm hb hsrc hc hcap hdst
    (⟨ht, h2, hct, hcoded, h⟩ | ⟨⟨hpath, hlen, rfl, hv⟩, rfl, rfl⟩)
  · rcases h with ⟨h, rfl, rfl⟩ | ⟨h, rfl, rfl⟩
    · exact exec_decode_corrupt hb hsrc hc hcap hdst hm ht h2 hct hcoded (.inl ⟨h, rfl⟩)
    · exact exec_decode_corrupt hb hsrc hc hcap hdst hm ht h2 hct hcoded (.inr ⟨h, rfl⟩)
  · refine Emits.mismatches ?_ hm hlen hv
    rcases hpath with ⟨ht, h2, hct, hcoded, hs⟩ | hfill | hempty
    · exact emits_walk hb hsrc hc hcap hdst hm ht h2 hct hcoded hs hlen
    · exact emits_withoutWalk hb hsrc hc hcap hdst hlen (.inr hfill)
    · exact emits_withoutWalk hb hsrc hc hcap hdst hlen (.inl hempty)

end Sys2Proof.Machine

/-! ## Control: issue, the core's turn, NOP and illegal words (R350 to R357) -/

namespace Sys2Proof.Machine

/-! ### Whose turn it is (R350, R353) -/

/-- On the core's turn a step is the latched word's instruction. -/
theorem step_of_coreTurn {s : State} (h : coreTurn s = true) :
    step s = exec (decodeWord s.latch.cmd) s := if_pos h

/-- withFetchWord is the issue of that word, with no host move left (log entry 8). -/
theorem withFetchWord_toNat (s : State) (w : Word64) :
    s.withFetchWord 64 w.toNat = latchCommand w 0 s := by
  rw [State.withFetchWord, placeCommand, Nat.mod_eq_of_lt w.isLt, BitVec.ofNat_toNat, BitVec.setWidth_eq]

/-- Settles O13: `coreTurn_iff` says whose turn it is, and `decode_leBytes` that the bytes of the latched word
decode as the word does. -/
theorem stepRunsDecodedCommand : Obligations.StepRunsDecodedCommand := by
  refine ⟨fun s i hbusy hleft hstuck hdecode => ?_, fun s hhost => ?_, fun s w => ?_⟩
  · have hword := decode_leBytes s.latch.cmd []
    rw [List.append_nil, hdecode] at hword
    cases hword
    exact step_of_coreTurn (coreTurn_iff.2 ⟨hbusy, hleft, hstuck⟩)
  · have hturn : ¬ coreTurn s = true := fun hc => by
      obtain ⟨hbusy, hleft, hstuck⟩ := coreTurn_iff.1 hc
      rcases hhost with h | h | h
      · simp [hbusy] at h
      · exact h hleft
      · exact h hstuck
    rw [step, if_neg hturn]
    rfl
  · rw [withFetchWord_toNat]
    exact step_of_coreTurn (coreTurn_iff.2 ⟨rfl, rfl, rfl⟩)

/-! ### Issue (R352) -/

theorem hostMove_wr (r : Reg) (v : Word64) (rest : List HostOp) (s : State) :
    hostMove (.wr r v) rest s = .next (writeReg r v (s.setInbox rest)) := rfl

/-- Settles O51: a write of CMD while IDLE is `issue`, whose latency and draw are the free values. -/
theorem issueLatchesOperands : Obligations.IssueLatchesOperands := by
  intro s rest w hidle
  refine ⟨Config.latency s.draws, s.draws + 1, ?_⟩
  rw [hostMove_wr, writeReg_idle (by exact hidle)]
  rfl

/-! ### NOP and illegal words (R356, R357) -/

/-- Settles O52: NOP is the end of a command and nothing else. -/
theorem nopEnds : Obligations.NopEnds := fun _ => rfl

/-- ILLEGAL_CMD's STATUS word for each of R357's two details. -/
theorem statusError_illegalDetail (w : Word64) : statusError ⟨.illegalCmd, illegalDetail w⟩ =
    if w.toNat % 256 ≠ 0 ∧ w.toNat % 256 ≠ 1 ∧ w.toNat % 256 ≠ 2 then 0x176 else 0x276 := by
  simp only [illegalDetail, cmdBadOpcode_iff]
  split_ifs <;> rfl

/-- Settles O53: ILLEGAL_CMD clears nothing (`clearNothing`), and its word is `statusError_illegalDetail`. -/
theorem illegalCommandEnds : Obligations.IllegalCommandEnds := by
  intro s w
  rw [← statusError_illegalDetail]
  rfl

end Sys2Proof.Machine

/-! ## The checksum of a byte sequence (R245) -/

namespace Sys2Proof.Machine

/-- A run of crc_update is `crcRun`. -/
theorem runAll_crcUpdates (bs : List Byte) (is : List Instr) (s : State) :
    runAll (bs.map .crcUpdate ++ is) s = runAll is (s.setWork (crcRun bs s.work)) := by
  induction bs generalizing s with
  | nil => rfl
  | cons b bs ih =>
    rw [List.map_cons, List.cons_append, runAll_cons (exec_crcUpdate b s)]
    exact ih _

/-- Settles O34: the run is `crcRun` between init and final, which `crc_eq` says is the bitwise CRC32. -/
theorem crcOfBytes : Obligations.CrcOfBytes := by
  refine ⟨fun s bs => ⟨(crcRun bs (crcInit s.work)).crcReg, ?_⟩, by decide +kernel, by decide⟩
  have hinit : exec .crcInit s = .next (s.setWork (crcInit s.work)) := rfl
  rw [List.cons_append, runAll_cons hinit, runAll_crcUpdates, runAll_singleton, exec_crcFinal,
    State.setWork_work, ← crc_eq bs s.work, crcRun_eq]
  rfl

end Sys2Proof.Machine

/-! ## The order of extraction (R147) -/

namespace Sys2Proof.Machine

/-- Two queues of the same indices, with the same frequencies. -/
structure SameQueue (v w : Work) : Prop where
  okLeft : PqOk v
  okRight : PqOk w
  pq : v.pq = w.pq
  freq : ∀ j ∈ v.pq, freqAt v.nodes j = freqAt w.nodes j

/-- The least index of one queue is the other's: both precede every other index, in one order. -/
theorem SameQueue.least_eq {v w v' w' : Work} {m k : Nat} (h : SameQueue v w)
    (hv : pqExtractMin v = .ok (m, v')) (hw : pqExtractMin w = .ok (k, w')) : m = k := by
  obtain ⟨hm, -, hleastV, -⟩ := pqExtractMin_eq_ok hv
  obtain ⟨hk, -, hleastW, -⟩ := pqExtractMin_eq_ok hw
  by_contra hne
  have hmk : precedes v.nodes m k := precedes_iff.2 (hleastV k (h.pq ▸ hk) (Ne.symm hne))
  have hkm : precedes w.nodes k m := precedes_iff.2 (hleastW m (h.pq ▸ hm) hne)
  rw [precedes, h.freq m hm, h.freq k (h.pq ▸ hk)] at hmk
  exact precedes_asymm hmk hkm

/-- Extraction from two such queues returns one index and leaves two such queues. -/
theorem SameQueue.extract {v w : Work} (h : SameQueue v w) (hne : v.pq ≠ []) :
    ∃ m v' w', pqExtractMin v = .ok (m, v') ∧ pqExtractMin w = .ok (m, w') ∧ SameQueue v' w' := by
  obtain ⟨m, v', hv⟩ := pqExtractMin_completes hne h.okLeft.alloc
  obtain ⟨k, w', hw⟩ := pqExtractMin_completes (h.pq ▸ hne) h.okRight.alloc
  obtain rfl := h.least_eq hv hw
  have hokV := pqExtractMin_keeps h.okLeft hv
  have hokW := pqExtractMin_keeps h.okRight hw
  obtain ⟨-, -, -, rfl⟩ := pqExtractMin_eq_ok hv
  obtain ⟨-, -, -, rfl⟩ := pqExtractMin_eq_ok hw
  exact ⟨m, _, _, hv, hw, hokV, hokW, congrArg (List.erase · m) h.pq,
    fun j hj => h.freq j (List.mem_of_mem_erase hj)⟩

theorem drain_empty {s : State} (h : s.work.pq = []) (n : Nat) : drain n s = [] := by
  cases n with
  | zero => rfl
  | succ n => rw [drain, exec_pqExtractMin_error (pqExtractMin_empty h)]

theorem drain_succ {s : State} {m : Nat} {v : Work} (h : pqExtractMin s.work = .ok (m, v)) (n : Nat) :
    drain (n + 1) s = m :: drain n ((s.setWork v).setRet (.node m)) := by
  rw [drain, exec_pqExtractMin_ok h]
  rfl

/-- What extraction returns depends on the indices queued and their frequencies alone. -/
theorem drain_congr {s t : State} (h : SameQueue s.work t.work) (n : Nat) : drain n s = drain n t := by
  induction n generalizing s t with
  | zero => rfl
  | succ n ih =>
    by_cases hne : s.work.pq = []
    · rw [drain_empty hne, drain_empty (h.pq ▸ hne)]
    · obtain ⟨m, v, w, hv, hw, hvw⟩ := h.extract hne
      rw [drain_succ hv, drain_succ hw]
      exact congrArg (m :: ·) (ih hvw)

/-! ### The order of insertion -/

theorem insertAsc_comm {i j : Nat} {l : List Nat} (h : l.Pairwise (· < ·)) :
    insertAsc j (insertAsc i l) = insertAsc i (insertAsc j l) :=
  asc_ext (insertAsc_pairwise (insertAsc_pairwise h)) (insertAsc_pairwise (insertAsc_pairwise h))
    fun x => by simp only [mem_insertAsc, or_left_comm]

theorem exec_pqInsert_next {i : Nat} {s t : State} :
    exec (.pqInsert i) s = .next t ↔ ∃ w, pqInsert i s.work = .ok w ∧ t = s.setWork w := by
  rw [exec_pqInsert]
  cases pqInsert i s.work with
  | ok w => simp [eq_comm]
  | error f => simp

/-- Two insertions change places. -/
theorem pqInsert_swap {i j : Nat} {w v u : Work} (hasc : w.pq.Pairwise (· < ·))
    (hi : pqInsert i w = .ok v) (hj : pqInsert j v = .ok u) :
    ∃ v', pqInsert j w = .ok v' ∧ pqInsert i v' = .ok u := by
  obtain ⟨hcap, hialloc, hinew, rfl⟩ := pqInsert_eq_ok.1 hi
  obtain ⟨hcap', hjalloc, hjnew, rfl⟩ := pqInsert_eq_ok.1 hj
  simp only [Work.setPq_pq, Work.setPq_nodes, mem_insertAsc, not_or, insertAsc_length hinew,
    Work.setPq_setPq] at hcap' hjalloc hjnew ⊢
  refine ⟨w.setPq (insertAsc j w.pq), pqInsert_eq_ok.2 ⟨hcap, hjalloc, hjnew.2, rfl⟩,
    pqInsert_eq_ok.2 ⟨?_, hialloc, ?_, ?_⟩⟩
  · rwa [Work.setPq_pq, insertAsc_length hjnew.2]
  · rw [Work.setPq_pq, mem_insertAsc, not_or]
    exact ⟨Ne.symm hjnew.1, hinew⟩
  · rw [Work.setPq_setPq, Work.setPq_pq, insertAsc_comm hasc]

theorem runAll_cons_next {i : Instr} {is : List Instr} {s t : State} :
    runAll (i :: is) s = .next t ↔ ∃ u, exec i s = .next u ∧ runAll is u = .next t := by
  rw [runAll]
  cases exec i s <;> simp

/-- The order of insertion is lost: every order of the same indices leaves one state. -/
theorem runAll_pqInsert_perm {is js : List Nat} (hp : is.Perm js) {s t : State} (hs : QueueOk s)
    (h : runAll (is.map .pqInsert) s = .next t) : runAll (js.map .pqInsert) s = .next t := by
  induction hp generalizing s with
  | nil => exact h
  | cons i _ ih =>
    rw [List.map_cons, runAll_cons_next] at h ⊢
    obtain ⟨u, hu, h⟩ := h
    obtain ⟨w, hw, rfl⟩ := exec_pqInsert_next.1 hu
    have hok : QueueOk (s.setWork w) := (pqInsert_ok hs hw).1
    exact ⟨_, hu, ih hok h⟩
  | swap i j l =>
    simp only [List.map_cons, runAll_cons_next, exec_pqInsert_next] at h ⊢
    obtain ⟨_, ⟨v, hj, rfl⟩, _, ⟨u, hi, rfl⟩, h⟩ := h
    obtain ⟨v', hi', hj'⟩ := pqInsert_swap hs.pqOk.asc hj hi
    exact ⟨_, ⟨v', hi', rfl⟩, _, ⟨u, hj', rfl⟩, h⟩
  | trans _ _ ih₁ ih₂ => exact ih₂ hs (ih₁ hs h)

/-- Settles O17: the two queues are one list (`asc_ext`), from which `drain_congr` extracts alike; and the
order of insertion is lost (`runAll_pqInsert_perm`). -/
theorem extractOrderOfContent : Obligations.ExtractOrderOfContent := by
  constructor
  · intro s t n hs ht hmem hfreq
    exact drain_congr ⟨hs.pqOk, ht.pqOk, asc_ext hs.pqOk.asc ht.pqOk.asc hmem, hfreq⟩ n
  · intro s t is js n hs hp h
    exact ⟨t, runAll_pqInsert_perm hp hs h, rfl⟩

end Sys2Proof.Machine

/-! ## The codes of a built tree (R184, R185) -/

namespace Sys2Proof.Machine

/-- In a tree with distinct symbols no code begins another symbol's. -/
theorem Tree.codes_free {t : Tree} (hn : (t.leaves.map Prod.fst).Nodup) :
    ∀ d ∈ t.codes, ∀ e ∈ t.codes, d.2 <+: e.2 → d.1 = e.1 := by
  intro d hd e he h
  cases t with
  | leaf s f =>
    rw [Tree.codes, List.mem_singleton] at hd he
    rw [hd, he]
  | node l r => rw [Tree.paths_free hn d hd e he h]

theorem CodesOk.codes_free {w : Work} {t : Option Tree} (h : CodesOk w t) {a b : Byte} {p q : Bits}
    (hp : tget w.code a = some p) (hq : tget w.code b = some q) (hpq : p <+: q) : a = b := by
  obtain ⟨u, rfl, ha⟩ := h.tget_iff.1 hp
  obtain ⟨_, heq, hb⟩ := h.tget_iff.1 hq
  obtain rfl := Option.some.inj heq
  have hn := h.syms_nodup
  rw [Tree.codes_syms] at hn
  exact Tree.codes_free hn _ ha _ hb hpq

theorem sum_listed_codes (code : Table (Option Bits)) (g : Bits → Nat) (l : List Byte) :
    ((l.filterMap fun b => (tget code b).map (b, ·)).map fun e => g e.2).sum =
      (l.map fun b => (tget code b).elim 0 g).sum := by
  induction l with
  | nil => rfl
  | cons b l ih => cases hb : tget code b <;> simp [hb, ih]

/-- A sum over the symbols' codes is the sum over a list of the codes. -/
theorem sum_over_codes {code : Table (Option Bits)} {es : List (Byte × Bits)} (g : Bits → Nat)
    (hn : (es.map Prod.fst).Nodup) (hes : ∀ b p, tget code b = some p ↔ (b, p) ∈ es) :
    (allSymbols.map fun b => (tget code b).elim 0 g).sum = (es.map fun e => g e.2).sum := by
  have hperm : es.Perm (allSymbols.filterMap fun b => (tget code b).map (b, ·)) := by
    have hsyms : allSymbols.Nodup := allSymbols_pairwise.imp fun h he => h.ne (congrArg _ he)
    refine (List.perm_ext_iff_of_nodup hn.of_map (hsyms.filterMap ?_)).2 fun ⟨b, p⟩ => ?_
    · simp +contextual [Option.map_eq_some_iff]
    · simp [← hes, mem_allSymbols, Option.map_eq_some_iff]
  rw [(hperm.map _).sum_eq, sum_listed_codes]

/-- R185: the codes of a tree of two symbols or more fill the code space. -/
theorem CodesOk.kraft {w : Work} {t : Option Tree} (h : CodesOk w t) (h2 : 2 ≤ (counted w.freq).length) :
    (allSymbols.map fun b => (tget w.code b).elim 0 fun p => 2 ^ (255 - p.length)).sum = 2 ^ 255 := by
  have hroot := h.root
  cases t with
  | none => simp [hroot.2] at h2
  | some u =>
    obtain ⟨r, -, -, hl⟩ := hroot
    have hlen : u.leaves.length = (counted w.freq).length := by
      rw [hl.length_eq, countedLeaves_length]
    have hdepth := u.depth_lt
    have hcount := counted_length w.freq
    rw [sum_over_codes _ h.syms_nodup fun b p => by simp [h.tget_iff]]
    cases u with
    | leaf s f => rw [← hlen] at h2; simp [Tree.leaves] at h2
    | node l r => exact Tree.kraft _ _ (by omega)

/-- Settles O24: who has a code and how long by `isCodeTable.coded_iff`; `CodesOk.codes_free` and
`CodesOk.kraft` follow from the tree's paths. -/
theorem codesArePrefixFree : Obligations.CodesArePrefixFree := by
  intro s hbuilt
  obtain ⟨c, t, hgen, hok, htable⟩ := generateCodes_built hbuilt
  obtain ⟨hnone, hlen⟩ := htable.coded_iff
  refine ⟨s.setWork (s.work.setCode c), ?_, hnone, hlen,
    fun a b p q hp hq hab hpq => hab (hok.codes_free hp hq hpq), fun h2 => ?_⟩
  · rw [exec_generateCodes, hgen, workOutcome_ok]
  · rw [refLeaves_length] at h2
    rw [← hok.kraft h2, allSymbols, List.map_map]
    refine congrArg List.sum (List.map_congr_left fun x _ => ?_)
    simp only [Function.comp_apply, State.setWork_work]
    cases tget (s.work.setCode c).code (BitVec.ofNat 8 x) <;> rfl

end Sys2Proof.Machine

/-! ## Every command ends (R354, R355, R463) -/

namespace Sys2Proof.Machine

/-! ### Operations that neither stick nor fault -/

/-- An operation answers a result with `Q`, or raises; the core is not stuck in it and it has no fault. -/
def Answers {α : Type} (Q : α → Prop) : Except Halt α → Prop
  | .ok a => Q a
  | .error (.raised _ _) => True
  | .error _ => False

section Answers
variable {α β : Type} {Q : α → Prop} {P : β → Prop} {x : Except Halt α} {f : α → Except Halt β}

theorem Answers.bind (hx : Answers Q x) (hf : ∀ a, x = .ok a → Q a → Answers P (f a)) :
    Answers P (x >>= f) := by
  cases x with
  | ok a => exact hf a rfl hx
  | error h => cases h <;> exact hx

theorem Answers.mono {Q' : α → Prop} (hx : Answers Q x) (hQ : ∀ a, Q a → Q' a) : Answers Q' x := by
  cases x with
  | ok a => exact hQ a hx
  | error h => cases h <;> exact hx

/-- What `Post` says of the result, of an operation that answers. -/
theorem Answers.and_post {Q' : α → Prop} {R : Halt → Prop} (hx : Answers Q x) (hp : Post Q' R x) :
    Answers (fun a => Q a ∧ Q' a) x := by
  cases x with
  | ok a => exact ⟨hx, hp⟩
  | error h => cases h <;> exact hx

/-- R65 and R66 raise where the buffers are not ones they let through. -/
theorem answers_checks {s : State} {f : Except Halt β} (hf : buffersOk s → Answers P f) :
    Answers P (rangeCheck s >>= fun _ => overlapCheck s >>= fun _ => f) := by
  have hrange : Answers (fun _ => True) (rangeCheck s) := by
    rw [rangeCheck]
    split_ifs <;> trivial
  have hoverlap : Answers (fun _ => True) (overlapCheck s) := by
    rw [overlapCheck]
    split_ifs <;> trivial
  refine hrange.bind fun _ hr _ => hoverlap.bind fun _ ho _ => hf ?_
  obtain ⟨h1, h2, h3, h4⟩ := rangeCheck_eq_ok.1 hr
  exact ⟨h1, h2, h3, h4, overlapCheck_eq_ok.1 ho⟩

end Answers

/-! ### The end of a command -/

/-- A command has ended: idle, DONE, not BUSY, with a STATUS word of R401 and R402. -/
def Ended (t : State) : Prop :=
  t.phase = .idle ∧ t.regs.status ∈ statusWords ∧ t.regs.status.getLsbD 0 = false ∧
    t.regs.status.getLsbD 1 = true

theorem ended_endCommand {status : Word64} (s : State) (h : status ∈ statusWords ∧
    status.getLsbD 0 = false ∧ status.getLsbD 1 = true) : Ended (endCommand status s) := ⟨rfl, h⟩

theorem ended_complete (len : Nat) (s : State) : Ended (complete len s) :=
  ended_endCommand _ (by decide)

theorem statusError_flags (e : Err) :
    (statusError e).getLsbD 0 = false ∧ (statusError e).getLsbD 1 = true := by
  simp [statusError]

theorem ended_raiseEnd {e : Err} (he : e.legal) (clear : Err → Regs → Regs) (s : State) :
    Ended (raiseEnd clear e s) := ended_endCommand _ ⟨he, statusError_flags e⟩

/-- A command that answers ends, with success or with the error it raised. -/
theorem Answers.ends {Q : State → Prop} {s : State} {x : Except Halt State} (hx : Answers Q x)
    (hends : EndsPost s x) (clear : Err → Regs → Regs) : ∃ t, outcome clear x = .next t ∧ Ended t := by
  cases x with
  | ok t =>
    obtain ⟨u, len, -, rfl⟩ := hends
    exact ⟨_, rfl, ended_complete len u⟩
  | error h =>
    cases h with
    | raised e u => exact ⟨_, rfl, ended_raiseEnd hends.2 clear u⟩
    | _ => exact hx.elim

/-! ### ENCODE -/

/-- ENCODE of accepted buffers that are backed counts, or a count overflows; then it writes the container, or
raises for want of room. -/
theorem answers_encodeCommand {s : State} (hm : s.mem.wf)
    (hback : buffersOk s → Reachable s.par s.src s.srclen ∧ Reachable s.par s.dst s.cap) :
    Answers (fun _ => True) (encodeCommand s) := by
  by_cases hb : buffersOk s
  · obtain ⟨hsrc, hdst⟩ := hback hb
    by_cases hfit : ∀ b, (sourceBytes s).count b < 2 ^ 32
    · obtain ⟨_, v, u, tree, hcounts, hv, hu, hok, rfl, hend⟩ := encodeCommand_eq hm hb hsrc hfit
      rcases Nat.lt_or_ge s.cap (30 + 5 * (counted u.freq).length +
        ((messageBits u.code (sourceBytes s)).length + 7) / 8) with hcap | hcap
      · rw [← refLeaves_length] at hcap
        obtain ⟨w, hw⟩ :=
          encodeCommand_resource hb hsrc hcounts (hok.isCodeTable_of_build hv hu) hcap
        rw [hw]
        trivial
      · obtain ⟨w, hw, -⟩ := hend _ _ rfl rfl hcap (hdst.sub le_rfl (by omega)) _ rfl
        rw [hw]
        trivial
    · obtain ⟨w, hw⟩ := encodeCommand_overflow hb hsrc (by simpa using hfit)
      rw [hw]
      trivial
  · exact answers_checks fun h => absurd h hb

/-! ### DECODE -/

section WritesIn
variable {n : Nat} {s t : State}

theorem WritesIn.src (h : WritesIn n s t) : t.src = s.src := congrArg (·.src.toNat) h.latch
theorem WritesIn.srclen (h : WritesIn n s t) : t.srclen = s.srclen := congrArg (·.srclen.toNat) h.latch

end WritesIn

theorem answers_headerCheck (h : Header) (s : State) : Answers (fun _ => True) (headerCheck h s) := by
  rw [headerCheck]
  split_ifs <;> trivial

theorem answers_parseEntry {a : Nat} {s : State} (hr : Reachable s.par a 5) :
    Answers (fun _ => True) (parseEntry a s) := by
  rw [parseEntry_eq hr]
  split_ifs <;> trivial

theorem answers_parseLoop {k a : Nat} {s : State} (hr : Reachable s.par a (5 * k)) :
    Answers (fun _ => True) (parseLoop a k s) := by
  induction k generalizing a s with
  | zero => trivial
  | succ k ih =>
    have hentry : Answers (fun _ => True) (parseEntry a s) :=
      answers_parseEntry (hr.sub le_rfl (by omega))
    refine (hentry.and_post (writes_parseEntry (n := 0) a .refl)).bind fun u _ ⟨_, hu⟩ => ih ?_
    rw [hu.par, Config.entrySize]
    exact hr.sub (by omega) (by omega)

/-- A table that parse_table accepts lies in the source. -/
theorem answers_parseTable {s : State} (k : Nat) (hr : Reachable s.par s.src s.srclen) :
    Answers (fun _ => 30 + 5 * k ≤ s.srclen) (parseTable k s) := by
  simp only [parseTable, Config.hdrSize, Config.entrySize]
  split_ifs with hk hl
  · trivial
  · trivial
  · refine Answers.mono (answers_parseLoop ?_) fun _ _ => Nat.le_of_not_lt hl
    exact hr.sub (b := s.src + 30) (k := 5 * k) (by omega) (by omega)

/-- A payload that check_payload_extent accepts ends the source, and holds L bits. -/
theorem answers_checkPayloadExtent (k cs pad : Nat) (s : State) :
    Answers (fun len => s.srclen = 30 + 5 * k + cs ∧ len ≤ 8 * cs) (checkPayloadExtent k cs pad s) := by
  rw [checkPayloadExtent_eq]
  split_ifs with hshort hlong hpad
  · trivial
  · trivial
  · trivial
  · exact ⟨by omega, Nat.sub_le _ _⟩

theorem answers_emitOutput {s : State} {base len orig : Nat} {w : Work} (hm : s.mem.wf)
    (hacc : Reachable s.par base ((len + 7) / 8)) (hdst : Reachable s.par s.dst orig)
    (hdis : ∀ x, base ≤ x → x < base + (len + 7) / 8 → x < s.dst ∨ s.dst + orig ≤ x)
    (hv : buildTree w = .ok s.work) (hroot : s.work.root = none → orig = 0) :
    Answers (fun _ => True) (emitOutput base len orig s) := by
  obtain ⟨out, w', -, ⟨h, -⟩ | ⟨d, -, h⟩⟩ := emitOutput_ends hm hacc hdst hdis hv hroot
  · rw [h]
    trivial
  · rw [h]
    trivial

theorem answers_verifyOutput (out : List Byte) (crc : Word32) (orig : Nat) (s : State) :
    Answers (fun _ => True) (verifyOutput out crc orig s) := by
  rw [verifyOutput_eq]
  dsimp only
  split_ifs <;> trivial

theorem onWork_buildTree (s : State) :
    ∃ w, buildTree s.work = .ok w ∧ onWork buildTree s = .ok (s.setWork w) :=
  ⟨_, buildTree_ref s.work, onWork_eq_ok.2 ⟨_, buildTree_ref s.work, rfl⟩⟩

/-- R300 from the header on: each check raises or gives what the next operation needs. -/
theorem answers_decodeContainer {s : State} (hm : s.mem.wf) (hb : buffersOk s)
    (hsrc : Reachable s.par s.src s.srclen) (hdst : Reachable s.par s.dst s.cap) (hlen : 30 ≤ s.srclen) :
    Answers (fun _ => True) (decodeContainer s) := by
  rw [decodeContainer, readHeader_eq (hsrc.sub le_rfl (by omega)), ok_bind]
  generalize Header.ofBytes (s.mem.readRange s.src 30) = h
  have ht : WritesIn 0 s (s.setRegs (setHeaderRegs h s.regs)) := WritesIn.refl.of_eq rfl rfl rfl
  generalize s.setRegs (setHeaderRegs h s.regs) = t at ht
  have htable := answers_parseTable (s := t) h.entryCount.toNat (by rwa [ht.par, ht.src, ht.srclen])
  refine (answers_headerCheck h t).bind fun _ _ _ =>
    (htable.and_post (writes_parseTable _ ht)).bind fun u _ ⟨hk, hu⟩ =>
    (answers_checkPayloadExtent _ _ _ u).bind fun len _ ⟨hext, hbits⟩ => ?_
  obtain ⟨v, hv, hon⟩ := onWork_buildTree u
  rw [hon, ok_bind]
  split_ifs with hempty hcap
  · trivial
  · trivial
  · simp only [State.setWork_work, State.setWork_cap, State.setWork_src, Config.hdrSize,
      Config.entrySize, hu.cap, hu.src, hu.srclen] at hempty hcap hext ⊢
    obtain ⟨-, hsrcEnd, -, hdstEnd, hapart⟩ := hb
    refine (answers_emitOutput (s := u.setWork v) (hu.wf hm) ?_ ?_ ?_ hv ?_).bind fun p _ _ =>
      (answers_verifyOutput ..).bind fun _ _ _ => trivial
    · rw [State.setWork_par, hu.par]
      exact hsrc.sub (by omega) (by omega)
    · rw [State.setWork_par, hu.par, State.setWork_dst, hu.dst]
      exact hdst.sub le_rfl (by omega)
    · rw [State.setWork_dst, hu.dst]
      omega
    · intro hroot
      by_contra horig
      exact hempty ⟨hroot, horig⟩

theorem answers_decodeCommand {s : State} (hm : s.mem.wf)
    (hback : buffersOk s → Reachable s.par s.src s.srclen ∧ Reachable s.par s.dst s.cap) :
    Answers (fun _ => True) (decodeCommand s) := by
  refine answers_checks fun hb => ?_
  obtain ⟨hsrc, hdst⟩ := hback hb
  split_ifs with hlen
  · trivial
  · exact answers_decodeContainer hm hb hsrc hdst (Nat.le_of_not_lt hlen)

/-! ### NOP and illegal words -/

theorem legal_illegalDetail (w : Word64) : Err.legal ⟨.illegalCmd, illegalDetail w⟩ := by
  rw [Err.legal, statusError_illegalDetail]
  split_ifs <;> decide

/-- Settles O55: ENCODE and DECODE neither stick nor fault (`answers_encodeCommand`,
`answers_decodeCommand`), so they end (`Answers.ends`); NOP and an illegal word end at once. -/
theorem everyCommandEnds : Obligations.EveryCommandEnds := by
  intro s c hm hback
  rcases decodeWord_cases c with hc | hc | hc | ⟨k, hc⟩ <;> rw [hc]
  · exact ⟨_, rfl, ended_raiseEnd (legal_illegalDetail c) clearNothing s⟩
  · exact ⟨_, rfl, ended_endCommand s (by decide)⟩
  · exact (answers_encodeCommand hm hback).ends (keeps_encodeCommand s) clearEncode
  · exact (answers_decodeCommand (s := s.setVerify (!k)) hm hback).ends (keeps_decodeCommand _) clearDecode

end Sys2Proof.Machine

/-! ## The round trip (R314) -/

namespace Sys2Proof.Machine

/-! ### What ENCODE's success leaves -/

/-- The header of the container that ENCODE writes for its source, whose table has `k` entries and whose
payload has `n` bits (R270). -/
def containerHeader (s : State) (k n : Nat) : Header :=
  ⟨s.par.magic, 1, s.latch.srclen, BitVec.ofNat 64 ((n + 7) / 8), refCrc32 (sourceBytes s),
    BitVec.ofNat 16 k, BitVec.ofNat 8 ((8 - n % 8) % 8), 0⟩

/-- The container at `dst` is the one of the source's counts, codes and bits: a success means that there was
room (R268). -/
theorem encode_success {s t : State} (hm : s.mem.wf) (hb : buffersOk s)
    (hsrc : Reachable s.par s.src s.srclen) (hfit : ∀ b, (sourceBytes s).count b < 2 ^ 32)
    (hdst : Reachable s.par s.dst s.cap) (ht : exec .encode s = .next t) (hstatus : t.regs.status = 0x2) :
    ∃ freq code bits size, Counts freq (sourceBytes s) ∧ isCodeTable freq code ∧
      bits = messageBits code (sourceBytes s) ∧
      size = 30 + 5 * (counted freq).length + (bits.length + 7) / 8 ∧ size ≤ s.cap ∧
      t.regs.resultLen.toNat = size ∧ t.mem.readRange s.dst size =
        refContainer (containerHeader s (counted freq).length bits.length) freq bits := by
  obtain ⟨freq, code, _, hcounts, htable, -, rfl, -, hend⟩ := encodeWritesContainer s hm hb hsrc hfit
  have hcap64 : s.cap < 2 ^ 64 := s.latch.cap.isLt
  rw [refLeaves_length] at hend
  rcases Nat.lt_or_ge s.cap (30 + 5 * (counted freq).length +
    ((messageBits code (sourceBytes s)).length + 7) / 8) with hcap | hcap
  · rw [← refLeaves_length] at hcap
    obtain ⟨w, hw⟩ := encodeCommand_resource hb hsrc hcounts htable hcap
    cases (exec_encode_raised hw).symm.trans ht
    exact absurd hstatus (show statusError ⟨.resource, 1⟩ ≠ 0x2 by decide)
  · obtain ⟨hlen, w, hw⟩ := hend _ _ _ rfl rfl rfl hcap (hdst.sub le_rfl (by omega))
    cases hw.symm.trans ht
    refine ⟨freq, code, _, _, hcounts, htable, rfl, rfl, hcap, ?_, ?_⟩
    · rw [endState_regs, reportRegs_resultLen, BitVec.toNat_ofNat, Nat.mod_eq_of_lt (by omega)]
    · rw [endState_mem]
      conv_lhs => rw [← hlen]
      exact Memory.readRange_writeRange hm

/-! ### What DECODE reads in it -/

/-- The sizes that the header of a container gives are those of its parts. -/
theorem containerHeader_sizes {s : State} {k n : Nat} (hk : k ≤ 256) (hn : (n + 7) / 8 < 2 ^ 64) :
    (containerHeader s k n).entryCount.toNat = k ∧
    (containerHeader s k n).compressedSize.toNat = (n + 7) / 8 ∧
    (containerHeader s k n).paddingBits.toNat = (8 - n % 8) % 8 := by
  simp only [containerHeader, BitVec.toNat_ofNat]
  refine ⟨Nat.mod_eq_of_lt (by omega), Nat.mod_eq_of_lt hn, Nat.mod_eq_of_lt (by omega)⟩

/-- A source that holds the container passes every check up to the tree (R301 to R307). -/
theorem containerOk_of_container {s u : State} {freq : Table Word32} {bits : Bits}
    (hread : sourceBytes u =
      refContainer (containerHeader s (counted freq).length bits.length) freq bits)
    (hmagic : u.par.magic = s.par.magic) (hn : (bits.length + 7) / 8 < 2 ^ 64) :
    containerOk u ∧ sourceHeader u = containerHeader s (counted freq).length bits.length ∧
      sourceEntries u = counted freq ∧ sourceStream u = bits := by
  have hk := counted_length freq
  obtain ⟨hentries, hsize, hpad⟩ := containerHeader_sizes (s := s) hk hn
  obtain ⟨hh, he, hs, hlen⟩ := container_read hread hentries (by omega)
  refine ⟨?_, hh, he, hs⟩
  rw [containerOk, he, hh]
  refine ⟨by omega, hmagic.symm, rfl, by omega, by omega, by omega, tableOk_counted freq, fun hzero => ?_⟩
  have hempty : (bits.length + 7) / 8 = 0 := hsize.symm.trans (congrArg BitVec.toNat hzero)
  exact BitVec.eq_of_toNat_eq (hpad.trans (show (8 - bits.length % 8) % 8 = 0 by omega))

/-! ### What DECODE emits -/

/-- A counted byte has an entry. -/
theorem Counts.mem_counted {freq : Table Word32} {bs : List Byte} (hf : Counts freq bs) {b : Byte}
    (hb : b ∈ bs) : (b, tget freq b) ∈ counted freq := by
  refine Machine.mem_counted.2 ⟨rfl, fun h0 => ?_⟩
  have hcount := hf b
  rw [h0] at hcount
  exact (List.count_pos_iff.2 hb).ne hcount

/-- DECODE of the table and the bits of a message emits the message: nothing from no entry, the one symbol from
one, and the walk's symbols from more. -/
theorem emits_message {u : State} {skip : Bool} {freq : Table Word32} {code : Table (Option Bits)}
    {out : List Byte} (hm : u.mem.wf) (hb : buffersOk u) (hsrc : Reachable u.par u.src u.srclen)
    (hc : containerOk u) (he : sourceEntries u = counted freq) (hf : Counts freq out)
    (hct : isCodeTable freq code) (hs : sourceStream u = messageBits code out)
    (hlen : out.length = (sourceHeader u).originalSize.toNat) (hcap : out.length ≤ u.cap)
    (hdst : Reachable u.par u.dst out.length) : Emits skip u out := by
  rw [hlen] at hcap hdst
  match hes : counted freq with
  | [] =>
    have hnil : out = [] := List.eq_nil_iff_forall_not_mem.2 fun b hb' => by
      simpa [hes] using hf.mem_counted hb'
    exact emits_withoutWalk hb hsrc hc hcap hdst hlen (.inl ⟨he.trans hes, hnil⟩)
  | [e] =>
    have hone : out = List.replicate out.length e.1 := List.eq_replicate_of_mem fun b hb' => by
      have hmem := hf.mem_counted hb'
      rw [hes, List.mem_singleton] at hmem
      exact congrArg Prod.fst hmem
    exact emits_withoutWalk hb hsrc hc hcap hdst hlen (.inr ⟨e, he.trans hes, hone⟩)
  | _ :: _ :: _ =>
    have htab : IsTableOf freq (sourceEntries u) := he ▸ isTableOf_counted freq
    exact emits_walk hb hsrc hc hcap hdst hm htab (by simp [he, hes]) hct (coded_of_counts hf hct) hs hlen

/-- Settles O50: `encode_success` says what the container holds, `containerOk_of_container` that DECODE accepts
it, and `emits_message` that it gives the source back, whose checksum is the header's. -/
theorem roundTrip : Obligations.RoundTrip := by
  intro s t u skip hm hb hsrc hfit hdst ht hstatus hum hub husrc hmagic _ hread hcap hudst
  obtain ⟨freq, code, bits, size, hcounts, htable, hbits, hsize, hroom, hresult, hmem⟩ :=
    encode_success hm hb hsrc hfit hdst ht hstatus
  have hcap64 : s.cap < 2 ^ 64 := s.latch.cap.isLt
  rw [hresult, hmem] at hread
  obtain ⟨hc, hh, he, hs⟩ := containerOk_of_container hread hmagic (by omega)
  have hlen : (sourceBytes s).length = s.srclen := Memory.readRange_length ..
  have hemits : Emits skip u (sourceBytes s) := emits_message hum hub husrc hc he hcounts htable
    (hs.trans hbits) (by rw [hh, hlen]; rfl) (by rwa [hlen]) (by rwa [hlen])
  obtain ⟨w, hw⟩ := hemits.completes (.inr (by rw [hh]; rfl))
  refine ⟨_, hw, rfl, ?_, ?_, fun x hx => ?_⟩
  · rw [hh]
    rfl
  · conv_lhs => rw [← hlen]
    exact Memory.readRange_writeRange hum
  · exact Memory.read_writeRange_outside hum (by rwa [hlen])

end Sys2Proof.Machine
